-- ==== Sys2Proof/Word.lean ====
section
/-!
DEFINITION. The word types of the D4, the table type every store of the machine is held in
(registers, memory, contexts, ...), the operands of a decoded instruction and the few records that
events carry. Only plain data and its plainest arithmetic: everything a test could show wrong
stands in Decode.lean or under Machine/.
-/

namespace Sys2Proof

abbrev Byte := BitVec 8
abbrev Word := BitVec 32
abbrev DWord := BitVec 64
/-- One bit a lane (GWIDTH is 64 on the D4, R1). -/
abbrev Mask := BitVec 64

/-- A table from numbers to values. A number that is not listed reads as `default`. In the one
canonical form the numbers rise strictly and no listed value is `default`. -/
abbrev Tbl (α : Type) := List (Nat × α)

/-- The value a table holds for `k`. -/
def Tbl.at [Inhabited α] : Tbl α → Nat → α
  | [], _ => default
  | (b, x) :: t, k => if b = k then x else Tbl.at t k

/-- The table without its entry for `k`. -/
def Tbl.drop : Tbl α → Nat → Tbl α
  | [], _ => []
  | (b, x) :: t, k => if b = k then Tbl.drop t k else (b, x) :: Tbl.drop t k

/-- Lists `(k, v)` before the first larger number. -/
def Tbl.insert : Tbl α → Nat → α → Tbl α
  | [], k, v => [(k, v)]
  | (b, x) :: t, k, v => if k < b then (k, v) :: (b, x) :: t else (b, x) :: Tbl.insert t k v

/-- The table with `v` for `k`; writing `default` removes the entry. -/
def Tbl.put [Inhabited α] [DecidableEq α] (t : Tbl α) (k : Nat) (v : α) : Tbl α :=
  if v = default then Tbl.drop t k else Tbl.insert (Tbl.drop t k) k v

/-- The numbers rise strictly from above `lo`, and no value is `default`. -/
def Tbl.wfFrom [Inhabited α] [DecidableEq α] : Option Nat → Tbl α → Bool
  | _, [] => true
  | lo, (b, x) :: t =>
    (match lo with | none => true | some l => decide (l < b)) && decide (x ≠ default)
      && Tbl.wfFrom (some b) t

/-- The canonical form. -/
def Tbl.wf [Inhabited α] [DecidableEq α] (t : Tbl α) : Bool := Tbl.wfFrom none t

/-- The length of an instruction (R340). -/
inductive Len where
  | w1 | w2 | w3
  deriving DecidableEq, Repr, Inhabited

/-- An operand as its field names it (R345 to R347): a register of one of the nine kinds, a short
immediate, the literal of a 96-bit form, or a control byte. `none` is an absent field. -/
inductive Opd where
  | none
  | v (n : BitVec 8)
  | s (n : BitVec 8)
  | p (n : BitVec 8)
  | x (n : BitVec 8)
  | f (n : BitVec 8)
  | j (n : BitVec 8)
  | b (n : BitVec 8)
  | t (n : BitVec 8)
  | a (n : BitVec 8)
  | imm (i : BitVec 7)
  | lit (w : Word)
  | ctl (c : BitVec 8)
  deriving DecidableEq, Repr, Inhabited

/-- What every instruction other than a CLAUSE header carries (R342, R343): its length, predicate,
operands, cache hint, flag set and modifier byte. -/
structure Body where
  len  : Len := .w1
  pred : BitVec 3 := 0
  pneg : Bool := false
  dst  : Opd := .none
  a    : Opd := .none
  b    : Opd := .none
  c    : Opd := .none
  hint : BitVec 2 := 0
  fset : BitVec 4 := 15
  md   : BitVec 8 := 0
  deriving DecidableEq, Repr, Inhabited

/-- A fabric flit as far as the receiver acts on it (R308): type, source, destination, destination
context, the type-specific word, and the payload. -/
structure Flit where
  typ  : BitVec 8 := 0
  dst  : Nat := 0
  src  : Nat := 0
  ctx  : Nat := 0
  info : DWord := 0
  data : List Byte := []
  deriving DecidableEq, Repr, Inhabited

end Sys2Proof
end

