-- ==== Sys2Proof/Machine/Bits.lean ====
section
/-!
DEFINITION. Bit-field, sign-extension and byte-order helpers (R3, R362, R364), on numbers and words.
-/

namespace Sys2Proof.Machine

/-- Bits hi down to lo of a number. -/
def bits (x hi lo : Nat) : Nat := x / 2 ^ lo % 2 ^ (hi + 1 - lo)

def bit1 (x i : Nat) : Bool := decide (x / 2 ^ i % 2 = 1)

/-- `n` little-endian bytes of a number (R3). -/
def leBytes : Nat → Nat → List Byte
  | 0, _ => []
  | n + 1, w => BitVec.ofNat 8 w :: leBytes n (w / 256)

/-- The number a little-endian byte string holds (R3). -/
def ofLe : List Byte → Nat
  | [] => 0
  | b :: r => b.toNat + 256 * ofLe r

def zeros (n : Nat) : List Byte := List.replicate n 0

/-- `n` bytes of a list from offset `o`, and the number they hold. -/
def sub (l : List Byte) (o n : Nat) : List Byte := (l.drop o).take n
def fieldOf (l : List Byte) (o n : Nat) : Nat := ofLe (sub l o n)

/-- A byte string padded or cut to `n` bytes. -/
def padTo (n : Nat) (l : List Byte) : List Byte := (l ++ zeros (n - l.length)).take n

/-- The signed value of the low `w` bits of a number. -/
def toS (w x : Nat) : Int :=
  let y := x % 2 ^ w
  if y < 2 ^ (w - 1) then (y : Int) else (y : Int) - (2 ^ w : Nat)

/-- `wrap(x, w)` as the number the w bits hold. -/
def wrapN (w : Nat) (x : Int) : Nat := (x % ((2 ^ w : Nat) : Int)).toNat

/-- `sat_s` and `sat_u` (R95), as bits. -/
def satS (w : Nat) (x : Int) : Nat :=
  let m : Int := ((2 ^ (w - 1) : Nat) : Int)
  wrapN w (if x < -m then -m else if x > m - 1 then m - 1 else x)
def satU (w : Nat) (x : Int) : Nat :=
  let m : Int := ((2 ^ w : Nat) : Int)
  (if x < 0 then 0 else if x > m - 1 then m - 1 else x).toNat

/-- The lanes 0 to 63. -/
def lanes64 : List Nat := List.range 64

/-- The lanes a mask holds, ascending. -/
def lanesOf (m : Mask) : List Nat := lanes64.filter (fun l => m.getLsbD l)

/-- The mask of the lanes a predicate holds of. -/
def maskOf (f : Nat → Bool) : Mask :=
  lanes64.foldl (fun m l => if f l then m ||| (1#64 <<< l) else m) 0#64

def laneBit (l : Nat) : Mask := 1#64 <<< l

def popc (x : Nat) : Nat → Nat
  | 0 => 0
  | n + 1 => x / 2 ^ n % 2 + popc x n

/-- Bits needed to write a number: 0 for 0. -/
def bitLen (x : Nat) : Nat := if x = 0 then 0 else Nat.log2 x + 1

def roundUp (x m : Nat) : Nat := (x + m - 1) / m * m

/-- A table with every listed value replaced by a function of it, in the canonical form. -/
def mapV [Inhabited α] [DecidableEq α] (f : Nat → α → α) (t : Tbl α) : Tbl α :=
  t.foldr (fun p u => u.put p.1 (f p.1 p.2)) []

/-- Replaces the element at an index. -/
def setAt (l : List α) (i : Nat) (x : α) : List α := l.set i x

/-- A bit vector of `w` bits from a number. -/
abbrev bv (w x : Nat) : BitVec w := BitVec.ofNat w x

end Sys2Proof.Machine
end

