-- ==== Sys2Proof/Config.lean ====
section
/-!
DEFINITION. What the D4 fixes (the counts, sizes and codes of its chapters) and the free values: the
constants without a body, of which nothing can be proved, for what the spec leaves open.
-/

namespace Sys2Proof.Config

/-- Lanes of a group on the D4 (R1, R86). -/
def gwidth : Nat := 64
/-- Clusters, cores, slices, channels and second-tier ranges of the module (R9, R275). -/
def clusters : Nat := 80
def cores : Nat := 160
def slices : Nat := 192
def channels : Nat := 256
def ranges : Nat := 1536
def partitions : Nat := 40
/-- Capacity rows of R49: team slots, group slots, registers (bytes), named barriers of a core; steer
slots, tile registers, accumulators of a cluster. -/
def teamSlots : Nat := 16
def groupSlots : Nat := 64
def regFile : Nat := 0x100000
def coreBars : Nat := 64
def steerSlots : Nat := 16
def poolTiles : Nat := 64
def poolAccs : Nat := 32
/-- The largest scratchpad share (R50). -/
def maxShare : Nat := 458752
/-- Bytes of HBM4E a channel adds to its partition (R276): 2.5 GiB. -/
def channelBytes : Nat := 2684354560
/-- Bytes of one LPDDR6 range (R275): 1 GiB. -/
def rangeBytes : Nat := 1073741824
/-- Entries of a core's Eddy queue (R142), of a steer thread's matrix queue (R192), of a partition's
Sluice queue (R283), of a core's partials in lines (R135), miss-status entries (R132). -/
def eddyEntries : Nat := 64
def matrixEntries : Nat := 32
def sluiceJobs : Nat := 32
def partialLines : Nat := 128
def missEntries : Nat := 256
/-- Confluence slots (R9) and arrived-tile queue entries (R318). -/
def slots : Nat := 64
def tileQueue : Nat := 256
/-- The L2 slice of 4 MiB, of 16 ways of 128-byte lines (R9), and the core's SRAM of 512 KiB, whose L1 has 8 ways
(R128); the LAST lines a set of each holds (R138). -/
def l2Sets : Nat := 2048
def l2Ways : Nat := 16
def coreSram : Nat := 0x80000
def l1Ways : Nat := 8
def l2Last : Nat := 12
def l1Last : Nat := 6
/-- Translations cached by a core and by a die (R143). -/
def coreXlats : Nat := 2048
def dieXlats : Nat := 32768
/-- Nominal die clock in MHz (R10). -/
def nominalMhz : Nat := 3300

/-- Headwater memory is [0, 2^32) in the model: the spec gives it no size (R303; log 6). -/
def hwBytes : Nat := 2 ^ 32

/-! Free values (no body: nothing is known of them). -/

/-- Which of the 16 entries of a 64 KiB page that are not identical translates an address (R468). -/
opaque unequalC64 (tick entry : Nat) : Nat
/-- Whether an element of an overlapping copy reads a value an earlier element wrote (R458). -/
opaque overlapSeesNew (tick copy unit : Nat) : Bool
/-- Which cached translation an access uses, of those that differ from the tables and permit it: 0 none (R143). -/
opaque cachedXlat (tick page : Nat) : Nat
/-- Which old word of changed code, of those cached, a fetch gives: 0 none (R361). -/
opaque oldWord (tick address : Nat) : Nat
/-- The key the entropy source gives to GENERATE MEM (R295). -/
opaque entropyKey : Nat → BitVec 256
/-- SHA3-256 of a byte string (R14, R297); the algorithm stands in no file of the spec. -/
opaque sha3 : List Byte → BitVec 256
/-- Whether an ML-DSA-44 signature over a measurement verifies (R14). -/
opaque mldsaVerify : BitVec 256 → List Byte → Bool
/-- The ML-DSA-44 signature of a digest under the device key (R297). -/
opaque mldsaSign : BitVec 256 → List Byte
/-- Whether the GCM tag of an import block verifies under the session key (R295). -/
opaque gcmTagOk : BitVec 256 → BitVec 128 → Bool
/-- AES-256-GCM ciphertext of byte `n` of a text under a key (R294, R298). -/
opaque cipher : BitVec 256 → Nat → Byte → Byte
/-- What a byte of a page that a confidential context left behind reads as: ciphertext (R296). -/
opaque leftCipher (tick address : Nat) : Byte
/-- Where the management region lies in Headwater's address space (R303). -/
opaque mgmtBase : Nat
/-- How far the array has come in a team's operation when a capture-mode stop takes it (R211, R214). -/
opaque haltPoint (tick team : Nat) : Nat

/-- Flits that a module's Delta buffers for stopped contexts before the link holds further ones (R267); the spec gives no
number (DESIGN CHOICE, log 96). -/
def deltaBuffer : Nat := 256

/-- CRC-64 of a flit's bytes (R308); the spec gives no polynomial (log 95). -/
opaque crc64 : List Byte → BitVec 64

end Sys2Proof.Config
end

