-- ==== Sys2Proof/Syntax.lean ====
section
/-!
DEFINITION. The instruction set as one inductive: one constructor for each row of the opcode table,
each with its row's mnemonic and rule in its docstring. The 124 opcodes carry a `Body` (R342, R343),
the CLAUSE header its count and wait mask (R355). The other rows are the part's operations and events,
which have no encoding: they carry what the outside or the part itself fixes when they occur.
-/

namespace Sys2Proof

inductive Instr where
  /-- MODULE_RESET, R15. -/
  | moduleReset
  /-- VERIFY, R14. -/
  | verify
  /-- SUPERVISOR, R17. -/
  | supervisor (trained : Bool) (good : BitVec 80)
  /-- BOOT_SCRUB, R15. -/
  | bootScrub
  /-- FABRIC, R15. -/
  | fabric (ports : BitVec 16)
  /-- LOAD, R18. -/
  | load (v : Word)
  /-- STAGING_WINDOW_WRITE, R18. -/
  | stagingWindowWrite (off : Nat) (v : Word)
  /-- VERSION_COUNTER_RAISE, R14. -/
  | versionCounterRaise (v : BitVec 16) (signed : Bool)
  /-- THERMAL_THROTTLE, R13. -/
  | thermalThrottle (die mhz junction : Nat)
  /-- THERMAL_TRIP, R13. -/
  | thermalTrip (die junction : Nat)
  /-- POWER_ENVELOPE_THROTTLE, R12. -/
  | powerEnvelopeThrottle (die mhz watts : Nat)
  /-- FREQUENCY_CHANGE, R11. -/
  | frequencyChange (die mhz : Nat)
  /-- KICK, R291. -/
  | kick (vd q : Nat) (tail : Word)
  /-- LAUNCH, R321. -/
  | launch (vd q : Nat)
  /-- FENCE_COMMAND, R321. -/
  | fenceCommand (vd q : Nat)
  /-- TEAM_PLACEMENT, R51. -/
  | teamPlacement (part : Nat)
  /-- CORESIDENT_PLACEMENT, R53. -/
  | coresidentPlacement (part : Nat)
  /-- SKIP_LIMIT, R52. -/
  | skipLimit (grid : Nat)
  /-- GENERATION_CLEAR, R180. -/
  | generationClear (ctx gen : Nat)
  /-- GROUP_END, R70. -/
  | groupEnd (g : Nat)
  /-- TEAM_END, R71. -/
  | teamEnd (tm : Nat)
  /-- GRID_END, R72. -/
  | gridEnd (grid : Nat)
  /-- FORMATION_POINT, R56. -/
  | formationPoint (g : Nat)
  /-- DROWSY, R91. -/
  | drowsy (g : Nat)
  /-- TALLOC_REQUEST, R65. -/
  | tallocRequest (g : Nat) (v : Word)
  /-- TALLOC_BLOCKING_REQUEST, R66. -/
  | tallocBlockingRequest (g : Nat) (v : Word)
  /-- TALLOC_RELEASE, R65. -/
  | tallocRelease (g : Nat) (v : Word)
  /-- TALLOC_GRANT, R66. -/
  | tallocGrant (cluster : Nat)
  /-- TALLOC_AGE_LIMIT, R66. -/
  | tallocAgeLimit (cluster : Nat)
  /-- FILL, R132. -/
  | fill (core line : Nat)
  /-- PARTITION_STAGE_FAULT, R145. -/
  | partitionStageFault (g : Nat)
  /-- DEFERRED_FAULT_DELIVERY, R238. -/
  | deferredFaultDelivery (g : Nat)
  /-- TRANSIENT_ABORT, R172. -/
  | transientAbort (g : Nat)
  /-- REGION_STOP_LIMIT, R172. -/
  | regionStopLimit (g : Nat)
  /-- COPY_COMPLETION, R142. -/
  | copyCompletion (core i : Nat)
  /-- ARRIVED_TILE_PUSH, R318. -/
  | arrivedTilePush (inst rank : Nat)
  /-- STAGING, R198. -/
  | staging (tm : Nat)
  /-- ADMISSION, R197. -/
  | admission (cluster : Nat)
  /-- MATRIX_COMPLETION, R209. -/
  | matrixCompletion (cluster mismatches row col : Nat)
  /-- SLOT_ROTATION, R196. -/
  | slotRotation
  /-- REGISTER_WRITE, R88. -/
  | registerWrite (g idx : Nat) (v : Word)
  /-- TIMERCTL, R262. -/
  | timerctl (g : Nat) (v : Word)
  /-- CNTSEL, R329. -/
  | cntsel (g n : Nat) (v : Word)
  /-- GTIME_READ, R271. -/
  | gtimeRead (off : Nat)
  /-- STOP_DRAIN, R247. -/
  | stopDrain (ctx : Nat)
  /-- STOP_CAPTURE, R247. -/
  | stopCapture (ctx : Nat)
  /-- RESUME, R253. -/
  | resume (ctx : Nat)
  /-- KILL, R249. -/
  | kill (ctx : Nat)
  /-- STOP_ACKNOWLEDGEMENT, R247. -/
  | stopAcknowledgement (ctx engine : Nat)
  /-- DRAINMAX, R248. -/
  | drainmax (ctx : Nat)
  /-- SAVE_IMAGE, R249. -/
  | saveImage (ctx : Nat)
  /-- STOP_REPORT, R254. -/
  | stopReport (ctx : Nat)
  /-- RELEASE, R258. -/
  | release (ctx : Nat)
  /-- SINGLE_STEP, R338. -/
  | singleStep (ctx : Nat)
  /-- STEP_TIMEOUT, R338. -/
  | stepTimeout (ctx : Nat)
  /-- RSTOP, R339. -/
  | rstop (ctx : Nat)
  /-- SOFT_ERROR, R255. -/
  | softError (unit idx : Nat)
  /-- UNCORRECTABLE_ERROR, R255. -/
  | uncorrectableError (unit idx : Nat)
  /-- CLEARING, R282. -/
  | clearing (part kind idx : Nat)
  /-- CLUSTER_RETIRE, R288. -/
  | clusterRetire (cluster : Nat)
  /-- TIMER_EXPIRY, R263. -/
  | timerExpiry (g : Nat)
  /-- SLEEP_END, R264. -/
  | sleepEnd (g : Nat)
  /-- WAITF_TIMEOUT, R463. -/
  | waitfTimeout (g : Nat)
  /-- QPOP_TIMEOUT, R319. -/
  | qpopTimeout (g : Nat)
  /-- PROMISE_EXPIRY, R464. -/
  | promiseExpiry (g : Nat)
  /-- WATCHDOG, R270. -/
  | watchdog (g : Nat)
  /-- RESIDENCY_NOTICE, R268. -/
  | residencyNotice (ctx gid rank : Nat) (resident : Bool)
  /-- NOTICE_TIMEOUT, R268. -/
  | noticeTimeout (ctx member : Nat)
  /-- DEPARTURE_NOTICE, R256. -/
  | departureNotice (ctx gid rank : Nat)
  /-- WRITE, R309. -/
  | write (fl : Flit)
  /-- READ, R309. -/
  | read (fl : Flit)
  /-- REPLY, R309. -/
  | reply (fl : Flit)
  /-- ACK, R309. -/
  | ack (fl : Flit)
  /-- CONTRIB, R317. -/
  | contrib (fl : Flit)
  /-- RESULT, R317. -/
  | result (fl : Flit)
  /-- SLOT_REQUEST, R316. -/
  | slotRequest (ctx gid : Nat)
  /-- SLOT_DECISION, R316. -/
  | slotDecision
  /-- NAK, R310. -/
  | nak (port : Nat)
  /-- HOST_WRITE, R267. -/
  | hostWrite (ctx : Nat) (addr : DWord) (data : List Byte)
  /-- ACTIVATE, R279. -/
  | activate (part : Nat)
  /-- REFRESH, R279. -/
  | refresh (part : Nat)
  /-- RESET, R256. -/
  | reset (part : Nat)
  /-- DEACTIVATE, R279. -/
  | deactivate (part : Nat)
  /-- GENERATE_MEM, R295. -/
  | generateMem (slot : Nat)
  /-- IMPORT_REPORT, R295. -/
  | importReport (slot : Nat) (key : BitVec 256) (tag : BitVec 128)
  /-- KEYSLOT_BIND, R295. -/
  | keyslotBind (slot ctx : Nat)
  /-- VD_BIND, R290. -/
  | vdBind (vd ctx : Nat)
  /-- VD_UNBIND, R290. -/
  | vdUnbind (vd : Nat)
  /-- WEIR_WINDOW, R293. -/
  | weirWindow
  /-- SLUICE_PAGE, R283. -/
  | sluicePage (part : Nat)
  /-- ENERGY_METER_WINDOW, R299. -/
  | energyMeterWindow (part : Nat) (units : List (Nat × List (Nat × Nat)))
  /-- ATTESTATION_REPORT, R297. -/
  | attestationReport (ctx : Nat) (nonce : BitVec 256)
  /-- SAMPLE, R331. -/
  | sample (core : Nat)
  /-- SYNC, R335. -/
  | sync (core : Nat)
  /-- CLAUSE, R356. -/
  | clause (n : BitVec 4) (wait : BitVec 12)
  /-- NOP, R430. -/
  | nop (o : Body)
  /-- BRA, R384. -/
  | bra (o : Body)
  /-- BRX, R386. -/
  | brx (o : Body)
  /-- CALL, R387. -/
  | call (o : Body)
  /-- RET, R444. -/
  | ret (o : Body)
  /-- EXIT, R404. -/
  | exit (o : Body)
  /-- JOINSET, R416. -/
  | joinset (o : Body)
  /-- JOIN, R415. -/
  | join (o : Body)
  /-- YIELD, R466. -/
  | yield (o : Body)
  /-- SLEEP, R451. -/
  | sleep (o : Body)
  /-- TRAP, R460. -/
  | trap (o : Body)
  /-- BKPT, R381. -/
  | bkpt (o : Body)
  /-- ERET, R403. -/
  | eret (o : Body)
  /-- BAR, R378. -/
  | bar (o : Body)
  /-- FENCE, R411. -/
  | fence (o : Body)
  /-- QFENCE, R438. -/
  | qfence (o : Body)
  /-- WAITF, R463. -/
  | waitf (o : Body)
  /-- SETX, R448. -/
  | setx (o : Body)
  /-- LDX, R423. -/
  | ldx (o : Body)
  /-- STX, R449. -/
  | stx (o : Body)
  /-- INCX, R414. -/
  | incx (o : Body)
  /-- ABS, R368. -/
  | abs (o : Body)
  /-- ADD, R369. -/
  | add (o : Body)
  /-- AND, R370. -/
  | and (o : Body)
  /-- BFE, R379. -/
  | bfe (o : Body)
  /-- BFI, R380. -/
  | bfi (o : Body)
  /-- BREV, R385. -/
  | brev (o : Body)
  /-- CLZ, R393. -/
  | clz (o : Body)
  /-- CMP, R394. -/
  | cmp (o : Body)
  /-- LEA, R424. -/
  | lea (o : Body)
  /-- MAD, R424. -/
  | mad (o : Body)
  /-- MAX, R424. -/
  | max (o : Body)
  /-- MIN, R424. -/
  | min (o : Body)
  /-- MOV, R424. -/
  | mov (o : Body)
  /-- MUL, R424. -/
  | mul (o : Body)
  /-- MULH, R424. -/
  | mulh (o : Body)
  /-- NOT, R424. -/
  | not (o : Body)
  /-- OR, R424. -/
  | or (o : Body)
  /-- PERM, R432. -/
  | perm (o : Body)
  /-- POPC, R424. -/
  | popc (o : Body)
  /-- SEL, R447. -/
  | sel (o : Body)
  /-- SHL, R447. -/
  | shl (o : Body)
  /-- SHR, R447. -/
  | shr (o : Body)
  /-- SRA, R447. -/
  | sra (o : Body)
  /-- SUB, R447. -/
  | sub (o : Body)
  /-- XOR, R447. -/
  | xor (o : Body)
  /-- FADD, R406. -/
  | fadd (o : Body)
  /-- FSUB, R406. -/
  | fsub (o : Body)
  /-- FMUL, R406. -/
  | fmul (o : Body)
  /-- FFMA, R406. -/
  | ffma (o : Body)
  /-- FMIN, R406. -/
  | fmin (o : Body)
  /-- FMAX, R406. -/
  | fmax (o : Body)
  /-- FCMP, R408. -/
  | fcmp (o : Body)
  /-- FCLASS, R407. -/
  | fclass (o : Body)
  /-- FRND, R412. -/
  | frnd (o : Body)
  /-- FRCP, R409. -/
  | frcp (o : Body)
  /-- FRSQ, R409. -/
  | frsq (o : Body)
  /-- FSQRT, R409. -/
  | fsqrt (o : Body)
  /-- FEXP2, R409. -/
  | fexp2 (o : Body)
  /-- FLOG2, R409. -/
  | flog2 (o : Body)
  /-- FSIN, R409. -/
  | fsin (o : Body)
  /-- FCOS, R409. -/
  | fcos (o : Body)
  /-- HWADD, R413. -/
  | hwadd (o : Body)
  /-- HWMUL, R413. -/
  | hwmul (o : Body)
  /-- HWFMA, R413. -/
  | hwfma (o : Body)
  /-- DOT2, R398. -/
  | dot2 (o : Body)
  /-- DOT4, R399. -/
  | dot4 (o : Body)
  /-- CVT, R397. -/
  | cvt (o : Body)
  /-- BNPACK, R382. -/
  | bnpack (o : Body)
  /-- BNUNPK, R383. -/
  | bnunpk (o : Body)
  /-- CBDEC, R390. -/
  | cbdec (o : Body)
  /-- SIPHON, R450. -/
  | siphon (o : Body)
  /-- LRED, R425. -/
  | lred (o : Body)
  /-- SCAN, R445. -/
  | scan (o : Body)
  /-- BALLOT, R376. -/
  | ballot (o : Body)
  /-- VERDICT, R462. -/
  | verdict (o : Body)
  /-- RDFL, R441. -/
  | rdfl (o : Body)
  /-- LD, R420. -/
  | ld (o : Body)
  /-- ST, R453. -/
  | st (o : Body)
  /-- LDS, R422. -/
  | lds (o : Body)
  /-- STS, R453. -/
  | sts (o : Body)
  /-- ATOM, R374. -/
  | atom (o : Body)
  /-- CAS, R388. -/
  | cas (o : Body)
  /-- RED, R442. -/
  | red (o : Body)
  /-- PREF, R433. -/
  | pref (o : Body)
  /-- CFLUSH, R392. -/
  | cflush (o : Body)
  /-- XENTER, R465. -/
  | xenter (o : Body)
  /-- XCOMMIT, R168. -/
  | xcommit (o : Body)
  /-- XQUIT, R171. -/
  | xquit (o : Body)
  /-- XPROBE, R171. -/
  | xprobe (o : Body)
  /-- TCOPY, R458. -/
  | tcopy (o : Body)
  /-- QPOP, R439. -/
  | qpop (o : Body)
  /-- QPUSH, R439. -/
  | qpush (o : Body)
  /-- WAITP, R464. -/
  | waitp (o : Body)
  /-- COLLSET, R312. -/
  | collset (o : Body)
  /-- TCFG, R455. -/
  | tcfg (o : Body)
  /-- TZERO, R455. -/
  | tzero (o : Body)
  /-- MMA, R207. -/
  | mma (o : Body)
  /-- MMAS, R207. -/
  | mmas (o : Body)
  /-- TDRAIN, R456. -/
  | tdrain (o : Body)
  /-- TLD, R457. -/
  | tld (o : Body)
  /-- TST, R457. -/
  | tst (o : Body)
  /-- TWR, R461. -/
  | twr (o : Body)
  /-- TRD, R461. -/
  | trd (o : Body)
  /-- SINIT, R219. -/
  | sinit (o : Body)
  /-- SQADD, R222. -/
  | sqadd (o : Body)
  /-- SHADD, R226. -/
  | shadd (o : Body)
  /-- SDADD, R228. -/
  | sdadd (o : Body)
  /-- SMERGE, R230. -/
  | smerge (o : Body)
  /-- SQRY, R224. -/
  | sqry (o : Body)
  /-- SHTOP, R227. -/
  | shtop (o : Body)
  /-- SDEST, R229. -/
  | sdest (o : Body)
  /-- QCLAMP, R225. -/
  | qclamp (o : Body)
  /-- RDVT, R440. -/
  | rdvt (o : Body)
  /-- ARMT, R371. -/
  | armt (o : Body)
  /-- RDCNT, R440. -/
  | rdcnt (o : Body)
  /-- MFS, R426. -/
  | mfs (o : Body)
  /-- MTS, R427. -/
  | mts (o : Body)
  /-- EBOOK, R402. -/
  | ebook (o : Body)
  /-- TMARK, R459. -/
  | tmark (o : Body)
  /-- KZERO, R417. -/
  | kzero (o : Body)
  /-- SCRUB, R446. -/
  | scrub (o : Body)
  /-- PASGN, R431. -/
  | pasgn (o : Body)
  /-- PFREE, R431. -/
  | pfree (o : Body)
  /-- POWER_LOSS, R18. -/
  | powerLoss (flashing : Bool)
  /-- SUPERVISOR_FAULT_RESOLUTION, R145. -/
  | supervisorFaultResolution (g : Nat) (mapped : Bool)
  /-- HOME_SLICE_ARRIVAL, R151. -/
  | homeSliceArrival (core n : Nat)
  /-- COPY_DEFERRED_FAULT, R245. -/
  | copyDeferredFault (core i : Nat)
  /-- MATRIX_ENTRY_PERFORMED, R192. -/
  | matrixEntryPerformed (tm : Nat)
  deriving DecidableEq, Repr, Inhabited

end Sys2Proof
end

