-- ==== Sys2Proof/Machine/Forms.lean ====
section
/-!
DEFINITION. The form of every opcode: its lengths, the kind of each field, the modifiers it lists,
whether it takes a flag and a hint (R345 to R354, R358, and the field tables R365, R400, R434), and the
check of a body against its form. A body that fails the check raises UNDEF at decode (R359) whoever
issues it; the checks that depend on who issues stand in Ops.lean.
-/

namespace Sys2Proof

/-- What a field may hold. `reg v s i al`: a V register if `v`, an S register if `s`, a short immediate
if `i`, the register number a multiple of `al`. `off` is the offset field of R419; `ctl` a control
byte; `target` the literal of a branch (R358). -/
inductive Kind where
  | no
  | reg (v s i : Bool) (al : Nat)
  | p | x | f | j | b | t | a
  | ps
  | off
  | ctl
  | target
  deriving DecidableEq, Repr, Inhabited

/-- The form of an opcode under a modifier byte and a control byte: its lengths, fields, whether the
modifier is listed, and whether it takes a flag (R354) and a hint (R137). -/
structure Shape where
  l1 : Bool := true
  l2 : Bool := true
  l3 : Bool := false
  dst : Kind := .no
  a : Kind := .no
  b : Kind := .no
  c : Kind := .no
  mods : Bool := false
  fset : Bool := false
  hint : Bool := false
  deriving DecidableEq, Repr, Inhabited

/-- V or S, with an immediate, of `al` registers. -/
def vsi (al : Nat) : Kind := .reg true true true al
def vs (al : Nat) : Kind := .reg true true false al
def si (al : Nat) : Kind := .reg false true true al
def so (al : Nat) : Kind := .reg false true false al
def vo (al : Nat) : Kind := .reg true false false al

/-- A list of modifier bytes. -/
def among (md : BitVec 8) (l : List Nat) : Bool := l.contains md.toNat

/-- The order and scope of [23:19] (R152): plain with scope 0, or one of `ord` with a scope of R150. -/
def orderOk (md : BitVec 8) (ord : List Nat) : Bool :=
  let o := (md.extractLsb' 3 2).toNat
  let sc := (md.extractLsb' 5 3).toNat
  if o = 0 then sc = 0 else ord.contains o && decide (sc ≤ 5)

/-- ATOM and RED types (R373): an integer operation takes no FP32. -/
def typeOk (op ty : Nat) : Bool := ty ≤ 3 || (ty = 4 && (op = 0 || op ≥ 4))

/-- The status indexes of R86. -/
def sysIndexOk (n : Nat) : Bool :=
  n ≤ 6 || (0x8 ≤ n && n ≤ 0xA) || (0x10 ≤ n && n ≤ 0x14) || n = 0x18 || n = 0x19 || n = 0x20 || n = 0x21
    || n = 0x30 || n = 0x31 || n = 0x32 || (0x34 ≤ n && n ≤ 0x37) || (0x40 ≤ n && n ≤ 0x42) || n = 0x50
    || n = 0x51 || n = 0x60 || (0x70 ≤ n && n ≤ 0x72) || n = 0x80 || n = 0x81 || (0x90 ≤ n && n ≤ 0x97)
    || n = 0xA0 || n = 0xA1 || (0xC0 ≤ n && n ≤ 0xCF) || (0x800 ≤ n && n ≤ 0x808) || (0x80A ≤ n && n ≤ 0x80F)

/-- CVT's formats and control byte (R396). -/
def cvtOk (md cc : BitVec 8) : Bool :=
  let d := (md.extractLsb' 4 4).toNat
  let s := (md.extractLsb' 0 4).toNat
  let su := cc.getLsbD 2
  let du := cc.getLsbD 1
  let sat := cc.getLsbD 0
  decide (1 ≤ d ∧ d ≤ 8 ∧ 1 ≤ s ∧ s ≤ 8) && decide (cc.extractLsb' 3 5 = 0#5)
    && (!su || decide (s ≤ 3)) && (!du || decide (d ≤ 3))
    && (!sat || (decide (s ≤ 3) && decide (d ≤ 3)) || (decide (4 ≤ s) && [4, 5, 6, 8].contains d))
    && !(decide (d = s) && su == du)

/-- The forms of the integer and logic opcodes 0x20 to 0x38 (R367, R424, R432, R447): W selects pairs. -/
def intShape (opc : Nat) (md : BitVec 8) : Shape :=
  let w := if md.getLsbD 4 then 2 else 1
  let one (m : List Nat) : Shape := { l3 := true, dst := vs w, a := vsi w, mods := among md m }
  let two (m : List Nat) : Shape := { l3 := true, dst := vs w, a := vsi w, b := vsi w, mods := among md m }
  let arith := [0x00, 0x10, 0x80, 0x90, 0xC0, 0xD0]
  match opc with
  | 0x20 => one [0x00, 0x10, 0x80, 0x90, 0x01, 0x02]
  | 0x21 => two arith
  | 0x22 => two [0x00, 0x10]
  | 0x23 => { two [0x00, 0x40] with c := vsi 1 }
  | 0x24 => { two [0x00] with c := vsi 1 }
  | 0x25 => one [0x00, 0x10]
  | 0x26 => { one [0x00, 0x10] with dst := vs 1 }
  | 0x27 => { two [0x00, 0x01, 0x02, 0x03, 0x04, 0x05, 0x42, 0x43, 0x44, 0x45,
                   0x10, 0x11, 0x12, 0x13, 0x14, 0x15, 0x52, 0x53, 0x54, 0x55] with dst := .ps }
  | 0x28 => { two [0x00, 0x10, 0x50] with b := vsi 1, c := vsi 1 }
  | 0x29 => { two arith with c := vsi w }
  | 0x2A => two [0x00, 0x40, 0x10, 0x50]
  | 0x2B => two [0x00, 0x40, 0x10, 0x50]
  | 0x2C => one [0x00, 0x10]
  | 0x2D => two arith
  | 0x2E => two [0x00, 0x40, 0x10, 0x50]
  | 0x2F => one [0x00, 0x10]
  | 0x30 => two [0x00, 0x10]
  | 0x31 => { two [0x00] with c := vsi 1 }
  | 0x32 => { one [0x00, 0x10] with dst := vs 1 }
  | 0x33 => { two [0x00, 0x10] with dst := vo w, c := .p }
  | 0x34 => { two [0x00, 0x10] with b := vsi 1 }
  | 0x35 => { two [0x00, 0x10] with b := vsi 1 }
  | 0x36 => { two [0x00, 0x10] with b := vsi 1 }
  | 0x37 => two arith
  | 0x38 => two [0x00, 0x10]
  | _ => {}

/-- The forms of the floating-point and lane opcodes 0x40 to 0x65 (R382 to R399, R405 to R413, R425,
R441, R445, R450, R462, R376). -/
def floatShape (opc : Nat) (md cc : BitVec 8) : Shape :=
  let hi := (md.extractLsb' 4 4).toNat
  let lo := (md.extractLsb' 0 4).toNat
  let one (m : Bool) : Shape := { l3 := true, dst := vs 1, a := vsi 1, mods := m }
  let two (m : Bool) : Shape := { one m with b := vsi 1 }
  let plain := among md [0x00, 0x40]
  let hw := among md [0x00, 0x01, 0x50, 0x51, 0x60, 0x61]
  let lred := [0x00, 0x01, 0x02, 0x03, 0x04, 0x44, 0x05, 0x45, 0x08, 0x09, 0x0A]
  match opc with
  | 0x40 => two plain
  | 0x41 => two plain
  | 0x42 => two plain
  | 0x43 => { two plain with c := vsi 1 }
  | 0x44 => two plain
  | 0x45 => two plain
  | 0x46 => { two ((hi = 0 || hi = 4) && decide (lo ≤ 7)) with dst := .ps }
  | 0x47 => one plain
  | 0x48 => one ((hi = 0 || hi = 4) && decide (lo ≤ 4))
  | 0x49 => one plain
  | 0x4A => one plain
  | 0x4B => one plain
  | 0x4C => one plain
  | 0x4D => one plain
  | 0x4E => one plain
  | 0x4F => one plain
  | 0x50 => two hw
  | 0x51 => two hw
  | 0x52 => { two hw with c := vsi 1 }
  | 0x53 => { two (among md [0x00, 0x50, 0x60]) with c := vsi 1 }
  | 0x54 => { two (among md [0x00, 0x10, 0x01, 0x11, 0x70, 0x80]) with c := vsi 1 }
  | 0x55 => { one (cvtOk md cc) with l1 := false, c := .ctl }
  | 0x56 => { dst := vo 2, a := vsi 1, mods := among md [0x00, 0x90, 0xA0] }
  | 0x57 => { dst := vo 1, a := vsi 2, mods := among md [0x00, 0x90, 0xA0] }
  | 0x58 => { l1 := false, dst := vs 1, a := vsi 1, b := si 8,
              mods := (hi = 0 || hi = 4 || hi = 6) && decide (lo ≤ 7) }
  | 0x60 => { l3 := true, dst := vo 1, a := vo 1, b := vsi 1,
              mods := hi = 0 && (lo ≤ 3 || among md [0x05, 0x06, 0x09, 0x0A]) }
  | 0x61 => { dst := vs 1, a := vo 1, mods := among md lred }
  | 0x62 => { dst := vo 1, a := vo 1, mods := among (md &&& 0x7F#8) lred }
  | 0x63 => { dst := vs 2, a := .p, mods := among md [0, 1] }
  | 0x64 => { dst := .ps, a := .p, mods := among md [0, 1, 2, 3] }
  | 0x65 => { dst := so 1, a := vo 1, mods := md = 0 }
  | _ => {}

/-- The forms of control, index and wait opcodes 0x01 to 0x17. -/
def controlShape (opc : Nat) (md : BitVec 8) : Shape :=
  let zero : Bool := md = 0
  let rel : Shape := { l1 := false, l2 := false, l3 := true, a := .target, mods := zero }
  match opc with
  | 0x01 => { mods := zero }
  | 0x02 => { rel with c := if md = 0 then .no else so 1, mods := among md [0, 1, 2] }
  | 0x03 => { a := vs 2, mods := zero }
  | 0x04 => { rel with dst := vs 2 }
  | 0x05 => { a := vs 2, mods := zero }
  | 0x06 => { mods := zero }
  | 0x07 => { rel with dst := .j }
  | 0x08 => { a := .j, mods := zero }
  | 0x09 => { mods := zero }
  | 0x0A => { l3 := true, a := si 1, mods := zero }
  | 0x0B => { l3 := true, a := si 1, mods := zero }
  | 0x0C => { mods := zero }
  | 0x0D => { mods := zero }
  | 0x10 => { a := .b, mods := zero }
  | 0x11 => { mods := md.extractLsb' 0 5 = 0#5 && decide ((md.extractLsb' 5 3).toNat ≤ 5) }
  | 0x12 => { l1 := false, mods := md.extractLsb' 4 4 ≠ 0#4 && md.extractLsb' 2 2 = 0#2 }
  | 0x13 => { a := .f, b := if md = 1 then si 1 else .no, mods := among md [0, 1] }
  | 0x14 => { l3 := true, dst := .x, a := vsi 1, mods := among md [0, 1, 2] }
  | 0x15 => { dst := vo (if md = 1 then 2 else 1), a := .x, mods := among md [0, 1] }
  | 0x16 => { dst := .x, a := vsi (if md = 1 then 2 else 1), mods := among md [0, 1] }
  | 0x17 => { l3 := true, dst := .x, a := vsi 1, mods := among md [0, 1] }
  | _ => {}

/-- The forms of the memory and region opcodes 0x70 to 0x7F (R373, R388, R391, R418, R433, R442, R452,
R465). -/
def memShape (opc : Nat) (md cc : BitVec 8) : Shape :=
  let sz := (md.extractLsb' 0 3).toNat
  let up : Bool := md.extractLsb' 3 5 = 0#5
  let w := if sz = 1 || sz = 7 then 2 else 1
  let ws := if sz = 6 then 4 else if sz = 1 then 2 else 1
  let wt := if cc.toNat = 2 || cc.toNat = 3 then 2 else 1
  let base : Kind := if sz ≥ 6 then .no else vs 2
  match opc with
  | 0x70 => { l3 := true, dst := vs w, a := base, b := vsi 1, c := .off, fset := true, hint := true,
              mods := orderOk md [1] && (sz < 6 || up) }
  | 0x71 => { l3 := true, dst := vs w, a := base, b := vsi 1, c := .off, fset := true, hint := true,
              mods := orderOk md [2] && (sz < 6 || up) && sz ≠ 3 && sz ≠ 5 }
  | 0x72 => { l3 := true, dst := vs ws, a := vs 1, b := vsi 1, c := .off, fset := true, mods := up && sz ≠ 7 }
  | 0x73 => { l3 := true, dst := vs ws, a := vs 1, b := vsi 1, c := .off, fset := true,
              mods := up && [0, 1, 2, 4, 6].contains sz }
  | 0x74 => { l3 := true, dst := vs wt, a := vs 2, b := vsi wt, c := .ctl, fset := true,
              mods := orderOk md [1, 2, 3] && sz ≠ 7 && typeOk sz cc.toNat }
  | 0x75 => { l3 := true, dst := vs wt, a := vs 2, b := vsi wt, c := .ctl, fset := true,
              mods := orderOk md [1, 2, 3] && sz = 0 && (cc.toNat = 0 || cc.toNat = 2) }
  | 0x76 => { l3 := true, a := vs 2, b := vsi wt, c := .ctl, fset := true,
              mods := orderOk md [2] && decide (sz ≤ 5) && typeOk sz cc.toNat }
  | 0x77 => { l3 := true, a := vs 2, b := vsi 1, c := .off, hint := true, mods := up && decide (sz ≤ 1) }
  | 0x78 => { l3 := true, a := vs 2, b := vsi 1, fset := true, mods := among md [0, 1] }
  | 0x7C => { l1 := false, l2 := false, l3 := true, a := .target, mods := md = 0 }
  | 0x7D => { mods := md = 0 }
  | 0x7E => { l3 := true, a := si 1, mods := md = 0 }
  | 0x7F => { dst := .ps, mods := md = 0 }
  | _ => {}

/-- The forms of the engine, summary, time and system opcodes 0x80 to 0xC3. -/
def engineShape (opc : Nat) (md : BitVec 8) : Shape :=
  let zero : Bool := md = 0
  let scr := md.getLsbD 7
  let sm := so (if scr then 1 else 2)
  let m0 := among md [0x00, 0x80]
  let hi := (md.extractLsb' 4 4).toNat
  match opc with
  | 0x80 => { dst := so 1, a := so 8, fset := true, hint := true, mods := zero }
  | 0x81 => { l3 := true, dst := so 1, a := si 1, mods := zero }
  | 0x82 => { a := si 1, mods := zero }
  | 0x83 => { a := si 1, mods := zero }
  | 0x84 => { dst := so 1, a := si 2, fset := true, mods := zero }
  | 0x90 => { dst := .t, a := si 1, fset := true, mods := zero }
  | 0x91 => { dst := .a, fset := true, mods := zero }
  | 0x92 => { l1 := false, dst := .a, a := so 2, b := so 2, fset := true, mods := among md [0, 1] }
  | 0x93 => { l1 := false, dst := .a, a := so 2, b := so 2, c := si 1, fset := true, mods := zero }
  | 0x94 => { dst := .t, a := .a, fset := true,
              mods := [0, 4, 5, 6, 7, 8].contains hi && md.extractLsb' 2 2 = 0#2
                && (!md.getLsbD 0 || hi = 0 || hi = 4) }
  | 0x95 => { l1 := false, dst := .t, a := so 2, b := si 1, fset := true, mods := zero }
  | 0x96 => { l1 := false, dst := .t, a := so 2, b := si 1, fset := true, mods := zero }
  | 0x97 => { l1 := false, a := si 1, b := vo 1, c := .t, mods := zero }
  | 0x98 => { l1 := false, dst := vo 1, a := .t, b := si 1, mods := zero }
  | 0xA0 => { l1 := false, a := sm, b := si 1, fset := true, mods := among md [0, 1, 2, 0x80, 0x81, 0x82] }
  | 0xA1 => { a := sm, b := vo 1, fset := true, mods := m0 }
  | 0xA2 => { a := sm, b := vo 1, fset := true, mods := m0 }
  | 0xA3 => { a := sm, b := vo 1, fset := true, mods := m0 }
  | 0xA4 => { l1 := false, a := sm, b := sm, fset := true, mods := among md [0x00, 0x80, 0x01] }
  | 0xA5 => { l3 := true, dst := vs 1, a := sm, b := vsi 1, fset := true, mods := m0 }
  | 0xA6 => { l1 := false, dst := so 2, a := sm, b := si 1, fset := true, mods := m0 }
  | 0xA7 => { dst := so 2, a := sm, fset := true, mods := m0 }
  | 0xA8 => { l1 := false, dst := vo 1, a := vsi 1, b := sm, c := si 2, fset := true, mods := m0 }
  | 0xB0 => { dst := vs 2, mods := zero }
  | 0xB1 => { a := si 2, fset := true, mods := among md [0, 1] }
  | 0xB2 => { l3 := true, dst := vs 2, a := si 1, mods := zero }
  | 0xB3 => { l1 := false, dst := vs 1, b := .ctl, c := .ctl, mods := zero }
  | 0xB4 => { l1 := false, a := si 1, b := .ctl, c := .ctl, mods := zero }
  | 0xB5 => { a := si 1, mods := zero }
  | 0xB6 => { a := si 1, mods := zero }
  | 0xC0 => { a := si 1, mods := zero }
  | 0xC1 => { a := so 4, fset := true, mods := zero }
  | 0xC2 => { dst := so 1, a := si 1, mods := zero }
  | 0xC3 => { dst := so 1, a := si 1, mods := zero }
  | _ => {}

/-- The form of an opcode under its modifier and control bytes. An unassigned opcode lists no modifier. -/
def shape (opc md cc : BitVec 8) : Shape :=
  let n := opc.toNat
  if n < 0x20 then controlShape n md
  else if n < 0x40 then intShape n md
  else if n < 0x70 then floatShape n md cc
  else if n < 0x80 then memShape n md cc
  else engineShape n md

/-- Whether an operand fits a field's kind, registers in range and aligned (R75, R345 to R347). -/
def Kind.fits (k : Kind) (isDst : Bool) (o : Opd) : Bool :=
  match k, o with
  | .no, .none => true
  | .reg v _ _ al, .v n => v && decide (n.toNat % al = 0)
  | .reg _ s _ al, .s n => s && decide (n.toNat < 128) && decide (n.toNat % al = 0)
  | .reg _ _ i _, .imm _ => i && !isDst
  | .reg _ _ i _, .lit _ => i && !isDst
  | .p, .p n => decide (n.toNat < 8)
  | .x, .x n => decide (n.toNat < 4)
  | .f, .f n => decide (n.toNat < 12)
  | .j, .j n => decide (n.toNat < 8)
  | .b, .b n => decide (n.toNat < 16)
  | .t, .t n => decide (n.toNat < 16)
  | .a, .a n => decide (n.toNat < 8)
  | .ps, .p n => decide (n.toNat < 8)
  | .ps, .s n => decide (n.toNat < 128)
  | .off, .none => true
  | .off, .s n => decide (n.toNat < 128)
  | .off, .imm _ => true
  | .ctl, .ctl _ => true
  | .target, .lit w => decide (w.extractLsb' 0 2 = 0#2)
  | _, _ => false

/-- Class 0 operands (R345). -/
def Opd.vec : Opd → Bool
  | .v _ => true
  | .p _ => true
  | .x _ => true
  | _ => false

/-- Class 1 registers. -/
def Opd.scl : Opd → Bool
  | .s _ => true
  | .f _ => true
  | .j _ => true
  | .b _ => true
  | .t _ => true
  | .a _ => true
  | _ => false

/-- Where the literal of a 96-bit form stands, and nowhere else in any form (R344). -/
def litPlace (sh : Shape) (o : Body) : Bool :=
  let isLit : Opd → Bool := fun x => match x with | .lit _ => true | _ => false
  match o.len with
  | .w3 => !isLit o.dst && !isLit o.c && (if sh.b = .no then isLit o.a && decide (o.b = .none) else isLit o.b && !isLit o.a)
  | _ => !isLit o.dst && !isLit o.a && !isLit o.b && !isLit o.c

/-- A 32-bit form carries no second word: what it leaves out has the values of R341. -/
def shortOk (o : Body) : Bool :=
  let z : Opd → Bool := fun x =>
    match x with | .none => true | .v n => n = 0 | .p n => n = 0 | .ctl n => n = 0 | _ => false
  match o.len with
  | .w1 => z o.b && z o.c && o.md = 0 && o.fset = 15 && o.hint = 0
  | _ => true

/-- The control byte a body carries in source c (0 where it carries none). -/
def Body.cc (o : Body) : BitVec 8 := match o.c with | .ctl n => n | .s n => n | .v n => n | .p n => n | .t n => n | .imm i => 1#1 ++ i | _ => 0

/-- The status index an MFS or MTS carries (R358). -/
def Body.sysIndex (o : Body) : Nat :=
  match o.b, o.c with
  | .ctl lo, .ctl hi => hi.toNat * 256 + lo.toNat
  | _, _ => 0

/-- The well-formedness checks of a body under an opcode. -/
def bodyOk (opc : BitVec 8) (o : Body) : Bool :=
  let sh := shape opc o.md o.cc
  let n := opc.toNat
  (match o.len with | .w1 => sh.l1 | .w2 => sh.l2 | .w3 => sh.l3)
    && sh.mods && shortOk o && litPlace sh o
    -- operands
    && sh.dst.fits true o.dst
    && sh.a.fits false o.a && sh.b.fits false o.b && sh.c.fits false o.c
    -- flag set (R354) and hint (R137)
    && (if o.fset.toNat = 15 then true else sh.fset && decide (o.fset.toNat < 12))
    && (if sh.hint then decide (o.hint.toNat < 3) else o.hint = 0)
    -- a class 1 destination with a class 0 source (R348); ST, STS, TST and STX have no destination there
    && (!(o.dst.scl && (o.a.vec || o.b.vec || o.c.vec)) || [0x61, 0x63, 0x64, 0x65, 0x71, 0x73, 0x96].contains n)
    -- BAR, JOIN, ERET, XENTER and XCOMMIT take no predicate (R377, R403, R415, R465)
    && (!([0x08, 0x0D, 0x10, 0x7C, 0x7D].contains n) || (o.pred = 0 && !o.pneg))
    -- MFS and MTS name a register (R84, R358)
    && (!([0xB3, 0xB4].contains n) || (decide (o.cc.toNat < 16) && sysIndexOk o.sysIndex))

/-- The number of the register an operand names. -/
def Opd.num : Opd → Nat
  | .v n => n.toNat
  | .s n => n.toNat
  | .p n => n.toNat
  | .x n => n.toNat
  | .f n => n.toNat
  | .j n => n.toNat
  | .b n => n.toNat
  | .t n => n.toNat
  | .a n => n.toNat
  | .imm i => i.toNat
  | .lit w => w.toNat
  | .ctl c => c.toNat
  | .none => 0

/-- How many registers a field of a kind names. -/
def Kind.regs : Kind → Nat
  | .reg _ _ _ al => al
  | _ => 1

end Sys2Proof
end

