-- ==== Sys2Proof/WellFormed.lean ====
section
/-!
DEFINITION. When an instruction is well formed: it has an encoding, and its body passes the checks of
its opcode's form (Machine/Forms.lean).
-/

namespace Sys2Proof

/-- The opcode and body of an instruction that has them (R357). -/
def opcodeOf (i : Instr) : Option (BitVec 8 × Body) :=
  match i with
  | .nop o => some (0x01#8, o)
  | .bra o => some (0x02#8, o)
  | .brx o => some (0x03#8, o)
  | .call o => some (0x04#8, o)
  | .ret o => some (0x05#8, o)
  | .exit o => some (0x06#8, o)
  | .joinset o => some (0x07#8, o)
  | .join o => some (0x08#8, o)
  | .yield o => some (0x09#8, o)
  | .sleep o => some (0x0A#8, o)
  | .trap o => some (0x0B#8, o)
  | .bkpt o => some (0x0C#8, o)
  | .eret o => some (0x0D#8, o)
  | .bar o => some (0x10#8, o)
  | .fence o => some (0x11#8, o)
  | .qfence o => some (0x12#8, o)
  | .waitf o => some (0x13#8, o)
  | .setx o => some (0x14#8, o)
  | .ldx o => some (0x15#8, o)
  | .stx o => some (0x16#8, o)
  | .incx o => some (0x17#8, o)
  | .abs o => some (0x20#8, o)
  | .add o => some (0x21#8, o)
  | .and o => some (0x22#8, o)
  | .bfe o => some (0x23#8, o)
  | .bfi o => some (0x24#8, o)
  | .brev o => some (0x25#8, o)
  | .clz o => some (0x26#8, o)
  | .cmp o => some (0x27#8, o)
  | .lea o => some (0x28#8, o)
  | .mad o => some (0x29#8, o)
  | .max o => some (0x2A#8, o)
  | .min o => some (0x2B#8, o)
  | .mov o => some (0x2C#8, o)
  | .mul o => some (0x2D#8, o)
  | .mulh o => some (0x2E#8, o)
  | .not o => some (0x2F#8, o)
  | .or o => some (0x30#8, o)
  | .perm o => some (0x31#8, o)
  | .popc o => some (0x32#8, o)
  | .sel o => some (0x33#8, o)
  | .shl o => some (0x34#8, o)
  | .shr o => some (0x35#8, o)
  | .sra o => some (0x36#8, o)
  | .sub o => some (0x37#8, o)
  | .xor o => some (0x38#8, o)
  | .fadd o => some (0x40#8, o)
  | .fsub o => some (0x41#8, o)
  | .fmul o => some (0x42#8, o)
  | .ffma o => some (0x43#8, o)
  | .fmin o => some (0x44#8, o)
  | .fmax o => some (0x45#8, o)
  | .fcmp o => some (0x46#8, o)
  | .fclass o => some (0x47#8, o)
  | .frnd o => some (0x48#8, o)
  | .frcp o => some (0x49#8, o)
  | .frsq o => some (0x4A#8, o)
  | .fsqrt o => some (0x4B#8, o)
  | .fexp2 o => some (0x4C#8, o)
  | .flog2 o => some (0x4D#8, o)
  | .fsin o => some (0x4E#8, o)
  | .fcos o => some (0x4F#8, o)
  | .hwadd o => some (0x50#8, o)
  | .hwmul o => some (0x51#8, o)
  | .hwfma o => some (0x52#8, o)
  | .dot2 o => some (0x53#8, o)
  | .dot4 o => some (0x54#8, o)
  | .cvt o => some (0x55#8, o)
  | .bnpack o => some (0x56#8, o)
  | .bnunpk o => some (0x57#8, o)
  | .cbdec o => some (0x58#8, o)
  | .siphon o => some (0x60#8, o)
  | .lred o => some (0x61#8, o)
  | .scan o => some (0x62#8, o)
  | .ballot o => some (0x63#8, o)
  | .verdict o => some (0x64#8, o)
  | .rdfl o => some (0x65#8, o)
  | .ld o => some (0x70#8, o)
  | .st o => some (0x71#8, o)
  | .lds o => some (0x72#8, o)
  | .sts o => some (0x73#8, o)
  | .atom o => some (0x74#8, o)
  | .cas o => some (0x75#8, o)
  | .red o => some (0x76#8, o)
  | .pref o => some (0x77#8, o)
  | .cflush o => some (0x78#8, o)
  | .xenter o => some (0x7C#8, o)
  | .xcommit o => some (0x7D#8, o)
  | .xquit o => some (0x7E#8, o)
  | .xprobe o => some (0x7F#8, o)
  | .tcopy o => some (0x80#8, o)
  | .qpop o => some (0x81#8, o)
  | .qpush o => some (0x82#8, o)
  | .waitp o => some (0x83#8, o)
  | .collset o => some (0x84#8, o)
  | .tcfg o => some (0x90#8, o)
  | .tzero o => some (0x91#8, o)
  | .mma o => some (0x92#8, o)
  | .mmas o => some (0x93#8, o)
  | .tdrain o => some (0x94#8, o)
  | .tld o => some (0x95#8, o)
  | .tst o => some (0x96#8, o)
  | .twr o => some (0x97#8, o)
  | .trd o => some (0x98#8, o)
  | .sinit o => some (0xA0#8, o)
  | .sqadd o => some (0xA1#8, o)
  | .shadd o => some (0xA2#8, o)
  | .sdadd o => some (0xA3#8, o)
  | .smerge o => some (0xA4#8, o)
  | .sqry o => some (0xA5#8, o)
  | .shtop o => some (0xA6#8, o)
  | .sdest o => some (0xA7#8, o)
  | .qclamp o => some (0xA8#8, o)
  | .rdvt o => some (0xB0#8, o)
  | .armt o => some (0xB1#8, o)
  | .rdcnt o => some (0xB2#8, o)
  | .mfs o => some (0xB3#8, o)
  | .mts o => some (0xB4#8, o)
  | .ebook o => some (0xB5#8, o)
  | .tmark o => some (0xB6#8, o)
  | .kzero o => some (0xC0#8, o)
  | .scrub o => some (0xC1#8, o)
  | .pasgn o => some (0xC2#8, o)
  | .pfree o => some (0xC3#8, o)
  | .moduleReset => none
  | .verify => none
  | .supervisor _ _ => none
  | .bootScrub => none
  | .fabric _ => none
  | .load _ => none
  | .stagingWindowWrite _ _ => none
  | .versionCounterRaise _ _ => none
  | .thermalThrottle _ _ _ => none
  | .thermalTrip _ _ => none
  | .powerEnvelopeThrottle _ _ _ => none
  | .frequencyChange _ _ => none
  | .kick _ _ _ => none
  | .launch _ _ => none
  | .fenceCommand _ _ => none
  | .teamPlacement _ => none
  | .coresidentPlacement _ => none
  | .skipLimit _ => none
  | .generationClear _ _ => none
  | .groupEnd _ => none
  | .teamEnd _ => none
  | .gridEnd _ => none
  | .formationPoint _ => none
  | .drowsy _ => none
  | .tallocRequest _ _ => none
  | .tallocBlockingRequest _ _ => none
  | .tallocRelease _ _ => none
  | .tallocGrant _ => none
  | .tallocAgeLimit _ => none
  | .fill _ _ => none
  | .partitionStageFault _ => none
  | .deferredFaultDelivery _ => none
  | .transientAbort _ => none
  | .regionStopLimit _ => none
  | .copyCompletion _ _ => none
  | .arrivedTilePush _ _ => none
  | .staging _ => none
  | .admission _ => none
  | .matrixCompletion _ _ _ _ => none
  | .slotRotation => none
  | .registerWrite _ _ _ => none
  | .timerctl _ _ => none
  | .cntsel _ _ _ => none
  | .gtimeRead _ => none
  | .stopDrain _ => none
  | .stopCapture _ => none
  | .resume _ => none
  | .kill _ => none
  | .stopAcknowledgement _ _ => none
  | .drainmax _ => none
  | .saveImage _ => none
  | .stopReport _ => none
  | .release _ => none
  | .singleStep _ => none
  | .stepTimeout _ => none
  | .rstop _ => none
  | .softError _ _ => none
  | .uncorrectableError _ _ => none
  | .clearing _ _ _ => none
  | .clusterRetire _ => none
  | .timerExpiry _ => none
  | .sleepEnd _ => none
  | .waitfTimeout _ => none
  | .qpopTimeout _ => none
  | .promiseExpiry _ => none
  | .watchdog _ => none
  | .residencyNotice _ _ _ _ => none
  | .noticeTimeout _ _ => none
  | .departureNotice _ _ _ => none
  | .write _ => none
  | .read _ => none
  | .reply _ => none
  | .ack _ => none
  | .contrib _ => none
  | .result _ => none
  | .slotRequest _ _ => none
  | .slotDecision => none
  | .nak _ => none
  | .hostWrite _ _ _ => none
  | .activate _ => none
  | .refresh _ => none
  | .reset _ => none
  | .deactivate _ => none
  | .generateMem _ => none
  | .importReport _ _ _ => none
  | .keyslotBind _ _ => none
  | .vdBind _ _ => none
  | .vdUnbind _ => none
  | .weirWindow => none
  | .sluicePage _ => none
  | .energyMeterWindow _ _ => none
  | .attestationReport _ _ => none
  | .sample _ => none
  | .sync _ => none
  | .clause _ _ => none
  | .powerLoss _ => none
  | .supervisorFaultResolution _ _ => none
  | .homeSliceArrival _ _ => none
  | .copyDeferredFault _ _ => none
  | .matrixEntryPerformed _ => none

/-- Whether an instruction has an encoding and is well formed. -/
def Instr.wf (i : Instr) : Bool :=
  match i with
  | .clause _ _ => true
  | _ => match opcodeOf i with | some (opc, o) => bodyOk opc o | none => false

end Sys2Proof
end

