-- ==== Sys2Proof/Decode.lean ====
section
/-!
DEFINITION. The decoder: instruction words to an instruction or a refusal (UNDEF at decode, R359), and
the encoder, both over the field layout of R342 to R344 and the form tables of WellFormed.lean.
A word is refused when its opcode is unassigned, its length form is not one of its opcode's, or its
fields fail the well-formedness checks.
-/

namespace Sys2Proof

/-- The first and second words' fields and the literal (R342 to R344). -/
structure Fields where
  dcls : Bool := false
  acls : Bool := false
  srca : BitVec 8 := 0
  dst  : BitVec 8 := 0
  pneg : Bool := false
  pred : BitVec 3 := 0
  opc  : BitVec 8 := 0
  len  : Len := .w1
  bcls : Bool := false
  ccls : Bool := false
  hint : BitVec 2 := 0
  fset : BitVec 4 := 15
  md   : BitVec 8 := 0
  srcc : BitVec 8 := 0
  srcb : BitVec 8 := 0
  lit  : Word := 0
  deriving DecidableEq, Repr

/-- The length a first word names (R340); a word with [1:0] = 0b11 is a CLAUSE header or UNDEF. -/
def lenOf (w1 : Word) : Option Len :=
  match w1.extractLsb' 0 2 with
  | 0#2 => some .w1
  | 1#2 => some .w2
  | 2#2 => some .w3
  | _ => none

/-- Words of an instruction (R340). -/
def Len.words : Len → Nat
  | .w1 => 1
  | .w2 => 2
  | .w3 => 3

/-- The words an instruction that begins with `w1` takes; a header, or an undefined word, takes one. -/
def wordsOf (w1 : Word) : Nat :=
  match lenOf w1 with
  | some l => l.words
  | none => 1

/-- The fields of an instruction's words. A 32-bit form stands for the second word 0x0F00_0000 (R341). -/
def Fields.ofWords (l : Len) (w1 w2 w3 : Word) : Fields :=
  let w2 : Word := match l with | .w1 => 0x0F000000#32 | _ => w2
  { dcls := w1.getLsbD 31, acls := w1.getLsbD 30, srca := w1.extractLsb' 22 8, dst := w1.extractLsb' 14 8,
    pneg := w1.getLsbD 13, pred := w1.extractLsb' 10 3, opc := w1.extractLsb' 2 8, len := l,
    bcls := w2.getLsbD 31, ccls := w2.getLsbD 30, hint := w2.extractLsb' 28 2, fset := w2.extractLsb' 24 4,
    md := w2.extractLsb' 16 8, srcc := w2.extractLsb' 8 8, srcb := w2.extractLsb' 0 8,
    lit := match l with | .w3 => w3 | _ => 0 }

def bit (b : Bool) : BitVec 1 := if b then 1#1 else 0#1

def Len.code : Len → BitVec 2
  | .w1 => 0#2
  | .w2 => 1#2
  | .w3 => 2#2

/-- The first word of the fields (R342). -/
def Fields.word1 (f : Fields) : Word :=
  bit f.dcls ++ bit f.acls ++ f.srca ++ f.dst ++ bit f.pneg ++ f.pred ++ f.opc ++ f.len.code

/-- The second word of the fields (R343). -/
def Fields.word2 (f : Fields) : Word :=
  bit f.bcls ++ bit f.ccls ++ f.hint ++ f.fset ++ f.md ++ f.srcc ++ f.srcb

/-- The operand a field of kind `k` names (R345 to R347), or `Opd.ctl` of a value the kind does not
take, which no check accepts. -/
def readField (k : Kind) (cls : Bool) (n : BitVec 8) : Option Opd :=
  match k, cls with
  | .no, false => if n = 0#8 then some .none else none
  | .reg ..,  false => some (.v n)
  | .reg ..,  true => if n.getLsbD 7 then some (.imm (n.extractLsb' 0 7)) else some (.s n)
  | .p, false => some (.p n)
  | .x, false => some (.x n)
  | .f, true => some (.f n)
  | .j, true => some (.j n)
  | .b, true => some (.b n)
  | .t, true => some (.t n)
  | .a, true => some (.a n)
  | .ps, false => some (.p n)
  | .ps, true => some (.s n)
  | .off, false => if n = 0#8 then some .none else none
  | .off, true => if n.getLsbD 7 then some (.imm (n.extractLsb' 0 7)) else some (.s n)
  | .ctl, false => some (.ctl n)
  | .target, _ => none
  | _, _ => none

/-- The field (class bit and value) that holds an operand. -/
def writeField : Opd → Bool × BitVec 8
  | .none => (false, 0)
  | .v n => (false, n)
  | .p n => (false, n)
  | .x n => (false, n)
  | .ctl n => (false, n)
  | .s n => (true, n)
  | .f n => (true, n)
  | .j n => (true, n)
  | .b n => (true, n)
  | .t n => (true, n)
  | .a n => (true, n)
  | .imm i => (true, 1#1 ++ i)
  | .lit _ => (true, 0)

/-- The constructor an opcode names (R357); an unassigned code names none. -/
def instrOf (opc : BitVec 8) (o : Body) : Option Instr :=
  match opc with
  | 0x01#8 => some (.nop o)
  | 0x02#8 => some (.bra o)
  | 0x03#8 => some (.brx o)
  | 0x04#8 => some (.call o)
  | 0x05#8 => some (.ret o)
  | 0x06#8 => some (.exit o)
  | 0x07#8 => some (.joinset o)
  | 0x08#8 => some (.join o)
  | 0x09#8 => some (.yield o)
  | 0x0A#8 => some (.sleep o)
  | 0x0B#8 => some (.trap o)
  | 0x0C#8 => some (.bkpt o)
  | 0x0D#8 => some (.eret o)
  | 0x10#8 => some (.bar o)
  | 0x11#8 => some (.fence o)
  | 0x12#8 => some (.qfence o)
  | 0x13#8 => some (.waitf o)
  | 0x14#8 => some (.setx o)
  | 0x15#8 => some (.ldx o)
  | 0x16#8 => some (.stx o)
  | 0x17#8 => some (.incx o)
  | 0x20#8 => some (.abs o)
  | 0x21#8 => some (.add o)
  | 0x22#8 => some (.and o)
  | 0x23#8 => some (.bfe o)
  | 0x24#8 => some (.bfi o)
  | 0x25#8 => some (.brev o)
  | 0x26#8 => some (.clz o)
  | 0x27#8 => some (.cmp o)
  | 0x28#8 => some (.lea o)
  | 0x29#8 => some (.mad o)
  | 0x2A#8 => some (.max o)
  | 0x2B#8 => some (.min o)
  | 0x2C#8 => some (.mov o)
  | 0x2D#8 => some (.mul o)
  | 0x2E#8 => some (.mulh o)
  | 0x2F#8 => some (.not o)
  | 0x30#8 => some (.or o)
  | 0x31#8 => some (.perm o)
  | 0x32#8 => some (.popc o)
  | 0x33#8 => some (.sel o)
  | 0x34#8 => some (.shl o)
  | 0x35#8 => some (.shr o)
  | 0x36#8 => some (.sra o)
  | 0x37#8 => some (.sub o)
  | 0x38#8 => some (.xor o)
  | 0x40#8 => some (.fadd o)
  | 0x41#8 => some (.fsub o)
  | 0x42#8 => some (.fmul o)
  | 0x43#8 => some (.ffma o)
  | 0x44#8 => some (.fmin o)
  | 0x45#8 => some (.fmax o)
  | 0x46#8 => some (.fcmp o)
  | 0x47#8 => some (.fclass o)
  | 0x48#8 => some (.frnd o)
  | 0x49#8 => some (.frcp o)
  | 0x4A#8 => some (.frsq o)
  | 0x4B#8 => some (.fsqrt o)
  | 0x4C#8 => some (.fexp2 o)
  | 0x4D#8 => some (.flog2 o)
  | 0x4E#8 => some (.fsin o)
  | 0x4F#8 => some (.fcos o)
  | 0x50#8 => some (.hwadd o)
  | 0x51#8 => some (.hwmul o)
  | 0x52#8 => some (.hwfma o)
  | 0x53#8 => some (.dot2 o)
  | 0x54#8 => some (.dot4 o)
  | 0x55#8 => some (.cvt o)
  | 0x56#8 => some (.bnpack o)
  | 0x57#8 => some (.bnunpk o)
  | 0x58#8 => some (.cbdec o)
  | 0x60#8 => some (.siphon o)
  | 0x61#8 => some (.lred o)
  | 0x62#8 => some (.scan o)
  | 0x63#8 => some (.ballot o)
  | 0x64#8 => some (.verdict o)
  | 0x65#8 => some (.rdfl o)
  | 0x70#8 => some (.ld o)
  | 0x71#8 => some (.st o)
  | 0x72#8 => some (.lds o)
  | 0x73#8 => some (.sts o)
  | 0x74#8 => some (.atom o)
  | 0x75#8 => some (.cas o)
  | 0x76#8 => some (.red o)
  | 0x77#8 => some (.pref o)
  | 0x78#8 => some (.cflush o)
  | 0x7C#8 => some (.xenter o)
  | 0x7D#8 => some (.xcommit o)
  | 0x7E#8 => some (.xquit o)
  | 0x7F#8 => some (.xprobe o)
  | 0x80#8 => some (.tcopy o)
  | 0x81#8 => some (.qpop o)
  | 0x82#8 => some (.qpush o)
  | 0x83#8 => some (.waitp o)
  | 0x84#8 => some (.collset o)
  | 0x90#8 => some (.tcfg o)
  | 0x91#8 => some (.tzero o)
  | 0x92#8 => some (.mma o)
  | 0x93#8 => some (.mmas o)
  | 0x94#8 => some (.tdrain o)
  | 0x95#8 => some (.tld o)
  | 0x96#8 => some (.tst o)
  | 0x97#8 => some (.twr o)
  | 0x98#8 => some (.trd o)
  | 0xA0#8 => some (.sinit o)
  | 0xA1#8 => some (.sqadd o)
  | 0xA2#8 => some (.shadd o)
  | 0xA3#8 => some (.sdadd o)
  | 0xA4#8 => some (.smerge o)
  | 0xA5#8 => some (.sqry o)
  | 0xA6#8 => some (.shtop o)
  | 0xA7#8 => some (.sdest o)
  | 0xA8#8 => some (.qclamp o)
  | 0xB0#8 => some (.rdvt o)
  | 0xB1#8 => some (.armt o)
  | 0xB2#8 => some (.rdcnt o)
  | 0xB3#8 => some (.mfs o)
  | 0xB4#8 => some (.mts o)
  | 0xB5#8 => some (.ebook o)
  | 0xB6#8 => some (.tmark o)
  | 0xC0#8 => some (.kzero o)
  | 0xC1#8 => some (.scrub o)
  | 0xC2#8 => some (.pasgn o)
  | 0xC3#8 => some (.pfree o)
  | _ => none

/-- The body that fields stand for under their opcode's form, not yet checked. In a 96-bit form the
literal is source b, or source a where the form has no source b (R344). -/
def bodyOf (f : Fields) : Option Body :=
  let sh := shape f.opc f.md f.srcc
  let base : Body := { len := f.len, pred := f.pred, pneg := f.pneg, hint := f.hint, fset := f.fset, md := f.md }
  do
    let d ← readField sh.dst f.dcls f.dst
    let c ← readField sh.c f.ccls f.srcc
    match f.len with
    | .w3 =>
      if f.bcls = true ∧ f.srcb = 0#8 then
        if sh.b = .no then
          if f.acls = false ∧ f.srca = 0#8 then some { base with dst := d, a := .lit f.lit, c := c } else none
        else do
          let a ← readField sh.a f.acls f.srca
          some { base with dst := d, a := a, b := .lit f.lit, c := c }
      else none
    | _ => do
      let a ← readField sh.a f.acls f.srca
      let b ← readField sh.b f.bcls f.srcb
      some { base with dst := d, a := a, b := b, c := c }

/-- Decodes the words at a PC. `w2` and `w3` are read only where the first word's length has them. -/
def decodeWords (w1 w2 w3 : Word) : Option Instr :=
  match lenOf w1 with
  | some l =>
    let f := Fields.ofWords l w1 w2 w3
    do
      let o ← bodyOf f
      if bodyOk f.opc o then instrOf f.opc o else none
  | none =>
    if w1.extractLsb' 2 5 = 0#5 ∧ w1.extractLsb' 23 9 = 0#9 then
      some (.clause (w1.extractLsb' 19 4) (w1.extractLsb' 7 12))
    else none

/-- The fields of a body. -/
def fieldsOf (opc : BitVec 8) (o : Body) : Fields :=
  let d := writeField o.dst
  let a := match o.a with | .lit _ => (false, 0#8) | x => writeField x
  let lit : Word := match o.b, o.a with | .lit w, _ => w | _, .lit w => w | _, _ => 0
  let b := match o.len with | .w3 => (true, 0#8) | _ => writeField o.b
  let c := writeField o.c
  { dcls := d.1, dst := d.2, acls := a.1, srca := a.2, bcls := b.1, srcb := b.2, ccls := c.1, srcc := c.2,
    pneg := o.pneg, pred := o.pred, opc := opc, len := o.len, hint := o.hint, fset := o.fset, md := o.md,
    lit := lit }

/-- The words of an instruction that has an encoding, as many as its length says. -/
def encode (i : Instr) : List Word :=
  match i with
  | .clause n w => [0#9 ++ n ++ w ++ 0#5 ++ 3#2]
  | _ =>
    match opcodeOf i with
    | some (opc, o) =>
      let f := fieldsOf opc o
      match o.len with
      | .w1 => [f.word1]
      | .w2 => [f.word1, f.word2]
      | .w3 => [f.word1, f.word2, f.lit]
    | none => []

/-- Decodes a list of words, giving the instruction and the words after it. -/
def decode (ws : List Word) : Option (Instr × List Word) :=
  match ws with
  | [] => none
  | w1 :: r =>
    match wordsOf w1, r with
    | 1, _ => (decodeWords w1 0 0).map (·, r)
    | 2, w2 :: r => (decodeWords w1 w2 0).map (·, r)
    | 3, w2 :: w3 :: r => (decodeWords w1 w2 w3).map (·, r)
    | _, _ => none

/-- A little-endian word of four bytes (R3). -/
def wordOfBytes (b0 b1 b2 b3 : Byte) : Word := b3 ++ b2 ++ b1 ++ b0

/-- The little-endian words of a byte string; up to three bytes at its end that fill no word are left. -/
def wordsOfBytes : List Byte → List Word
  | b0 :: b1 :: b2 :: b3 :: r => wordOfBytes b0 b1 b2 b3 :: wordsOfBytes r
  | _ => []

/-- Decodes the instruction at the start of a byte string. -/
def decodeBytes (bs : List Byte) : Option Instr := (decode (wordsOfBytes bs)).map (·.1)

/-- The decoder on a number laid out as the opcode table numbers its bits: the first word lowest. -/
def decodeTableWord (nbits w : Nat) : Option Instr :=
  let n := w % 2 ^ nbits
  decodeWords (BitVec.ofNat 32 n) (BitVec.ofNat 32 (n / 2 ^ 32)) (BitVec.ofNat 32 (n / 2 ^ 64))

end Sys2Proof
end

