-- ==== Sys2Proof/Machine/State.lean ====
section
/-!
DEFINITION. The state of the D4 module, as plain data: every group, steer thread and Headwater with
its registers, every team, grid, context, core, cluster and partition, memory, the engines' queues,
and the fields that are the model's own (`agenda`, `pace`, `tick`, `cur`). A number that a table does
not list reads as the table's default, which is the value of the thing before it exists or at reset.
-/

namespace Sys2Proof.Machine

/-! ## Lanes and groups (03, 04, 13, 14) -/

/-- What a lane is doing (R55). Waits keep what they wait for; `left` counts the (dilated) vt of a
time-out, `none` being no limit. -/
inductive LaneSt where
  /-- No such lane, or it executed EXIT: its registers are gated (R69, R92). -/
  | gone
  | ready
  /-- Headwater while the boot ROM runs, before the image's entry (R15). -/
  | rom
  | join (j : Nat)
  | bar (b : Nat)
  | waitf (f : Nat) (left : Option Nat)
  /-- At WAITP: the promise, and the number below which the copies it covers were issued (R464). -/
  | waitp (promise : Word) (before : Nat)
  | sleep (left : Nat)
  | qpop (dst : Nat) (left : Option Nat)
  | xcommit
  /-- At ERET, until every trap lane is (R403). -/
  | eret
  | talloc (request : Word)
  | tallocRel (request : Word)
  /-- A fault at the partition's stage waits for the supervisor (R145). -/
  | pfault
  /-- Headwater at KZERO, until the kill it started is complete (R417). -/
  | kzero (slot : Nat)
  deriving DecidableEq, Repr, Inhabited

/-- One lane: PC (R43), status, the PC after a wait, age in clk (R58), clk in no issued bundle: from 2,048 on its
registers are drowsy (R91). -/
structure Lane where
  st : LaneSt := .gone
  pc : DWord := 0
  nx : DWord := 0
  age : Nat := 0
  idle : Nat := 0
  deriving DecidableEq, Repr, Inhabited

/-- A join barrier (R81). -/
structure JBar where
  parts : Mask := 0
  waiting : Mask := 0
  pc : DWord := 0
  deriving DecidableEq, Repr, Inhabited

/-- A deferred fault due or recorded (R242, R245): its cause, the instruction that started the
operation, the 64-byte specific record (empty if none), the operation it stopped (0 none) and its place
in the order of R242. -/
structure Deferred where
  code : BitVec 8 := 0
  oppc : DWord := 0
  addr : DWord := 0
  record : List Byte := []
  op : Nat := 0
  order : Nat := 0
  deriving DecidableEq, Repr, Inhabited

/-- A precise fault, as its record needs it (R239, R240). -/
structure TrapInfo where
  code : BitVec 8 := 0
  kind : Nat := 0
  lane : Nat := 0xFF
  addr : DWord := 0
  fail : Mask := 0
  done : Mask := 0
  fpef : Nat := 0
  special : List Byte := []
  /-- TRAPPC is the instruction after (PROMISE, TRAPI; R239). -/
  after : Bool := false
  deriving DecidableEq, Repr, Inhabited

/-- The trap registers (R237), the lanes of R238 and what ERET needs (R243, R245). -/
structure TrapRegs where
  base : DWord := 0
  pc : DWord := 0
  recd : DWord := 0
  inTrap : Bool := false
  deferred : Bool := false
  code : BitVec 8 := 0
  /-- The trap lanes, and the lanes held outside them. -/
  lanes : Mask := 0
  held : Mask := 0
  /-- The fault record's PC, class and DONE mask. -/
  recPc : DWord := 0
  precise : Bool := false
  done : Mask := 0
  /-- The engine operation whose fault the trap took. -/
  op : Nat := 0
  deriving DecidableEq, Repr, Inhabited

/-- The timer (R261, R262). -/
structure Timer where
  dl : DWord := 0
  wd : BitVec 5 := 0x14
  flag : BitVec 4 := 0xF
  fired : Bool := false
  mode : BitVec 2 := 0
  deriving DecidableEq, Repr, Inhabited

/-- An open atomic region (R163 to R169): participants, abort target, the footprint's lines read and
written (partition-physical line keys), the held bytes, newest first, with their key slot (one up), and the
half-lines written on race-checked pages. -/
structure Region where
  parts : Mask := 0
  target : DWord := 0
  reads : List Nat := []
  writes : List Nat := []
  held : List (Nat × Byte × Nat) := []
  marks : List Nat := []
  deriving DecidableEq, Repr, Inhabited

/-- Race clocks of a group (R178). `acq` is ordered by update, latest first. -/
structure RaceClk where
  clk : BitVec 16 := 0
  acq : List (BitVec 20 × BitVec 16) := []
  ovf : Option (BitVec 16) := none
  deriving DecidableEq, Repr, Inhabited

/-- A destination still to be written (the scoreboard of R420, R331): its class, first register,
number of registers, lanes, and the producer's PC. -/
structure Pend where
  scalar : Bool := false
  reg : Nat := 0
  n : Nat := 1
  lanes : Mask := 0
  pc : DWord := 0
  id : Nat := 0
  deriving DecidableEq, Repr, Inhabited

/-- Why the bundle did not issue when its turn came: it did, or has not had one; an operand or flag its
instruction needs is not there (R55); a structure is full, or the instruction waits for what is before it. -/
inductive Held where
  | no | operand | full
  deriving DecidableEq, Repr, Inhabited

/-- The current bundle (R56, R57, R59): its lanes, clk since the formation point, covered
instructions a clause has left, clk waited while ready, and whether the group takes a formation point at once, without
waiting for the next of those that fall every 4 clk. -/
structure Bundle where
  lanes : Mask := 0
  since : Nat := 0
  clause : Nat := 0
  waited : Nat := 0
  due : Bool := true
  /-- Clk since the group last issued (R331), and clk of a drowsy wake still to pass (R91). -/
  stall : Nat := 0
  wake : Nat := 0
  held : Held := .no
  /-- Lanes that yielded and are chosen last at the formation point (R466). -/
  last : Mask := 0
  deriving DecidableEq, Repr, Inhabited

/-- The roles of R45, and Headwater's scalar thread (R302). -/
inductive Role where
  | absent | produce | consume | steer | headwater
  deriving DecidableEq, Repr, Inhabited

/-- A group, a steer thread or Headwater. -/
structure Group where
  role : Role := .absent
  gid : Nat := 0
  team : Nat := 0
  slot : Nat := 0
  budget : Nat := 0
  ended : Bool := false
  s : Tbl Word := []
  /-- Register n of lane L is entry 64 n + L. -/
  v : Tbl Word := []
  x : Tbl Word := []
  /-- P1 to P7, bit L for lane L. -/
  p : Tbl Mask := []
  j : Tbl JBar := []
  flags : BitVec 12 := 0
  /-- For each pending flag, the instruction that set it (R331). -/
  flagPc : Tbl DWord := []
  lanes : Tbl Lane := []
  bundle : Bundle := {}
  privBase : DWord := 0
  fpmode : Word := 0
  fpflags : Word := 0
  trap : TrapRegs := {}
  /-- By PC, the lanes that skip the instruction there: they have performed it (R146, R243, R252). -/
  done : Tbl Mask := []
  timer : Timer := {}
  watch : Nat := 0
  xstat : Word := 0
  region : Option Region := none
  race : RaceClk := {}
  /-- MFS and MTS shadows: index of the low half and its bits (R87). -/
  mfs : Option (Nat × Word) := none
  mts : Option (Nat × Word) := none
  board : List Pend := []
  faults : List Deferred := []
  /-- Issues nothing: held by a debug step (R338), a stop (R247) or an unhandled fault (R244). -/
  stopped : Bool := false
  /-- The PC at which the supervisor has denied a mapping: the instruction there takes ACCESS (R145). -/
  deny : Option DWord := none
  /-- How many of the clk that passed last lie behind the group (R59). -/
  issued : Nat := 0
  /-- Instructions whose lanes wait: the lanes still waiting, and the lanes they act for; and, of those that have completed,
  the lanes, for the counts of the step in which they do (R332). -/
  under : List (Mask × Nat) := []
  owed : List Nat := []
  deriving DecidableEq, Repr, Inhabited

/-! ## Requests of a core (06, 08, 11) -/

/-- One access of one lane: context address, physical key, bytes `n` at bit `sh` of the lane's value, the
value, CAS's expected value, key slot (one up), and the page's RC and CP (R144). -/
structure Acc where
  lane : Nat := 0
  va : DWord := 0
  pa : Nat := 0
  n : Nat := 4
  sh : Nat := 0
  data : DWord := 0
  cmp : DWord := 0
  conf : Nat := 0
  rc : Bool := false
  cp : Nat := 0
  deriving DecidableEq, Repr, Inhabited

/-- What an access does at the home slice. -/
inductive ReqKind where
  | store | load | atom | cas | red | fill | enrol | cflush | pref
  /-- A partial that its core pushed out (R135). -/
  | part
  deriving DecidableEq, Repr, Inhabited

/-- A request of the load-store unit, for one line (R131, R151): its instruction (`id` is shared by the
requests of one instruction), kind, operation and type, CP, hint, destination with the bits its value is
sign-extended from (0 none), and flag. -/
structure Req where
  id : Nat := 0
  kind : ReqKind := .store
  agent : Nat := 0
  line : Nat := 0
  op : Nat := 0
  ty : Nat := 0
  hint : Nat := 0
  cp : Nat := 0
  dst : Opd := .none
  wide : Bool := false
  ext : Nat := 0
  flag : BitVec 4 := 15
  /-- Local clk at issue, for the joining of misses (R132). -/
  clkAt : Nat := 0
  /-- The fill's page: context, address of the line, key slot, RC. -/
  ctx : Nat := 0
  va : DWord := 0
  conf : Nat := 0
  rc : Bool := false
  accs : List Acc := []
  deriving DecidableEq, Repr, Inhabited

/-- A load that waits for a fill (R132). -/
structure Waiter where
  fill : Nat := 0
  req : Req := {}
  deriving DecidableEq, Repr, Inhabited

/-- An L1 line: its bytes, priority and last use (R138) and the copy of the writer metadata of its two half-lines
(R184); no bytes means absent. -/
structure L1Line where
  data : List Byte := []
  priority : Nat := 0
  used : Nat := 0
  w0 : BitVec 96 := 0
  w1 : BitVec 96 := 0
  deriving DecidableEq, Repr, Inhabited

/-- The scope record of a line (R159). -/
structure ScopeRec where
  agent : Nat := 0
  team : Nat := 0
  core : Nat := 0
  cluster : Nat := 0
  die : Nat := 0
  scope : Nat := 0
  acquires : Bool := false
  releases : Bool := false
  ctx : Nat := 0
  deriving DecidableEq, Repr, Inhabited

/-- The merge-pending state of a line (R134): operation, type, the cores that hold partials, and the
partials sent to the slice, by core, as (address, value) words (R135). -/
structure Merge where
  op : Nat := 0
  ty : Nat := 0
  holders : List Nat := []
  sent : Tbl (List (Nat × DWord)) := []
  deriving DecidableEq, Repr, Inhabited

/-- A partial inside a core (R134): its line, operation, type and words. -/
structure Partial where
  id : Nat := 0
  line : Nat := 0
  op : Nat := 0
  ty : Nat := 0
  words : List (Nat × DWord) := []
  /-- The agents whose RED has joined each word (R153). -/
  by_ : List (Nat × Nat) := []
  deriving DecidableEq, Repr, Inhabited

/-- A core's partial of SMERGE.RED (R232): the destination's line keys in order, the bytes, its place in the order of
the core's partials, and whether the core has pushed it out, so that the home slice holds it (R135). -/
structure SumPart where
  lines : List Nat := []
  bytes : List Byte := []
  id : Nat := 0
  out : Bool := false
  deriving DecidableEq, Repr, Inhabited

/-- What L2 and memory hold beside a line's data: whether L2 holds the line, priority, last use, scope record, merge-pending
state, race metadata of the two half-lines (R138, R159, R134, R181), the context and context address under which a
race-checked line was filled (R185), and, one up, the key slot under which the line is encrypted in memory (R294;
0 none). -/
structure L2Line where
  present : Bool := false
  /-- Written since it was last written back (R392). -/
  dirty : Bool := false
  conf : Nat := 0
  priority : Nat := 0
  used : Nat := 0
  rc : Option (Nat × Nat) := none
  /-- Half-lines whose entry in the shadow region no longer counts: a party that is not checked wrote them (R175). -/
  gone0 : Bool := false
  gone1 : Bool := false
  scope : Option ScopeRec := none
  merge : Option Merge := none
  race0 : BitVec 96 := 0
  race1 : BitVec 96 := 0
  /-- Writes of the line to memory under its key, and the slot, one up, under which the tag that memory keeps of it was
  made; 0 where it keeps none (R294). -/
  ctr : BitVec 32 := 0
  tag : Nat := 0
  deriving DecidableEq, Repr, Inhabited

/-- An entry of an Eddy queue (R142, R162): a copy with its shape record, or a QFENCE with the
operations it waits for. -/
structure Copy where
  id : Nat := 0
  agent : Nat := 0
  team : Nat := 0
  ctx : Nat := 0
  oppc : DWord := 0
  shape : List Word := []
  unit : Nat := 0
  promise : Word := 0
  flag : BitVec 4 := 15
  /-- A deferred fault holds it until ERET (R245). -/
  stopped : Bool := false
  fence : Bool := false
  waits : List Nat := []
  /-- The collective step it is (instance, step; R315). -/
  inst : Nat := 0
  step : Nat := 0
  isStep : Bool := false
  /-- The issuing group's race clocks and its active lanes at issue (R182, R189). -/
  race : RaceClk := {}
  lanes : Mask := 0
  hint : Nat := 0
  /-- The queue that holds a QFENCE entry (R162). -/
  q : Nat := 0
  /-- Every element has been moved: read, sent to its targets, or contributed. -/
  moved : Bool := false
  /-- Target and element of every write whose ACK is outstanding, and what failed: unit, rank, cause, address. -/
  acks : List (Nat × Nat) := []
  fails : List (Nat × Nat × BitVec 8 × DWord) := []
  /-- A step's contribution so far, its result not yet written, elements of the result written, and where a
  summary fold failed: the merge step, the rank whose header it is, and the header's address. -/
  buf : List Byte := []
  res : Option (List Byte) := none
  runit : Nat := 0
  foldErr : Option (Nat × Nat × DWord) := none
  /-- Bytes this copy overwrote, with their values from before it, for an overlapping source (R458). -/
  olds : List (Nat × Byte) := []
  deriving DecidableEq, Repr, Inhabited

/-- Where bundles issue (R59, R60): the latest clk, of those that passed last, in which one has issued, how many have in it,
the agent that issued last, and its slot: the last one before any has, so that the round robin begins at slot 0 (DESIGN
CHOICE, log 116). -/
structure Pipe where
  clk : Nat := 0
  issued : Nat := 0
  last : Nat := 0
  slot : Nat := 15
  deriving DecidableEq, Repr, Inhabited

/-- A core: its scratchpad share (R50), L1, requests on the way to home slices, loads waiting for
fills, Eddy queue, order of its merge-pending partials (R135), its two vector pipelines, and, at a cluster's first
core, the cluster's steer sequencer (R60). -/
structure Core where
  share : Nat := 0
  l1 : Tbl L1Line := []
  /-- The instruction caches: lines, their key slot, and their bytes as fetched, latest first (R361). -/
  icache : List (Nat × Nat × List Byte) := []
  queue : List Req := []
  waiters : List Waiter := []
  eddy : List Copy := []
  /-- Merge-pending partials, oldest first (R135). -/
  partials : List Partial := []
  /-- Partials of SMERGE.RED (R232). -/
  sums : List SumPart := []
  pipe : Pipe := {}
  seq : Pipe := {}
  /-- By context, the clk of its residence since its last SYNC record, plus one; 0 where none has been written since its
  release (R335). And the count of clk at the last sample (R331). -/
  synced : Tbl Nat := []
  sampled : Nat := 0
  /-- The confidential context, plus one, whose teams it ran since it was last cleared (R282). -/
  ranConf : Nat := 0
  deriving DecidableEq, Repr, Inhabited

/-! ## Translation (06) -/

/-- A mapping: the entry, its key, the frame's base, the page's size in bits. -/
structure Leaf where
  entry : Nat := 0
  key : Nat := 0
  base : Nat := 0
  shift : Nat := 12
  deriving DecidableEq, Repr, Inhabited

/-- Where a translated access goes: key, attributes (R144), and the mapping entries of both stages. -/
structure Trans where
  key : Nat := 0
  tier : Bool := false
  conf : Nat := 0
  rc : Bool := false
  cp : Nat := 0
  l1 : Leaf := {}
  l2 : Leaf := {}
  page : Nat := 0
  /-- The 4 KiB page of the address. -/
  vpn : Nat := 0
  deriving DecidableEq, Repr, Inhabited

/-! ## Matrix engine (10) -/

/-- What staging read (R197, R198): reasons and skips by segment, depth K, formats, codebooks, and the
rows' data and scale bytes of the A record and of each segment's B record. -/
structure Staged where
  reason : List Nat := []
  skip : List Bool := []
  k : Nat := 0
  fa : Nat := 0
  fb : List Nat := []
  /-- The tile registers its records name, as a mask (R195). -/
  tiles : Nat := 0
  cba : List Byte := []
  cbb : List (List Byte) := []
  a : List (List Byte × List Byte) := []
  b : List (List (List Byte × List Byte)) := []
  addr : DWord := 0
  deriving DecidableEq, Repr, Inhabited

/-- An entry of a steer thread's matrix queue (R192): opcode, modifier, operands, progress (R211, R214),
and what it stopped on. A QFENCE entry holds the operations it waits for. -/
structure MEntry where
  id : Nat := 0
  agent : Nat := 0
  oppc : DWord := 0
  opc : BitVec 8 := 0
  md : BitVec 8 := 0
  d : Nat := 0
  t : Nat := 0
  ra : DWord := 0
  rb : DWord := 0
  rc : Word := 0
  flag : BitVec 4 := 15
  fence : Bool := false
  waits : List Nat := []
  kstep : Nat := 0
  mtmask : BitVec 16 := 0
  row : Nat := 0
  staged : Option Staged := none
  stopped : Bool := false
  /-- Performed; kept at the head until its RECORD or MATRIXCHK fault's ERET (R208). -/
  performed : Bool := false
  race : RaceClk := {}
  deriving DecidableEq, Repr, Inhabited

/-- A named barrier (R82, R178): the groups that have arrived with the CLK each stamped, and the phase. -/
structure Bar where
  arrived : List (Nat × BitVec 16) := []
  phase : Bool := false
  deriving DecidableEq, Repr, Inhabited

/-- A team. Byte i of tile t is entry 8192 t + i; byte i of accumulator a is entry 24576 a + i. -/
structure Team where
  live : Bool := false
  grid : Nat := 0
  core : Nat := 0
  index : Nat := 0
  slot : Nat := 0
  steerSlot : Nat := 0
  groups : List Nat := []
  steer : Option Nat := none
  scratch : Tbl Byte := []
  scratchSize : Nat := 0
  bars : Nat := 0
  bar : Tbl Bar := []
  barOrd : Nat := 0
  bclk : Tbl (BitVec 16) := []
  tiles : Tbl Byte := []
  accs : Tbl Byte := []
  tmask : BitVec 16 := 0
  amask : BitVec 8 := 0
  tshape : Tbl Word := []
  tstatus : BitVec 2 := 0
  mqueue : List MEntry := []
  mstat : Word := 0
  inst : Nat := 0
  deriving DecidableEq, Repr, Inhabited

/-- A waiting blocking TALLOC request (R66, R67): its issuer, its number, and the clk of its die since which it waits. -/
structure TWait where
  agent : Nat := 0
  lanes : Mask := 0
  request : Word := 0
  since : Nat := 0
  /-- It has waited 65,536 clk (R66). -/
  aged : Bool := false
  id : Nat := 0
  deriving DecidableEq, Repr, Inhabited

/-- A cluster: usable (R17, R288), slot table (bit 18 VALID, [11:0] CTX; R196), TALLOC wait list, the
team last admitted, MATRIXCHK times (R288), and the contexts that left it to be cleared (R282). -/
structure Cluster where
  unusable : Bool := false
  slots : Tbl Word := []
  waits : List TWait := []
  /-- A refusal under R67 waits for accesses of its group's trap area. -/
  stuck : Bool := false
  /-- The operation in the array, and the steer slot admitted last (R197). -/
  admitted : Nat := 0
  lastSteer : Nat := 0
  chks : List Nat := []
  errors : Nat := 0
  /-- The contexts stopped for the cluster's retirement, while it is under way (R288). -/
  retiring : Option (List Nat) := none
  deriving DecidableEq, Repr, Inhabited

/-! ## Grids and contexts (03, 13, 16, 18) -/

/-- Where a grid stands. -/
inductive GridSt where
  | absent | held | placing | ended
  deriving DecidableEq, Repr, Inhabited

/-- The fields of a kernel descriptor (R36). -/
structure Kernel where
  pEntry : DWord := 0
  cEntry : DWord := 0
  sEntry : DWord := 0
  pcount : Nat := 0
  ccount : Nat := 0
  steer : Bool := false
  coresident : Bool := false
  pregs : Nat := 0
  cregs : Nat := 0
  scratch : Nat := 0
  bars : Nat := 0
  tiles : Nat := 0
  accs : Nat := 0
  deriving DecidableEq, Repr, Inhabited

/-- A grid: its launch (R321), kernel, position and account (R252, R300). -/
structure Grid where
  st : GridSt := .absent
  ctx : Nat := 0
  part : Nat := 0
  vd : Nat := 0
  queue : Nat := 0
  tag : Word := 0
  kdesc : DWord := 0
  kernel : Kernel := {}
  param : DWord := 0
  priv : DWord := 0
  pwords : Nat := 0
  dimX : Nat := 0
  dimY : Nat := 0
  dimZ : Nat := 0
  prio : Nat := 0
  /-- Whether the launch received a generation, and which (R180). -/
  checked : Bool := false
  gen : BitVec 4 := 0
  next : Nat := 0
  endedTeams : Nat := 0
  estimate : Nat := 0
  booked : Bool := false
  booking : Nat := 0
  measured : Nat := 0
  recAddr : DWord := 0
  submitted : Nat := 0
  /-- gt at which it was first skipped while others were placed (R52). -/
  skippedAt : Option Nat := none
  blocksOthers : Bool := false
  faulted : Bool := false
  cause : BitVec 8 := 0
  record : List Byte := []
  status : Nat := 0
  deriving DecidableEq, Repr, Inhabited

/-- Context states (R251). -/
inductive CtxSt where
  | free | running | stopping | stopped | resuming | lost
  deriving DecidableEq, Repr, Inhabited

/-- A registered collective group (R311, R268): members (module, context), own rank, NEXTSEQ, and the
ranks whose residency bit is clear. -/
structure CollGroup where
  members : List (Nat × Nat) := []
  rank : Nat := 0
  nextSeq : BitVec 16 := 0
  halted : List Nat := []
  departed : List Nat := []
  deriving DecidableEq, Repr, Inhabited

/-- A stop in progress (R247 to R249): none, drain or capture; kill; what follows. -/
inductive StopSt where
  | none
  | drain (at_ : Nat)
  | capture (at_ : Nat) (kill : Bool)
  deriving DecidableEq, Repr, Inhabited

/-- What the save image holds of a context (R252): teams, groups and Eddy entries; and the image's size.
Its grids, instances and counters stay in the tables of the state. -/
structure Saved where
  drain : Bool := false
  size : Nat := 0
  /-- Where the parts of each team and group begin in the image. -/
  teamOff : Tbl Nat := []
  groupOff : Tbl Nat := []
  teams : Tbl Team := []
  groups : Tbl Group := []
  copies : List Copy := []
  deriving DecidableEq, Repr, Inhabited

/-- A context: its partition, descriptor's partition-physical address (R250), and the state beside the
descriptor. -/
structure Context where
  part : Nat := 0
  desc : Nat := 0
  hasDesc : Bool := false
  st : CtxSt := .free
  err : Nat := 0
  need : Nat := 0
  stop : StopSt := .none
  /-- By die, the clk at which the capture was requested (R172). -/
  stopClks : Tbl Nat := []
  acks : List Nat := []
  /-- VCLK = GTIME − voff while it advances; else `vfrozen` (R257 to R259). -/
  vrun : Bool := false
  voff : Nat := 0
  vfrozen : DWord := 0
  retired : Nat := 0
  counters : Tbl DWord := []
  cntsel : Tbl Word := []
  /-- The first GTIME that a counter counts, after a write of its CNTSELn (R329). -/
  cntFrom : Tbl Nat := []
  racectl : Word := 1
  scopectl : Word := 1
  trctl : Word := 0
  dbgctl : Word := 0
  trbuf : DWord := 0
  /-- HEAD: the records of the ring that the collector keeps count of (R334). -/
  trHead : DWord := 0
  dbgset : DWord := 0
  rstop : DWord := 0
  gen : BitVec 4 := 0
  clearing : List (BitVec 4) := []
  liveGens : List (BitVec 4) := []
  colls : Tbl CollGroup := []
  unreached : Nat := 0
  /-- The gt of the HALTED notices (R268), and the group and rank of every member that has not acknowledged. -/
  noticeAt : Nat := 0
  noticeAcks : List (Nat × Nat) := []
  /-- Members whose acknowledgement of an earlier notice is still on its way: it comes first (R309). -/
  lateAcks : List (Nat × Nat) := []
  /-- The gt at which VCLK last stopped (R299). -/
  frozenAt : Nat := 0
  /-- Pages of the context that the supervisor has mapped onto kick pages or guest memory, by 4 KiB page: the key of the
  page's first byte, plus one (R321). -/
  windows : Tbl Nat := []
  dirty : List (DWord × Nat) := []
  dirtyAll : Bool := false
  saved : Option Saved := none
  stepping : Bool := false
  /-- GTIME at which the step was released (R338), and whether the present stop's notices are sent (R268). -/
  stepAt : Nat := 0
  noticed : Bool := false
  digests : List (BitVec 256) := []
  /-- The class and GTIME of its last fault, and its faults by class: 0 precise, 1 deferred, 2 fatal (R239, R298). -/
  faultClass : Option Nat := none
  faultAt : Nat := 0
  faultCounts : Tbl Nat := []
  deriving DecidableEq, Repr, Inhabited

/-! ## Partitions, tenants, host (16, 18) -/

/-- A Sluice job (R283, R305): base, pages, tier, key slot, pages zeroed, the flag it completes. -/
structure Job where
  base : Nat := 0
  pages : Nat := 0
  tier : Bool := false
  kslot : Nat := 0xFF
  done : Nat := 0
  agent : Option Nat := none
  flag : BitVec 4 := 15
  clear : Option (Nat × Nat) := none
  fence : Bool := false
  /-- Words of the page in progress that hold zero already (R286). -/
  zeroed : List Nat := []
  deriving DecidableEq, Repr, Inhabited

/-- Partition states (R277). -/
inductive PartSt where
  | free | scrubbing | ready | active | resetting
  deriving DecidableEq, Repr, Inhabited

/-- A partition: state, ERR, owned resources, loaded supervisor fields (R278), energy (R299), Sluice. -/
structure Partition where
  st : PartSt := .free
  err : Nat := 0
  clusters : List Nat := []
  slices : List Nat := []
  channels : List Nat := []
  ranges : List Nat := []
  t2weight : Nat := 0
  grantCnt : Nat := 0
  grantBase : DWord := 0
  eacct : Int := 0
  emeter : Nat := 0
  /-- The energy window last metered, and the grids that have ended in the present one, each with its gt (R299). -/
  ewin : Nat := 0
  ended : List (Nat × Nat) := []
  jobs : List Job := []
  paused : Bool := false
  lastDone : Nat := 0
  /-- Resources being cleared: kind, index, and whether ownership ends with it (R280, R282). -/
  clearing : List (Nat × Nat × Bool) := []
  deriving DecidableEq, Repr, Inhabited

/-- A key slot (R295). -/
structure KeySlot where
  owner : Option Nat := none
  mem : Option (BitVec 256) := none
  report : Option (BitVec 256) := none
  bound : Option Nat := none
  /-- The import block that the tenant last wrote over its IDE stream: the key and its tag (R295). -/
  block : Option (BitVec 256 × BitVec 128) := none
  deriving DecidableEq, Repr, Inhabited

/-- A virtual-device queue (R321, R324). -/
structure VQueue where
  ring : DWord := 0
  cring : DWord := 0
  size : Nat := 0
  vector : Nat := 0
  head : Nat := 0
  tail : Nat := 0
  read : Nat := 0
  written : Nat := 0
  /-- FENCE commands read and not complete: tag and the grids each waits for (R321). -/
  fences : List (Word × List Nat) := []
  deriving DecidableEq, Repr, Inhabited

/-- A virtual device (R289 to R291). -/
structure VDev where
  owner : Option Nat := none
  bound : Option Nat := none
  kicks : Tbl Word := []
  pending : BitVec 64 := 0
  /-- The stamp of each queue's last kick that was replayed (R267, R291). -/
  stamps : Tbl Nat := []
  queues : Tbl VQueue := []
  deriving DecidableEq, Repr, Inhabited

/-- A collective instance at a member (R312 to R319). Contributions and results are by step and rank. -/
structure Inst where
  live : Bool := false
  ctx : Nat := 0
  gid : Nat := 0
  seq : BitVec 16 := 0
  tag : BitVec 16 := 0
  alg : Nat := 0
  kind : Nat := 0
  op : Nat := 0
  agent : Nat := 0
  team : Nat := 0
  oppc : DWord := 0
  /-- Waits for a slot decision; S[dst] and the flag complete then (R316). -/
  waiting : Bool := false
  dst : Nat := 0
  flag : BitVec 4 := 15
  steps : Nat := 0
  mismatch : Bool := false
  /-- A mismatch met while the context is stopped: the unit and rank of its record (R267, R314). -/
  owed : Option (Nat × Nat) := none
  /-- It is no longer the current instance; it has closed (R313). -/
  closing : Bool := false
  closed : Bool := false
  /-- The arrived-tile queue, oldest first (R318), and the steps' writes counted by rank. -/
  tiles : List Word := []
  arrivals : List (Nat × Nat) := []
  /-- By sender, the last step whose tile has been pushed; and steps of which a write failed in the present
  transmission. -/
  pushed : List (Nat × Nat) := []
  failed : List (Nat × Nat) := []
  /-- Waiting QPOPs, oldest first: agent, lanes, destination, scoreboard entry. -/
  qwait : List (Nat × Mask × Nat × Nat) := []
  members : List (Nat × Nat) := []
  rank : Nat := 0
  /-- GTIME of a Confluence COLLSET, and whether rank 0's slot request has been sent (R316). -/
  stamp : Nat := 0
  requested : Bool := false
  deriving DecidableEq, Repr, Inhabited

/-- A Confluence slot of this module's switch (R316, R317). -/
structure Slot where
  used : Bool := false
  module_ : Nat := 0
  ctx : Nat := 0
  gid : Nat := 0
  seq : BitVec 16 := 0
  /-- A ring or tree instance: its steps are folded here too, and it takes no slot. -/
  ring : Bool := false
  members : List (Nat × Nat) := []
  contribs : Tbl (List Byte) := []
  /-- By rank, TAG, KIND, OP and ALG of the member's instance (R314); and the ranks whose instance has closed. -/
  descs : Tbl (List Byte) := []
  closed : List Nat := []
  /-- The same of members whose COLLSET waits for a decision, and whether the request was refused. -/
  asking : Tbl (List Byte) := []
  refused : Bool := false
  /-- By step, the merge steps of a summary fold that stands at a failed one, and the summary after them (R245). -/
  merged : Tbl (Nat × List Byte) := []
  deriving DecidableEq, Repr, Inhabited

/-- A slot request that waits for its decision (R316). -/
structure SlotReq where
  stamp : Nat := 0
  part : Nat := 0
  ctx : Nat := 0
  gid : Nat := 0
  seq : BitVec 16 := 0
  deriving DecidableEq, Repr, Inhabited

/-- Weir's budget and count of one partition and class (R292, R293). The budget is held as its
complement, so that the reset value 0xFF_FFFF is the default. -/
structure Weir where
  unbudget : BitVec 24 := 0
  count : Nat := 0
  deriving DecidableEq, Repr, Inhabited

/-- A write to the host that waits under Weir: the partition and device, IOVA, bytes, and the signal that follows
(R293). -/
structure HostWrite where
  part : Nat := 0
  vd : Nat := 0
  iova : Nat := 0
  data : List Byte := []
  signal : Option (Nat × Nat) := none
  deriving DecidableEq, Repr, Inhabited

/-- A port's replay sequence and the sequence it has acknowledged (R308); the flits sent that are not acknowledged yet,
which a NAK has replayed; and whether the last flit that came in failed its check (R310). -/
structure Link where
  sent : BitVec 12 := 0
  got : BitVec 12 := 0
  out : List (List Byte) := []
  nak : Bool := false
  deriving DecidableEq, Repr, Inhabited

/-- Boot stages (R15). -/
inductive Stage where
  | rom | verify | supervisor | scrub | fabric | ready | tripped | recovery
  deriving DecidableEq, Repr, Inhabited

/-- Boot and base-die state: BOOTST (R16), the fused counter (R14), die clocks in MHz below nominal
(R11), thermal throttles (R13), module number, ports (R310). -/
structure Boot where
  stage : Stage := .rom
  failcode : Nat := 0
  usable : Nat := 0
  imgver : BitVec 16 := 0
  /-- The digest of the image that runs, as VERIFY took it (R297). -/
  measure : BitVec 256 := 0
  fused : BitVec 16 := 0
  /-- The image to check is the staged one (R18). -/
  staged : Bool := false
  slower : Tbl Nat := []
  hot : Tbl Nat := []
  watts : Nat := 0
  moduleNo : Nat := 0
  ports : BitVec 16 := 0
  /-- Route table and wiring: for a module the port to it, and for a port the module at its far end, each
  plus one (R308, R310, R313). -/
  routes : Tbl Nat := []
  wires : Tbl Nat := []
  /-- Hosts' capture of high words: GTIME, and VCLK by context (R271). -/
  capture : Tbl Word := []
  deriving DecidableEq, Repr, Inhabited

/-- The module-scope status registers of R86 that hold what the last MTS named. -/
structure ModRegs where
  partcfg : BitVec 6 := 0
  keyslot : BitVec 6 := 0
  keyctx : BitVec 12 := 0
  scrubctl : BitVec 6 := 0
  vdcfg : BitVec 8 := 0
  vdctx : BitVec 12 := 0
  vdNone : Bool := false
  /-- An MTS has named a device: before it PART reads its Reset value (R290). -/
  vdNamed : Bool := false
  weirClass : BitVec 2 := 0
  weirPart : BitVec 6 := 0
  slottab : BitVec 13 := 0
  ctx : BitVec 12 := 0
  deriving DecidableEq, Repr, Inhabited

/-! ## The model's own: turns -/

/-- What the supervisor firmware sets up through no register of the spec: a context's partition and
descriptor (R250), a queue's rings (R321), a collective group (R311), the module number (R308). -/
inductive Setup where
  | context (ctx part desc : Nat)
  | rings (vd q : Nat) (ring cring : DWord) (size vector : Nat)
  | group (ctx gid : Nat) (members : List (Nat × Nat))
  | moduleNo (n : Nat)
  | route (module_ port : Nat)
  | wire (port module_ : Nat)
  /-- A code or const section is loaded for a context (R297). -/
  | section_ (ctx : Nat) (bytes : List Byte)
  /-- A firmware update with the image at an address of Headwater memory (R19). -/
  | firmware (addr : Nat)
  /-- A tenant writes an import block over its IDE stream (R295). -/
  | importBlock (slot : Nat) (key : BitVec 256) (tag : BitVec 128)
  /-- The host takes back the translation of a page it gave a device (R320). -/
  | atsInvalidate (vd page : Nat)
  /-- A page of a guest leaves the host's memory, and comes back, as a PRI request asks (R320). -/
  | pageOut (vd page : Nat)
  | pageIn (vd page : Nat)
  /-- A page of a context is mapped onto the kick page of a device, or onto a page of its guest's memory (R321). -/
  | kickPage (ctx page vd : Nat)
  | guestPage (ctx page vd iova : Nat)
  /-- A host or debugger read of a context's memory (R135). -/
  | read (ctx : Nat) (addr : DWord) (n : Nat)
  deriving DecidableEq, Repr, Inhabited

/-- What is stamped when it is delivered to a context (R267): a flit, or an arrived tile of an instance. -/
inductive Message where
  | flit (f : Flit)
  | tile (inst : Nat) (w : Word)
  deriving DecidableEq, Repr, Inhabited

/-- What the next step does: an operation or event, an issue by an agent, some elements of a copy, a
flit that comes in from a port as so many frames, or a set-up act of the supervisor. -/
inductive Turn where
  | issue (agent : Nat)
  /-- Sluice zeroes a word of the page in progress (R286). -/
  | zero (part word : Nat)
  | event (i : Instr)
  | move (core i n : Nat)
  | arrive (fl : Flit) (frames : List (List Byte))
  | setup (u : Setup)
  deriving DecidableEq, Repr, Inhabited

/-- The instruction being executed: its agent, ACTMASK, PC and words. -/
structure Cur where
  agent : Nat := 0
  act : Mask := 1
  pc : DWord := 0
  /-- The ready runs of its group that do not issue, which age (R58). -/
  others : Mask := 0
  /-- The core, plus one, whose unit or engine translates; 0 for a unit of no core (R143). -/
  core : Nat := 0
  deriving DecidableEq, Repr, Inhabited

/-- The state of the module. -/
structure State where
  groups : Tbl Group := []
  teams : Tbl Team := []
  grids : Tbl Grid := []
  ctxs : Tbl Context := []
  cores : Tbl Core := []
  clusters : Tbl Cluster := []
  parts : Tbl Partition := []
  keys : Tbl KeySlot := []
  vdevs : Tbl VDev := []
  insts : Tbl Inst := []
  slots : Tbl Slot := []
  slotReqs : List SlotReq := []
  weir : Tbl Weir := []
  l2 : Tbl L2Line := []
  mem : Tbl Byte := []
  /-- Translations that a core, and its die, may hold in their caches: the core, the context and what the walks gave, latest
  first (R143). -/
  xlat : List (Nat × Nat × Trans) := []
  /-- Half-lines of which an engine operation under way has reported a race: its number and the half-line (R189). -/
  raced : List (Nat × Nat) := []
  boot : Boot := {}
  regs : ModRegs := {}
  gtime : Nat := 0
  retiredHw : Nat := 0
  /-- By die, clk since reset in thousandths, and the clk that passed last (R5, R11, R335). -/
  clks : Tbl Nat := []
  passed : Tbl Nat := []
  /-- By die, slots of the matrix engines' rotation that have begun; the current one is this modulo 64 (R196). -/
  slotNo : Tbl Nat := []
  /-- Flits sent, flits received and not yet taken, flits held for a stopped context (R267), MSI-X
  signals raised, and Headwater's counts: discarded flits, checks failed in a row per port,
  the ports' sequences, soft errors per unit. -/
  sent : List Flit := []
  inbox : List Flit := []
  buffered : List (Flit × Nat) := []
  /-- What has been delivered to contexts, in order, each with the VCLK it was stamped with (R267). -/
  stamped : List (Message × Nat) := []
  /-- Flits and decisions of an instance that the member context has not opened yet (R316, R326). -/
  early : List Flit := []
  msix : List (Nat × Nat) := []
  /-- Writes to the host that wait under Weir, oldest first, and the number of Weir's present window (R293). -/
  hostWrites : List HostWrite := []
  weirWin : Nat := 0
  /-- Translations of host pages that the module holds: the device, as its PASID, and the 4 KiB page (R320). -/
  atc : List (Nat × Nat) := []
  /-- Pages of guests that the host's memory does not hold; and those of which a translation request has found none, with
  whether a PRI request has followed (R320). -/
  hostAbsent : List (Nat × Nat) := []
  hostWaits : List (Nat × Nat × Bool) := []
  /-- Slices at which a tag has failed to verify and whose error has not come about yet (R255, R294). -/
  tagErrors : List Nat := []
  discarded : Nat := 0
  replays : Tbl Nat := []
  links : Tbl Link := []
  softErrors : Tbl Nat := []
  reports : List (List Byte) := []
  outcome : Tbl Word := []
  fresh : Nat := 1
  cur : Cur := {}
  agenda : List Turn := []
  pace : List Nat := []
  tick : Nat := 0
  deriving DecidableEq, Repr, Inhabited

/-- Why the machine stops. -/
inductive Fault where
  /-- The agenda names, as an event, an instruction that has an encoding; such an instruction comes
  from memory. Raised by `step`; safe: no run of the hardware has such a turn. -/
  | agendaNotEvent
  deriving DecidableEq, Repr, Inhabited

/-- Why the model does not go on. -/
inductive Refusal where
  /-- An instruction that has no meaning yet, by its mnemonic. Raised by `exec`; safe. -/
  | notModelled (mnemonic : String)
  deriving DecidableEq, Repr, Inhabited

/-- Headwater after reset: one lane, at PC 0 until the boot ROM enters the image (R15, R302). -/
def Group.headwater0 : Group :=
  { role := .headwater, gid := 16, lanes := [(0, { st := .rom })] }

/-- The machine right after power-on or module reset: stage ROM (R15, R16), GTIME 0 (R271), every
partition FREE, every register at its Reset value. -/
def State.reset : State := { groups := [(0, Group.headwater0)] }

end Sys2Proof.Machine
end

