-- ==== Sys2Proof/Machine/Access.lean ====
section
/-!
DEFINITION. Reading and updating the parts of the state: one accessor and one update each for groups,
teams, grids, contexts, cores, clusters, partitions, virtual devices, instances and L2 lines, and the
one pair of operations that reads and writes each register class (R74 to R77).
-/

namespace Sys2Proof.Machine

/-! ## Tables of the state -/

def State.grp (s : State) (a : Nat) : Group := s.groups.at a
def State.modGrp (s : State) (a : Nat) (f : Group → Group) : State :=
  { s with groups := s.groups.put a (f (s.groups.at a)) }
def State.team (s : State) (t : Nat) : Team := s.teams.at t
def State.modTeam (s : State) (t : Nat) (f : Team → Team) : State :=
  { s with teams := s.teams.put t (f (s.teams.at t)) }
def State.grid (s : State) (g : Nat) : Grid := s.grids.at g
def State.modGrid (s : State) (g : Nat) (f : Grid → Grid) : State :=
  { s with grids := s.grids.put g (f (s.grids.at g)) }
def State.ctx (s : State) (c : Nat) : Context := s.ctxs.at c
def State.modCtx (s : State) (c : Nat) (f : Context → Context) : State :=
  { s with ctxs := s.ctxs.put c (f (s.ctxs.at c)) }
def State.core (s : State) (c : Nat) : Core := s.cores.at c
def State.modCore (s : State) (c : Nat) (f : Core → Core) : State :=
  { s with cores := s.cores.put c (f (s.cores.at c)) }
def State.cluster (s : State) (c : Nat) : Cluster := s.clusters.at c
def State.modCluster (s : State) (c : Nat) (f : Cluster → Cluster) : State :=
  { s with clusters := s.clusters.put c (f (s.clusters.at c)) }
def State.part (s : State) (p : Nat) : Partition := s.parts.at p
def State.modPart (s : State) (p : Nat) (f : Partition → Partition) : State :=
  { s with parts := s.parts.put p (f (s.parts.at p)) }
def State.vdev (s : State) (v : Nat) : VDev := s.vdevs.at v
def State.modVDev (s : State) (v : Nat) (f : VDev → VDev) : State :=
  { s with vdevs := s.vdevs.put v (f (s.vdevs.at v)) }
def State.inst (s : State) (i : Nat) : Inst := s.insts.at i
def State.modInst (s : State) (i : Nat) (f : Inst → Inst) : State :=
  { s with insts := s.insts.put i (f (s.insts.at i)) }
def State.l2line (s : State) (l : Nat) : L2Line := s.l2.at l
def State.modL2 (s : State) (l : Nat) (f : L2Line → L2Line) : State :=
  { s with l2 := s.l2.put l (f (s.l2.at l)) }
def State.key (s : State) (k : Nat) : KeySlot := s.keys.at k
def State.modKey (s : State) (k : Nat) (f : KeySlot → KeySlot) : State :=
  { s with keys := s.keys.put k (f (s.keys.at k)) }
def State.vq (s : State) (vd q : Nat) : VQueue := (s.vdev vd).queues.at q
def State.modVQ (s : State) (vd q : Nat) (f : VQueue → VQueue) : State :=
  s.modVDev vd (fun d => { d with queues := d.queues.put q (f (d.queues.at q)) })

/-! ## The issuing agent -/

def State.me (s : State) : Group := s.grp s.cur.agent
def State.modMe (s : State) (f : Group → Group) : State := s.modGrp s.cur.agent f
def State.teamOf (s : State) (a : Nat) : Team := s.team (s.grp a).team
def State.gridOf (s : State) (a : Nat) : Grid := s.grid (s.teamOf a).grid
/-- The context of an agent; Headwater has none, and its entry reads as no context. -/
def State.ctxNo (s : State) (a : Nat) : Nat := (s.gridOf a).ctx
def State.coreNo (s : State) (a : Nat) : Nat := (s.teamOf a).core
def State.clusterNo (s : State) (a : Nat) : Nat := s.coreNo a / 2
def State.partNo (s : State) (a : Nat) : Nat := (s.gridOf a).part
def State.myTeam (s : State) : Team := s.teamOf s.cur.agent
def State.myGrid (s : State) : Grid := s.gridOf s.cur.agent
def State.myCtxNo (s : State) : Nat := s.ctxNo s.cur.agent
def State.myCtx (s : State) : Context := s.ctx s.myCtxNo
def State.myCore (s : State) : Core := s.core (s.coreNo s.cur.agent)
/-- An agent's translations go through the caches of its core; a unit of no core has none (R143). -/
def State.atUnit (a : Nat) (s : State) : State := { s with cur := { s.cur with core := if a = 0 then 0 else s.coreNo a + 1 } }
def State.isHw (s : State) : Bool := s.me.role = .headwater

/-- Lanes of a role: 64 for the groups, one for a steer thread and Headwater (R47, R302). -/
def Role.width : Role → Nat
  | .produce => 64
  | .consume => 64
  | _ => 1

def Role.scalar : Role → Bool
  | .steer => true
  | .headwater => true
  | _ => false

/-! ## Registers (R74 to R78) -/

def Group.sreg (g : Group) (n : Nat) : Word := g.s.at n
def Group.setS (g : Group) (n : Nat) (w : Word) : Group := { g with s := g.s.put n w }
def Group.vreg (g : Group) (n l : Nat) : Word := g.v.at (64 * n + l)
def Group.setV (g : Group) (n l : Nat) (w : Word) : Group := { g with v := g.v.put (64 * n + l) w }
/-- P0 reads 1 in every lane (R77). -/
def Group.preg (g : Group) (n l : Nat) : Bool := n = 0 || (g.p.at n).getLsbD l
/-- A write of P0 is discarded (R77). -/
def Group.setP (g : Group) (n l : Nat) (b : Bool) : Group :=
  if n = 0 then g
  else { g with p := g.p.put n (if b then g.p.at n ||| laneBit l else g.p.at n &&& ~~~ laneBit l) }
def Group.xreg (g : Group) (n l : Nat) : Word := g.x.at (64 * n + l)
def Group.setX (g : Group) (n l : Nat) (w : Word) : Group := { g with x := g.x.put (64 * n + l) w }
def Group.spair (g : Group) (n : Nat) : DWord := g.sreg (n + 1) ++ g.sreg n
def Group.setSPair (g : Group) (n : Nat) (w : DWord) : Group :=
  (g.setS n (w.extractLsb' 0 32)).setS (n + 1) (w.extractLsb' 32 32)
def Group.vpair (g : Group) (n l : Nat) : DWord := g.vreg (n + 1) l ++ g.vreg n l

/-- Lanes whose PREDicate passes (R350). -/
def Group.passing (g : Group) (o : Body) : Mask :=
  let m : Mask := if o.pred = 0 then BitVec.allOnes 64 else g.p.at o.pred.toNat
  if o.pneg then ~~~ m else m

/-! ## Lanes -/

def Group.lane (g : Group) (l : Nat) : Lane := g.lanes.at l
def Group.modLane (g : Group) (l : Nat) (f : Lane → Lane) : Group :=
  { g with lanes := g.lanes.put l (f (g.lanes.at l)) }
/-- Applies an update to every lane of a mask. -/
def Group.modLanes (g : Group) (m : Mask) (f : Lane → Lane) : Group :=
  (lanesOf m).foldl (fun g l => g.modLane l f) g
def Group.setPcs (g : Group) (m : Mask) (pc : DWord) : Group := g.modLanes m (fun x => { x with pc := pc })
/-- Lanes of a status. -/
def Group.lanesWith (g : Group) (f : LaneSt → Bool) : Mask := maskOf (fun l => f (g.lane l).st)
def Group.live (g : Group) : Mask := g.lanesWith (fun x => x ≠ .gone)
/-- Ready lanes that no trap holds (R55, R238). -/
def Group.ready (g : Group) : Mask := g.lanesWith (fun x => x = .ready) &&& ~~~ g.trap.held

/-- ACTMASK of the instruction being executed, and those of its lanes that pass the predicate. -/
def State.act (s : State) : Mask := s.cur.act
def State.active (s : State) (o : Body) : Mask := s.cur.act &&& s.me.passing o

/-- All the lanes that still wait at an instruction are in a mask. -/
def lastOf (m : Mask) (e : Mask × Nat) : Bool := decide (e.1 &&& m ≠ 0 ∧ e.1 &&& ~~~ m = 0)
/-- Lanes of a mask wait no more: an instruction whose last waiting lanes are among them has completed (R332). -/
def Group.finish (g : Group) (m : Mask) : Group :=
  { g with under := (g.under.filter (fun e => !lastOf m e)).map (fun e => (e.1 &&& ~~~ m, e.2)),
           owed := g.owed ++ (g.under.filter (lastOf m)).map (·.2) }
/-- Lanes of a mask leave their wait, and the instruction has not completed. -/
def Group.unfinish (g : Group) (m : Mask) : Group := { g with under := g.under.filter (fun e => decide (e.1 &&& m = 0)) }

/-! ## Tiles, accumulators, scratchpad of a team -/

def Team.tile (t : Team) (n i : Nat) : Byte := t.tiles.at (8192 * n + i)
def Team.setTile (t : Team) (n i : Nat) (b : Byte) : Team := { t with tiles := t.tiles.put (8192 * n + i) b }
def Team.acc (t : Team) (n i : Nat) : Nat :=
  ofLe ((List.range 6).map (fun b => t.accs.at (24576 * n + 6 * i + b)))
def Team.setAcc (t : Team) (n i : Nat) (v : Nat) : Team :=
  { t with accs := (leBytes 6 v).zipIdx.foldl (fun m (b, k) => m.put (24576 * n + 6 * i + k) b) t.accs }
def Team.scratchBytes (t : Team) (o n : Nat) : List Byte := (List.range n).map (fun i => t.scratch.at (o + i))
def Team.setScratch (t : Team) (o : Nat) (l : List Byte) : Team :=
  { t with scratch := l.zipIdx.foldl (fun m (b, k) => m.put (o + k) b) t.scratch }

/-! ## Time -/

/-- The VCLK of a context: GTIME − VOFF while it advances, else where it stopped (R257 to R259). -/
def State.vclk (s : State) (c : Nat) : DWord :=
  let x := s.ctx c
  if x.vrun then bv 64 (s.gtime - x.voff) else x.vfrozen

/-- The clock an agent's RDVT returns: VCLK, and GTIME on Headwater (R302). -/
def State.clockOf (s : State) (a : Nat) : DWord :=
  if (s.grp a).role = .headwater then bv 64 s.gtime else s.vclk (s.ctxNo a)

/-- The clock of a die in MHz (R10 to R13), which is the nominal 3,300 after reset (DESIGN CHOICE, log 86: the spec
gives no reset value). -/
def dieMhz (s : State) (die : Nat) : Nat := Config.nominalMhz - s.boot.slower.at die

/-- Clk of a die since reset (R335), of the die of a core, and those of it that passed last. -/
def State.clkOf (s : State) (die : Nat) : Nat := s.clks.at die / 1000
def State.coreClk (s : State) (k : Nat) : Nat := s.clkOf (k / 40)
/-- gt until a die's clk reach a count (R5, R11). -/
def State.gtFor (s : State) (die clk : Nat) : Nat := (clk * 1000 - s.clks.at die + dieMhz s die - 1) / max 1 (dieMhz s die)
/-- The slot of a cluster's rotation (R196). -/
def State.slotOf (s : State) (c : Nat) : Nat := s.slotNo.at (c / 20) % 64
def State.passedOf (s : State) (k : Nat) : Nat := s.passed.at (k / 40)

/-- A fresh number for an operation, request or instance. -/
def State.takeId (s : State) : Nat × State := (s.fresh, { s with fresh := s.fresh + 1 })

end Sys2Proof.Machine
end

