-- ==== Sys2Proof/Machine/Fp.lean ====
section
/-!
DEFINITION. The floating-point formats and arithmetic of 05: encodings to exact values and back with
one rounding (R96 to R100), sums and products formed exactly (R98, R119), minimumNumber and
maximumNumber (R102), the correctly rounded functions of R103 by interval arithmetic on integers, and
ACC48 (R112).
-/

namespace Sys2Proof.Machine

/-- A format: exponent bits, fraction bits, bias, and whether it is E4M3, which has no infinity (R96). -/
structure Fmt where
  eb : Nat
  fb : Nat
  bias : Int
  e4m3 : Bool := false
  deriving DecidableEq, Repr

def fp32 : Fmt := { eb := 8, fb := 23, bias := 127 }
def fp16 : Fmt := { eb := 5, fb := 10, bias := 15 }
def bf16 : Fmt := { eb := 8, fb := 7, bias := 127 }
def e4m3 : Fmt := { eb := 4, fb := 3, bias := 7, e4m3 := true }
def e5m2 : Fmt := { eb := 5, fb := 2, bias := 15 }
def acc48 : Fmt := { eb := 10, fb := 37, bias := 511 }

def Fmt.width (f : Fmt) : Nat := 1 + f.eb + f.fb

/-- An exact value: NaN (signalling or not), an infinity, or (−1)^neg × m × 2^e. -/
inductive FVal where
  | nan (sig : Bool)
  | inf (neg : Bool)
  | fin (neg : Bool) (m : Nat) (e : Int)
  deriving DecidableEq, Repr, Inhabited

/-- The five flags of R90 and R101: NV lowest, then DZ, OF, UF, NX. -/
abbrev FFlags := BitVec 5
def fNV : FFlags := 1
def fDZ : FFlags := 2
def fOF : FFlags := 4
def fUF : FFlags := 8
def fNX : FFlags := 16

/-- Rounding modes by their FPMODE.RM codes (R89). -/
abbrev Rm := BitVec 2
def rne : Rm := 0
def rtz : Rm := 1
def rup : Rm := 2
def rdn : Rm := 3

/-- `val(b, fmt)`: subnormals read as zero of their own sign with FTZ (R96, R99). -/
def unpack (f : Fmt) (ftz : Bool) (b : Nat) : FVal :=
  let neg := bit1 b (f.eb + f.fb)
  let e := bits b (f.eb + f.fb - 1) f.fb
  let m := b % 2 ^ f.fb
  if e = 2 ^ f.eb - 1 ∧ (f.e4m3 = false ∨ m = 2 ^ f.fb - 1) then
    if m = 0 then .inf neg else .nan (!f.e4m3 && !bit1 m (f.fb - 1))
  else if e = 0 then .fin neg (if ftz then 0 else m) (1 - f.bias - f.fb)
  else .fin neg (2 ^ f.fb + m) ((e : Int) - f.bias - f.fb)

def signBit (f : Fmt) (neg : Bool) : Nat := if neg then 2 ^ (f.eb + f.fb) else 0
/-- The canonical NaN (R97). -/
def qnan (f : Fmt) : Nat :=
  if f.e4m3 then 0x7F else (2 ^ f.eb - 1) * 2 ^ f.fb + 2 ^ (f.fb - 1)
/-- The largest finite encoding of a sign. -/
def maxFin (f : Fmt) (neg : Bool) : Nat :=
  signBit f neg + (if f.e4m3 then 0x7E else (2 ^ f.eb - 1) * 2 ^ f.fb - 1)
/-- The infinity of a sign; E4M3 has ±448 in its place (R106). -/
def infBits (f : Fmt) (neg : Bool) : Nat :=
  if f.e4m3 then maxFin f neg else signBit f neg + (2 ^ f.eb - 1) * 2 ^ f.fb
def zeroBits (f : Fmt) (neg : Bool) : Nat := signBit f neg

/-- Cuts a magnitude m × 2^e (a little more if `sticky`) at 2^q and rounds: the multiple of 2^q and
whether it differs from the exact value. -/
def cut (rm : Rm) (neg : Bool) (m : Nat) (e : Int) (sticky : Bool) (q : Int) : Nat × Bool :=
  if q ≤ e then (m * 2 ^ (e - q).toNat, sticky)
  else
    let sh := (q - e).toNat
    let sig := m / 2 ^ sh
    let rem := m % 2 ^ sh
    let half := 2 ^ (sh - 1)
    let inexact := rem ≠ 0 || sticky
    let up : Bool :=
      if rm = rne then decide (rem > half) || (decide (rem = half) && (sticky || sig % 2 = 1))
      else if rm = rtz then false
      else if rm = rup then inexact && !neg
      else inexact && neg
    (if up then sig + 1 else sig, inexact)

/-- Rounds a finite magnitude to a format (R98, R99 without FTZ, R100, R106): encoding and flags. -/
def roundFin (f : Fmt) (rm : Rm) (neg : Bool) (m : Nat) (e : Int) (sticky : Bool) : Nat × FFlags :=
  if m = 0 ∧ sticky = false then (zeroBits f neg, 0)
  else
    let lead : Int := e + bitLen m - 1
    let emin : Int := 1 - f.bias
    let q : Int := if lead - f.fb < emin - f.fb then emin - f.fb else lead - f.fb
    let (sig, inexact) := cut rm neg m e sticky q
    -- tiny after rounding: with an unbounded exponent the result stays below 2^emin (R100)
    let tiny : Bool := decide (lead < emin) &&
      (let (u, _) := cut rm neg m e sticky (lead - f.fb)
       !(decide (lead + 1 = emin) && decide (u = 2 ^ (f.fb + 1))))
    let (sig, q) := if sig = 2 ^ (f.fb + 1) then (2 ^ f.fb, q + 1) else (sig, q)
    let expo : Int := if sig < 2 ^ f.fb then 0 else q + f.fb + f.bias
    let bitsN := if sig < 2 ^ f.fb then sig else expo.toNat * 2 ^ f.fb + (sig - 2 ^ f.fb)
    if bitsN > maxFin f false then
      let toInf : Bool := rm = rne || (rm = rup && !neg) || (rm = rdn && neg)
      (if toInf then infBits f neg else maxFin f neg, fOF ||| fNX)
    else
      (signBit f neg + bitsN, (if inexact then fNX else 0) ||| (if tiny && inexact then fUF else 0))

/-- FTZ of a result (R99): a nonzero subnormal becomes zero of its sign with UF and NX. -/
def flushRes (f : Fmt) (ftz : Bool) (r : Nat × FFlags) : Nat × FFlags :=
  let mag := r.1 % 2 ^ (f.eb + f.fb)
  if ftz && decide (0 < mag) && decide (mag < 2 ^ f.fb) then (r.1 - mag, r.2 ||| fUF ||| fNX) else r

/-- `round_fp`: rounds an exact value, NaN canonical (R97), infinities kept (E4M3: ±448 and NV). -/
def roundV (f : Fmt) (rm : Rm) (ftz : Bool) : FVal → Nat × FFlags
  | .nan sig => (qnan f, if sig then fNV else 0)
  | .inf neg => (infBits f neg, if f.e4m3 then fNV else 0)
  | .fin neg m e => flushRes f ftz (roundFin f rm neg m e false)

def FVal.isNan : FVal → Bool
  | .nan _ => true
  | _ => false
def FVal.isSig : FVal → Bool
  | .nan b => b
  | _ => false
def FVal.neg : FVal → Bool
  | .nan _ => false
  | .inf b => b
  | .fin b _ _ => b
def FVal.negate : FVal → FVal
  | .nan b => .nan b
  | .inf b => .inf (!b)
  | .fin b m e => .fin (!b) m e
def FVal.isZero : FVal → Bool
  | .fin _ 0 _ => true
  | _ => false

/-- The exact integer m × 2^(e − lo) of a finite value. -/
def FVal.scaled (lo : Int) : FVal → Int
  | .fin neg m e => let x : Int := ((m * 2 ^ (e - lo).toNat : Nat) : Int); if neg then -x else x
  | _ => 0

/-- The exact product of two values; 0 × ∞ is an invalid NaN (`nan true` stands for NV, R100). -/
def mulV : FVal → FVal → FVal
  | .nan s, b => .nan (s || b.isSig)
  | a, .nan s => .nan (a.isSig || s)
  | .inf a, b => if b.isZero then .nan true else .inf (a != b.neg)
  | a, .inf b => if a.isZero then .nan true else .inf (a.neg != b)
  | .fin a m e, .fin b n g => .fin (a != b) (m * n) (e + g)

/-- The exact sum of terms. Infinities of both signs are invalid; a zero sum of terms of both signs is
+0, and −0 under RDN (R98, R119). -/
def sumV (rm : Rm) (l : List FVal) : FVal :=
  if l.any FVal.isNan then .nan (l.any FVal.isSig
    || (l.any (· = .inf true) && l.any (· = .inf false)))
  else if l.any (· = .inf true) then (if l.any (· = .inf false) then .nan true else .inf true)
  else if l.any (· = .inf false) then .inf false
  else
    let lo : Int := l.foldl (fun x v => match v with | .fin _ _ e => if e < x then e else x | _ => x) 0
    let t : Int := l.foldl (fun x v => x + v.scaled lo) 0
    if t = 0 then
      .fin (if l.all FVal.neg then true else if l.all (fun v => !v.neg) then false else rm = rdn) 0 lo
    else .fin (decide (t < 0)) t.natAbs lo

/-- Compares two numbers exactly: −1, 0 or 1; −0 equals +0. -/
def cmpV (a b : FVal) : Int :=
  match a, b with
  | .inf x, .inf y => if x = y then 0 else if x then -1 else 1
  | .inf x, _ => if x then -1 else 1
  | _, .inf y => if y then 1 else -1
  | .fin x m e, .fin y n g =>
    let lo := if e < g then e else g
    let d := (FVal.fin x m e).scaled lo - (FVal.fin y n g).scaled lo
    if d < 0 then -1 else if d = 0 then 0 else 1
  | _, _ => 0

/-- Whether `a` orders below `b` with −0 below +0. -/
def ltV (a b : FVal) : Bool :=
  let c := cmpV a b
  decide (c < 0) || (decide (c = 0) && a.neg && !b.neg)

/-- minimumNumber and maximumNumber on encodings (R102): result and flags. FTZ applies to inputs. -/
def minMaxNum (f : Fmt) (ftz isMax : Bool) (x y : Nat) : Nat × FFlags :=
  let a := unpack f ftz x
  let b := unpack f ftz y
  let fl : FFlags := if a.isSig || b.isSig then fNV else 0
  let z (v : FVal) (n : Nat) : Nat := if v.isZero then zeroBits f v.neg else n
  if a.isNan && b.isNan then (qnan f, fl)
  else if a.isNan then (z b y, fl)
  else if b.isNan then (z a x, fl)
  else
    let takeA := if isMax then ltV b a else !(ltV b a)
    (if takeA then z a x else z b y, fl)

/-! ## Arithmetic of one rounding -/

def addF (f : Fmt) (rm : Rm) (ftz : Bool) (x y : Nat) : Nat × FFlags :=
  roundV f rm ftz (sumV rm [unpack f ftz x, unpack f ftz y])
def subF (f : Fmt) (rm : Rm) (ftz : Bool) (x y : Nat) : Nat × FFlags :=
  roundV f rm ftz (sumV rm [unpack f ftz x, (unpack f ftz y).negate])
def mulF (f : Fmt) (rm : Rm) (ftz : Bool) (x y : Nat) : Nat × FFlags :=
  roundV f rm ftz (mulV (unpack f ftz x) (unpack f ftz y))
def fmaF (f : Fmt) (rm : Rm) (ftz : Bool) (x y z : Nat) : Nat × FFlags :=
  roundV f rm ftz (sumV rm [mulV (unpack f ftz x) (unpack f ftz y), unpack f ftz z])

/-! ## Integer arithmetic for the functions of R103 -/

/-- The integer square root, bit by bit. -/
def isqrt (x : Nat) : Nat → Nat → Nat
  | 0, r => r
  | n + 1, r => isqrt x n (if (r + 2 ^ n) * (r + 2 ^ n) ≤ x then r + 2 ^ n else r)
def sqrtNat (x : Nat) : Nat := isqrt x (bitLen x / 2 + 1) 0

/-- atanh(1/d) × 2^n, downward: Σ 1 / ((2k+1) d^(2k+1)). -/
def atanhInv (d : Nat) : Nat → Nat → Nat → Nat
  | 0, _, _ => 0
  | fuel + 1, p, k => p / (2 * k + 1) + atanhInv d fuel (p / (d * d)) (k + 1)
/-- atan(1/d) × 2^n: Σ (−1)^k / ((2k+1) d^(2k+1)). -/
def atanInv (d : Nat) : Nat → Nat → Nat → Int
  | 0, _, _ => 0
  | fuel + 1, p, k =>
    (if k % 2 = 0 then ((p / (2 * k + 1) : Nat) : Int) else -((p / (2 * k + 1) : Nat) : Int))
      + atanInv d fuel (p / (d * d)) (k + 1)
/-- ln 2 × 2^n and π × 2^n, each within 2^10 of the exact value for n below 2,000. -/
def ln2 (n : Nat) : Nat := 2 * atanhInv 3 n (2 ^ n / 3) 0
def piN (n : Nat) : Nat := (16 * atanInv 5 n (2 ^ n / 5) 0 - 4 * atanInv 239 n (2 ^ n / 239) 0).toNat

/-- e^(y / 2^n) × 2^n for 0 ≤ y < 2^n. -/
def expSeries (n y : Nat) : Nat → Nat → Nat → Nat
  | 0, _, _ => 0
  | fuel + 1, t, k => t + expSeries n y fuel (t * y / 2 ^ n / (k + 1)) (k + 1)
/-- atanh(z / 2^n) × 2^n for z below 2^n / 2. -/
def atanhSeries (n zz : Nat) : Nat → Nat → Nat → Nat
  | 0, _, _ => 0
  | fuel + 1, p, k => p / (2 * k + 1) + atanhSeries n zz fuel (p * zz / 2 ^ n) (k + 1)
/-- ln(a / b) × 2^n for b ≤ a < 2 b. -/
def lnRatio (n a b : Nat) : Nat :=
  let z := (a - b) * 2 ^ n / (a + b)
  2 * atanhSeries n (z * z / 2 ^ n) n z 0
/-- Sine (first term r) and cosine (first term 1) series of r / 2^n, r below 2^(n+1). -/
def trigSeries (n rr : Nat) : Nat → Nat → Nat → Int
  | 0, _, _ => 0
  | fuel + 1, t, k => (t : Int) - trigSeries n rr fuel (t * rr / 2 ^ n / ((k + 1) * (k + 2))) (k + 2)

/-- The nearest FP32 to a value never exact, given approximations of growing precision: at `n` bits
the value lies within 2^12 of the integer given, times 2^−n. -/
def nearest (approx : Nat → Int) : List Nat → Nat × FFlags
  | [] => (0, fNX)
  | n :: r =>
    let c := approx n
    let at_ (x : Int) := roundFin fp32 rne (decide (x < 0)) x.natAbs (-(n : Int)) true
    let lo := at_ (c - 4096)
    let hi := at_ (c + 4096)
    if lo.1 = hi.1 ∨ r = [] then (lo.1, lo.2 ||| hi.2 ||| fNX) else nearest approx r

def precisions : List Nat := [320, 640, 1280]

/-- 2^x for the finite x = ±m × 2^e (R103). -/
def exp2V (neg : Bool) (m : Nat) (e : Int) : Nat × FFlags :=
  if m = 0 then (0x3F800000, 0)
  else if e + bitLen m > 9 then
    -- |x| at least 2^9: overflow, or a result below half the least subnormal
    if neg then roundFin fp32 rne false 1 (-400) false else roundFin fp32 rne false 1 400 false
  else
    let lo : Int := if e < 0 then e else 0
    let x : Int := (FVal.fin neg m e).scaled lo
    let den : Nat := 2 ^ (-lo).toNat
    let i : Int := x / (den : Int)
    let fr : Nat := (x % (den : Int)).toNat
    if fr = 0 then roundFin fp32 rne false 1 i false
    else
      -- 2^i × 2^(fr/den): the significand at n bits, then scaled by i
      let go (n : Nat) : Int := (expSeries n (fr * ln2 n / den) n (2 ^ n) 0 : Nat)
      let rec pick : List Nat → Nat × FFlags
        | [] => (0, fNX)
        | n :: r =>
          let c := go n
          let at_ (y : Int) := roundFin fp32 rne false y.natAbs (i - n) true
          let a := at_ (c - 4096)
          let b := at_ (c + 4096)
          if a.1 = b.1 ∨ r = [] then (a.1, a.2 ||| b.2 ||| fNX) else pick r
      pick precisions

/-- log2 of the positive value m × 2^e (R103). -/
def log2V (m : Nat) (e : Int) : Nat × FFlags :=
  let l := bitLen m
  let k : Int := e + l - 1
  if m = 2 ^ (l - 1) then roundFin fp32 rne (decide (k < 0)) k.natAbs 0 false
  else nearest (fun n => k * ((2 ^ n : Nat) : Int) + ((lnRatio n m (2 ^ (l - 1)) * 2 ^ n / ln2 n : Nat) : Int)) precisions

/-- Sine, or cosine, of the finite value ±m × 2^e in radians, reduced exactly (R103). -/
def trigV (isCos neg : Bool) (m : Nat) (e : Int) : Nat × FFlags :=
  if m = 0 then (if isCos then (0x3F800000, 0) else (signBit fp32 neg, 0))
  else
    nearest (fun n =>
      -- x × 2^n over π/2 × 2^n, π with bits to spare for |x| below 2^128
      let g := n + 192
      let x : Nat := if e ≥ 0 then m * 2 ^ (e.toNat + g) else m * 2 ^ g / 2 ^ (-e).toNat
      let hp := piN (g + 160)
      let q := x * 2 ^ 161 / hp
      let r := (x * 2 ^ 161 - q * hp) / 2 ^ 161 / 2 ^ 192
      let quad := (if isCos then q + 1 else q) % 4
      let rr := r * r / 2 ^ n
      let sin := trigSeries n rr n r 1
      let cos := trigSeries n rr n (2 ^ n) 0
      let y : Int := if quad = 0 then sin else if quad = 1 then cos else if quad = 2 then -sin else -cos
      if neg && !isCos then -y else y) precisions

/-- The functions of R103 by opcode: FRCP 0x49 to FCOS 0x4F. FTZ applies to input and result. -/
def funF (opc : Nat) (ftz : Bool) (x : Nat) : Nat × FFlags :=
  let v := unpack fp32 ftz x
  let nan : Nat × FFlags := (qnan fp32, 0)
  let inv : Nat × FFlags := (qnan fp32, fNV)
  flushRes fp32 ftz <|
  match v with
  | .nan sig => if sig then inv else nan
  | .inf neg =>
    match opc with
    | 0x49 => (zeroBits fp32 neg, 0)
    | 0x4A => if neg then inv else (0, 0)
    | 0x4B => if neg then inv else (infBits fp32 false, 0)
    | 0x4C => if neg then (0, 0) else (infBits fp32 false, 0)
    | 0x4D => if neg then inv else (infBits fp32 false, 0)
    | _ => inv
  | .fin neg m e =>
    match opc with
    | 0x49 =>
      if m = 0 then (infBits fp32 neg, fDZ)
      else
        let k := bitLen m + 60
        roundFin fp32 rne neg (2 ^ k / m) (-(k : Int) - e) (2 ^ k % m ≠ 0)
    | 0x4A =>
      if m = 0 then (infBits fp32 neg, fDZ)
      else if neg then inv
      else
        -- 1/√(m × 2^e) with e even
        let (m, e) := if e % 2 = 0 then (m, e) else (2 * m, e - 1)
        let k := bitLen m + 60
        let y := 2 ^ (2 * k) / m
        let r := sqrtNat y
        roundFin fp32 rne false r (-(k : Int) - e / 2) (decide (r * r * m ≠ 2 ^ (2 * k)))
    | 0x4B =>
      if m = 0 then (zeroBits fp32 neg, 0)
      else if neg then inv
      else
        let (m, e) := if e % 2 = 0 then (m, e) else (2 * m, e - 1)
        let r := sqrtNat (m * 2 ^ 80)
        roundFin fp32 rne false r (e / 2 - 40) (decide (r * r ≠ m * 2 ^ 80))
    | 0x4C => exp2V neg m e
    | 0x4D =>
      if m = 0 then (infBits fp32 true, fDZ) else if neg then inv else log2V m e
    | 0x4E => trigV false neg m e
    | _ => trigV true neg m e

/-- `exp2_rne` and `fma_rne` (R364). -/
def exp2Rne (x : Nat) : Nat := (funF 0x4C false x).1
def fmaRne (x y z : Nat) : Nat := (fmaF fp32 rne false x y z).1
def addRne (f : Fmt) (x y : Nat) : Nat := (addF f rne false x y).1

/-- Compares FP32 encodings in the value order of R221 (totalOrder without NaNs), as integers. -/
def totalKey (x : Nat) : Int := if x % 2 ^ 32 < 2 ^ 31 then (x : Int) else 2 ^ 31 - 1 - (x : Int)
def isNan32 (x : Nat) : Bool := decide (x % 2 ^ 31 > 0x7F800000)

/-- FRND: rounds to an integral value under a mode (0 RNE … 3 RDN, 4 ties away), as the FRND entry
uses it. -/
def roundInt (rm : Nat) (neg : Bool) (m : Nat) (e : Int) : Nat × Bool :=
  if e ≥ 0 then (m * 2 ^ e.toNat, false)
  else if rm = 4 then
    let sh := (-e).toNat
    ((m + 2 ^ (sh - 1)) / 2 ^ sh, decide (m % 2 ^ sh ≠ 0))
  else cut (bv 2 rm) neg m e false 0

/-- `round_ne` of a nonnegative m × 2^e. -/
def roundNe (m : Nat) (e : Int) : Nat := (roundInt 0 false m e).1

end Sys2Proof.Machine
end

