-- ==== Sys2Proof/Machine/Reduce.lean ====
section
/-!
DEFINITION. The order of every sum outside the lanes: the element reductions of TCOPY and Confluence
(R120, R141), SMX3 (R121), and the three kinds of summary with their updates, queries and merges
(R216 to R233), as functions of bytes.
-/

namespace Sys2Proof.Machine

/-! ## Element reductions (R120, R141) -/

/-- Left fold of a nonempty list in the order given. -/
def foldL (f : Nat → Nat → Nat) : List Nat → Nat
  | [] => 0
  | x :: r => r.foldl f x

def maxMin32 (isMax : Bool) (x y : Nat) : Nat :=
  if isMax then (if toS 32 x < toS 32 y then y else x) else (if toS 32 y < toS 32 x then y else x)

/-- The fold of R120 over elements by OP code 1 to 9. -/
def foldElems (op : Nat) (l : List Nat) : Nat :=
  match op with
  | 1 => foldL (addRne fp32) (match l with | [x] => [if isNan32 x then qnan fp32 else x] | l => l)
  | 2 => (roundV bf16 rne false (unpack fp32 false (foldL (addRne fp32) (l.map (fun x => x % 65536 * 65536))))).1
  | 3 => foldL (fun x y => (x + y) % 2 ^ 32) l
  | 4 => foldL (fun x y => (minMaxNum fp32 false true x y).1) l
  | 5 => foldL (fun x y => (minMaxNum bf16 false true x y).1) l
  | 6 => foldL (maxMin32 true) l
  | 7 => foldL (fun x y => (minMaxNum fp32 false false x y).1) l
  | 8 => foldL (fun x y => (minMaxNum bf16 false false x y).1) l
  | 9 => foldL (maxMin32 false) l
  | _ => l.headD 0

/-- The element size an OP requires, as an ESZ code (R141); `none` where any size does. -/
def opEsz : Nat → Option Nat
  | 1 => some 2 | 2 => some 1 | 3 => some 2 | 4 => some 2 | 5 => some 1 | 6 => some 2
  | 7 => some 2 | 8 => some 1 | 9 => some 2 | 0xA => some 3 | 0xB => some 2
  | _ => none

/-- SMX3 of two triples, each a list of FP32 encodings m, s, v… (R121). -/
def smx3 (a b : List Nat) : List Nat :=
  let m1 := a.headD 0
  let m2 := b.headD 0
  let ninf := 0xFF800000
  if isNan32 m1 || isNan32 m2 then a.map (fun _ => qnan fp32)
  else if m1 = ninf ∧ m2 = ninf then ninf :: List.zipWith (addRne fp32) a.tail b.tail
  else
    let ge := decide (cmpV (unpack fp32 false m1) (unpack fp32 false m2) ≥ 0)
    let hi := if ge then a else b
    let lo := if ge then b else a
    let t := exp2Rne (subF fp32 rne false (lo.headD 0) (hi.headD 0)).1
    hi.headD 0 :: List.zipWith (fun x y => fmaRne x t y) lo.tail hi.tail

def smx3Fold : List (List Nat) → List Nat
  | [] => []
  | x :: r => r.foldl smx3 x

/-! ## Summaries (R217 to R233) -/

/-- A summary: kind 1 QS, 2 HH, 3 DC; QS levels, HH entries (key, count), DC registers. -/
structure Summ where
  kind : Nat := 0
  sat : Bool := false
  seed : Nat := 0
  count : Nat := 0
  mn : Nat := 0
  mx : Nat := 0
  levels : List (List Nat) := []
  hh : List (Nat × Nat) := []
  dc : List Nat := []
  deriving DecidableEq, Repr, Inhabited

/-- Bytes a kind occupies (R40, R216). -/
def summSize : Nat → Nat
  | 1 => 4160
  | 2 => 320
  | 3 => 832
  | _ => 64

def summParam : Nat → Nat
  | 1 => 64
  | 2 => 32
  | 3 => 10
  | _ => 0

/-- The header check of R218 for a needed kind. -/
def headerOk (kind : Nat) (h : List Byte) : Bool :=
  decide (1 ≤ kind ∧ kind ≤ 3) && fieldOf h 0 1 = kind && fieldOf h 2 2 = summParam kind
    && fieldOf h 0x28 24 = 0
    && (if kind = 1 then decide (fieldOf h 1 1 ≤ 1) && (sub h 0x18 16).all (fun b => decide (b.toNat ≤ 63))
        else fieldOf h 1 1 = 0 && fieldOf h 0x18 16 = 0)

def wordsAt (l : List Byte) (o : Nat) (n : Nat) : List Nat := (List.range n).map (fun i => fieldOf l (o + 4 * i) 4)

/-- Reads a summary from its bytes; a DC register above 23 reads as 23 (R228). -/
def summOf (l : List Byte) : Summ :=
  let kind := fieldOf l 0 1
  let base : Summ := { kind := kind, sat := bit1 (fieldOf l 1 1) 0, seed := fieldOf l 4 4, count := fieldOf l 8 8,
                       mn := fieldOf l 0x10 4, mx := fieldOf l 0x14 4 }
  match kind with
  | 1 => { base with levels := (List.range 16).map (fun i => wordsAt l (64 + 256 * i) (fieldOf l (0x18 + i) 1)) }
  | 2 => { base with hh := (List.range 32).map (fun e => (fieldOf l (64 + 8 * e) 4, fieldOf l (68 + 8 * e) 4)) }
  | 3 =>
    let body := fieldOf l 64 768
    { base with dc := (List.range 1024).map (fun j => body / 2 ^ (6 * j) % 64) }
  | _ => base

/-- The bytes of a summary. -/
def Summ.bytes (x : Summ) : List Byte :=
  let head := leBytes 1 x.kind ++ leBytes 1 (if x.sat then 1 else 0) ++ leBytes 2 (summParam x.kind)
    ++ leBytes 4 x.seed ++ leBytes 8 x.count ++ leBytes 4 x.mn ++ leBytes 4 x.mx
    ++ (if x.kind = 1 then x.levels.map (fun l => bv 8 l.length) else zeros 16) ++ zeros 24
  match x.kind with
  | 1 => head ++ x.levels.flatMap (fun l => padTo 256 (l.flatMap (leBytes 4)))
  | 2 => head ++ x.hh.flatMap (fun (k, c) => leBytes 4 (if c = 0 then 0 else k) ++ leBytes 4 c)
  | 3 => head ++ leBytes 768 (x.dc.foldr (fun r a => r + 64 * a) 0)
  | _ => head

/-- SINIT's summary (R219). -/
def summInit (kind seed : Nat) : Summ :=
  let base : Summ := { kind := kind, seed := if seed = 0 then 0x2545F491 else seed, mn := 0xFFFFFFFF }
  match kind with
  | 1 => { base with mn := 0x7F800000, mx := 0xFF800000, levels := List.replicate 16 [] }
  | 2 => { base with hh := List.replicate 32 (0, 0) }
  | _ => { base with dc := List.replicate 1024 0 }

def sat64 (x : Nat) : Nat := min x (2 ^ 64 - 1)
def sat32 (x : Nat) : Nat := min x (2 ^ 32 - 1)
/-- `lesser` and `greater` in value order (R221). -/
def lesser (x y : Nat) : Nat := if totalKey y < totalKey x then y else x
def greater (x y : Nat) : Nat := if totalKey x < totalKey y then y else x

/-- xorshift32 (R223). -/
def xorshift (x : Nat) : Nat :=
  let a : Word := bv 32 x
  let b := a ^^^ (a <<< 13)
  let c := b ^^^ (b >>> 17)
  (c ^^^ (c <<< 5)).toNat

/-- Ascending in value order; an insertion that keeps equal items in place. -/
def insertBy (le : α → α → Bool) (x : α) : List α → List α
  | [] => [x]
  | y :: r => if le x y then x :: y :: r else y :: insertBy le x r
def sortBy (le : α → α → Bool) (l : List α) : List α := l.foldr (insertBy le) []
def sortItems (l : List Nat) : List Nat := sortBy (fun x y => decide (totalKey x ≤ totalKey y)) l

/-- Every second item from position `c`. -/
def everyOther (c : Nat) (l : List Nat) : List Nat :=
  (l.zipIdx.filter (fun p => decide (p.2 % 2 = c % 2))).map (·.1)

/-- compact(j) (R223); the fuel is for level 15, which may compact again. -/
def compact (j : Nat) : Nat → Summ → Summ
  | 0, x => x
  | fuel + 1, x =>
    let items := sortItems (x.levels.getD j [])
    let n := items.length
    let keep := if n % 2 = 1 then items.drop (n - 1) else []
    let items := items.take (n - n % 2)
    let seed := xorshift x.seed
    let chosen := everyOther (seed % 2) items
    let x := { x with seed := seed }
    if j < 15 then
      { x with levels := (x.levels.set j keep).set (j + 1) (x.levels.getD (j + 1) [] ++ chosen) }
    else
      let l := chosen ++ keep
      let x := { x with levels := x.levels.set 15 l, sat := true }
      if l.length ≥ 64 then compact j fuel x else x

/-- Compacts level j while it holds 64 items or more. -/
def compactIf (x : Summ) (j : Nat) : Summ := if (x.levels.getD j []).length ≥ 64 then compact j 16 x else x

/-- SQADD of values in lane order (R222). -/
def sqAdd (x : Summ) (vs : List Nat) : Summ :=
  let x := vs.foldl (fun x v =>
    if isNan32 v then x
    else { x with levels := x.levels.set 0 (x.levels.getD 0 [] ++ [v]), count := sat64 (x.count + 1),
                  mn := lesser x.mn v, mx := greater x.mx v }) x
  (List.range 16).foldl compactIf x

/-- SQRY at an FP32 quantile (R224). -/
def sqQuery (x : Summ) (q : Nat) : Nat :=
  let ws : List (Nat × Nat) := (x.levels.zipIdx).flatMap (fun (l, i) => l.map (fun v => (v, 2 ^ i)))
  let w := ws.foldl (fun a p => a + p.2) 0
  if isNan32 q || w = 0 then qnan fp32
  else
    let v := unpack fp32 false q
    let one := FVal.fin false 1 0
    if cmpV v (.fin false 0 0) ≤ 0 then x.mn
    else if cmpV v one ≥ 0 then x.mx
    else match v with
      | .fin _ m e =>
        -- t = max(1, ceil(m × 2^e × W)), e < 0
        let d := 2 ^ (-e).toNat
        let t := max 1 ((m * w + d - 1) / d)
        let sorted := sortBy (fun (a b : Nat × Nat) => decide (totalKey a.1 ≤ totalKey b.1)) ws
        let rec walk : Nat → List (Nat × Nat) → Nat
          | _, [] => x.mx
          | acc, (v, k) :: r => if acc + k ≥ t then v else walk (acc + k) r
        walk 0 sorted
      | _ => qnan fp32

/-- The weighted Misra–Gries step for one key (R226). -/
def hhAdd (x : Summ) (k w : Nat) : Summ :=
  let x := { x with count := sat64 (x.count + w), mn := min x.mn k, mx := max x.mx k }
  let put (l : List (Nat × Nat)) (w : Nat) : List (Nat × Nat) :=
    match l.findIdx? (fun p => p.2 = 0) with
    | some i => l.set i (k, w)
    | none => l
  match x.hh.findIdx? (fun p => p.2 ≠ 0 ∧ p.1 = k) with
  | some i => { x with hh := x.hh.set i (k, sat32 ((x.hh.getD i (0, 0)).2 + w)) }
  | none =>
    if x.hh.any (fun p => p.2 = 0) then { x with hh := put x.hh w }
    else
      let least := x.hh.foldl (fun a p => min a p.2) (2 ^ 32)
      let d := min w least
      let l := x.hh.map (fun p => if p.2 - d = 0 then (0, 0) else (p.1, p.2 - d))
      { x with hh := if w - d > 0 then put l (w - d) else l }

/-- SHADD of the active lanes' keys: distinct keys by their lowest lane, with lane counts (R226). -/
def shAdd (x : Summ) (ks : List Nat) : Summ :=
  ks.eraseDups.foldl (fun x k => hhAdd x k (ks.count k)) x

/-- SHTOP: nonempty entries by count descending, key ascending (R227). -/
def hhRank (l : List (Nat × Nat)) : List (Nat × Nat) :=
  sortBy (fun (a b : Nat × Nat) => decide (a.2 > b.2) || (decide (a.2 = b.2) && decide (a.1 ≤ b.1)))
    (l.filter (fun p => p.2 ≠ 0))
def shTop (x : Summ) (r : Nat) : Nat × Nat := (hhRank x.hh).getD r (0, 0)

/-- mix32 (R228). -/
def mix32 (k : Nat) : Nat :=
  let h : Word := bv 32 k
  let h := h ^^^ (h >>> 16)
  let h := h * 0x7FEB352D#32
  let h := h ^^^ (h >>> 15)
  let h := h * 0x846CA68B#32
  (h ^^^ (h >>> 16)).toNat

/-- A register, of which a value above 23 is read as 23, and SDADD of the lanes' keys (R228). -/
def dcReg (x : Summ) (j : Nat) : Nat := min 23 (x.dc.getD j 0)
def sdAdd (x : Summ) (ks : List Nat) : Summ :=
  ks.foldl (fun x k =>
    let h := mix32 k
    let idx := h / 2 ^ 22
    let rank := 23 - bitLen (h % 2 ^ 22)
    { x with dc := x.dc.set idx (max (dcReg x idx) rank), count := sat64 (x.count + 1),
             mn := min x.mn k, mx := max x.mx k }) x

/-- The nearest integer to a / b, ties to even. -/
def nearestDiv (a b : Nat) : Nat :=
  let q := a / b
  let r := a % b
  if 2 * r > b || (2 * r = b && q % 2 = 1) then q + 1 else q

/-- SDEST's estimate (R229). -/
def sdEst (x : Summ) : Nat :=
  let z := x.dc.foldl (fun a r => a + 2 ^ (23 - min 23 r)) 0
  let v := x.dc.count 0
  let e := nearestDiv (755542 * 2 ^ 23) z
  if e ≤ 2560 ∧ v > 0 then
    -- 1,024 × ln(1,024 / V): V = 2^(k) × y with y in [1, 2), so the logarithm is (10 − k) ln 2 − ln y
    let k := bitLen v - 1
    let n := 200
    (1024 * ((10 - k) * ln2 n - lnRatio n v (2 ^ k)) + 2 ^ (n - 1)) / 2 ^ n
  else e

/-- SMERGE of a source into a destination of the same kind (R230). -/
def smerge (d s : Summ) : Summ :=
  let d' := { d with count := sat64 (d.count + s.count) }
  match d.kind with
  | 1 =>
    let d' := { d' with mn := lesser d.mn s.mn, mx := greater d.mx s.mx, sat := d.sat || s.sat }
    (List.range 16).foldl (fun x i =>
      compactIf { x with levels := x.levels.set i (x.levels.getD i [] ++ s.levels.getD i []) } i) d'
  | 2 =>
    let keys := ((d.hh ++ s.hh).filter (fun p => p.2 ≠ 0)).map (·.1)
    let sum (k : Nat) := (d.hh ++ s.hh).foldl (fun a p => if p.1 = k then sat32 (a + p.2) else a) 0
    let all := hhRank (keys.eraseDups.map (fun k => (k, sum k)))
    let cutAt := (all.getD 32 (0, 0)).2
    let left := (all.map (fun p => (p.1, p.2 - cutAt))).filter (fun p => p.2 ≠ 0)
    { d' with mn := min d.mn s.mn, mx := max d.mx s.mx,
              hh := hhRank left ++ List.replicate (32 - left.length) (0, 0) }
  | _ => { d' with mn := min d.mn s.mn, mx := max d.mx s.mx, dc := (List.range 1024).map (fun j => max (dcReg d j) (dcReg s j)) }

/-- The merge-pending fold of a summary's partials, which the header must allow (R232). -/
def foldSumm (dst : List Byte) (parts : List (List Byte)) : List Byte :=
  match parts with
  | [] => dst
  | p :: _ =>
    if headerOk (fieldOf p 0 1) dst then
      (parts.foldl (fun d p => smerge d (summOf p)) (summOf dst)).bytes
    else dst

end Sys2Proof.Machine
end

