-- ==== Sys2Proof/Machine/Memory.lean ====
section
/-!
DEFINITION. Memory as the home slices see it: the key of every byte of every storage, reads and writes
of bytes, the fold of merge-pending lines (R134, R135, R232), conflicts with atomic regions and their
abort (R167, R169), and encryption of confidential lines (R294).
-/

namespace Sys2Proof.Machine

/-! ## Keys: one number for each byte of each storage -/

/-- HBM4E and LPDDR6 frames of a partition (R276). -/
def hbmKey (part addr : Nat) : Nat := part * 2 ^ 58 + addr % 2 ^ 57
def t2Key (part addr : Nat) : Nat := part * 2 ^ 58 + 2 ^ 57 + addr % 2 ^ 57
/-- Headwater memory (R278), module flash and the staging window (R14, R18). -/
def hwKey (addr : Nat) : Nat := 40 * 2 ^ 58 + addr
def flashKey (o : Nat) : Nat := 41 * 2 ^ 58 + o
def stageKey (o : Nat) : Nat := 42 * 2 ^ 58 + o
/-- Host memory by IOVA, in the address space of a device's PASID (R320, R321). -/
def hostKey (vd a : Nat) : Nat := 2 ^ 70 * (vd + 1) + a

def partOfKey (k : Nat) : Nat := k / 2 ^ 58
def lineOf (k : Nat) : Nat := k / 128

/-- Bytes of memory. -/
def State.rd (s : State) (k : Nat) : Byte := s.mem.at k
def State.rdN (s : State) (k n : Nat) : List Byte := (List.range n).map (fun i => s.mem.at (k + i))
def State.rdLe (s : State) (k n : Nat) : Nat := ofLe (s.rdN k n)
/-- Bytes of a table replaced from a number on, in its canonical form. -/
def putRange (t : Tbl Byte) (lo : Nat) (bs : List Byte) : Tbl Byte :=
  t.filter (fun p => decide (p.1 < lo)) ++ (bs.zipIdx.filterMap (fun p => if p.1 = 0 then none else some (lo + p.2, p.1)))
    ++ t.filter (fun p => decide (lo + bs.length ≤ p.1))
def State.wrN (s : State) (k : Nat) (l : List Byte) : State := { s with mem := putRange s.mem k l }
def State.wrLe (s : State) (k n w : Nat) : State := s.wrN k (leBytes n w)
/-- Writes zero to `n` bytes from `k`. -/
def State.zeroN (s : State) (k n : Nat) : State :=
  { s with mem := s.mem.filter (fun p => decide (p.1 < k) || decide (k + n ≤ p.1)) }

/-- Home slice of a line among the partition's (R129). -/
def homeIndex (n k : Nat) : Nat :=
  let a := k % 2 ^ 57
  if n = 0 then 0 else (bits a 22 7 ^^^ bits a 38 23 ^^^ bits a 54 39 ^^^ bits a 56 55) % n
/-- Channel of a line among the partition's (R129). -/
def channelIndex (m k : Nat) : Nat :=
  let a := k % 2 ^ 57
  if m = 0 then 0 else (bits a 23 8 ^^^ bits a 39 24 ^^^ bits a 55 40 ^^^ bits a 56 56) % m
def State.home (s : State) (k : Nat) : Nat := homeIndex (s.part (partOfKey k)).slices.length k

/-! ## Counters (R329) -/

/-- Adds to every counter of a context that selects an event and whose count has begun. -/
def State.count (s : State) (c event n : Nat) : State :=
  s.modCtx c (fun x =>
    let f := fun (t : Tbl DWord) k =>
      if (x.cntsel.at k).toNat % 65536 = event ∧ x.cntFrom.at k ≤ s.gtime then t.put k (t.at k + bv 64 n) else t
    { x with counters := (List.range 8).foldl f x.counters })

/-! ## Atomic regions: abort (R169, R170) -/

def Region.lines (r : Region) : Nat := (r.reads ++ r.writes).eraseDups.length

/-- XSTAT after a region's end. -/
def xstatOf (qcode cause lines fcode : Nat) : Word :=
  bv 32 (qcode % 4096 * 2 ^ 20 + cause * 2 ^ 16 + lines * 2 ^ 8 + fcode)

/-- A group whose region has aborted: the participants go to the abort target as one run. -/
def Group.aborted (r : Region) (xs : Word) (g : Group) : Group :=
  let g := (g.unfinish r.parts).modLanes r.parts (fun l => if l.st = .gone then l else { l with st := .ready, pc := r.target })
  let free := r.parts &&& ~~~ g.trap.held &&& g.live
  { g with region := none, xstat := xs,
           bundle := if free = 0 then g.bundle else { g.bundle with lanes := free, clause := 0, due := false } }

/-- Ends the open region of agent `a` without a commit: held stores are discarded, and XSTAT says why (R169, R170). -/
def endRegion (a qcode cause fcode : Nat) (s : State) : State :=
  match (s.grp a).region with
  | none => s
  | some r => s.modGrp a (Group.aborted r (xstatOf qcode cause r.lines fcode))

/-- Aborts the open region of agent `a`; the context counts it (R329), Headwater has none. -/
def abortRegion (a qcode cause fcode : Nat) (s : State) : State :=
  if (s.grp a).region.isNone ∨ (s.grp a).role = .headwater then endRegion a qcode cause fcode s
  else (endRegion a qcode cause fcode s).count (s.ctxNo a) 8 1

/-- Agents with an open region. -/
def State.openRegions (s : State) : List (Nat × Region) :=
  s.groups.filterMap (fun p => p.2.region.map (fun r => (p.1, r)))

/-- R167: an access that reaches a home slice aborts the regions it conflicts with. `own` is the agent
whose region the access belongs to. -/
def conflicts (own : Option Nat) (writes : Bool) (line : Nat) (s : State) : State :=
  s.openRegions.foldl (fun s p =>
    if own ≠ some p.1 ∧ (line ∈ p.2.writes ∨ (writes = true ∧ line ∈ p.2.reads)) then abortRegion p.1 0 1 0 s
    else s) s

/-! ## Merge-pending lines (R134, R135, R232) -/

/-- Bytes of a type (R373). -/
def tySize (ty : Nat) : Nat := if ty = 2 ∨ ty = 3 then 8 else 4

/-- The new value of a word under an operation and type (R373). -/
def atomNew (op ty old v : Nat) : Nat :=
  let w := 8 * tySize ty
  match op with
  | 0 => if ty = 4 then addRne fp32 old v else (old + v) % 2 ^ w
  | 1 => old &&& v
  | 2 => old ||| v
  | 3 => old ^^^ v
  | 4 =>
    if ty = 4 then (minMaxNum fp32 false true old v).1
    else if ty % 2 = 0 then (if toS w old < toS w v then v else old) else max old v
  | 5 =>
    if ty = 4 then (minMaxNum fp32 false false old v).1
    else if ty % 2 = 0 then (if toS w v < toS w old then v else old) else min old v
  | _ => v

def applyWords (op ty : Nat) (ws : List (Nat × DWord)) (s : State) : State :=
  ws.foldl (fun s p => s.wrLe p.1 (tySize ty) (atomNew op ty (s.rdLe p.1 (tySize ty)) p.2.toNat)) s

/-- A line is written: L2 holds it dirty, or it goes to memory at once, under the next count of its key (R294, R392). -/
def dirtyLine (line : Nat) (s : State) : State :=
  s.modL2 line (fun l => { l with dirty := l.present, ctr := if l.present || decide (l.conf = 0) then l.ctr else l.ctr + 1 })

/-- A line as its write-back leaves it: clean, a dirty confidential one under the next count (R294, R392). -/
def L2Line.cleaned (l : L2Line) : L2Line :=
  { l with dirty := false, ctr := if l.dirty && decide (l.conf ≠ 0) then l.ctr + 1 else l.ctr }

/-- A holder's partials of a line that its core has pushed out and that are on their way (R135, R157). -/
def takePushed (c line : Nat) (m : Merge) (s : State) : State :=
  let mine (q : Req) : Bool := q.kind = .part && decide (q.line = line)
  let ws := ((s.core c).queue.filter mine).flatMap (fun q => q.accs.map (fun x => (x.pa, x.data)))
  applyWords m.op m.ty ws (s.modCore c (fun x => { x with queue := x.queue.filter (fun q => !mine q) }))

/-- Folds a line's RED partials into memory, in ascending core index, and ends the state (R135). -/
def foldReds (line : Nat) (s : State) : State :=
  match (s.l2line line).merge with
  | none => s
  | some m =>
    let cores := sortBy (fun a b => decide (a ≤ b)) (m.holders ++ m.sent.map (·.1)).eraseDups
    let s := cores.foldl (fun s c =>
      let s := applyWords m.op m.ty (m.sent.at c) s
      let s := if c ∈ m.holders then takePushed c line m s else s
      if c ∈ m.holders then
        ((s.core c).partials.filter (fun p => p.line = line)).foldl (fun s p => applyWords p.op p.ty p.words s)
          (s.modCore c (fun x => { x with partials := x.partials.filter (fun p => p.line ≠ line) }))
      else s) s
    (dirtyLine line s).modL2 line (fun l => { l with merge := none })

/-- Bytes of a summary whose lines are given in order. -/
def summBytes (lines : List Nat) (n : Nat) (s : State) : List Byte :=
  (lines.flatMap (fun l => s.rdN (128 * l) 128)).take n
def putSumm (lines : List Nat) (bs : List Byte) (s : State) : State :=
  lines.zipIdx.foldl (fun s p => dirtyLine p.1 (s.wrN (128 * p.1) (sub bs (128 * p.2) 128))) s

/-- The cores' partials of SMERGE.RED, in ascending core index. -/
def State.sums (s : State) : List SumPart := s.cores.flatMap (fun p => p.2.sums)

/-- Folds the SMERGE.RED partials of the summary in given lines (R232). -/
def foldSumAt (ls : List Nat) (s : State) : State :=
  let parts := (s.sums.filter (fun q => q.lines = ls)).map (·.bytes)
  match parts with
  | [] => s
  | b0 :: _ =>
    let s1 := putSumm ls (foldSumm (summBytes ls (summSize (fieldOf b0 0 1)) s) parts) s
    { s1 with cores := s.cores.map (fun p => (p.1, { p.2 with sums := p.2.sums.filter (fun q => q.lines ≠ ls) })) }

/-- Folds the SMERGE.RED partials of every summary that a line belongs to (R232). -/
def foldSums (line : Nat) (s : State) : State :=
  ((s.sums.filter (fun q => q.lines.contains line)).map (·.lines)).eraseDups.foldl (fun s ls => foldSumAt ls s) s

/-- An event of R135 on a line: its partials are folded before the event is performed. -/
def foldLine (line : Nat) (s : State) : State := foldSums line (foldReds line s)

/-! ## Confidential lines (R294) -/

/-- A byte of memory as an access under key slot `conf` (one up; 0 none) reads it. -/
def State.view (s : State) (conf k : Nat) : Byte :=
  let c := (s.l2line (lineOf k)).conf
  if c = conf ∨ c = 0 then s.rd k
  else Config.cipher ((s.key (c - 1)).mem.getD 0) (k + 2 ^ 64 * (s.l2line (lineOf k)).ctr.toNat) (s.rd k)

/-- The slice of its partition that is a line's home, by its number. -/
def State.sliceOf (s : State) (line : Nat) : Nat :=
  let sl := (s.part (partOfKey (128 * line))).slices
  sl.getD (homeIndex sl.length (128 * line)) 0

/-- A fill under slot `conf` of a line that memory holds under another slot, or under none beside a tag that a slot has made:
its tag fails to verify (R294). A line of which no slot has made a tag is taken as it stands (DESIGN CHOICE, log 112). -/
def verifyTag (conf line : Nat) (s : State) : State :=
  let x := s.l2line line
  if conf = 0 ∨ x.conf = conf ∨ (x.conf = 0 ∧ x.tag = 0) then s else { s with tagErrors := s.tagErrors ++ [s.sliceOf line] }

/-- Makes a line one of slot `conf`, whose tag it then has; bytes of another slot stay as they read from here. -/
def claimLine (conf line : Nat) (s : State) : State :=
  let c := (s.l2line line).conf
  if c = conf then s
  else
    let s := verifyTag conf line s
    let s := if c = 0 then s else s.wrN (128 * line) ((List.range 128).map (fun i => s.view conf (128 * line + i)))
    s.modL2 line (fun l => { l with conf := conf, tag := if conf = 0 then l.tag else conf })

/-! ## Accesses at the home slice -/

/-- The lines that `n` bytes from a key touch. -/
def linesOf (k n : Nat) : List Nat :=
  if n = 0 then [] else (List.range (lineOf (k + n - 1) - lineOf k + 1)).map (fun i => lineOf k + i)

/-- Whether the L2 and core structures of the model may hold anything of a key's line: frames only. -/
def isFrame (k : Nat) : Bool := decide (k < 40 * 2 ^ 58)

/-- What a read, or a write, does before it is performed at the home slice: folds and conflicts. -/
def touchLine (own : Option Nat) (writes : Bool) (line : Nat) (s : State) : State :=
  conflicts own writes line (foldLine line s)

/-- A read performed at the home slice: the bytes, and the state after the folds and aborts. -/
def l2Read (own : Option Nat) (conf k n : Nat) (s : State) : List Byte × State :=
  let s := if isFrame k then (linesOf k n).foldl (fun s l => verifyTag conf l (touchLine own false l s)) s else s
  ((List.range n).map (fun i => s.view conf (k + i)), s)

/-- A write performed at the home slice. -/
def l2Write (own : Option Nat) (conf k : Nat) (bs : List Byte) (s : State) : State :=
  let s := if isFrame k then
      (linesOf k bs.length).foldl (fun s l => dirtyLine l (claimLine conf l (touchLine own true l s))) s else s
  s.wrN k bs

/-- Race metadata becomes EMPTY on the half-lines a party that is not checked writes (R175), in L2 and, for a line out
of L2, in the shadow region. -/
def raceEmpty (k n : Nat) (s : State) : State :=
  if isFrame k then
    (linesOf k n).foldl (fun s l => s.modL2 l (fun x =>
      let out0 := decide (128 * l + 63 < k)
      let out1 := decide (k + n ≤ 128 * l + 64)
      { x with race0 := if out0 then x.race0 else 0, race1 := if out1 then x.race1 else 0,
               gone0 := x.gone0 || (x.rc.isSome && !x.present && !out0),
               gone1 := x.gone1 || (x.rc.isSome && !x.present && !out1) })) s
  else s

/-- A write by Sluice, Headwater, the host, a peer or the collector (R175, R186). -/
def outsideWrite (k : Nat) (bs : List Byte) (s : State) : State :=
  raceEmpty k bs.length (l2Write none 0 k bs s)

end Sys2Proof.Machine
end

