-- ==== Sys2Proof/Machine/Translate.lean ====
section
/-!
DEFINITION. The context descriptor (R250), the two-stage translation of R143 to R145 and R468 with its A
and D bits, and Headwater's untranslated accesses (R303).
-/

namespace Sys2Proof.Machine

/-! ## The context descriptor (R250) -/

/-- A field of a context's descriptor. -/
def State.desc (s : State) (c off n : Nat) : Nat :=
  let x := s.ctx c
  s.rdLe (hbmKey x.part (x.desc + off)) n
def State.setDesc (s : State) (c off n w : Nat) : State :=
  let x := s.ctx c
  outsideWrite (hbmKey x.part (x.desc + off)) (leBytes n w) s
/-- Whether a context is confidential (R294): FLAGS.CONF. -/
def State.isConf (s : State) (c : Nat) : Bool := bit1 (s.desc c 0x69 1) 0
def State.keySlotOf (s : State) (c : Nat) : Nat := s.desc c 0x68 1

/-! ## Walks (R143, R144, R468) -/

/-- Bytes of HBM4E and LPDDR6 of a partition (R276). -/
def State.hbmSize (s : State) (p : Nat) : Nat := (s.part p).channels.length * Config.channelBytes
def State.t2Size (s : State) (p : Nat) : Nat := (s.part p).ranges.length * Config.rangeBytes

/-- PAGE and ACCESS (R145). -/
def cPAGE : BitVec 8 := 0x06
def cACCESS : BitVec 8 := 0x07

/-- The table entry at an address of a partition's HBM4E, or ACCESS beyond its capacity. -/
def State.pte (s : State) (p addr : Nat) : Except (BitVec 8) Nat :=
  if addr + 8 ≤ s.hbmSize p then .ok (s.rdLe (hbmKey p addr) 8) else .error cACCESS

/-- Bits of an entry that must be zero (R144). -/
def pteReserved (e : Nat) : Bool := decide (bits e 63 62 ≠ 0) || decide (bits e 4 1 ≠ 0)
def pteFrame (e : Nat) : Nat := bits e 56 12 * 4096

/-- An entry without its A and D bits. -/
def pteStrip (e : Nat) : Nat := e - bits e 10 9 * 512

/-- The fifth-level entry that translates an address, and its key (R468): the one at the address, unless one of the 16
entries of its 64 KiB range has C64 and they are not identical but for A and D; then one of the 16. -/
def pick64 (s : State) (p table i : Nat) : Except (BitVec 8) (Nat × Nat) := do
  let first := i / 16 * 16
  let es ← (List.range 16).mapM (fun j => s.pte p (table + 8 * (first + j)))
  let whole := es.all (fun e => bit1 e 0 = false || bit1 e 11 = false) || es.all (fun e => pteStrip e = pteStrip (es.getD 0 0))
  let j := if whole then i % 16 else Config.unequalC64 s.tick (hbmKey p (table + 8 * first)) % 16
  .ok (es.getD j 0, hbmKey p (table + 8 * (first + j)))

/-- One stage's walk from a table at a level 1 to 5, the levels left as fuel. A large page's FRAME bits below its size
are not used (DESIGN CHOICE, log 88: the spec does not say what they do). -/
def walk (s : State) (p va : Nat) : Nat → Nat → Except (BitVec 8) Leaf
  | 0, _ => .error cPAGE
  | n + 1, table => do
    let level := 5 - n
    let shift := 12 + 9 * n
    let i := bits va (shift + 8) shift
    let (e, key) ← if level = 5 then pick64 s p table i
      else (s.pte p (table + 8 * i)).map (fun e => (e, hbmKey p (table + 8 * i)))
    if bit1 e 0 = false then .error cPAGE
    else if pteReserved e then .error cACCESS
    else if level = 5 then
      if bit1 e 11 = false then .ok { entry := e, key := key, base := pteFrame e, shift := 12 }
      else if bits e 15 12 ≠ 0 then .error cACCESS
      else .ok { entry := e, key := key, base := pteFrame e, shift := 16 }
    else if bit1 e 8 then
      if level = 3 ∨ level = 4 then
        .ok { entry := e, key := key, base := pteFrame e / 2 ^ shift * 2 ^ shift, shift := shift }
      else .error cACCESS
    else walk s p va n (pteFrame e)

def Leaf.out (l : Leaf) (va : Nat) : Nat := l.base + va % 2 ^ l.shift

/-- A translation's outcome: a place, a fault at the context's stage, or one at the partition's. -/
inductive TrRes where
  | ok (t : Trans)
  | own (code : BitVec 8)
  | part (code : BitVec 8)
  deriving DecidableEq, Repr, Inhabited

/-- What an access needs of the permissions. -/
structure Need where
  r : Bool := false
  w : Bool := false
  x : Bool := false
  deriving DecidableEq, Repr, Inhabited

def permOk (n : Need) (e : Nat) : Bool :=
  (!n.r || bit1 e 5) && (!n.w || bit1 e 6) && (!n.x || bit1 e 7)

/-- The partition's stage on a partition-stage address (R143, R276). -/
def stage2 (s : State) (part root2 : Nat) (n : Need) (ipa : Nat) : Except (BitVec 8) (Leaf × Nat) :=
  match walk s part ipa 5 root2 with
  | .error c => .error c
  | .ok l =>
    let out := l.out ipa % 2 ^ 57
    let tier := bit1 l.entry 59
    if permOk n l.entry = false then .error cACCESS
    else if l.base % 2 ^ 57 + 2 ^ l.shift > (if tier then s.t2Size part else s.hbmSize part) then .error cACCESS
    else .ok (l, if tier then t2Key part out else hbmKey part out)

/-- The walks of both stages for a context's address in sign-extended form (R143 to R145). The context's tables are
read at their addresses in the partition's HBM4E, which the partition's stage does not map (DESIGN CHOICE, log 87). -/
def walks (s : State) (c : Nat) (n : Need) (va : DWord) : TrRes :=
  let p := (s.ctx c).part
  let a := va.toNat % 2 ^ 57
  match walk s p a 5 (s.desc c 0x08 8 % 2 ^ 57) with
  | .error code => .own code
  | .ok l1 =>
    if permOk n l1.entry = false ∨ bits l1.entry 58 57 = 3 then .own cACCESS
    else
      match stage2 s p (s.desc c 0x10 8 % 2 ^ 57) n (l1.out a % 2 ^ 57) with
      | .error code => .part code
      | .ok (l2, key) =>
        .ok { key := key, tier := bit1 l2.entry 59,
              conf := if bit1 l2.entry 61 && s.isConf c then s.keySlotOf c + 1 else 0,
              rc := bit1 l1.entry 60, cp := bits l1.entry 58 57, l1 := l1, l2 := l2,
              page := a / 2 ^ l1.shift * 2 ^ l1.shift, vpn := a / 4096 }

/-- A translation without the A and D bits of its entries. -/
def Trans.plain (t : Trans) : Trans :=
  { t with l1 := { t.l1 with entry := pteStrip t.l1.entry }, l2 := { t.l2 with entry := pteStrip t.l2.entry } }

/-- What the caches that a core's accesses go through may hold: the latest 2,048 translations of the core and the latest
32,768 of its die; a unit of no core has none (R143). -/
def State.xlatFor (s : State) : List (Nat × Nat × Trans) :=
  if s.cur.core = 0 then []
  else
    let k := s.cur.core - 1
    (s.xlat.filter (fun e => decide (e.1 = k))).take Config.coreXlats
      ++ (s.xlat.filter (fun e => decide (e.1 / 40 = k / 40))).take Config.dieXlats

/-- Cached translations of an address that permit an access and are not what the tables give now. -/
def State.cached (s : State) (c : Nat) (n : Need) (a : Nat) (now : TrRes) : List Trans :=
  (s.xlatFor.filterMap (fun e =>
    if e.2.1 = c ∧ e.2.2.vpn = a / 4096 ∧ permOk n e.2.2.l1.entry = true ∧ permOk n e.2.2.l2.entry = true then
      some { e.2.2 with key := e.2.2.key / 4096 * 4096 + a % 4096 }
    else none)).filter (fun t => match now with | .ok u => decide (u.plain ≠ t.plain) | _ => true)

/-- The two-stage translation of a context's address (R143 to R145): by its tables, or by a translation that a core or
die has cached. -/
def translate (s : State) (c : Nat) (n : Need) (va : DWord) : TrRes :=
  let now := walks s c n va
  match s.cached c n (va.toNat % 2 ^ 57) now with
  | [] => now
  | l => match (now :: l.map .ok)[Config.cachedXlat s.tick (va.toNat % 2 ^ 57 / 4096) % (l.length + 1)]? with
    | some r => r
    | none => now

/-- A translation enters the caches of the core that uses it and of its die. -/
def cacheXlat (c : Nat) (t : Trans) (s : State) : State :=
  if s.cur.core = 0 ∨ s.xlat.any (fun e => decide (e.1 + 1 = s.cur.core) && decide (e.2.1 = c) && decide (e.2.2.vpn = t.vpn)
      && decide ({ e.2.2 with key := t.key }.plain = t.plain) && decide (e.2.2.key / 4096 = t.key / 4096)) then s
  else { s with xlat := ((s.cur.core - 1, c, t) :: s.xlat).take (Config.cores * Config.coreXlats + 4 * Config.dieXlats) }


/-- Sets bits of a table entry at its home slice (R144); the entry is still the one the walk read. -/
def setPte (l : Leaf) (m : Nat) (s : State) : State :=
  let e := s.rdLe l.key 8
  if e ||| m = e ∨ pteStrip e ≠ pteStrip l.entry then s else raceEmpty l.key 8 (s.wrLe l.key 8 (e ||| m))

def sizeCode (shift : Nat) : Nat := if shift = 12 then 0 else if shift = 16 then 1 else if shift = 21 then 2 else 3

/-- An access through a translation: it is cached, and sets A and, for a write, D of both mapping entries; a D newly set at the context's stage is a page to
report (R144, R254). -/
def markAD (c : Nat) (w : Bool) (t : Trans) (s : State) : State :=
  let dirty := w && !bit1 (s.rdLe t.l1.key 8) 10
  let m := if w then 0x600 else 0x200
  let s := setPte t.l2 m (setPte t.l1 m (cacheXlat c t s))
  if dirty then s.modCtx c (fun x => { x with dirty := x.dirty ++ [(bv 64 t.page, sizeCode t.l1.shift)] }) else s

/-- Sign-extended form (R123). -/
def canonical (va : DWord) : Bool :=
  let h := (va.extractLsb' 56 8).toNat
  decide (h = 0) || decide (h = 255)

/-- The translation of a range in pieces that no page splits is by its first byte: accesses are aligned
to their size, so none straddles a page. A partition-stage address of the collector and the race unit. -/
def stage2Key (s : State) (c : Nat) (w : Bool) (addr : Nat) : Option Nat :=
  match stage2 s (s.ctx c).part (s.desc c 0x10 8 % 2 ^ 57) (if w then { w := true } else { r := true }) (addr % 2 ^ 57) with
  | .ok (_, k) => some k
  | .error _ => none

/-- Writes bytes where a partition-stage address leads; nothing where it faults. -/
def writeAt (k : Option Nat) (bs : List Byte) (s : State) : State :=
  match k with
  | some k => outsideWrite k bs s
  | none => s

/-- Writes bytes at a partition-stage address, in 64-byte pieces; a piece that faults is dropped. -/
def writeStage2 (c addr : Nat) (bs : List Byte) (s : State) : State :=
  (List.range ((bs.length + 63) / 64)).foldl
    (fun s i => writeAt (stage2Key s c true (addr + 64 * i)) (sub bs (64 * i) 64) s) s
def readStage2 (s : State) (c addr n : Nat) : List Byte :=
  (List.range n).map (fun i =>
    match stage2Key s c false (addr + i) with
    | some k => s.rd k
    | none => 0)

end Sys2Proof.Machine
end

