-- ==== Sys2Proof/Machine/Race.lean ====
section
/-!
DEFINITION. Scopes and the scope checker (R150, R158 to R160), and the race checker: agent numbers,
clocks, metadata, the decision, its updates, records and counters (R175 to R191).
-/

namespace Sys2Proof.Machine

/-! ## Scopes (R150) -/

/-- Whether scope `sc` of party P (an agent at a place) includes party Q. -/
def scopeIncludes (sc : Nat) (p q : ScopeRec) : Bool :=
  match sc with
  | 0 => p.agent = q.agent
  | 1 => p.team = q.team
  | 2 => p.cluster = q.cluster
  | 3 => p.die = q.die
  | _ => true

/-- Where an agent runs. -/
def State.place (s : State) (a : Nat) : ScopeRec :=
  { agent := a, team := (s.grp a).team, core := s.coreNo a, cluster := s.clusterNo a, die := s.clusterNo a / 20,
    ctx := s.ctxNo a }

/-- R159: whether an access of agent `a` at a scope passes the check on a line. -/
def scopeOk (s : State) (a line : Nat) (scope : Nat) (acq : Bool) : Bool :=
  match (s.l2line line).scope with
  | none => true
  | some r =>
    let q := s.place a
    if r.ctx ≠ q.ctx then true
    else scopeIncludes scope q r && !(acq && r.releases && !(scopeIncludes r.scope r q))

/-- The record a passed check leaves (R159). Lines of pages that L2 does not hold (CP 2) keep records too, which no eviction
drops (DESIGN CHOICE, log 122). -/
def setScope (a line scope : Nat) (acq rel : Bool) (s : State) : State :=
  s.modL2 line (fun l => { l with scope := some { s.place a with scope := scope, acquires := acq, releases := rel } })

/-- A line's records are dropped when it leaves L2 (R160). -/
def dropScope (line : Nat) (s : State) : State :=
  match (s.l2line line).scope with
  | none => s
  | some r =>
    let s := s.modL2 line (fun l => { l with scope := none })
    s.modCtx r.ctx (fun x => { x with scopectl := x.scopectl ||| 2 })

/-! ## Agents, clocks and metadata (R177, R178, R181) -/

/-- The 20-bit agent number (R177). -/
def State.raceNo (s : State) (a : Nat) : BitVec 20 :=
  (s.gridOf a).gen ++ bv 11 (s.teamOf a).index ++ bv 5 (s.grp a).gid

/-- The fields of R181. -/
def mdWAgent (m : BitVec 96) : BitVec 20 := m.extractLsb' 76 20
def mdWClk (m : BitVec 96) : BitVec 16 := m.extractLsb' 60 16
def mdWScope (m : BitVec 96) : BitVec 3 := m.extractLsb' 57 3
def mdWKind (m : BitVec 96) : BitVec 2 := m.extractLsb' 55 2
def mdTag (m : BitVec 96) : BitVec 16 := m.extractLsb' 39 16
def mdRAgent (m : BitVec 96) : BitVec 20 := m.extractLsb' 19 20
def mdRClk (m : BitVec 96) : BitVec 16 := m.extractLsb' 3 16
def mdState (m : BitVec 96) : BitVec 3 := m.extractLsb' 0 3
def mdMake (wa : BitVec 20) (wc : BitVec 16) (ws : BitVec 3) (wk : BitVec 2) (tag : BitVec 16) (ra : BitVec 20)
    (rc : BitVec 16) (st : BitVec 3) : BitVec 96 := wa ++ wc ++ ws ++ wk ++ tag ++ ra ++ rc ++ st
/-- An entry's generation (R181). -/
def mdGen (m : BitVec 96) : BitVec 4 :=
  (if (mdState m).getLsbD 0 then mdWAgent m else mdRAgent m).extractLsb' 16 4

/-- One checked access to a half-line (R182, R189): issuer, its clocks, what it does, its record codes. -/
structure RAcc where
  agent : Nat := 0
  race : RaceClk := {}
  writes : Bool := false
  marked : Bool := false
  /-- A plain read, which the reader fields record (R183). -/
  reads : Bool := false
  wkind : BitVec 2 := 0
  ckind : Nat := 0
  scope : Nat := 0
  pc : DWord := 0
  lanes : Mask := 0
  addr : DWord := 0
  deriving DecidableEq, Repr, Inhabited

/-- Where a field of the race control block stands, if it is mapped (R188). -/
def blkTrans (s : State) (c off : Nat) : Option Trans :=
  match translate (s.atUnit 0) c { r := true, w := true } (bv 64 (s.desc c 0x28 8 + off)) with
  | .ok t => some t
  | _ => none
/-- A write of the race unit through a translation. The unit is not checked: half-lines of race-checked pages that it writes
become EMPTY (DESIGN CHOICE, log 124). -/
def unitWrite (t : Trans) (bs : List Byte) (s : State) : State := raceEmpty t.key bs.length (l2Write none t.conf t.key bs s)
/-- Adds to a 64-bit counter of the race control block, as RED.ADD at its home slice (R188); nothing where the block's
translation fails (DESIGN CHOICE, log 123). -/
def blkAdd (c off n : Nat) (s : State) : State :=
  match blkTrans s c off with
  | some t =>
    let r := l2Read none t.conf t.key 8 s
    unitWrite t (leBytes 8 (ofLe r.1 + n)) r.2
  | none => s
/-- A field as a read at its home slice finds it. -/
def blkRead (s : State) (c off n : Nat) : Nat :=
  match blkTrans s c off with
  | some t => ofLe (l2Read none t.conf t.key n s).1
  | none => 0

/-- Sets sticky bits of RACECTL (R187). -/
def setRacectl (c : Nat) (m : Word) (s : State) : State := s.modCtx c (fun x => { x with racectl := x.racectl ||| m })

def lostCheck (c : Nat) (s : State) : State := (setRacectl c 0x20 (blkAdd c 0x28 1 s)).count c 7 1

/-- Whether clocks `r` of group `a` order a recorded access before its own (R182). -/
def ordered (s : State) (a : Nat) (r : RaceClk) (ag : BitVec 20) (ck : BitVec 16) : Bool :=
  let me := s.raceNo a
  ag = me
    || (ag.extractLsb' 5 15 = me.extractLsb' 5 15 && decide ((ag.extractLsb' 0 5).toNat < 16)
        && decide (ck.toNat ≤ ((s.teamOf a).bclk.at (ag.extractLsb' 0 5).toNat).toNat))
    || r.acq.any (fun e => e.1 = ag && decide (ck.toNat ≤ e.2.toNat))

/-- The decision of R182: the recorded access it races with (`true` for the reader), and the state after
suppressed checks. -/
def decide182 (x : RAcc) (md : BitVec 96) (s : State) : Option Bool × State :=
  let c := s.ctxNo x.agent
  let md := if (mdState md) ≠ 0 ∧ mdGen md ≠ (s.raceNo x.agent).extractLsb' 16 4 then 0 else md
  let st := mdState md
  let try_ (isR : Bool) (ag : BitVec 20) (ck : BitVec 16) (s : State) : Bool × State :=
    if x.marked && !isR && decide (mdWKind md ≠ 0) then (false, s)
    else if ordered s x.agent x.race ag ck then (false, s)
    else if x.race.ovf.isSome || ck = 0xFFFF then (false, lostCheck c s)
    else (true, s)
  let (hit, s) := if st.getLsbD 0 then try_ false (mdWAgent md) (mdWClk md) s else (false, s)
  if hit then (some false, s)
  else
    let (hit, s) := if x.writes && st.getLsbD 1 then try_ true (mdRAgent md) (mdRClk md) s else (false, s)
    if hit then (some true, s)
    else (none, if x.writes && st.getLsbD 2 then lostCheck c s else s)

/-- R183's update of the metadata by an access that performs. -/
def update183 (s : State) (x : RAcc) (md : BitVec 96) : BitVec 96 :=
  let me := s.raceNo x.agent
  let md := if (mdState md) ≠ 0 ∧ mdGen md ≠ me.extractLsb' 16 4 then 0 else md
  if x.writes then mdMake me x.race.clk (bv 3 x.scope) x.wkind (x.pc.extractLsb' 2 16)
      (mdRAgent md) (mdRClk md) 1
  else if x.reads then
    let st := mdState md
    let shared := st.getLsbD 1 && decide (mdRAgent md ≠ me) && !(ordered s x.agent x.race (mdRAgent md) (mdRClk md))
    mdMake (mdWAgent md) (mdWClk md) (mdWScope md) (mdWKind md) (mdTag md) me x.race.clk
      (st ||| 2 ||| (if shared then 4 else 0))
  else md

def State.md (s : State) (line : Nat) (hi : Bool) : BitVec 96 :=
  if hi then (s.l2line line).race1 else (s.l2line line).race0
def setMd (line : Nat) (hi : Bool) (m : BitVec 96) (s : State) : State :=
  s.modL2 line (fun l => if hi then { l with race1 := m } else { l with race0 := m })

/-- The 64-byte race record (R189). -/
def raceRecord (s : State) (x : RAcc) (md : BitVec 96) (reader : Bool) : List Byte :=
  let c := s.ctxNo x.agent
  -- recorded kinds: 0 plain store 2, RELEASE 3, ATOMIC 4, ENGINE 6; the reader 7
  let pk := if reader then 7 else match (mdWKind md).toNat with | 0 => 2 | 1 => 3 | 2 => 4 | _ => 6
  let ca := (s.raceNo x.agent).toNat + x.ckind * 2 ^ 20 + x.scope * 2 ^ 23
  let pa := (if reader then mdRAgent md else mdWAgent md).toNat + pk * 2 ^ 20
    + (if reader then 0 else (mdWScope md).toNat * 2 ^ 23) + (if reader then 2 ^ 26 else 0)
  leBytes 8 x.addr.toNat ++ leBytes 4 ca ++ leBytes 4 pa ++ leBytes 2 x.race.clk.toNat
    ++ leBytes 2 (if reader then mdRClk md else mdWClk md).toNat ++ leBytes 2 (bits x.pc.toNat 17 2)
    ++ leBytes 2 (if reader then 0 else (mdTag md).toNat) ++ leBytes 8 x.pc.toNat ++ leBytes 8 x.lanes.toNat
    ++ leBytes 8 (s.vclk c).toNat ++ leBytes 4 (s.teamOf x.agent).index ++ leBytes 4 0
    ++ leBytes 8 (blkRead s c 0x20 8)

/-- A report (R191): one record to the ring, or a lost one, also where the translation of its slot or of the control block
fails (DESIGN CHOICE, log 123). -/
def raceReport (c : Nat) (rec_ : List Byte) (s : State) : State :=
  let size := blkRead s c 0x08 4
  let head := blkRead s c 0x0C 4
  let tail := blkRead s c 0x10 4
  let good : Bool := decide (16 ≤ size ∧ size ≤ 65536) && decide (size = 2 ^ Nat.log2 size)
  let slot := bv 64 (blkRead s c 0 8 + 64 * (head % size))
  match good && decide ((head + 2 ^ 32 - tail) % 2 ^ 32 < size), translate (s.atUnit 0) c { w := true } slot, blkTrans s c 0x0C with
  | true, .ok t, some k => unitWrite k (leBytes 4 (head + 1)) (unitWrite t rec_ s)
  | _, _, _ => setRacectl c 0x80 (blkAdd c 0x38 1 s)

/-- The check of one access at the place its half-line is held (R182, R183, R190, R191): the record of a
race in fault mode, which leaves the metadata unchanged. -/
def raceCheck (x : RAcc) (md : BitVec 96) (s : State) : Option (List Byte) × State :=
  let c := s.ctxNo x.agent
  let (hit, s) := decide182 x md s
  match hit with
  | none => (none, s)
  | some reader =>
    let rec_ := raceRecord s x md reader
    let s := blkAdd c 0x20 1 s
    if (s.ctx c).racectl.getLsbD 1 then (none, raceReport c rec_ s) else (some rec_, s)

/-- The update at the home slice of an access that performs. -/
def raceUpdate (x : RAcc) (line : Nat) (hi : Bool) (s : State) : State :=
  setMd line hi (update183 s x (s.md line hi)) s

/-- Whether an access is checked (R175). -/
def State.raceOn (s : State) (c : Nat) (rc : Bool) : Bool := rc && (s.ctx c).racectl.getLsbD 0

/-! ## Acquires and releases (R178, R179) -/

/-- CLK rises by 1 after a stamp, and stays at 0xFFFF (R178). -/
def RaceClk.tickUp (r : RaceClk) : RaceClk := if r.clk = 0xFFFF then r else { r with clk := r.clk + 1 }

/-- Enters (agent, clock) into ACQ, pushing out the entry updated least recently (R179). -/
def RaceClk.enter (r : RaceClk) (ag : BitVec 20) (ck : BitVec 16) : RaceClk :=
  match r.acq.find? (fun e => e.1 = ag) with
  | some e => { r with acq := (ag, if e.2.toNat < ck.toNat then ck else e.2) :: r.acq.filter (fun e => e.1 ≠ ag) }
  | none =>
    if r.acq.length < 8 then { r with acq := (ag, ck) :: r.acq }
    else { r with acq := (ag, ck) :: r.acq.take 7, ovf := some (r.ovf.getD r.clk) }

/-- The group of a context with a race number, whose team still stands. -/
def State.byRaceNo (s : State) (c : Nat) (ag : BitVec 20) : Option (Nat × Group) :=
  s.groups.find? (fun p => p.1 ≠ 0 && decide (s.ctxNo p.1 = c) && decide (p.2.role ≠ .absent) && s.raceNo p.1 = ag)

/-- Whether the writer's scope includes group `a` and scope `s2` includes the writer. Of a writer whose team has left,
the agent number tells only the team; wider scopes include it, so that no race is reported that R153 orders (DESIGN
CHOICE, log 91). -/
def covers179 (s : State) (a s1 s2 : Nat) (ag : BitVec 20) : Bool :=
  let q := s.place a
  match s.byRaceNo (s.ctxNo a) ag with
  | some (w, _) => scopeIncludes s1 (s.place w) q && scopeIncludes s2 q (s.place w)
  | none =>
    let same := ag.extractLsb' 5 15 = (s.raceNo a).extractLsb' 5 15
    let inc (sc : Nat) : Bool := decide (sc ≥ 2) || (decide (sc = 1) && same)
    inc s1 && inc s2

/-- R179 after an acquire by agent `a` at scope `s2` of a half-line with metadata `md`. The writer's entries are merged from
the one updated least recently on (DESIGN CHOICE, log 126). -/
def acquire179 (a s2 : Nat) (md : BitVec 96) (s : State) : State :=
  if (mdState md).getLsbD 0 = false ∨ mdWKind md ≠ 1 ∨ mdGen md ≠ (s.raceNo a).extractLsb' 16 4
      ∨ covers179 s a (mdWScope md).toNat s2 (mdWAgent md) = false then s
  else
    s.modGrp a (fun g =>
      let r := g.race.enter (mdWAgent md) (mdWClk md)
      let r := match (s.byRaceNo (s.ctxNo a) (mdWAgent md)).filter (fun w => !w.2.ended) with
        | some (_, w) =>
          let r := w.race.acq.reverse.foldl (fun r e => r.enter e.1 e.2) r
          if w.race.ovf.isSome && r.ovf.isNone then { r with ovf := some r.clk } else r
        | none => if r.ovf.isNone then { r with ovf := some r.clk } else r
      { g with race := r })

/-- A release's stamp is made: the group's CLK rises (R178). -/
def stampRelease (a : Nat) (s : State) : State := s.modGrp a (fun g => { g with race := g.race.tickUp })

/-! ## Eviction (R185) -/

/-- The shadow entry of the half-line at a context address, where the range covers it (R185). -/
def shadowAddr (s : State) (c : Nat) (va : Nat) : Option Nat :=
  let rcbase := s.desc c 0x38 8
  let rcsize := s.desc c 0x40 8
  if (s.ctx c).racectl.getLsbD 2 && decide (rcbase ≤ va ∧ va < rcbase + rcsize) then
    some (s.desc c 0x30 8 + (va - rcbase) / 64 * 12)
  else none

/-- The pieces of a shadow entry at an address, none of which a 4 KiB page splits: key, offset, length. -/
def shadowKeys (s : State) (c : Nat) (w : Bool) (a : Nat) : Option (List (Nat × Nat × Nat)) :=
  let n := min 12 (4096 - a % 4096)
  ([(a, 0, n), (a + n, n, 12 - n)].filter (fun p => decide (p.2.2 ≠ 0))).mapM
    (fun p => (stage2Key s c w p.1).map (fun k => (k, p.2.1, p.2.2)))

/-- `n` half-lines' metadata is dropped (R185): DROPCNT counts each (DESIGN CHOICE, log 125). -/
def dropMd (c n : Nat) (s : State) : State := if n = 0 then s else setRacectl c 0x40 (blkAdd c 0x30 n s)

/-- A race-checked line leaves L2: the metadata of its half-lines goes to the shadow region, or is dropped. -/
def evictRace (line : Nat) (s : State) : State :=
  match (s.l2line line).rc with
  | none => s
  | some (c, va) =>
    let one (off : Nat) (md : BitVec 96) (s : State) : Nat × State :=
      match (shadowAddr s c (va + off)).bind (shadowKeys s c true) with
      | some l => (0, l.foldl (fun s p => outsideWrite p.1 (sub (leBytes 12 md.toNat) p.2.1 p.2.2) s) s)
      | none => (1, s)
    let (a, s) := one 0 (s.md line false) s
    let (b, s) := one 64 (s.md line true) s
    (dropMd c (a + b) s).modL2 line (fun l => { l with race0 := 0, race1 := 0, gone0 := false, gone1 := false })

/-- A line of a race-checked page of context `c` is filled: the entries of its half-lines are read from the shadow
region, and are EMPTY where it does not cover them. -/
def fillRace (c va line : Nat) (s : State) : State :=
  let one (off : Nat) : BitVec 96 × Nat :=
    match shadowAddr s c (va + off) with
    | some a => match shadowKeys s c false a with
      | some l => (bv 96 (ofLe (l.flatMap (fun p => s.rdN p.1 p.2.2))), 0)
      | none => (0, 1)
    | none => (0, 0)
  let x := s.l2line line
  let lo := one 0
  let hi := one 64
  (dropMd c (lo.2 + hi.2) s).modL2 line (fun l => { l with
    rc := some (c, va), gone0 := false, gone1 := false,
    race0 := if x.gone0 then 0 else if l.race0 = 0 then lo.1 else l.race0,
    race1 := if x.gone1 then 0 else if l.race1 = 0 then hi.1 else l.race1 })

end Sys2Proof.Machine
end

