-- ==== Sys2Proof/Machine/Operands.lean ====
section
/-!
DEFINITION. Every operand form: what a source reads in a lane (R345 to R347, R364), how a destination is
written (R349, R363), the registers an instruction names (R46, R75), and what an instruction's meaning
answers (`Res`).
-/

namespace Sys2Proof.Machine

/-- The outcome of a step. -/
abbrev Out := Host.Outcome State Fault Refusal

/-- What a meaning answers: a state; a state whose bundle the meaning has set; a state in which the
bundle waits and the instruction retires when the wait ends; that an atomic region aborted, so that it
does not retire; a precise fault, with the state as the performed lanes left it; that it does not issue. -/
inductive Res where
  | ok (s : State)
  | run (s : State)
  | wait (s : State)
  | aborted (s : State)
  | trap (t : TrapInfo) (s : State)
  | hold
  /-- A fault at the partition's stage: the lanes wait, those in the mask being done (R145). -/
  | pfault (done : Mask) (s : State)
  deriving DecidableEq, Repr, Inhabited

/-! ## Sources -/

/-- A source's value in lane `l`, at 64 bits if `wide`, else in the low 32 (R345 to R347, R364). -/
def Group.opv (g : Group) (wide : Bool) (o : Opd) (l : Nat) : DWord :=
  match o with
  | .v n => if wide then g.vpair n.toNat l else (g.vreg n.toNat l).zeroExtend 64
  | .s n => if wide then g.spair n.toNat else (g.sreg n.toNat).zeroExtend 64
  | .p n => if g.preg n.toNat l then 1 else 0
  | .x n => (g.xreg n.toNat l).zeroExtend 64
  | .imm i => if wide then i.signExtend 64 else (i.signExtend 32).zeroExtend 64
  | .lit w => if wide then w.signExtend 64 else w.zeroExtend 64
  | _ => 0

/-! ## Destinations (R349, R363) -/

/-- Writes a destination in lane `l`; a class 1 destination has no lane. -/
def Group.wr (g : Group) (wide : Bool) (d : Opd) (l : Nat) (x : DWord) : Group :=
  match d with
  | .v n =>
    let g := g.setV n.toNat l (x.extractLsb' 0 32)
    if wide then g.setV (n.toNat + 1) l (x.extractLsb' 32 32) else g
  | .s n => if wide then g.setSPair n.toNat x else g.setS n.toNat (x.extractLsb' 0 32)
  | .p n => g.setP n.toNat l (x.getLsbD 0)
  | .x n => g.setX n.toNat l (x.extractLsb' 0 32)
  | _ => g

/-- Whether an operation acts once for the group (R349): a class 1 destination, or no destination and
no class 0 operand. -/
def once (o : Body) : Bool :=
  o.dst.scl || (decide (o.dst = .none) && !(o.a.vec || o.b.vec || o.c.vec))

/-- The lanes an instruction acts in: every active lane, or the lowest for one that acts once. LANE, FAIL and FPEF of an
FPE then name that lane alone (DESIGN CHOICE, log 93: R349 and R406 do not say which). -/
def actLanes (o : Body) (m : Mask) : List Nat := if once o then (lanesOf m).take 1 else lanesOf m

/-- The lanes in ACTMASK that pass the predicate and are not DONE (R349, R350, R243). -/
def State.actMask (s : State) (o : Body) : Mask :=
  s.active o &&& ~~~ s.me.done.at s.cur.pc.toNat

/-- Writes the destination of an instruction from the values of lanes, all formed before (R363). -/
def Group.wrAll (g : Group) (wide : Bool) (d : Opd) (vals : List (Nat × DWord)) : Group :=
  vals.foldl (fun g p => g.wr wide d p.1 p.2) g

/-- A lane operation: the value of each lane it acts in, formed from the group as it stands, then
written (R349, R363). -/
def laneOp (o : Body) (wide : Bool) (f : Group → Nat → DWord) (s : State) : State :=
  let g := s.me
  let vals := (actLanes o (s.actMask o)).map (fun l => (l, f g l))
  s.modMe (fun g => g.wrAll wide o.dst vals)

/-! ## The registers an instruction names (R46, R75) -/

/-- The V and S registers of one field: class 1 or not, first register, count. -/
def fieldRegs (k : Kind) (o : Opd) : List (Bool × Nat × Nat) :=
  match o with
  | .v n => [(false, n.toNat, k.regs)]
  | .s n => [(true, n.toNat, k.regs)]
  | _ => []

/-- Every V and S register range an instruction names. -/
def namedRegs (opc : BitVec 8) (o : Body) : List (Bool × Nat × Nat) :=
  let sh := shape opc o.md o.cc
  fieldRegs sh.dst o.dst ++ fieldRegs sh.a o.a ++ fieldRegs sh.b o.b ++ fieldRegs sh.c o.c

/-- A named register the group does not have (REGRANGE at issue, R46): V at or above the budget, B at
or above BARS, T or A not held. -/
def outOfRange (s : State) (opc : BitVec 8) (o : Body) : Bool :=
  let g := s.me
  let t := s.myTeam
  let bad : Opd → Bool := fun x =>
    match x with
    | .b n => decide (n.toNat ≥ t.bars)
    | .t n => !(t.tmask.getLsbD n.toNat)
    | .a n => !(t.amask.getLsbD n.toNat)
    | _ => false
  (namedRegs opc o).any (fun r => !r.1 && decide (r.2.1 + r.2.2 > g.budget))
    || bad o.dst || bad o.a || bad o.b || bad o.c

/-- The source lane of lane `l`, `none` for a zero. -/
def siphonFrom (md : BitVec 8) (o l : Nat) : Option Nat :=
  let m := (md.extractLsb' 0 2).toNat
  let n := o % 64
  if m = 0 then some n
  else if m = 3 then some (l ^^^ n)
  else
    let t : Int := if m = 1 then (l : Int) - n else (l : Int) + n
    if 0 ≤ t ∧ t < 64 then some t.toNat
    else if md.getLsbD 2 then some l
    else if md.getLsbD 3 then none
    else some (t % 64).toNat

/-- The live lanes whose registers a SIPHON reads (R93, R450). -/
def siphonLanes (s : State) (o : Body) : Mask :=
  (lanesOf (s.actMask o)).foldl (fun m l => match siphonFrom o.md (s.me.opv false o.b l).toNat l with
    | some x => m ||| laneBit x
    | none => m) 0 &&& s.me.live

/-! ## Index registers (R78, R79) -/

def xIndex (x : Word) : Nat := bits x.toNat 31 16
def xLen (x : Word) : Nat := bits x.toNat 15 8
def xBase (x : Word) : Nat := bits x.toNat 7 0
def xMake (index len base : Nat) : Word := bv 32 (index % 65536 * 65536 + len % 256 * 256 + base % 256)

/-- The first register a window element occupies (R79). -/
def xReg (wide : Bool) (x : Word) : Nat := xBase x + (if wide then 2 else 1) * xIndex x

/-- Check 1 and check 2 of R79 on a lane's X register. -/
def xBad1 (wide : Bool) (x : Word) : Bool := decide (xIndex x ≥ xLen x) || (wide && decide (xBase x % 2 = 1))
def xBad2 (budget : Nat) (wide : Bool) (x : Word) : Bool :=
  let top := xReg wide x + (if wide then 1 else 0)
  decide (top ≥ 256) || decide (top ≥ budget)

/-- The checks of R79 pass in every lane of a mask, and a register selected there is one still to be written. -/
def xWaits (g : Group) (wide : Bool) (n : Nat) (m : Mask) (p : Pend) : Bool :=
  (lanesOf m).all (fun l => !xBad1 wide (g.xreg n l) && !xBad2 g.budget wide (g.xreg n l)) &&
  (lanesOf m).any (fun l =>
    !p.scalar && p.lanes.getLsbD l && decide (p.reg < xReg wide (g.xreg n l) + (if wide then 2 else 1))
      && decide (xReg wide (g.xreg n l) < p.reg + p.n))

/-! ## What an instruction waits for -/

/-- What an earlier instruction still has to write of the registers that an instruction names, that a SIPHON reads in another
lane, or that LDX or STX selects (R420, R423, R435, R449). -/
def pendingFor (s : State) (opc : BitVec 8) (o : Body) : List Pend :=
  let m := if opc = 0x60 then s.cur.act ||| siphonLanes s o else s.cur.act
  s.me.board.filter (fun p =>
    (namedRegs opc o).any (fun r => p.scalar = r.1 && decide (p.reg < r.2.1 + r.2.2) && decide (r.2.1 < p.reg + p.n)
      && (p.scalar || decide (p.lanes &&& m ≠ 0)))
    || (decide (opc = 0x15) && xWaits s.me (decide (o.md = 1)) o.a.num (s.actMask o) p)
    || (decide (opc = 0x16) && xWaits s.me (decide (o.md = 1)) o.dst.num (s.actMask o) p))

def waitsOperand (s : State) (opc : BitVec 8) (o : Body) : Bool := !(pendingFor s opc o).isEmpty

end Sys2Proof.Machine
end

