-- ==== Sys2Proof/Machine/Flags.lean ====
section
/-!
DEFINITION. Completion flags (R80, R354) and the floating-point flags with the FPE fault (R90, R101).
-/

namespace Sys2Proof.Machine

/-- Makes a flag pending at issue; code 15 names none (R80, R354). -/
def Group.setFlag (g : Group) (f : BitVec 4) (pc : DWord) : Group :=
  if f.toNat < 12 then { g with flags := g.flags ||| (1#12 <<< f.toNat), flagPc := g.flagPc.put f.toNat pc } else g
/-- Lanes of a mask leave their wait for the instruction after it. -/
def Group.wake (g : Group) (m : Mask) : Group :=
  (g.finish m).modLanes m (fun l => { l with st := .ready, pc := l.nx, age := 0 })
/-- Clears a flag at completion; lanes that wait for it go on (R463). -/
def Group.clearFlag (g : Group) (f : BitVec 4) : Group :=
  if f.toNat < 12 then
    let w := g.lanesWith (fun x => match x with | .waitf n _ => decide (n = f.toNat) | _ => false)
    { g.wake w with flags := g.flags &&& ~~~ (1#12 <<< f.toNat), flagPc := g.flagPc.drop f.toNat }
  else g
def Group.pending (g : Group) (f : BitVec 4) : Bool := decide (f.toNat < 12) && g.flags.getLsbD f.toNat

/-- An instruction that names a pending flag does not issue (R80). -/
def flagBusy (s : State) (o : Body) : Bool := s.me.pending o.fset

/-- Clears an agent's flag: its operation has completed. -/
def completeFlag (a : Nat) (f : BitVec 4) (s : State) : State := s.modGrp a (fun g => g.clearFlag f)

/-! ## FPMODE and FPFLAGS (R89, R90) -/

def Group.rm (g : Group) : Rm := g.fpmode.extractLsb' 0 2
def Group.ftz (g : Group) : Bool := g.fpmode.getLsbD 2
/-- The trap enables, in the order of the flags. -/
def Group.traps (g : Group) : FFlags := g.fpmode.extractLsb' 3 5

/-- The FPE cause code (R239). -/
def cFPE : BitVec 8 := 0x0D

/-- `fp_commit` (R101): a trapped exception in any lane faults before any write; else every lane's flags
are ORed into FPFLAGS and the destinations written. -/
def fpCommit (flags : List (Nat × FFlags)) (write : Group → Group) (s : State) : Res :=
  let g := s.me
  let bad := flags.filter (fun p => p.2 &&& g.traps ≠ 0)
  match bad with
  | [] =>
    let all : FFlags := flags.foldl (fun x p => x ||| p.2) 0
    .ok (s.modMe (fun g => { write g with fpflags := g.fpflags ||| all.zeroExtend 32 }))
  | p :: _ =>
    .trap { code := cFPE, lane := p.1, fail := bad.foldl (fun m q => m ||| laneBit q.1) 0,
            fpef := flags.foldl (fun n q => n ||| q.2.toNat * 2 ^ (5 * q.1)) 0 } s

/-- A floating-point lane operation: value and flags of each lane it acts in (R100, R101). -/
def fpOp (o : Body) (f : Group → Nat → Nat × FFlags) (s : State) : Res :=
  let g := s.me
  let r := (actLanes o (s.actMask o)).map (fun l => (l, f g l))
  fpCommit (r.map (fun p => (p.1, p.2.2)))
    (fun g => g.wrAll false o.dst (r.map (fun p => (p.1, bv 64 p.2.1)))) s

end Sys2Proof.Machine
end

