-- ==== Sys2Proof/Machine/Ops.lean ====
section
/-!
DEFINITION. The shared operations of every instruction: taking an exception (R237 to R240, R242, R244)
and returning from one (R243, R403), the checks at decode and issue that depend on the issuer and its
state (R46, R47, R84, R85, R302, R359), retirement and the bundle's next PC (R56 to R58, R332, R356), and
`perform`, which puts them around an instruction's meaning.
-/

namespace Sys2Proof.Machine

/-! ## Cause codes (R239) -/

def cUNDEF : BitVec 8 := 0x01
def cPRIV : BitVec 8 := 0x02
def cREGRANGE : BitVec 8 := 0x03
def cXRANGE : BitVec 8 := 0x04
def cALIGN : BitVec 8 := 0x05
def cRECORD : BitVec 8 := 0x08
def cRACE : BitVec 8 := 0x09
def cSCOPE : BitVec 8 := 0x0A
def cPROMISE : BitVec 8 := 0x0B
def cTIMER : BitVec 8 := 0x0C
def cTRAPI : BitVec 8 := 0x0E
def cBKPT : BitVec 8 := 0x0F
def cSTEP : BitVec 8 := 0x10
def cCOLL : BitVec 8 := 0x11
def cNOREGION : BitVec 8 := 0x12
def cMATRIXCHK : BitVec 8 := 0x13
def cECC : BitVec 8 := 0x14
def cWATCHDOG : BitVec 8 := 0x15
def cREFUSED : BitVec 8 := 0x16
def cENERGY : BitVec 8 := 0x17

/-! ## Stops that a fault requests -/

/-- What the collector or Headwater does leaves the contexts' counters as they were (R265). -/
def sameCounts (s u : State) : State :=
  { u with ctxs := u.ctxs.map (fun (p : Nat × Context) => (p.1, { p.2 with counters := (s.ctxs.at p.1).counters })) }


/-- The dies' clk now, from which an open region has 4,096 (R172). -/
def dieClks (s : State) : Tbl Nat := (List.range 4).foldl (fun t d => t.put d (s.clkOf d)) []

/-- Requests a stop of a RUNNING context (R246, R247): drain or capture. -/
def requestStop (c : Nat) (capture kill : Bool) (s : State) : State :=
  let s := s.modCtx c (fun x => { x with
    st := .stopping, stop := if capture then .capture s.gtime kill else .drain s.gtime, stopClks := dieClks s, acks := [], err := 0 })
  s.setDesc c 0x04 4 2

/-- A drain becomes a capture (R247, R248); the notices stand. -/
def toCapture (c : Nat) (kill : Bool) (s : State) : State :=
  s.modCtx c (fun x => { x with stop := .capture s.gtime kill, stopClks := dieClks s, acks := [] })

/-- A context stops in capture mode where it runs, at a BKPT, the end of a debug step or a counted stop (R337 to R339); a
drain under way becomes a capture. -/
def breakStop (c : Nat) (s : State) : State :=
  match (s.ctx c).stop with
  | .none => if (s.ctx c).st = .running then requestStop c true false s else s
  | .drain _ => toCapture c false s
  | .capture _ _ => s

/-- An unhandled fault ends its grid (R244): no further team is placed, its groups stop, and the launch
will complete FAULTED with the record. -/
def failGrid (g : Nat) (cause : BitVec 8) (rec_ : List Byte) (s : State) : State :=
  let s := s.modGrid g (fun x => if x.faulted then x else
    { x with faulted := true, cause := cause, record := rec_, next := x.dimX * x.dimY * x.dimZ })
  let mine := s.groups.filter (fun p => decide (p.1 ≠ 0) && decide ((s.team p.2.team).grid = g) && decide (p.2.role ≠ .absent))
  mine.foldl (fun s p => (endRegion p.1 0 5 0 s).modGrp p.1 (fun x => { x with stopped := true })) s

/-- A module reset (R15, R303): everything at its reset value but the flash and what is fused. -/
def moduleReset (s : State) : State :=
  { State.reset with
    mem := s.mem.filter (fun p => decide (p.1 < 40 * 2 ^ 58) || decide (41 * 2 ^ 58 ≤ p.1 ∧ p.1 < 42 * 2 ^ 58)
      || decide (2 ^ 70 ≤ p.1)),
    boot := { fused := s.boot.fused },
    fresh := s.fresh, agenda := s.agenda, pace := s.pace, tick := s.tick }

/-! ## Taking an exception -/

/-- The 128-byte fault record (R240). -/
def faultRecord (s : State) (a : Nat) (pc : DWord) (deferred : Bool) (t : TrapInfo) : List Byte :=
  let hw := (s.grp a).role = .headwater
  leBytes 8 pc.toNat ++ leBytes 1 t.code.toNat ++ leBytes 1 (if deferred then 1 else 0) ++ leBytes 1 t.lane
    ++ leBytes 1 t.kind ++ leBytes 4 0 ++ leBytes 8 t.addr.toNat ++ leBytes 8 t.fail.toNat ++ leBytes 8 t.done.toNat
    ++ leBytes 40 t.fpef ++ leBytes 8 (s.clockOf a).toNat
    ++ leBytes 8 (if hw then s.retiredHw else (s.ctx (s.ctxNo a)).retired) ++ zeros 32

/-- Where a trap area is: a key, not writable (R240, R244, R322), or a wait for the supervisor (R145). -/
inductive Area where
  | at_ (va : DWord) (key conf : Nat) (tr : Option Trans)
  | bad
  | wait
  deriving DecidableEq, Repr, Inhabited

/-- The trap area of an agent, for a trap of lanes at `pc`: below PRIVBASE, or Headwater's (R240, R303). -/
def trapArea (s : State) (a : Nat) (pc : DWord) : Area :=
  let g := s.grp a
  if g.role = .headwater then .at_ 0xFFF00 (hwKey 0xFFF00) 0 none
  else
    let va := g.privBase - 0x100
    if (s.gridOf a).priv = 0 ∨ canonical g.privBase = false ∨ canonical va = false then .bad
    else match translate s (s.ctxNo a) { w := true } va with
      | .ok t => .at_ va t.key t.conf (some t)
      | .own _ => .bad
      | .part _ => if g.deny = some pc then .bad else .wait

/-- An agent's earlier loads and read-modify-writes of its own trap area are still on their way: a trap, whose record
they must not see, waits for them (R153). -/
def areaBusy (s : State) (a : Nat) : Bool :=
  let c := s.core (s.coreNo a)
  let g := s.grp a
  if g.role = .headwater ∨ g.trap.inTrap = true ∨ g.trap.base = 0 then false
  else
    let mine := (c.queue.filter (fun q => decide (q.agent = a) && decide (q.kind ≠ .store))).map (·.line)
      ++ (c.waiters.filter (fun w => decide (w.req.agent = a))).map (·.req.line)
    if mine = [] then false
    else match trapArea s a 0 with
      | .at_ _ key _ _ => mine.any (fun l => decide (lineOf key ≤ l) && decide (l ≤ lineOf (key + 0xFF)))
      | _ => false

/-- Replaces bytes of a line copy from key `k` on. -/
def patchLine (line : Nat) (d : List Byte) (k : Nat) (bs : List Byte) : List Byte :=
  d.zipIdx.map (fun p =>
    let x := 128 * line + p.2
    if k ≤ x ∧ x < k + bs.length then bs.getD (x - k) p.1 else p.1)

/-- Updates a core's L1 copy of a line where it holds one (R128). -/
def patchL1 (core k : Nat) (bs : List Byte) (s : State) : State :=
  (linesOf k bs.length).foldl (fun s l =>
    let x := (s.core core).l1.at l
    if x.data = [] then s
    else s.modCore core (fun c => { c with l1 := c.l1.put l { x with data := patchLine l x.data k bs } })) s

/-- Stores of a core still on their way to bytes of a range are overtaken by a later write of it
(R153 item 2). -/
def overtake (core k n : Nat) (s : State) : State :=
  s.modCore core (fun c => { c with queue := c.queue.map (fun q =>
    if q.kind = .store then
      { q with accs := q.accs.filter (fun a => !(decide (k ≤ a.pa) && decide (a.pa + a.n ≤ k + n))) }
    else q) })

/-- The handler is present (R237), and the group is not in a trap already (R244). -/
def hasHandler (g : Group) : Bool :=
  decide (g.trap.base ≠ 0) && decide (g.trap.base.extractLsb' 0 2 = 0#2) && !g.trap.inTrap

/-- A fault no handler takes: the grid ends, or the module resets (R244, R303). -/
def unhandled (a : Nat) (t : TrapInfo) (rec_ : List Byte) (s : State) : State :=
  if (s.grp a).role = .headwater then moduleReset s else failGrid (s.teamOf a).grid t.code rec_ s

/-- Writes the fault record, and any specific record after it, into a trap area (R240). -/
def writeArea (a key conf : Nat) (tr : Option Trans) (rec_ special : List Byte) (s : State) : State :=
  let s := match tr with
    | some tr => markAD (s.ctxNo a) true tr s
    | none => s
  let s := l2Write none conf key rec_ s
  let s := if special = [] then s else l2Write none conf (key + 0x80) special s
  if (s.grp a).role = .headwater then s
  else overtake (s.coreNo a) key (rec_ ++ special).length (patchL1 (s.coreNo a) key (rec_ ++ special) s)

/-- Lanes that have performed the instruction at a PC are to skip it there (R146, R243). -/
def Group.skip (pc : DWord) (m : Mask) (g : Group) : Group :=
  { g with done := g.done.put pc.toNat (g.done.at pc.toNat ||| m) }

/-- The instruction at a PC has issued for lanes: they skip it no longer. -/
def Group.unskip (pc : DWord) (m : Mask) (g : Group) : Group :=
  { g with done := g.done.put pc.toNat (g.done.at pc.toNat &&& ~~~ m) }

/-- A group whose lanes have entered a trap (R237, R238). -/
def Group.trapped (lanes : Mask) (tpc recPc recd : DWord) (deferred : Bool) (op : Nat) (t : TrapInfo) (g : Group) : Group :=
  let g := (g.unfinish lanes).modLanes lanes (fun l => { l with st := .ready, pc := g.trap.base })
  { g with
    trap := { g.trap with
      pc := tpc, recd := recd, inTrap := true, deferred := deferred, code := t.code, lanes := lanes,
      held := g.live &&& ~~~ lanes, recPc := recPc, precise := !deferred, done := t.done, op := op },
    bundle := { g.bundle with lanes := lanes, clause := 0, due := false, waited := 0, held := .no, last := 0 }, watch := 0 }

/-- A context's fault, for the host administrator: its class, and when it was (R298). -/
def noteFault (c cls : Nat) (s : State) : State :=
  s.modCtx c (fun x => { x with
    faultClass := some cls, faultAt := s.gtime, faultCounts := x.faultCounts.put cls (x.faultCounts.at cls + 1) })

/-- Trap entry on a set of lanes (R238): writes the record and any specific record, sets TRAPCAUSE,
TRAPPC and TRAPREC, holds every other live lane, and sends the trap lanes to TRAPBASE as one run. -/
def enterTrap (a : Nat) (lanes : Mask) (tpc recPc : DWord) (deferred : Bool) (op : Nat) (t : TrapInfo)
    (s : State) : State :=
  let g := s.grp a
  let rec_ := faultRecord s a recPc deferred t
  let noted (s : State) : State := if g.role = .headwater then s else noteFault (s.ctxNo a) (if deferred then 1 else 0) s
  if hasHandler g = false then unhandled a t rec_ (noted s)
  else match trapArea s a (if deferred then tpc else recPc) with
    | .bad => unhandled a t rec_ (noted s)
    | .wait => s.modGrp a (fun g =>
        if deferred then g.modLanes lanes (fun l => { l with st := .pfault, pc := tpc })
        else (g.modLanes lanes (fun l => { l with st := .pfault, pc := recPc })).skip recPc t.done)
    | .at_ va key conf tr =>
      (writeArea a key conf tr rec_ t.special (noted s)).modGrp a
        (Group.trapped lanes tpc recPc (if t.special = [] then va else va + 0x80) deferred op t)

/-- A precise fault of the instruction being executed, on its ACTMASK (R238, R239); the fault of a
participant of an open region aborts the region instead (R163, R165), and the other lanes that have performed the
instruction skip it when they issue it again. `m` is the lanes that fault where FAIL names none. -/
def raise (next : DWord) (m : Mask) (t : TrapInfo) (s : State) : State :=
  let a := s.cur.agent
  match (s.grp a).region with
  | some r => if (if t.fail = 0 then m else t.fail) &&& r.parts ≠ 0 then
                (abortRegion a 0 4 t.code.toNat s).modGrp a (Group.skip s.cur.pc (t.done &&& ~~~ r.parts))
              else enterTrap a s.cur.act (if t.after then next else s.cur.pc) s.cur.pc false 0 t s
  | none => enterTrap a s.cur.act (if t.after then next else s.cur.pc) s.cur.pc false 0 t s

/-! ## Deferred faults (R238, R242, R270) -/

/-- Orders due faults: engine faults by their operations' issue, TIMER, WATCHDOG, STEP (R242). -/
def deferredKey (d : Deferred) : Nat :=
  if d.code = cTIMER then 2 ^ 64 else if d.code = cWATCHDOG then 2 ^ 64 + 1
  else if d.code = cSTEP then 2 ^ 64 + 2 else d.order

/-- The due fault taken first. -/
def firstDue (l : List Deferred) : Option Deferred :=
  l.foldl (fun x d => match x with
    | none => some d
    | some y => if deferredKey d < deferredKey y then some d else some y) none

/-- Lanes of a mask that stand at its lowest PC. -/
def lowestRun (g : Group) (m : Mask) : Mask :=
  match lanesOf m with
  | [] => 0
  | l :: r =>
    let pc := r.foldl (fun p x => if (g.lane x).pc.toNat < p.toNat then (g.lane x).pc else p) (g.lane l).pc
    m &&& maskOf (fun x => (g.lane x).pc = pc)

/-- Waits that a deferred fault may interrupt (R238). -/
def softWait : LaneSt → Bool
  | .waitf .. => true
  | .waitp .. => true
  | .sleep .. => true
  | .qpop .. => true
  | _ => false

/-- Waits a WATCHDOG interrupts (R270). -/
def watchWait : LaneSt → Bool
  | .join _ => true
  | .bar _ => true
  | .waitf .. => true
  | .qpop .. => true
  | .talloc _ => true
  | _ => false

/-- Lanes leave their waits without the waits' effect (R238): a JOIN's waiting mask, a BAR's arrival and
a TALLOC request go back. -/
def leaveWaits (a : Nat) (m : Mask) (s : State) : State :=
  let g := s.grp a
  let bars := (lanesOf m).filterMap (fun l => match (g.lane l).st with | .bar b => some b | _ => none)
  let s := s.modGrp a (fun g =>
    { g.unfinish m with j := (List.range 8).foldl (fun t n => t.put n { t.at n with waiting := (t.at n).waiting &&& ~~~ m }) g.j })
  let s := s.modTeam g.team (fun t =>
    { t with bar := bars.eraseDups.foldl (fun x b =>
        x.put b { x.at b with arrived := (x.at b).arrived.filter (fun p => p.1 ≠ a) }) t.bar })
  let mine := fun (w : Nat × Mask × Nat × Nat) => decide (w.1 = a) && decide (w.2.1 &&& m ≠ 0)
  let ids := s.insts.flatMap (fun p => (p.2.qwait.filter mine).map (fun w => w.2.2.2))
  let s := { s with insts := s.insts.map (fun (p : Nat × Inst) => (p.1, { p.2 with qwait := p.2.qwait.filter (fun w => !mine w) })) }
  let s := s.modGrp a (fun g => { g with board := g.board.filter (fun p => !ids.contains p.id) })
  s.modCluster (s.clusterNo a) (fun c =>
    { c with waits := c.waits.filter (fun w => !(decide (w.agent = a) && decide (w.lanes &&& m ≠ 0))) })

/-- Counts an instruction that completes without a precise fault (R332, R329), or Headwater's (R303). -/
def retireOf (a lanes : Nat) (s : State) : State :=
  if (s.grp a).role = .headwater then { s with retiredHw := s.retiredHw + 1 }
  else
    let c := s.ctxNo a
    let s := s.modCtx c (fun x => { x with retired := x.retired + 1 })
    (s.count c 2 1).count c 3 lanes

/-- Counts the waiting instructions of an agent that have completed (R332). -/
def retireOwed (a : Nat) (s : State) : State :=
  (s.grp a).owed.foldl (fun s n => retireOf a n s) (s.modGrp a (fun g => { g with owed := [] }))

/-- Posts a deferred fault of an agent. -/
def post (a : Nat) (d : Deferred) (s : State) : State := s.modGrp a (fun g => { g with faults := g.faults ++ [d] })

/-- The progress record of an engine's deferred fault (R245). -/
def progressRecord (oppc : DWord) (engine : Nat) (cause : BitVec 8) (unit : Nat) (addr : DWord) (rank seq : Nat) :
    List Byte :=
  leBytes 8 oppc.toNat ++ leBytes 1 engine ++ leBytes 1 cause.toNat ++ leBytes 2 0 ++ leBytes 4 unit
    ++ leBytes 8 addr.toNat ++ leBytes 4 rank ++ leBytes 4 seq ++ zeros 32

/-! ## Returning from an exception (R243, R403) -/

/-- Lets the engine operation go on whose fault the trap took (R245, R208). A performed matrix entry
leaves its queue and MSTAT is cleared (R210). -/
def restartOp (a op : Nat) (s : State) : State :=
  if op = 0 then s
  else
    let s := s.modCore (s.coreNo a) (fun c =>
      { c with eddy := c.eddy.map (fun e => if e.id = op then { e with stopped := false } else e) })
    s.modTeam (s.grp a).team (fun t =>
      if t.mqueue.any (fun e => e.id = op) then
        { t with mstat := 0, mqueue := (t.mqueue.filter (fun e => !(e.id = op && e.performed))).map
                   (fun e => if e.id = op then { e with stopped := false } else e) }
      else t)

/-- A group whose trap is over. -/
def Group.returned (g : Group) : Group :=
  let t := g.trap
  let m := t.lanes &&& g.live
  let keep := t.precise && decide (t.pc = t.recPc)
  { (g.finish m).modLanes m (fun l => { l with st := .ready, pc := t.pc }) with
    trap := { t with inTrap := false, lanes := 0, held := 0, done := 0, op := 0, precise := false },
    done := if keep then g.done.put t.recPc.toNat (g.done.at t.recPc.toNat ||| t.done) else g.done,
    bundle := { g.bundle with lanes := m, clause := 0 } }

/-- The act of ERET once every trap lane that has not exited has reached one (R243, R403): the trap lanes
go to TRAPPC as one run, the held lanes are ready again, INTRAP falls; DONE stands where TRAPPC is the
record's PC of a precise fault. -/
def eretAct (a : Nat) (s : State) : State :=
  restartOp a (s.grp a).trap.op (s.modGrp a Group.returned)

/-- Acts under R243 where the trap lanes all wait at ERET or have exited. -/
def eretCheck (a : Nat) (s : State) : State :=
  let g := s.grp a
  let m := g.trap.lanes &&& g.live
  if g.trap.inTrap && decide (m ≠ 0) && decide (m &&& ~~~ (g.lanesWith (fun x => x = .eret)) = 0) then
    if g.trap.pc.extractLsb' 0 2 ≠ 0#2 then
      let t : TrapInfo := { code := cALIGN, addr := g.trap.pc }
      unhandled a t (faultRecord s a s.cur.pc false t) (if g.role = .headwater then s else noteFault (s.ctxNo a) 0 s)
    else eretAct a s
  else s

/-! ## Retirement and the next bundle (R56 to R58, R332, R356) -/

/-- The clk in which a bundle issues, for a lane: in the bundle its age and its time in no issued bundle start again; others
go on (R58, R91). -/
def Lane.passed (act up : Mask) (l : Nat) (x : Lane) : Lane :=
  if act.getLsbD l then { x with age := 0, idle := 0 }
  else { x with age := if up.getLsbD l then x.age + 1 else x.age, idle := if x.st = .gone then 0 else x.idle + 1 }

/-- The group in the clk in which its bundle issues. -/
def Group.passed (act up : Mask) (g : Group) : Group :=
  { g with lanes := g.lanes.map (fun (p : Nat × Lane) => (p.1, p.2.passed act up p.1)), issued := g.issued + 1,
           watch := 0, deny := none, bundle := { g.bundle with since := g.bundle.since + 1, stall := 0, waited := 0 } }

/-- The pipelines of a core, or a cluster's steer sequencer, after an issue by agent `a` of a slot in a clk (R59, R60). -/
def Pipe.take (a slot clk : Nat) (p : Pipe) : Pipe :=
  { clk := clk, issued := if p.clk = clk then p.issued + 1 else 1, last := a, slot := slot }

/-- A bundle issues: it takes a clk of its group, and of its core's pipelines or its cluster's steer sequencer. -/
def clkPass (act : Mask) (s : State) : State :=
  let a := s.cur.agent
  let t := s.modMe (Group.passed act s.cur.others)
  if s.isHw then t
  else if s.me.role = .steer then t.modCore (2 * s.clusterNo a) (fun c => { c with seq := c.seq.take a s.me.slot s.me.issued })
  else t.modCore (s.coreNo a) (fun c => { c with pipe := c.pipe.take a s.me.slot s.me.issued })

/-- After an instruction: the bundle keeps the lanes at its lowest PC that are still ready; a split, or
lanes that wait, end a clause (R56, R356). -/
def rebundle (act : Mask) (g : Group) : Group :=
  let b := g.bundle
  let run := lowestRun g (act &&& g.ready)
  { g with bundle := { b with
      lanes := run, clause := if run = act then b.clause - 1 else 0, last := 0,
      due := b.due || (decide (run ≠ act) && decide (b.clause ≠ 0)) } }

/-- Whether every lane of the group has exited. -/
def Group.allGone (g : Group) : Bool := g.live = 0

/-- The PC after the instruction. -/
def nextPc (pc : DWord) (l : Len) : DWord := pc + bv 64 (4 * l.words)

/-! ## Checks that depend on the issuer (R47, R84, R85, R302, R350, R359) -/

/-- A class 0 operand is present. -/
def hasVector (o : Body) : Bool := o.dst.vec || o.a.vec || o.b.vec || o.c.vec

/-- Faults at decode that depend on who issues; PRIV comes after UNDEF (R242, R359). -/
def issuerFault (s : State) (opc : BitVec 8) (o : Body) : Option (BitVec 8) :=
  let n := opc.toNat
  let role := s.me.role
  let sys := decide (n = 0xB3 ∨ n = 0xB4)
  let matrix := decide (0x90 ≤ n ∧ n ≤ 0x96)
  if role = .headwater then
    if hasVector o || decide (o.pred ≠ 0) then some cUNDEF else none
  else if decide (n = 0xB3) && o.sysIndex = 1 && o.dst.scl && !role.scalar then some cUNDEF
  else if (sys && decide (0x800 ≤ o.sysIndex ∧ o.sysIndex ≤ 0x8FF)) || decide (0xC0 ≤ n ∧ n ≤ 0xC3)
      || (decide (n = 0x12) && (decide (o.md.extractLsb' 0 2 = 3#2) || o.md.getLsbD 7)) then some cPRIV
  else if role = .steer then
    if hasVector o || decide (o.pred ≠ 0) || decide (n = 0x10 ∨ n = 0x97 ∨ n = 0x98) then some cPRIV else none
  else if matrix then some cPRIV
  else none

/-- The instructions that abort a region with FCODE 0x02 (R165, R220). -/
def abortsRegion (opc : BitVec 8) : Bool :=
  [0x06, 0x10, 0x13, 0x83, 0x0A, 0x09, 0x0B, 0x11, 0x12, 0x80, 0x82, 0x81, 0x84, 0x78, 0xB4, 0xB1, 0xB5, 0xB6,
   0xC0, 0xC1, 0xC2, 0xC3, 0xA0, 0xA1, 0xA2, 0xA3, 0xA4, 0xA5, 0xA6, 0xA7, 0xA8].contains opc.toNat

/-- The bundle stands where it is: what its instruction needs is not there (R55), or no room for what it does. -/
def keepBundle (h : Held) (s : State) : State := s.modMe (fun g => { g with bundle := { g.bundle with held := h } })
def holdBundle (s : State) : State := keepBundle .full s

/-- Lanes of a bundle wait at an instruction that acts for so many: it retires when they have gone on (R332). -/
def Group.wait (act : Mask) (lanes : Nat) (g : Group) : Group :=
  let m := act &&& g.lanesWith (fun x => x ≠ .ready ∧ x ≠ .gone)
  if m = 0 then g else { g with under := (m, lanes) :: g.under }

/-- An instruction that completes: it retires, and the bundle's next run stands. -/
def complete (act : Mask) (lanes : Nat) (s : State) : State :=
  let s := retireOf s.cur.agent lanes s
  let s := clkPass act s
  s.modMe (rebundle act)

/-- An instruction that does not retire, because an atomic region has aborted or its context stops at it. -/
def abandoned (s : State) : Res := .aborted (s.modMe (Group.unskip s.cur.pc s.cur.act))

/-- Puts the checks, the exceptions, retirement and the PC around the meaning `k` of an instruction.
`k` runs with the bundle's lanes at the next instruction; it sets the PC and status of lanes that branch
or wait itself. -/
def performS (opc : BitVec 8) (o : Body) (k : State → Res) (s : State) : State :=
  let act := s.cur.act
  let nx := nextPc s.cur.pc o.len
  match issuerFault s opc o with
  | some c => clkPass act (raise nx act { code := c } s)
  | none =>
    if outOfRange s opc o then clkPass act (raise nx act { code := cREGRANGE } s)
    else if flagBusy s o || waitsOperand s opc o then keepBundle .operand s
    else
      let parts : Mask := match s.me.region with | some r => r.parts | none => 0
      if abortsRegion opc && decide (s.actMask o &&& parts ≠ 0) then
        clkPass act (abortRegion s.cur.agent 0 4 2 s)
      else
        let skip := s.me.done.at s.cur.pc.toNat &&& act
        let clear := fun (x : State) => x.modMe (Group.unskip s.cur.pc act)
        let n := (lanesOf (s.actMask o)).length
        match k (s.modMe (fun g => g.setPcs act nx)) with
        | .ok s' => complete act n (clear s')
        | .run s' => clkPass act (retireOf s.cur.agent n (clear s'))
        | .wait s' => (clkPass act ((clear s').modMe (Group.wait act n))).modMe (rebundle act)
        | .aborted s' => clkPass act s'
        | .trap t s' =>
          let s' := clear (s'.modMe (fun g => g.setPcs (act &&& g.live) s.cur.pc))
          clkPass act (raise nx (s.actMask o) { t with done := t.done ||| skip } s')
        | .hold => holdBundle s
        | .pfault d s' =>
          s'.modMe (fun g => { (g.modLanes act (fun l => { l with st := .pfault, pc := s.cur.pc })).skip s.cur.pc d with
            bundle := { g.bundle with due := g.bundle.due || decide (g.bundle.clause ≠ 0), clause := 0 } })

def perform (opc : BitVec 8) (o : Body) (k : State → Res) (s : State) : Out := .next (performS opc o k s)

end Sys2Proof.Machine
end

