-- ==== Sys2Proof/Machine/Issue.lean ====
section
/-!
DEFINITION. Formation points (R56 to R58, R466), instruction fetch (R360) and the issue of an agent's next
instruction: bundle, words, decoding, and UNDEF for what does not decode.
-/

namespace Sys2Proof.Machine

/-! ## Formation points -/

/-- The runs of a mask: lanes that share a PC, by the PC. -/
def runsOf (g : Group) (m : Mask) : List Mask :=
  let pcs := ((lanesOf m).map (fun l => (g.lane l).pc)).eraseDups
  pcs.map (fun pc => m &&& maskOf (fun l => (g.lane l).pc = pc))

def runPc (g : Group) (m : Mask) : Nat := match lanesOf m with | l :: _ => (g.lane l).pc.toNat | [] => 0
/-- A run's age is its lanes' largest (R58). -/
def runAge (g : Group) (m : Mask) : Nat := (lanesOf m).foldl (fun x l => max x (g.lane l).age) 0

/-- The run that becomes current (R56, R58): the oldest of 256 clk or more, else the one at the lowest PC;
the runs of `last` only when no other is ready (R466). -/
def chooseRun (g : Group) (aging : Bool) : Mask :=
  let all := runsOf g g.ready
  let some_ := all.filter (fun m => !(decide (m &&& g.bundle.last ≠ 0)))
  let runs := if some_ = [] then all else some_
  let old := if aging then runs.filter (fun m => decide (runAge g m ≥ 256)) else []
  let better (a b : Mask) : Bool :=
    if old = [] then decide (runPc g a < runPc g b)
    else decide (runAge g a > runAge g b) || (decide (runAge g a = runAge g b) && decide (runPc g a < runPc g b))
  match (if old = [] then runs else old) with
  | [] => 0
  | m :: r => r.foldl (fun x y => if better y x then y else x) m

/-- A formation point: merged runs take their largest age, and one run becomes current. The next one falls 4 clk after the last
that the count of clk gives, wherever this one was taken (R56, R57). -/
def form (aging : Bool) (g : Group) : Group :=
  let g := (runsOf g g.ready).foldl (fun g m => let n := runAge g m; g.modLanes m (fun l => { l with age := n })) g
  { g with bundle := { g.bundle with
    lanes := chooseRun g aging, since := g.bundle.since % 4, clause := 0, due := false, last := 0 } }

/-- The group has no current bundle that can issue: it waits for a formation point (R56). -/
def Group.apart (g : Group) : Bool := decide (g.bundle.lanes = 0) || decide (g.bundle.lanes &&& ~~~ g.ready ≠ 0)

/-- Clk that pass before the group can issue: those of a drowsy wake (R91), and those to the next formation point of a group
without a current bundle, unless it takes one at once. -/
def Group.gap (g : Group) : Nat := max g.bundle.wake (if g.apart && !g.bundle.due then 4 - g.bundle.since else 0)

/-- Whether a formation point falls before the group's next issue: outside a clause one that is taken at once, or one of
those every 4 clk (R56, R57), or the current bundle has no ready run. -/
def formsNow (g : Group) : Bool :=
  (decide (g.bundle.clause = 0) && (g.bundle.due || decide (g.bundle.since ≥ 4))) || g.apart

/-- The group with the bundle that issues next. -/
def formed (aging : Bool) (g : Group) : Group := if formsNow g then form aging g else g

/-! ## Fetch (R340, R360) -/

inductive Fetched where
  | words (w1 w2 w3 : Word) (s : State)
  | fault (t : TrapInfo)
  | wait
  deriving DecidableEq, Repr, Inhabited

/-- What the instruction caches of the partition's cores hold of a line, besides memory's bytes (R361). -/
def State.oldLines (s : State) (conf line : Nat) (now : List Byte) : List (List Byte) :=
  s.cores.flatMap (fun c => c.2.icache.filterMap (fun e =>
    if e.1 = line ∧ e.2.1 = conf ∧ e.2.2 ≠ now then some e.2.2 else none))

/-- A word of code: memory's, or, where changed code is cached, the old one, word by word (R361). -/
def codeWord (s : State) (conf key : Nat) : Word :=
  let now := (List.range 128).map (fun i => s.view conf (128 * lineOf key + i))
  let l := match s.oldLines conf (lineOf key) now with
    | [] => now
    | old => (now :: old).getD (Config.oldWord s.tick key % (old.length + 1)) now
  bv 32 (ofLe ((l.drop (key % 128)).take 4))

/-- A core's instruction cache takes a line as memory has it (R361). -/
def cacheCode (core conf key : Nat) (s : State) : State :=
  let line := lineOf key
  let now := (List.range 128).map (fun i => s.view conf (128 * line + i))
  s.modCore core (fun c => { c with icache := if c.icache.contains (line, conf, now) then c.icache else (line, conf, now) :: c.icache })

/-- One word at a PC, through translation with X at both stages; Headwater's is not translated (R303). -/
def fetchWord (a : Nat) (pc : DWord) (s : State) : Except (Option TrapInfo) (Word × State) :=
  if (s.grp a).role = .headwater then
    if pc.toNat + 4 ≤ Config.hwBytes then .ok (bv 32 (s.rdLe (hwKey pc.toNat) 4), s)
    else .error (some { code := cACCESS, kind := 4, addr := pc })
  else if canonical pc = false then .error (some { code := cACCESS, kind := 4, addr := pc })
  else match translate s (s.ctxNo a) { x := true } pc with
    | .ok t =>
      .ok (codeWord s t.conf t.key, cacheCode (s.coreNo a) t.conf t.key (markAD (s.ctxNo a) false t s))
    | .own c => .error (some { code := c, kind := 4, addr := pc })
    | .part _ =>
      .error (if (s.grp a).deny = some s.cur.pc then some { code := cACCESS, kind := 4, addr := pc } else none)

/-- The words of the instruction at a PC, as many as its first word's length says. -/
def fetch (a : Nat) (pc : DWord) (s : State) : Fetched :=
  match fetchWord a pc s with
  | .error (some t) => .fault t
  | .error none => .wait
  | .ok (w1, s) =>
    let n := wordsOf w1
    if n = 1 then .words w1 0 0 s
    else match fetchWord a (pc + 4) s with
      | .error (some t) => .fault t
      | .error none => .wait
      | .ok (w2, s) =>
        if n = 2 then .words w1 w2 0 s
        else match fetchWord a (pc + 8) s with
          | .error (some t) => .fault t
          | .error none => .wait
          | .ok (w3, s) => .words w1 w2 w3 s

/-! ## Issue -/

/-- The state in which a run of agent `a` is the one to issue. -/
def atRun (a : Nat) (m : Mask) (s : State) : State :=
  match lanesOf m with
  | [] => { s with cur := { agent := a, act := 0, pc := 0, core := if a = 0 then 0 else s.coreNo a + 1 } }
  | l :: _ => { s with cur := { agent := a, act := m, pc := ((s.grp a).lane l).pc, core := if a = 0 then 0 else s.coreNo a + 1 } }

/-- The group or steer thread that DBGSET names (R336): grid by submission order among the context's, team
by linear index, GROUPID. -/
def stepTarget (s : State) (c : Nat) : Option Nat :=
  let d := (s.ctx c).dbgset.toNat
  match (s.grids.filter (fun p => decide (p.2.ctx = c) && (decide (p.2.st = .held) || decide (p.2.st = .placing))))[bits d 31 24]? with
  | none => none
  | some gr =>
    (s.groups.find? (fun p => p.1 ≠ 0 && decide (p.2.role ≠ .absent) && decide (p.2.gid = bits d 23 19)
      && (let t := s.team p.2.team; decide (t.grid = gr.1) && decide (t.index = bits d 63 32)))).map (·.1)

/-- The context lets an agent run: it is resident, a capture-mode stop leaves only open regions (R172,
R247), and a debug step leaves only its target (R338). -/
def ctxLets (s : State) (a : Nat) : Bool :=
  if a = 0 then true
  else
    let c := s.ctxNo a
    let x := s.ctx c
    x.vrun && (match x.stop with | .capture .. => (s.grp a).region.isSome | _ => true)
      && (!x.stepping || decide (stepTarget s c = some a))

/-- What an agent's next instruction is: its words decoded, the fetch's fault, or a wait for the
supervisor. -/
inductive Next where
  | instr (i : Instr) (s : State)
  | undef (s : State)
  | fault (t : TrapInfo) (s : State)
  | wait (s : State)
  deriving Repr

/-- The next instruction of the run that `cur` names. -/
def nextAt (a : Nat) (s : State) : Next :=
  match fetch a s.cur.pc s with
  | .words w1 w2 w3 s =>
    match decodeWords w1 w2 w3 with
    | some i => .instr i s
    | none => .undef s
  | .fault t => .fault t s
  | .wait => .wait s

/-! ## Ready runs (R55) -/

/-- What a run's next instruction still needs (R55). -/
inductive Lacks where
  | nothing | operand | flag
  deriving DecidableEq, Repr, Inhabited

/-- What the instruction of the run that `cur` names lacks: a flag it sets or a clause's header tests, or a register it
names that is still to be written (R356, R420, R435). -/
def lacksAt (s : State) : Lacks :=
  match nextAt s.cur.agent s with
  | .instr (.clause _ w) t => if t.me.bundle.clause = 0 ∧ t.me.flags &&& w ≠ 0 then .flag else .nothing
  | .instr i t => match opcodeOf i with
    | some (opc, o) => if flagBusy t o then .flag else if waitsOperand t opc o then .operand else .nothing
    | none => .nothing
  | _ => .nothing
def lacks (s : State) (a : Nat) (m : Mask) : Lacks := lacksAt (atRun a m s)

/-- Lanes of an agent's runs that are ready (R55). -/
def readyLanes (s : State) (a : Nat) (g : Group) : Mask :=
  ((runsOf g g.ready).filter (fun m => decide (lacks s a m = .nothing))).foldl (· ||| ·) 0

/-! ## Clk of a group (R56, R58, R59, R91, R331) -/

/-- `d` clk pass for an agent: its ready runs age, its lanes idle, and its bundle waits. -/
def advance (s : State) (d a : Nat) (g : Group) : Group :=
  if d = 0 then g
  else
    let up := readyLanes s a g
    let next := (formed (!(s.ctx (s.ctxNo a)).stepping) g).bundle.lanes
    { g with
      lanes := g.lanes.map (fun (p : Nat × Lane) => (p.1,
        { p.2 with age := if up.getLsbD p.1 then p.2.age + d else p.2.age,
                   idle := if p.2.st = .gone then 0 else p.2.idle + d })),
      bundle := { g.bundle with
        since := g.bundle.since + d, stall := g.bundle.stall + d, wake := g.bundle.wake - d,
        waited := if next ≠ 0 ∧ next &&& ~~~ up = 0 then g.bundle.waited + d else 0 } }

/-- The pipelines of an agent's core, or its cluster's steer sequencer, and how many bundles they issue in a clk (R59, R60). -/
def pipeOf (s : State) (a : Nat) : Pipe :=
  if (s.grp a).role = .steer then (s.core (2 * s.clusterNo a)).seq else (s.core (s.coreNo a)).pipe
def widthOf (s : State) (a : Nat) : Nat := if (s.grp a).role = .steer then 1 else 2

/-- The clk, of those that passed last, in which an agent can issue: none lies before an earlier issue of its own or on its
pipelines. -/
def clkAt (s : State) (a : Nat) : Nat :=
  let g := s.grp a
  let p := pipeOf s a
  if g.role = .headwater then g.issued + g.gap
  else max (g.issued + g.gap) (if p.issued < widthOf s a then p.clk else p.clk + 1)

/-- The agent stands in the clk in which it can issue. -/
def toClk (a : Nat) (s : State) : State :=
  let c := clkAt s a
  s.modGrp a (fun g => { advance s (c - g.issued) a g with issued := c })

/-- The state about to issue for agent `a`: its bundle formed, `cur` naming it and the ready runs that do not issue. -/
def prepare (a : Nat) (s : State) : State :=
  let aging := !(s.ctx (s.ctxNo a)).stepping
  let s := (toClk a s).modGrp a (fun g => let g := formed aging g; { g with bundle := { g.bundle with held := .no } })
  let m := (s.grp a).bundle.lanes
  let u := atRun a m s
  let rest := (s.grp a).ready &&& ~~~ m
  { u with cur := { u.cur with others := if rest = 0 then 0 else readyLanes s a (s.grp a) &&& rest } }

def nextOf (a : Nat) (s : State) : Next := nextAt a (prepare a s)

/-! ## What can issue (R55, R59, R60, R91) -/

/-- Of the clk that passed last, one is left in which the agent can issue (R56, R59, R60, R91). -/
def hasClk (s : State) (a : Nat) : Bool :=
  decide ((s.grp a).role = .headwater ∧ (s.grp a).bundle.wake = 0) || decide (clkAt s a < s.passedOf (s.coreNo a))

/-- Whether an agent may issue: it is there, not stopped, its context lets it, it has a ready lane, none of its lanes
waits for the supervisor (R145, R146), and none of its accesses to its trap area is on its way. -/
def mayIssue (s : State) (a : Nat) : Bool :=
  let g := s.grp a
  decide (g.role ≠ .absent) && !g.stopped && decide (g.ready ≠ 0) && decide (g.lanesWith (fun x => x = .pfault) = 0)
    && ctxLets s a && !areaBusy s a

/-- Whether it can issue in a clk that has passed. -/
def canIssue (s : State) (a : Nat) : Bool := mayIssue s a && hasClk s a

/-- The bundle that issues next, and whether it is ready. -/
def nextBundle (s : State) (a : Nat) : Mask := (formed (!(s.ctx (s.ctxNo a)).stepping) ((toClk a s).grp a)).bundle.lanes
def bundleReady (s : State) (a : Nat) : Bool := canIssue s a && decide (lacks s a (nextBundle s a) = .nothing)

/-- Agents that issue on the same pipelines, or the same steer sequencer. -/
def rivals (s : State) (a b : Nat) : Bool :=
  let x := s.grp a
  let y := s.grp b
  if x.role = .headwater ∨ y.role = .headwater ∨ y.role = .absent ∨ a = b then false
  else if x.role = .steer then decide (y.role = .steer) && decide (s.clusterNo a = s.clusterNo b)
  else decide (y.role ≠ .steer) && decide (s.coreNo a = s.coreNo b)

/-- Whether `b` goes before `a`: in an earlier clk, or in the same, where its bundle has waited longer since it became ready,
or as long at a lower slot (R59); of steer threads, where its slot comes first after the one that issued last (R60). -/
def goesBefore (s : State) (a b : Nat) : Bool :=
  let x := s.grp a
  let y := s.grp b
  let c := clkAt s a
  let d := clkAt s b
  decide (d < c) || (decide (d = c) &&
    (if x.role = .steer then
      let l := (pipeOf s a).slot + 1
      decide ((y.slot + 16 - l % 16) % 16 < (x.slot + 16 - l % 16) % 16)
    else
      let w (g : Group) : Nat := g.bundle.waited + (c - g.issued)
      decide (w x < w y) || (decide (w x = w y) && decide (y.slot < x.slot))))

/-- Registers of the bundle that issues next are drowsy (R91). -/
def drowsyClk : Nat := 2048
def drowsyLanes (g : Group) : Mask := maskOf (fun l => decide ((g.lane l).idle ≥ drowsyClk)) &&& g.live
/-- The drowsy lanes that the bundle that issues next wakes: its own, and those a SIPHON reads (R93). -/
def wakes (s : State) (a : Nat) : Mask :=
  let d := drowsyLanes (s.grp a)
  if a = 0 ∨ d = 0 then 0
  else
    let m := nextBundle s a
    let more : Mask := match nextAt a (atRun a m s) with
      | .instr (.siphon o) t => siphonLanes t o
      | _ => 0
    d &&& (m ||| more)
def isDrowsy (s : State) (a : Nat) : Bool := decide (wakes s a ≠ 0)

/-- They wake, which takes 24 clk before the bundle's first instruction, or SIPHON, issues. -/
def wakeUp (a : Nat) (s : State) : State :=
  (prepare a s).modGrp a (fun g =>
    { (g.modLanes (wakes s a) (fun l => { l with idle := 0 })) with bundle := { g.bundle with wake := 24 } })

/-! ## Exceptions of the fetch -/

/-- A bundle whose fetch waits for the supervisor (R145). -/
def fetchWaits (s : State) : State :=
  s.modMe (fun g => { g.modLanes s.cur.act (fun l => { l with st := .pfault }) with
    bundle := { g.bundle with due := g.bundle.due || decide (g.bundle.clause ≠ 0), clause := 0 } })

/-- A word that does not decode (R359): UNDEF, which aborts an open region as every fault does. -/
def undefined (s : State) : State := clkPass s.cur.act (raise s.cur.pc s.cur.act { code := cUNDEF } s)

/-- A fault of the fetch at the context's stage. -/
def fetchFault (t : TrapInfo) (s : State) : State := clkPass s.cur.act (raise s.cur.pc s.cur.act t s)

/-! ## Delivery of deferred faults (R238, R242) -/

/-- The lanes a due fault is delivered on: the bundle that issues next; where no run is ready (R55), lanes in a wait that the
fault may interrupt, those at the lowest PC. -/
def deferredLanes (s : State) (a : Nat) (d : Deferred) : Mask :=
  let g := s.grp a
  if readyLanes s a g ≠ 0 then nextBundle s a else lowestRun g (g.lanesWith (if d.code = cWATCHDOG then watchWait else softWait))

/-- DEFERRED_FAULT_DELIVERY: takes the first due fault of an agent for which lanes exist, when it is not in a trap. -/
def deliver (a : Nat) (s : State) : State :=
  let g := s.grp a
  match firstDue (g.faults.filter (fun d => decide (deferredLanes s a d ≠ 0))) with
  | none => s
  | some d =>
    let m := deferredLanes s a d
    if g.trap.inTrap then s
    else match lanesOf m with
      | [] => s
      | l :: _ =>
        let tpc := (g.lane l).pc
        let s := leaveWaits a m s
        let waits := hasHandler g && decide (trapArea s a tpc = .wait)
        let s := if waits then s else s.modGrp a (fun g => { g with faults := g.faults.filter (fun e => e ≠ d) })
        let recPc := if d.code = cTIMER ∨ d.code = cWATCHDOG ∨ d.code = cSTEP then tpc else d.oppc
        enterTrap a m tpc recPc true d.op { code := d.code, addr := d.addr, special := d.record } s

/-- A deferred fault is delivered at this instruction boundary. -/
def deliversFirst (s : State) (a : Nat) : Bool :=
  let g := s.grp a
  !g.trap.inTrap && g.faults.any (fun d => decide (deferredLanes s a d ≠ 0))

end Sys2Proof.Machine
end

