-- ==== Sys2Proof/Machine/Trace.lean ====
section
/-!
DEFINITION. What a context's evidence writes: the trace ring and its records (R334, R335), the barrier
checksum (R333), and what the host administrator sees of a confidential context's records (R298).
-/

namespace Sys2Proof.Machine

/-- Bytes as a key hides them; `n` tells texts apart. -/
def enc (key : BitVec 256) (n : Nat) (bs : List Byte) : List Byte :=
  bs.zipIdx.map (fun p => Config.cipher key (n + p.2) p.1)

/-- A record of a context as it leaves for the host: plain, or under REPORT, or withheld (R298). -/
def hostView (s : State) (c : Nat) (bs : List Byte) : Option (List Byte) :=
  if s.isConf c then (s.key (s.keySlotOf c)).report.map (fun k => enc k s.gtime bs) else some bs

/-- What the host administrator sees of any context's faults: the class and GTIME of the last, its partition, and the
counts by class (R298). -/
def adminFaults (s : State) (c : Nat) : Option Nat × Nat × Nat × List Nat :=
  let x := s.ctx c
  (x.faultClass, x.faultAt, x.part, (List.range 3).map (fun k => x.faultCounts.at k))

/-- What it sees of a counter, and of Weir's count of a partition and class (R298). -/
def adminCounter (s : State) (c n : Nat) : Option (List Byte) := hostView s c (leBytes 8 ((s.ctx c).counters.at n).toNat)
/-- What it sees of a record that stands in the context's memory: a fault, race, matrix or progress record (R298). -/
def adminRecord (s : State) (c key n : Nat) : Option (List Byte) := hostView s c (s.rdN key n)
def adminWeir (s : State) (p cls : Nat) : Nat := (s.weir.at (4 * p + cls)).count

/-- The ring of TRBUF: its base, records, and whether there is one (R334). -/
def ringBase (trbuf : DWord) : Nat := bits trbuf.toNat 56 20 * 2 ^ 20
def ringRecords (trbuf : DWord) : Nat := 2 ^ (bits trbuf.toNat 19 16 + 15) - 1

/-- The ring's first 32 bytes: HEAD, and zero. -/
def writeHead (c : Nat) (s : State) : State :=
  let x := s.ctx c
  writeStage2 c (ringBase x.trbuf) (leBytes 8 x.trHead.toNat ++ zeros 24) s

/-- A write of TRBUF names a ring, in which no record stands yet, also one that names the same again (DESIGN CHOICE, log 130). -/
def newRing (c : Nat) (v : DWord) (s : State) : State :=
  let s := s.modCtx c (fun x => { x with trbuf := v, trHead := 0 })
  if ringBase v = 0 then s else writeHead c s

/-- Writes a 32-byte record, when TRCTL.EN is 1 and the ring exists. -/
def writeTrace (c : Nat) (rec_ : List Byte) (s : State) : State :=
  let x := s.ctx c
  let base := ringBase x.trbuf
  if x.trctl.getLsbD 0 = false ∨ base = 0 then s
  else match hostView s c rec_ with
    | none => s
    | some bs =>
      let s := writeStage2 c (base + 32 + 32 * (x.trHead.toNat % ringRecords x.trbuf)) bs s
      writeHead c (s.modCtx c (fun x => { x with trHead := x.trHead + 1 }))

/-- A trace record (R335). -/
def traceBytes (typ sub slot core cyc a b c : Nat) : List Byte :=
  leBytes 1 typ ++ leBytes 1 sub ++ leBytes 1 slot ++ leBytes 1 core ++ leBytes 4 cyc
    ++ leBytes 8 a ++ leBytes 8 b ++ leBytes 8 c

/-- A SYNC record of a core for a context (R335). -/
def syncRecord (c k : Nat) (s : State) : State :=
  let n := s.coreClk k
  writeTrace c (traceBytes 1 0 0 k n n s.gtime (s.vclk c).toNat) s

/-- A core on which a context has teams writes a SYNC record first after a release, and from there on counts the clk of the
context's residence (R335). -/
def firstSync (c k : Nat) (s : State) : State :=
  if (s.core k).synced.at c ≠ 0 then s else (syncRecord c k s).modCore k (fun x => { x with synced := x.synced.put c 1 })

/-- The SLOT field of an agent. -/
def State.slotCode (s : State) (a : Nat) : Nat :=
  let g := s.grp a
  if g.role = .steer then 64 + g.slot else g.slot

/-- A record an agent causes on its core. -/
def trace (a typ sub ra rb rc : Nat) (s : State) : State :=
  let k := s.coreNo a
  writeTrace (s.ctxNo a) (traceBytes typ sub (s.slotCode a) k (s.coreClk k) ra rb rc) s

/-- The checksum's step, and the words it runs over (R333). -/
def cksumStep (c : DWord) (w : Word) : DWord := (c.rotateLeft 5 ^^^ w.zeroExtend 64) * 0x9E3779B97F4A7C15#64
def predWord (g : Group) (l : Nat) : Word :=
  (List.range 8).foldl (fun w n => if n ≠ 0 && g.preg n l then w ||| (1#32 <<< n) else w) 0
def cksum (g : Group) : DWord :=
  let sw := (List.range 128).map g.sreg
  let lw := (lanesOf g.live).flatMap (fun l =>
    (List.range g.budget).map (fun n => g.vreg n l) ++ [predWord g l] ++ (List.range 4).map (fun n => g.xreg n l))
  (sw ++ lw).foldl cksumStep 0

/-- The CKSUM record of a group's arrival at barrier `n`. -/
def traceCksum (a n : Nat) (s : State) : State :=
  let c := s.ctxNo a
  if (s.ctx c).trctl.getLsbD 1 then
    let t := s.teamOf a
    trace a 4 0 (cksum (s.grp a)).toNat (t.barOrd % 2 ^ 32 + n * 2 ^ 32 + t.index % 2 ^ 28 * 2 ^ 36)
      (s.ctx c).retired s
  else s

end Sys2Proof.Machine
end

