-- ==== Sys2Proof/Machine/Control.lean ====
section
/-!
DEFINITION. Control flow, join and named barriers, ends of lanes, and the waits: opcodes 0x01 to 0x13 and
0x83, and the CLAUSE header (R56 to R63, R69, R70, R356, R377, R378, R381, R384, R386, R387, R403, R404,
R415, R416, R430, R444, R451, R460, R463, R464, R466).
-/

namespace Sys2Proof.Machine

/-! ## Branches -/

/-- The target of a relative branch (R358). -/
def target (o : Body) (pc : DWord) : DWord := pc + (match o.a with | .lit w => w.signExtend 64 | _ => 0)

def goTo (m : Mask) (pc : DWord) (s : State) : State := s.modMe (fun g => g.setPcs m pc)

def execNop (o : Body) (s : State) : Out := perform 0x01 o (fun s => .ok s) s

/-- COND of BRA on the scalar (R384). -/
def braCond (o : Body) (g : Group) : Bool :=
  match (o.md.extractLsb' 0 2).toNat with
  | 0 => true
  | 1 => g.sreg o.c.num = 0
  | _ => g.sreg o.c.num ≠ 0

def execBra (o : Body) (s : State) : Out :=
  perform 0x02 o (fun s =>
    .ok (if braCond o s.me then goTo (s.actMask o) (target o s.cur.pc) s else s)) s

/-- A jump of each active lane to its own 64-bit target (R386). -/
def jumpK (o : Body) (s : State) : Res :=
  let g := s.me
  let ts := (lanesOf (s.actMask o)).map (fun l => (l, g.opv true o.a l))
  let bad := ts.filter (fun p => p.2.extractLsb' 0 2 ≠ 0#2)
  match bad with
  | p :: _ => .trap { code := cALIGN, lane := p.1, addr := p.2, fail := bad.foldl (fun m q => m ||| laneBit q.1) 0 } s
  | [] => .ok (s.modMe (fun g => ts.foldl (fun g p => g.modLane p.1 (fun l => { l with pc := p.2 })) g))

def execBrx (o : Body) (s : State) : Out := perform 0x03 o (jumpK o) s
def execRet (o : Body) (s : State) : Out := perform 0x05 o (jumpK o) s

def execCall (o : Body) (s : State) : Out :=
  perform 0x04 o (fun s =>
    let s' := laneOp o true (fun _ _ => s.cur.pc + 12) s
    .ok (goTo (s.actMask o) (target o s.cur.pc) s')) s

/-- The header waits for its flags, and covers the next n instructions (R356). -/
def clauseK (n : BitVec 4) (wait : BitVec 12) (s : State) : Res :=
  let g := s.me
  if g.bundle.clause ≠ 0 then .trap { code := cUNDEF } s
  else if g.flags &&& wait ≠ 0 then .hold
  else .ok (s.modMe (fun g => { g with bundle := { g.bundle with clause := n.toNat + 2 } }))
def execClause (n : BitVec 4) (wait : BitVec 12) (s : State) : Out := perform 0x00 {} (clauseK n wait) s

/-- The yielding run goes last at the formation point taken at once (R466). -/
def execYield (o : Body) (s : State) : Out :=
  perform 0x09 o (fun s =>
    if s.actMask o = 0 then .ok s
    else .run (s.modMe (fun g => { g with bundle := { g.bundle with due := true, clause := 0, last := s.cur.act } }))) s

/-! ## Waiting lanes -/

/-- A clause ends early, and the deferred formation point is taken at once (R356). -/
def Group.endClause (g : Group) : Group :=
  { g with bundle := { g.bundle with clause := 0, due := g.bundle.due || decide (g.bundle.clause ≠ 0) } }

/-- An instruction completes unless it has left lanes of the bundle waiting (R332). -/
def unlessWaits (s : State) : Res := if s.cur.act &&& s.me.lanesWith (fun x => x ≠ .ready) = 0 then .ok s else .wait s

/-- Lanes of the bundle wait at the instruction. -/
def waitAt (m : Mask) (st : LaneSt) (s : State) : State :=
  s.modMe (fun g => g.modLanes m (fun l => { l with st := st, nx := l.pc, pc := s.cur.pc }))

/-! ## Join barriers (R61, R62, R415, R416) -/

/-- Releases a barrier's lanes to a PC as one run. -/
def joinRelease (a n : Nat) (s : State) : State :=
  s.modGrp a (fun g =>
    let b := g.j.at n
    (g.finish b.waiting).modLanes (b.waiting &&& g.live) (fun l => { l with st := .ready, pc := b.pc, age := 0 }))

/-- R62: every participant has arrived or exited. -/
def joinCheck (a n : Nat) (s : State) : State :=
  let g := s.grp a
  let b := g.j.at n
  if b.parts ≠ 0 ∧ b.parts &&& g.live &&& ~~~ b.waiting = 0 then
    (joinRelease a n s).modGrp a (fun g => { g with j := g.j.put n {} })
  else s

def execJoinset (o : Body) (s : State) : Out :=
  perform 0x07 o (fun s =>
    let n := o.dst.num
    let m := s.actMask o
    if m = 0 then .ok s
    else
      let s := joinRelease s.cur.agent n s
      .ok (s.modMe (fun g => { g with j := g.j.put n { parts := m, waiting := 0, pc := target o s.cur.pc } }))) s

def execJoin (o : Body) (s : State) : Out :=
  perform 0x08 o (fun s =>
    let n := o.a.num
    let m := s.cur.act &&& (s.me.j.at n).parts
    let s := s.modMe Group.endClause
    if m = 0 then .ok s
    else
      let s := waitAt m (.join n) s
      let s := s.modMe (fun g => { g with j := g.j.put n { g.j.at n with waiting := (g.j.at n).waiting ||| m } })
      unlessWaits (joinCheck s.cur.agent n s)) s

/-! ## Named barriers (R70, R82, R178, R333, R378) -/

/-- Every access the core issued is performed at L2 (R156). -/
def coreQuiet (s : State) (k : Nat) : Bool := (s.core k).queue.isEmpty

/-- An acquire of TEAM scope or wider leaves the core's L1 empty (R156). -/
def dropL1 (k : Nat) (s : State) : State := s.modCore k (fun c => { c with l1 := [] })

/-- Whether a group would arrive at barrier `n`: every lane it has waits there. -/
def barReady (s : State) (a n : Nat) : Bool :=
  let g := s.grp a
  let t := s.team g.team
  decide (g.live ≠ 0) && decide (g.live &&& ~~~ (g.lanesWith (fun x => x = .bar n)) = 0)
    && !(t.bar.at n).arrived.any (fun p => p.1 = a)

/-- The arrival of a group, if it is due (R178, R333, R378). -/
def barArrive (a n : Nat) (s : State) : State :=
  if barReady s a n then
    let s := traceCksum a n s
    let clk := (s.grp a).race.clk
    let s := s.modTeam (s.grp a).team (fun t =>
      let b := t.bar.at n
      { t with bar := t.bar.put n { b with arrived := b.arrived ++ [(a, clk)] } })
    stampRelease a s
  else s

/-- The team's groups that have not ended. -/
def State.liveGroups (s : State) (t : Nat) : List Nat := (s.team t).groups.filter (fun g => !(s.grp g).ended)

/-- Completes the phase of barrier `n` when every group that has not ended has arrived (R378). -/
def barCheck (t n : Nat) (s : State) : State :=
  let b := (s.team t).bar.at n
  let gs := s.liveGroups t
  if gs ≠ [] ∧ gs.all (fun g => b.arrived.any (fun p => p.1 = g)) = true then
    let s := s.modTeam t (fun x => { x with
      bar := x.bar.put n { arrived := [], phase := !b.phase }, barOrd := x.barOrd + 1,
      bclk := b.arrived.foldl (fun m p => m.put (s.grp p.1).gid p.2) x.bclk })
    let s := dropL1 (s.team t).core s
    gs.foldl (fun s g => s.modGrp g (fun g =>
      g.wake (g.lanesWith (fun x => x = .bar n)))) s
  else s

def execBar (o : Body) (s : State) : Out :=
  perform 0x10 o (fun s =>
    let n := o.a.num
    let a := s.cur.agent
    let s' := waitAt s.cur.act (.bar n) s
    if barReady s' a n && !coreQuiet s' (s'.coreNo a) then .hold
    else unlessWaits (barCheck (s'.grp a).team n (barArrive a n s'))) s

/-! ## Ends (R69, R70, R404) -/

/-- Disarms a timer; the flag it held clears (R263). -/
def Group.disarm (g : Group) : Group :=
  if g.timer.mode = 0 then g
  else { g.clearFlag g.timer.flag with timer := { g.timer with mode := 0, flag := 0xF } }

/-- Lanes end: they leave the PC table and their registers are gated (R69, R92). -/
def Group.endLanes (g : Group) (m : Mask) : Group :=
  let drop (t : Tbl Word) : Tbl Word := t.filter (fun p => !(m.getLsbD (p.1 % 64)))
  { g.modLanes m (fun _ => {}) with
    v := drop g.v, x := drop g.x, p := (List.range 8).foldl (fun t n => t.put n (t.at n &&& ~~~ m)) g.p }

/-- The lanes a group still has, for its end: in a trap, lanes held outside it do not keep it (R243). -/
def Group.remaining (g : Group) : Mask := if g.trap.inTrap then g.trap.lanes &&& g.live else g.live

/-- The group's last lane has ended (R70). -/
def endGroup (a : Nat) (s : State) : State :=
  s.modGrp a (fun g => { (g.endLanes g.live).disarm with ended := true, faults := [], trap := { g.trap with inTrap := false } })

/-- What follows when lanes of a group have ended: join barriers, ERET, the group's end, barriers. -/
def afterExit (a : Nat) (s : State) : State :=
  let s := (List.range 8).foldl (fun s n => joinCheck a n s) s
  let s := eretCheck a s
  let t := (s.grp a).team
  let s := if (s.grp a).remaining = 0 then endGroup a s else s
  (List.range (s.team t).bars).foldl (fun s n => barCheck t n (barArrive a n s)) s

def execExit (o : Body) (s : State) : Out :=
  perform 0x06 o (fun s =>
    let a := s.cur.agent
    let m := s.actMask o
    if m = 0 then .ok s
    else
      let s' := s.modMe (fun g => g.endLanes m)
      let arrives := (List.range s.myTeam.bars).any (fun n => barReady s' a n && !barReady s a n)
      if arrives && !coreQuiet s (s.coreNo a) then .hold else .ok (afterExit a s')) s

/-! ## Traps (R381, R403, R460) -/

def execTrap (o : Body) (s : State) : Out :=
  perform 0x0B o (fun s =>
    if s.actMask o = 0 then .ok s
    else .trap { code := cTRAPI, after := true, addr := s.me.opv false o.a 0 } s) s

def execBkpt (o : Body) (s : State) : Out :=
  perform 0x0C o (fun s =>
    let r := s.me.region
    let inRegion : Bool := match r with | some r => s.actMask o &&& r.parts ≠ 0 | none => false
    if s.actMask o = 0 then .ok s
    else if !s.isHw && !inRegion && s.myCtx.dbgset.getLsbD 2 then
      let s := goTo s.cur.act s.cur.pc s
      abandoned (breakStop s.myCtxNo s)
    else .trap { code := cBKPT } s) s

def execEret (o : Body) (s : State) : Out :=
  perform 0x0D o (fun s =>
    let g := s.me
    if g.trap.inTrap = false then .trap { code := cPRIV } s
    else
      let here := s.cur.act ||| g.lanesWith (fun x => x = .eret)
      let all := decide (g.trap.lanes &&& g.live &&& ~~~ here = 0)
      if all && decide (g.trap.pc.extractLsb' 0 2 ≠ 0#2) then .trap { code := cALIGN, addr := g.trap.pc } s
      else
        let s := waitAt s.cur.act .eret s
        if all then .run (eretCheck s.cur.agent s) else .wait s) s

/-! ## Waits (R451, R463, R464) -/

def execSleep (o : Body) (s : State) : Out :=
  perform 0x0A o (fun s =>
    let n := (s.me.opv false o.a 0).toNat
    if n = 0 ∨ s.actMask o = 0 then .ok s else .wait (waitAt (s.actMask o) (.sleep n) s)) s

def execWaitf (o : Body) (s : State) : Out :=
  perform 0x13 o (fun s =>
    let f := o.a.num
    let n := (s.me.opv false o.b 0).toNat
    let timed := decide (o.md = 1#8)
    if s.actMask o = 0 ∨ s.me.pending (bv 4 f) = false ∨ (timed = true ∧ n = 0) then .ok s
    else .wait (waitAt (s.actMask o) (.waitf f (if timed then some n else none)) s)) s

/-- A promise `q` lies at or before `p` (R464). -/
def promiseCovers (p q : Word) : Bool := decide ((p - q).toNat < 2 ^ 31)

/-- The incomplete copies of an agent, of those numbered below `n`, that a WAITP on `p` covers, oldest first. -/
def covered (s : State) (a : Nat) (p : Word) (n : Nat) : List Copy :=
  (s.core (s.coreNo a)).eddy.filter (fun e =>
    !e.fence && decide (e.agent = a) && !e.isStep && decide (e.id < n) && promiseCovers p e.promise)

/-- VCLK has reached a promise (R142, R464). -/
def promisePast (s : State) (a : Nat) (p : Word) : Bool :=
  decide (((s.clockOf a).extractLsb' 0 32 - p).toNat < 2 ^ 31)

/-- The PROMISE fault of an incomplete copy. -/
def promiseFault (e : Copy) : TrapInfo := { code := cPROMISE, addr := e.oppc, after := true }

def execWaitp (o : Body) (s : State) : Out :=
  perform 0x83 o (fun s =>
    let p := (s.me.opv false o.a 0).extractLsb' 0 32
    let a := s.cur.agent
    if s.actMask o = 0 then .ok s
    else match covered s a p s.fresh with
      | [] => .ok s
      | e :: _ => if promisePast s a p then .trap (promiseFault e) s else .wait (waitAt (s.actMask o) (.waitp p s.fresh) s)) s

end Sys2Proof.Machine
end

