-- ==== Sys2Proof/Machine/Mgmt.lean ====
section
/-!
DEFINITION. The management region (R16, R18, R19, R271, R310): what a read of each word returns, with the
capture of high words, and what a write does; and the kick pages (R289, R291).
-/

namespace Sys2Proof.Machine

/-- The stage codes of R15. -/
def Stage.code : Stage → Nat
  | .rom => 1 | .verify => 2 | .supervisor => 3 | .scrub => 4 | .fabric => 5 | .ready => 6
  | .tripped => 0xE | .recovery => 0xF

/-- BOOTST (R16): CLUSTERS from stage SCRUB on, IMGVER from stage SUPERVISOR on. Before those stages and in RECOVERY
they read 0, in TRIPPED they keep their values (DESIGN CHOICE, log 84). -/
def bootst (s : State) : Word :=
  let b := s.boot
  let from_ (n : Nat) : Bool := decide (n ≤ b.stage.code ∧ b.stage.code ≤ 6) || b.stage = .tripped
  bv 32 (b.stage.code * 2 ^ 28 + b.failcode % 16 * 2 ^ 24 + (if from_ 4 then b.usable % 128 * 2 ^ 16 else 0)
    + (if from_ 3 then b.imgver.toNat else 0))

/-- The 64-bit value a low word captures the high half of: GTIME, or a context's VCLK (R271, R298). -/
def captured (s : State) (k : Nat) : DWord :=
  if k = 0 then bv 64 s.gtime
  else
    let c := k - 1
    if (s.ctx c).st = .free ∨ s.isConf c = true then 0 else s.vclk c

/-- A read of the word at an offset of the management region, as two steps would see it. -/
def mgmtRead (off : Nat) (s : State) : Word × State :=
  let half (k : Nat) (hi : Bool) : Word × State :=
    let v := captured s k
    if hi then
      match s.boot.capture.find? (fun p => p.1 = k) with
      | some (_, w) => (w, { s with boot := { s.boot with capture := s.boot.capture.filter (fun p => p.1 ≠ k) } })
      | none => (v.extractLsb' 32 32, s)
    else
      (v.extractLsb' 0 32,
        { s with boot := { s.boot with capture := (k, v.extractLsb' 32 32) :: s.boot.capture.filter (fun p => p.1 ≠ k) } })
  if off = 0 then (bootst s, s)
  else if off = 0x10 then half 0 false
  else if off = 0x14 then half 0 true
  else if off = 0x20 then (s.boot.ports.zeroExtend 32, s)
  else if 0x10000 ≤ off ∧ off < 0x18000 then half ((off - 0x10000) / 8 + 1) (decide (off % 8 = 4))
  else if 0x1000000 ≤ off ∧ off < 0x3000000 ∧ s.boot.stage = .recovery then
    (bv 32 (s.rdLe (stageKey (off - 0x1000000)) 4), s)
  else (0, s)

/-- BOOTCMD.LOAD starts the check of the staged image, in stage RECOVERY (R18, R19). FAILCODE is 0 from then on
(DESIGN CHOICE, log 85: the spec does not say when it falls). -/
def bootLoad (v : Word) (s : State) : State :=
  if s.boot.stage = .recovery ∧ v.getLsbD 0 = true then
    { s with boot := { s.boot with stage := .verify, staged := true, failcode := 0 } }
  else s

/-- A write of the staging window in stage RECOVERY (R18). -/
def windowWrite (off : Nat) (v : Word) (s : State) : State :=
  if s.boot.stage = .recovery ∧ off + 4 ≤ 0x2000000 then s.wrLe (stageKey off) 4 v.toNat else s

/-- A write of the word at an offset; what is not writable is left (R6). -/
def mgmtWrite (off : Nat) (v : Word) (s : State) : State :=
  if off = 4 then bootLoad v s
  else if 0x1000000 ≤ off ∧ off < 0x3000000 then windowWrite (off - 0x1000000) v s
  else s

/-! ## Kicks (R289, R291) -/

/-- What a guest reads of a kick page: at a kick word the last value written there, 0 elsewhere (R289). -/
def kickRead (s : State) (vd off : Nat) : Word := if off % 64 = 0 ∧ off < 4096 then (s.vdev vd).kicks.at (off / 64) else 0

/-- The tail goes to its queue. -/
def kickQueue (vd q : Nat) (tail : Word) (s : State) : State := s.modVQ vd q (fun v => { v with tail := tail.toNat })

/-- A kick word is written: it keeps the value also where the kick is discarded (R289, R291). -/
def kick (vd q : Nat) (tail : Word) (s : State) : State :=
  let s := s.modVDev vd (fun d => { d with kicks := d.kicks.put q tail })
  match (s.vdev vd).bound with
  | none => s
  | some c =>
    if (s.part (s.ctx c).part).st = .resetting then s
    else if (s.ctx c).st = .running then kickQueue vd q tail s
    else s.modVDev vd (fun d => { d with pending := d.pending ||| (1#64 <<< q) })

/-- A write to a kick page: other offsets than those of the kick words ignore it (R289). -/
def kickWrite (vd off : Nat) (v : Word) (s : State) : State := if off % 64 = 0 ∧ off < 4096 then kick vd (off / 64) v s else s

/-- KICK: a guest writes a kick word, once the kick pages appear to the host (R15). -/
def execKick (vd q : Nat) (tail : Word) (s : State) : Out :=
  .next (if q ≥ 64 ∨ s.boot.stage ≠ .ready then s else kick vd q tail s)

/-- The host reads a word (GTIME_READ); the value stands in `outcome`. -/
def execGtimeRead (off : Nat) (s : State) : Out :=
  let r := mgmtRead off s
  .next { r.2 with outcome := r.2.outcome.put 0 r.1 }

def execStagingWindowWrite (off : Nat) (v : Word) (s : State) : Out := .next (windowWrite off v s)
def execLoad (v : Word) (s : State) : Out := .next (bootLoad v s)

end Sys2Proof.Machine
end

