-- ==== Sys2Proof/Machine/Lsu.lean ====
section
/-!
DEFINITION. The load-store unit: addresses and their checks (R123 to R125, R146, R419), accesses performed
at once at the home slices with scope and race checks, region accesses and order (R152, R156, R159, R164,
R166, R182 to R186), requests on their way (R131 to R135, R151) and what their arrival does.
-/

namespace Sys2Proof.Machine

/-! ## Reaching an address -/

/-- Offset of the management region's bytes in the keys (R303). -/
def mgmtKey (off : Nat) : Nat := 43 * 2 ^ 58 + off

/-- A place, a fault of the access, or a wait for the supervisor (R145). -/
inductive Reach where
  | ok (x : Acc) (t : Option Trans)
  | bad (code : BitVec 8)
  | wait
  deriving DecidableEq, Repr, Inhabited

/-- Where a page of a context leads that the supervisor has mapped onto a kick page or onto memory of its guest (R321). -/
def windowAt (s : State) (c : Nat) (va : DWord) : Option Nat :=
  let w := (s.ctx c).windows.at (va.toNat % 2 ^ 57 / 4096)
  if w = 0 then none else some (w - 1 + va.toNat % 4096)

/-- Translates one access of agent `a`; Headwater's are not translated (R303). A kick page or guest memory is no frame and is
not cached. -/
def reach (s : State) (a : Nat) (n : Need) (x : Acc) : Reach :=
  let v := x.va.toNat
  if (s.grp a).role = .headwater then
    if v + x.n ≤ Config.hwBytes then .ok { x with pa := hwKey v } none
    else if Config.mgmtBase ≤ v ∧ v + x.n ≤ Config.mgmtBase + 0x4000000 then
      .ok { x with pa := mgmtKey (v - Config.mgmtBase) } none
    else .bad cACCESS
  else if canonical x.va = false then .bad cACCESS
  else match windowAt s (s.ctxNo a) x.va with
  | some key => .ok { x with pa := key, cp := 2 } none
  | none => match translate s (s.ctxNo a) n x.va with
    | .ok t => .ok { x with pa := t.key, conf := t.conf, rc := t.rc, cp := t.cp } (some t)
    | .own c => .bad c
    | .part _ => if (s.grp a).deny = some s.cur.pc ∧ a = s.cur.agent then .bad cACCESS else .wait

/-- What an instruction asks of the load-store unit. -/
structure Plan where
  kind : ReqKind := .load
  op : Nat := 0
  ty : Nat := 0
  order : Nat := 0
  scope : Nat := 0
  hint : Nat := 0
  dst : Opd := .none
  wide : Bool := false
  ext : Nat := 0
  flag : BitVec 4 := 15
  /-- .PRIV accesses are never region accesses (R164). -/
  priv : Bool := false
  /-- The lanes of an access made once for them all (R189); 0 where each lane makes its own. -/
  lanes : Mask := 0
  deriving DecidableEq, Repr, Inhabited

def ReqKind.need : ReqKind → Need
  | .store => { w := true }
  | .atom => { r := true, w := true }
  | .cas => { r := true, w := true }
  | .red => { r := true, w := true }
  | _ => { r := true }
def ReqKind.writes : ReqKind → Bool
  | .store => true | .atom => true | .cas => true | .red => true | _ => false
/-- KIND of the fault record (R240). -/
def ReqKind.code : ReqKind → Nat
  | .store => 2 | .atom => 3 | .cas => 3 | .red => 3 | _ => 1

/-- The accesses that go, those that fault with their codes, and whether one waits for the supervisor. -/
structure Reached where
  good : List (Acc × Option Trans) := []
  bad : List (Acc × BitVec 8) := []
  wait : Bool := false
  deriving DecidableEq, Repr, Inhabited

def reachAll (s : State) (a : Nat) (n : Need) (xs : List Acc) : Reached :=
  xs.foldl (fun r x => match reach s a n x with
    | .ok y t => { r with good := r.good ++ [(y, t)] }
    | .bad c => { r with bad := r.bad ++ [(x, c)] }
    | .wait => { r with wait := true }) {}

def accMask (xs : List Acc) : Mask := xs.foldl (fun m x => m ||| laneBit x.lane) 0

/-- The fault of the lowest-numbered faulting lane; FAIL names the lanes that failed the same check. -/
def faultOf (kind : Nat) (bad : List (Acc × BitVec 8)) (done : Mask) (special : Nat → List Byte) : TrapInfo :=
  match sortBy (fun a b => decide (a.1.lane ≤ b.1.lane)) bad with
  | [] => {}
  | (x, c) :: r =>
    { code := c, kind := kind, lane := x.lane, addr := x.va, done := done,
      fail := accMask (((x, c) :: r).filter (fun p => p.2 = c)).unzip.1,
      special := if c = cRACE then special x.lane else [] }

/-! ## Lines and L1 -/

def prioOf (hint : Nat) : Nat := if hint = 1 then 0 else if hint = 2 then 2 else 1

/-- The lines of a line's set in its home slice that L2 holds (R9). Which set of a slice holds a line is the model's
choice (DESIGN CHOICE, log 89). -/
def l2SetOf (s : State) (line : Nat) : List (Nat × L2Line) :=
  s.l2.filter (fun p => p.2.present && decide (p.1 % Config.l2Sets = line % Config.l2Sets)
    && decide (partOfKey (128 * p.1) = partOfKey (128 * line)) && decide (s.home (128 * p.1) = s.home (128 * line)))

/-- A victim of a set: of its lines of lowest priority, the one used least recently (R138). -/
def victimOf (l : List (Nat × Nat × Nat)) : Option Nat :=
  match l with
  | [] => none
  | x :: r => some (r.foldl (fun x y => if y.2.1 < x.2.1 ∨ (y.2.1 = x.2.1 ∧ y.2.2 < x.2.2) then y else x) x).1

/-- The priority an access gives: LAST acts as NORMAL where a set holds as many LAST lines as it may (R138). -/
def limitLast (limit : Nat) (others : List Nat) (p : Nat) : Nat :=
  if p = 2 ∧ (others.filter (fun q => q = 2)).length ≥ limit then 1 else p

/-- A line leaves L2: its partials are folded, its race metadata and its scope record go, and it is written back where
dirty (R135, R160, R185, R294). -/
def leaveL2 (line : Nat) (s : State) : State :=
  (dropScope line (evictRace line (foldLine line s))).modL2 line (fun l => { l.cleaned with present := false, priority := 0 })

/-- A line is brought into L2: its miss is counted (R329), a victim leaves a full set, and a race-checked line's
metadata is filled (R185). `hint` is that of an access that acts on one (R137, R138). -/
def bring (c : Nat) (va : DWord) (rc : Bool) (cp : Nat) (hint : Option Nat) (line : Nat) (s : State) : State :=
  if isFrame (128 * line) = false then s
  else
    let others := ((l2SetOf s line).filter (fun p => p.1 ≠ line))
    let lim := limitLast Config.l2Last (others.map (fun p => p.2.priority))
    if (s.l2line line).present then
      s.modL2 line (fun l => { l with
        used := s.tick
        priority := match hint with | some h => max l.priority (lim (prioOf h)) | none => l.priority })
    else
      let s := s.count c 5 1
      if cp = 2 then s
      else
        let s := if others.length < Config.l2Ways then s
          else match victimOf (others.map (fun p => (p.1, p.2.priority, p.2.used))) with
            | some v => leaveL2 v s
            | none => s
        let s := if rc then fillRace c (va.toNat / 128 * 128) line s else s.modL2 line (fun l => { l with rc := none })
        s.modL2 line (fun l => { l with
          present := true
          used := s.tick
          priority := match hint with | some h => lim (prioOf h) | none => 1 })

/-- The writer half of a half-line's metadata, as an L1 copy keeps it (R184). -/
def writerOnly (m : BitVec 96) : BitVec 96 := m &&& ~~~ (BitVec.allOnes 96 >>> 57) ||| (m &&& 1)

/-- Stores of a core still in its queue, younger than `id`, on a line: patched over its data. -/
def patchQueued (s : State) (k line : Nat) (keep : Req → Bool) (d : List Byte) : List Byte :=
  (s.core k).queue.foldl (fun d q =>
    if q.kind = .store && decide (q.line = line) && keep q then
      q.accs.foldl (fun d x => patchLine line d x.pa (leBytes x.n x.data.toNat)) d
    else d) d

/-- Operations of a core still in its queue that change the line at its slice (R133). -/
def changing (q : Req) : Bool :=
  q.kind = .atom || q.kind = .cas || q.kind = .red || q.kind = .enrol || q.kind = .part || q.kind = .cflush

/-- Sets of a core's L1: what the share leaves of the SRAM, in 8 ways (R50, R128). Which set holds a line is the
model's choice (DESIGN CHOICE, log 89). -/
def l1Sets (x : Core) : Nat := (Config.coreSram - x.share) / (128 * Config.l1Ways)

/-- The other lines of a line's set in a core's L1. -/
def l1SetOf (x : Core) (line : Nat) : List (Nat × L1Line) :=
  x.l1.filter (fun p => decide (p.1 % l1Sets x = line % l1Sets x) && decide (p.1 ≠ line))
def l1Limit (x : Core) (line hint : Nat) : Nat :=
  limitLast Config.l1Last ((l1SetOf x line).map (fun p => p.2.priority)) (prioOf hint)

/-- An access to a line that a core's L1 holds: its use, and its priority under the hint (R138). -/
def l1Touch (k line hint : Nat) (s : State) : State :=
  s.modCore k (fun x =>
    let y := x.l1.at line
    if y.data = [] then x
    else { x with l1 := x.l1.put line { y with used := s.tick, priority := max y.priority (l1Limit x line hint) } })

/-- Puts a line into a core's L1, where a victim leaves a full set. It does not enter while a fill of it, or an
operation that changes it, is on its way: a load must not find a copy from before those (R133, R155). -/
def install (k line hint : Nat) (d : List Byte) (rc : Bool) (s : State) : State :=
  if (s.core k).queue.any (fun q => (changing q || q.kind = .fill) && decide (q.line = line)) then s
  else
    let w := fun hi => if rc then writerOnly (s.md line hi) else 0
    let d := patchQueued s k line (fun _ => true) d
    s.modCore k (fun c =>
      let set := l1SetOf c line
      let l1 := if set.length < Config.l1Ways then c.l1
        else ((victimOf (set.map (fun p => (p.1, p.2.priority, p.2.used)))).map c.l1.drop).getD c.l1
      let y : L1Line := { data := d, priority := l1Limit c line hint, used := s.tick, w0 := w false, w1 := w true }
      { c with l1 := l1.put line y })

/-- A core's L1 copy of a line is dropped (R133). -/
def dropLine (k line : Nat) (s : State) : State := s.modCore k (fun c => { c with l1 := c.l1.drop line })

def inL1 (s : State) (k line : Nat) : Bool := !((s.core k).l1.at line).data.isEmpty

/-- Bytes of a line a core's L1 holds, as a number. -/
def l1Read (s : State) (k pa n : Nat) : Nat := fieldOf ((s.core k).l1.at (lineOf pa)).data (pa % 128) n

/-! ## Partials of RED inside a core (R134, R135, R157) -/

/-- Combines a word into a partial's words. -/
def joinWord (op ty addr v : Nat) (ws : List (Nat × DWord)) : List (Nat × DWord) :=
  if ws.any (fun p => p.1 = addr) then
    ws.map (fun p => if p.1 = addr then (p.1, bv 64 (atomNew op ty p.2.toNat v)) else p)
  else ws ++ [(addr, bv 64 v)]

/-- A core's enrolment reaches the home slice (R134). -/
def enrolAt (k line op ty : Nat) (s : State) : State :=
  let s := match (s.l2line line).merge with
    | some m => if m.op = op ∧ m.ty = ty then s else foldLine line s
    | none => foldLine line s
  let s := conflicts none true line s
  s.modL2 line (fun l =>
    let m := l.merge.getD { op := op, ty := ty }
    { l with merge := some { m with holders := (m.holders.filter (fun h => h ≠ k)) ++ [k] } })

/-- A pushed-out partial arrives at its home slice and is held there in its core's position; the core holds none any more
(R135). -/
def holdPartial (k line op ty : Nat) (ws : List (Nat × DWord)) (s : State) : State :=
  s.modL2 line (fun l =>
    let m := l.merge.getD { op := op, ty := ty }
    { l with merge := some { m with holders := m.holders.filter (fun h => h ≠ k), sent := m.sent.put k (m.sent.at k ++ ws) } })

/-- A partial goes to its slice, behind the core's other requests (R135, R151). -/
def sendPartial (k : Nat) (p : Partial) (s : State) : State :=
  let q : Req := { id := s.fresh, kind := .part, line := p.line, op := p.op, ty := p.ty,
                   accs := p.words.map (fun w => { pa := w.1, n := tySize p.ty, data := w.2 }) }
  { s.modCore k (fun c => { c with partials := c.partials.filter (fun x => x.id ≠ p.id), queue := c.queue ++ [q] }) with
    fresh := s.fresh + 1 }

/-- A save pushes out every partial of a core (R135, R254). -/
def pushOutAll (k : Nat) (s : State) : State :=
  ((s.core k).partials.foldl (fun s p => sendPartial k p s) s).modCore k (fun c =>
    { c with sums := c.sums.map (fun q => { q with out := true }) })

/-- A core's oldest partial is pushed out (R135). -/
def sendOldest (k : Nat) (s : State) : State :=
  let c := s.core k
  match c.partials.head?, c.sums.find? (fun q => !q.out) with
  | none, none => s
  | some p, x =>
    if (match x with | some q => decide (q.id < p.id) | none => false) then outSum s x
    else sendPartial k p s
  | none, x => outSum s x
where
  outSum (s : State) (x : Option SumPart) : State :=
    s.modCore k (fun c => { c with sums := c.sums.map (fun q => if some q = x then { q with out := true } else q) })

/-- Lines of the partials kept inside a core, and room made for `n` more (R135). -/
def partialLines (c : Core) : Nat := c.partials.length + ((c.sums.filter (fun q => !q.out)).map (fun q => q.lines.length)).sum
def makeRoom (k n : Nat) (s : State) : State :=
  (List.range Config.partialLines).foldl (fun s _ =>
    if partialLines (s.core k) + n > Config.partialLines then sendOldest k s else s) s

/-- One lane's RED joins its core's partial when it issues. -/
def joinRed (k op ty : Nat) (id : Nat) (agent ctx : Nat) (x : Acc) (s : State) : State :=
  let line := lineOf x.pa
  if (s.core k).partials.any (fun p => p.line = line) then
    s.modCore k (fun c => { c with partials := c.partials.map (fun p =>
      if p.line = line then { p with words := joinWord op ty x.pa x.data.toNat p.words, by_ := ((agent, x.pa) :: p.by_).eraseDups }
      else p) })
  else
    let (pid, s) := (makeRoom k 1 s).takeId
    s.modCore k (fun c => { c with
      partials := c.partials ++ [{ id := pid, line := line, op := op, ty := ty, words := [(x.pa, x.data)], by_ := [(agent, x.pa)] }],
      queue := c.queue ++ [{ id := id, kind := .enrol, agent := agent, line := line, op := op, ty := ty, ctx := ctx, va := x.va }] })

/-- Two accesses have a byte in common (R153). -/
def Acc.meets (x y : Acc) : Bool := decide (x.pa < y.pa + y.n) && decide (y.pa < x.pa + x.n)

/-- How the accesses of a RED to one line go: into the core's partial, to the slice, or not yet. -/
inductive RedWay where
  | join | send | hold
  deriving DecidableEq, Repr, Inhabited

/-- A RED joins the core's partial of its line, or starts one, unless the partial has another operation (R134). It does not
issue while what its group has sent to the same bytes is on its way to a slice that may gather from this core: the gather
would take the RED before that access (R153, R157). -/
def redWay (s : State) (k a op ty line : Nat) (xs : List Acc) : RedWay :=
  let c := s.core k
  let part := c.partials.find? (fun p => p.line = line)
  let gathers := part.isSome || c.queue.any (fun q => q.kind = .part && decide (q.line = line))
    || (match (s.l2line line).merge with | some m => m.holders.contains k | none => false)
  let mine := c.queue.any (fun q => decide (q.agent = a) && decide (q.kind ≠ .enrol) && q.accs.any (fun y => xs.any y.meets))
    || c.waiters.any (fun w => decide (w.req.agent = a) && w.req.accs.any (fun y => xs.any y.meets))
  match part with
  | some p => if p.op ≠ op ∨ p.ty ≠ ty then .send else if mine then .hold else .join
  | none => if gathers && mine then .hold else .join

/-! ## One access at its home slice -/

/-- An access's bytes as memory has them, and as an open region of agent `a` has them (R164). -/
def readView (s : State) (r : Option Region) (conf pa n : Nat) : Nat :=
  ofLe ((List.range n).map (fun i =>
    match r with
    | some r => match r.held.find? (fun h => h.1 = pa + i) with
      | some h => h.2.1
      | none => s.view conf (pa + i)
    | none => s.view conf (pa + i)))

/-- The new value of a read-modify-write, `none` where CAS writes nothing (R374, R388). -/
def rmwNew (kind : ReqKind) (op ty : Nat) (x : Acc) (old : Nat) : Option Nat :=
  if kind = .cas then (if old = x.cmp.toNat % 2 ^ (8 * x.n) then some (x.data.toNat % 2 ^ (8 * x.n)) else none)
  else some (atomNew op ty old (x.data.toNat % 2 ^ (8 * x.n)))

/-- Region entries in use of the pool that the groups of an agent's core share (R166). -/
def poolUsed (s : State) (a : Nat) : Nat :=
  s.openRegions.foldl (fun n p =>
    if s.coreNo p.1 = s.coreNo a ∧ (p.1 = 0 ↔ a = 0) then n + (p.2.lines - 8) else n) 0

/-- A line enters a region's footprint; false where the region has no entry for it (R166). -/
def footprint (a line : Nat) (writes : Bool) (s : State) : Bool × State :=
  match (s.grp a).region with
  | none => (true, s)
  | some r =>
    let isNew := !(r.reads.contains line || r.writes.contains line)
    let full := isNew && (decide (r.lines ≥ 16) || (decide (r.lines ≥ 8) && decide (poolUsed s a ≥ 128)))
    let r' := if writes then { r with writes := (line :: r.writes).eraseDups } else { r with reads := (line :: r.reads).eraseDups }
    (!full, s.modGrp a (fun g => { g with region := some r' }))

/-- Holds a region's store. -/
def holdBytes (a : Nat) (x : Acc) (bs : List Byte) (s : State) : State :=
  s.modGrp a (fun g => { g with region := g.region.map (fun r => { r with
    held := (bs.zipIdx.map (fun p => (x.pa + p.2, p.1, x.conf))) ++ r.held.filter (fun h => !(decide (x.pa ≤ h.1) && decide (h.1 < x.pa + x.n))),
    marks := if x.rc then ((x.pa / 64) :: r.marks).eraseDups else r.marks }) })

/-- A region access of agent `a`: the value read, where it performs (R164, R166, R167). -/
def regionAcc (a : Nat) (p : Plan) (x : Acc) (s : State) : Option Nat × State :=
  let line := lineOf x.pa
  let s := if isFrame x.pa then foldLine line s else s
  let old := readView s (s.grp a).region x.conf x.pa x.n
  let new : Option Nat := match p.kind with
    | .load => none
    | .store => some x.data.toNat
    | k => rmwNew k p.op p.ty x old
  let s := conflicts (some a) new.isSome line s
  let (ok, s) := footprint a line new.isSome s
  if ok = false then (none, abortRegion a 0 2 0 s)
  else (some old, match new with | some v => holdBytes a x (leBytes x.n v) s | none => s)

/-- An access to a kick page (R289): a store of a kick word is a kick; a load reads the last value written. -/
def kickAcc (p : Plan) (x : Acc) (s : State) : Nat × State :=
  let vd := (x.pa - 44 * 2 ^ 58) / 4096
  let off := x.pa % 4096
  if p.kind = .store then (0, if x.n = 4 then kickWrite vd off (bv 32 x.data.toNat) s else s)
  else (((kickRead s vd (off / 4 * 4)).toNat / 2 ^ (8 * (off % 4))) % 2 ^ (8 * min x.n 4), s)

/-- An access that is no region access: the value read or the old value. -/
def plainAcc (p : Plan) (x : Acc) (s : State) : Nat × State :=
  if 44 * 2 ^ 58 ≤ x.pa ∧ x.pa < 45 * 2 ^ 58 then kickAcc p x s
  else if 43 * 2 ^ 58 ≤ x.pa ∧ x.pa < 44 * 2 ^ 58 then
    let off := x.pa - 43 * 2 ^ 58
    let r := mgmtRead (off / 4 * 4) s
    if p.kind.writes then (0, mgmtWrite (off / 4 * 4) (bv 32 x.data.toNat) s)
    else if x.n = 8 then
      let r2 := mgmtRead (off / 4 * 4 + 4) r.2
      (r.1.toNat + r2.1.toNat * 2 ^ 32, r2.2)
    else (r.1.toNat / 2 ^ (8 * (off % 4)) % 2 ^ (8 * x.n), r.2)
  else match p.kind with
    | .load => let r := l2Read none x.conf x.pa x.n s; (ofLe r.1, r.2)
    | .store => (0, l2Write none x.conf x.pa (leBytes x.n x.data.toNat) s)
    | k =>
      let s := if isFrame x.pa then touchLine none true (lineOf x.pa) s else s
      let old := readView s none x.conf x.pa x.n
      (old, match rmwNew k p.op p.ty x old with
        | some v => l2Write none x.conf x.pa (leBytes x.n v) s
        | none => s)

/-- Accesses in ascending lane order; those of region lanes stop when the region has aborted. -/
def doAccs (a : Nat) (p : Plan) (reg : Mask) : List Acc → State → List (Acc × Nat) × State
  | [], s => ([], s)
  | x :: r, s =>
    if reg.getLsbD x.lane then
      if (s.grp a).region.isNone then doAccs a p reg r s
      else
        let (v, s) := regionAcc a p x s
        let (vs, s) := doAccs a p reg r s
        (match v with | some v => ((x, v) :: vs, s) | none => (vs, s))
    else
      let (v, s) := plainAcc p x s
      let (vs, s) := doAccs a p reg r s
      ((x, v) :: vs, s)

/-! ## Destinations -/

/-- The value a load puts into its destination (R418): sign-extended from `ext` bits. -/
def extVal (ext v : Nat) : Nat := if ext = 0 then v else wrapN 32 (toS ext v)

/-- Writes one access's value: a piece of a wide value goes to its half of the pair. -/
def writePiece (dst : Opd) (wide : Bool) (ext : Nat) (x : Acc) (v : Nat) (g : Group) : Group :=
  let w := bv 64 (extVal ext v)
  if wide && decide (x.n = 4) then
    match dst with
    | .v n => g.wr false (.v (bv 8 (n.toNat + x.sh / 32))) x.lane w
    | .s n => g.wr false (.s (bv 8 (n.toNat + x.sh / 32))) x.lane w
    | d => g.wr true d x.lane w
  else g.wr wide dst x.lane w

def writeVals (a : Nat) (dst : Opd) (wide : Bool) (ext : Nat) (vs : List (Acc × Nat)) (s : State) : State :=
  s.modGrp a (fun g => vs.foldl (fun g p => writePiece dst wide ext p.1 p.2 g) g)

/-! ## Scope and race checks of an instruction's accesses -/

/-- The accesses that fail the scope check (R159). -/
def scopeFails (s : State) (a : Nat) (p : Plan) (reg : Mask) (xs : List Acc) : List (Acc × BitVec 8) :=
  if p.order = 0 ∨ (s.ctx (s.ctxNo a)).scopectl.getLsbD 0 = false ∨ (s.grp a).role = .headwater then []
  else (xs.filter (fun x => !reg.getLsbD x.lane && !scopeOk s a (lineOf x.pa) p.scope (bit1 p.order 0))).map (fun x => (x, cSCOPE))

/-- The records that passed checks leave. -/
def scopeSets (a : Nat) (p : Plan) (reg : Mask) (xs : List Acc) (s : State) : State :=
  if p.order = 0 ∨ (s.ctx (s.ctxNo a)).scopectl.getLsbD 0 = false ∨ (s.grp a).role = .headwater then s
  else (xs.filter (fun x => !reg.getLsbD x.lane)).foldl (fun s x =>
    setScope a (lineOf x.pa) p.scope (bit1 p.order 0) (bit1 p.order 1) s) s

/-- The checked access of one half-line (R176, R181 to R183, R189). -/
def racc (s : State) (a : Nat) (pc : DWord) (p : Plan) (xs : List Acc) : RAcc :=
  let acq := bit1 p.order 0
  let rel := bit1 p.order 1
  let rmw := p.kind = .atom || p.kind = .cas || p.kind = .red
  { agent := a, race := (s.grp a).race, writes := p.kind.writes,
    marked := rmw || (decide (p.order ≠ 0) && decide (p.scope ≥ 1)),
    reads := p.kind = .load && !acq,
    wkind := if rel then 1 else if rmw then 2 else 0,
    ckind := if rmw then 4 else if p.kind = .load then (if acq then 1 else 0) else if rel then 3 else 2,
    scope := if p.order = 0 then 0 else p.scope, pc := pc, lanes := if p.lanes = 0 then accMask xs else p.lanes,
    addr := xs.foldl (fun m x => if x.va.toNat < m.toNat then x.va else m) ((xs.headD {}).va) }

/-- Whether a CAS lane finds its expected value (R389). -/
def casHits (s : State) (x : Acc) : Bool := decide (readView s none x.conf x.pa x.n = x.cmp.toNat % 2 ^ (8 * x.n))

/-- Whether a plain load is served by the core's L1. -/
def hitsL1 (s : State) (k : Nat) (p : Plan) (reg : Mask) (x : Acc) : Bool :=
  p.kind = .load && decide (p.order = 0) && decide (x.cp = 0) && !reg.getLsbD x.lane && isFrame x.pa && inL1 s k (lineOf x.pa)

/-- The accesses of an instruction that are checked. -/
def raceAccs (s : State) (a : Nat) (reg : Mask) (xs : List Acc) : List Acc :=
  if (s.grp a).role = .headwater then [] else xs.filter (fun x => !reg.getLsbD x.lane && s.raceOn (s.ctxNo a) x.rc)

/-- One half-line of an instruction that is checked: its number, the accesses to it, and the record where it races. -/
structure Half where
  h : Nat := 0
  accs : List Acc := []
  race : Option (List Byte) := none
  deriving DecidableEq, Repr, Inhabited

def Half.line (x : Half) : Nat := x.h / 2
def Half.hi (x : Half) : Bool := decide (x.h % 2 = 1)

/-- The checks of an instruction, one half-line at a time in ascending address (R182); a load that hits L1 is checked
against the copy there (R184). -/
def checkHalves (a : Nat) (pc : DWord) (p : Plan) (reg : Mask) (xs : List Acc) (s : State) : List Half × State :=
  let ys := raceAccs s a reg xs
  let k := s.coreNo a
  (sortBy (fun a b => decide (a ≤ b)) (ys.map (fun x => x.pa / 64)).eraseDups).foldl (fun (r : List Half × State) h =>
    let mine := ys.filter (fun x => x.pa / 64 = h)
    let l := (r.2.core k).l1.at (h / 2)
    let hi := decide (h % 2 = 1)
    let md := if mine.all (hitsL1 r.2 k p reg) then (if hi then l.w1 else l.w0) else r.2.md (h / 2) hi
    let q := raceCheck (racc r.2 a pc p mine) md r.2
    (r.1 ++ [{ h := h, accs := mine, race := q.1 }], q.2)) ([], s)

/-- The accesses that race, with their records. -/
def racing (hs : List Half) : List (Acc × List Byte) :=
  hs.flatMap (fun x => match x.race with | some rec_ => x.accs.map (fun y => (y, rec_)) | none => [])

/-- The writer fields of a core's copy of a half-line follow the home slice (R184). -/
def l1Writer (k line : Nat) (hi : Bool) (s : State) : State :=
  if inL1 s k line then
    s.modCore k (fun c =>
      let l := c.l1.at line
      let w := writerOnly (s.md line hi)
      { c with l1 := c.l1.put line (if hi then { l with w1 := w } else { l with w0 := w }) })
  else s

/-- The updates and acquires of the accesses that perform (R179, R183). A CAS that finds no expected value publishes
nothing (R389). -/
def updateHalves (a : Nat) (pc : DWord) (p : Plan) (hs : List Half) (go : Acc → Bool) (s : State) : State :=
  hs.foldl (fun s x =>
    let mine := x.accs.filter go
    if mine = [] then s
    else
      let old := s.md x.line x.hi
      let s := if p.kind = .cas && !mine.any (casHits s) then s else raceUpdate (racc s a pc p mine) x.line x.hi s
      let s := if bit1 p.order 0 then acquire179 a p.scope old s else s
      if p.kind.writes then l1Writer (s.coreNo a) x.line x.hi s else s) s

/-! ## Accesses performed at once -/

/-- Whether an older request of the core is still on its way to a slice these accesses go to (R151). -/
def behind (s : State) (k : Nat) (xs : List Acc) : Bool :=
  (s.core k).queue.any (fun q => xs.any (fun x => decide (s.home (128 * q.line) = s.home x.pa)))

/-- L1 after an instruction's performed accesses: stores update a copy, read-modify-writes drop it, a plain load that
missed leaves one, and one that hit uses it (R128, R133, R138). A load that the home slice has answered beside L1, by its order
or for a region, drops the copy, which may be older (R155). -/
def l1After (a : Nat) (p : Plan) (reg : Mask) (xs : List Acc) (s : State) : State :=
  let k := s.coreNo a
  (xs.filter (fun x => isFrame x.pa)).foldl (fun s x =>
    let l := lineOf x.pa
    let mine := reg.getLsbD x.lane
    match p.kind with
    | .store => if mine then s else l1Touch k l p.hint (patchL1 k x.pa (leBytes x.n x.data.toNat) s)
    | .load =>
      if mine || decide (p.order ≠ 0) then dropLine k l s
      else if x.cp ≠ 0 then s
      else if inL1 s k l then l1Touch k l p.hint s
      else install k l p.hint ((List.range 128).map (fun i => s.view x.conf (128 * l + i))) x.rc s
    | _ => dropLine k l s) s

/-- The hint an access acts on: LD and ST have one (R137). -/
def Plan.hinted (p : Plan) : Option Nat := if p.kind = .load ∨ p.kind = .store then some p.hint else none

/-- Lines that plain loads of an instruction miss in L1 (R329). -/
def missedLines (s : State) (k : Nat) (p : Plan) (reg : Mask) (xs : List Acc) : List Nat :=
  if p.kind = .load ∧ p.order = 0 then
    ((xs.filter (fun x => isFrame x.pa && !reg.getLsbD x.lane && !(decide (x.cp = 0) && inL1 s k (lineOf x.pa)))).map
      (fun x => lineOf x.pa)).eraseDups
  else []

/-- The lines of an instruction's accesses come to L2: of an access that L1 serves, where its reader notice finds the line
gone (R184, R185). -/
def bringAll (c : Nat) (p : Plan) (hits : List Acc) (good : List (Acc × Option Trans)) (s : State) : State :=
  good.foldl (fun s y =>
    if y.2.isNone || (hits.contains y.1 && (!s.raceOn c y.1.rc || (s.l2line (lineOf y.1.pa)).present)) then s
    else bring c y.1.va y.1.rc y.1.cp p.hinted (lineOf y.1.pa) s) s

/-- The race faults on half-lines that a lane below one that fails another check accesses: the lowest faulting lane decides
(R190, R242). Nothing performs, so no metadata changes. -/
def racesBelow (a : Nat) (p : Plan) (reg : Mask) (xs : List Acc) (bad : List (Acc × BitVec 8)) (s : State) :
    List (Acc × List Byte) × State :=
  let low := bad.foldl (fun m x => min m x.1.lane) 64
  if (s.ctx (s.ctxNo a)).racectl.getLsbD 1 then ([], s)
  else
    let near := (xs.filter (fun x => decide (x.lane < low))).map (fun x => x.pa / 64)
    let r := checkHalves a s.cur.pc p reg (xs.filter (fun x => near.contains (x.pa / 64))) s
    (racing r.1, r.2)

/-- The region of some lanes has aborted at the instruction, and lanes outside it fault (R169, R239): the trap is on those, and
the lanes that had performed the instruction skip it still. -/
def raiseRest (reg : Mask) (t : TrapInfo) (s : State) : State :=
  let m := s.cur.act &&& ~~~ reg
  let skip := s.me.done.at s.cur.pc.toNat &&& m
  let u := s.modMe (fun g => Group.unskip s.cur.pc s.cur.act (g.setPcs (m &&& g.live) s.cur.pc))
  { raise s.cur.pc m { t with done := t.done ||| skip } { u with cur := { u.cur with act := m } } with cur := s.cur }

/-- Performs an instruction's accesses at once: checks, accesses, order and destinations. -/
def accessNow (p : Plan) (r : Reached) (reg : Mask) (s : State) : Res :=
  let a := s.cur.agent
  let k := s.coreNo a
  let c := s.ctxNo a
  let hw := s.isHw
  let xs := r.good.map (·.1)
  let sc := scopeFails s a p reg xs
  let special (races : List (Acc × List Byte)) (l : Nat) : List Byte :=
    match races.find? (fun y => y.1.lane = l) with | some y => y.2 | none => []
  let hits := if hw then [] else xs.filter (hitsL1 s k p reg)
  if sc ≠ [] then
    let (races, s) := racesBelow a p reg xs (r.bad ++ sc) (bringAll c p hits r.good s)
    .trap (faultOf p.kind.code (r.bad ++ sc ++ races.map (fun y => (y.1, cRACE))) 0 (special races)) s
  else
    let s := if hw then s else s.count c 4 (missedLines s k p reg xs).length
    let s := r.good.foldl (fun s y => match y.2 with | some t => markAD c p.kind.writes t s | none => s) (bringAll c p hits r.good s)
    let (halves, s) := checkHalves a s.cur.pc p reg xs s
    let races := racing halves
    let goes (x : Acc) : Bool := !races.any (fun y => y.1.lane = x.lane)
    let s := updateHalves a s.cur.pc p halves goes s
    let go := xs.filter goes
    let wasOpen := (s.grp a).region.isSome
    let near := (go.filter hits.contains).map (fun x => (x, l1Read s k x.pa x.n))
    let (vs, s) := doAccs a p reg (go.filter (fun x => !hits.contains x)) s
    let vs := near ++ vs
    let s := if hw then s else l1After a p reg go s
    let s := writeVals a p.dst p.wide p.ext vs s
    let s := scopeSets a p reg go s
    let plain := go.any (fun x => !reg.getLsbD x.lane)
    let s := if plain && bit1 p.order 1 then stampRelease a s else s
    let s := if plain && bit1 p.order 0 && decide (p.scope ≥ 1) && !hw then dropL1 k s else s
    let bad := r.bad ++ races.map (fun y => (y.1, cRACE))
    if wasOpen && (s.grp a).region.isNone then
      let rest := bad.filter (fun y => !reg.getLsbD y.1.lane)
      if rest = [] then abandoned s
      else .aborted (raiseRest reg (faultOf p.kind.code rest (accMask go &&& ~~~ reg) (special races)) s)
    else if bad ≠ [] then .trap (faultOf p.kind.code bad (accMask go) (special races)) s
    else .ok s

/-! ## Requests on their way -/

/-- The accesses of a list by line, in ascending line address (R131). -/
def byLine (xs : List Acc) : List (Nat × List Acc) :=
  (sortBy (fun a b => decide (a ≤ b)) (xs.map (fun x => lineOf x.pa)).eraseDups).map
    (fun l => (l, xs.filter (fun x => lineOf x.pa = l)))

def Req.ofPlan (p : Plan) (id a c clk : Nat) (l : Nat × List Acc) : Req :=
  let x := l.2.headD {}
  { id := id, kind := p.kind, agent := a, line := l.1, op := p.op, ty := p.ty, hint := p.hint, cp := x.cp, dst := p.dst,
    wide := p.wide, ext := p.ext, flag := p.flag, clkAt := clk, ctx := c, va := x.va, conf := x.conf, rc := x.rc, accs := l.2 }

def enqueue (k : Nat) (q : Req) (s : State) : State := s.modCore k (fun c => { c with queue := c.queue ++ [q] })

/-- What the load's group has sent behind a fill and changes bytes of the load, which it must see (R153): its
read-modify-writes, and its REDs that wait in the core for an enrolment, or have been pushed out. -/
def overtakes (c : Core) (a : Nat) (f q : Req) (xs : List Acc) : Bool :=
  decide (q.line = f.line) && decide (f.id < q.id) && (match q.kind with
    | .atom => decide (q.agent = a) && q.accs.any (fun y => xs.any y.meets)
    | .cas => decide (q.agent = a) && q.accs.any (fun y => xs.any y.meets)
    | .red => decide (q.agent = a) && q.accs.any (fun y => xs.any y.meets)
    | .part => q.accs.any (fun y => xs.any y.meets)
    | .enrol => c.partials.any (fun p => decide (p.line = f.line)
        && p.by_.any (fun w => decide (w.1 = a) && xs.any (Acc.meets { pa := w.2, n := tySize p.ty })))
    | _ => false)

/-- The fill a missing load may join (R132): of the line, at most 32 clk old, and with nothing of its own group behind
it that changes what the load reads. -/
def joinsFill (s : State) (k a line : Nat) (xs : List Acc) : Option Req :=
  let c := s.core k
  c.queue.find? (fun f => f.kind = .fill && decide (f.line = line) && decide (s.coreClk k ≤ f.clkAt + 32)
    && !c.queue.any (fun q => overtakes c a f q xs))

/-- Fills in flight, how many more a load needs, and whether too few entries are left for it: then it is held, also
where some are left (DESIGN CHOICE, log 90); a load of a page that L1 does not hold takes none (DESIGN CHOICE,
log 90). -/
def fillsInFlight (s : State) (k : Nat) : Nat := ((s.core k).queue.filter (fun q => q.kind = .fill)).length
def newFills (s : State) (k a : Nat) (xs : List Acc) : Nat :=
  ((byLine xs).filter (fun l => (l.2.headD {}).cp = 0 && !inL1 s k l.1 && (joinsFill s k a l.1 l.2).isNone)).length
def entriesFull (s : State) (k a : Nat) (p : Plan) (xs : List Acc) : Bool :=
  p.kind = .load && decide (p.order = 0) && decide (fillsInFlight s k + newFills s k a xs > Config.missEntries)

/-- The destinations a plain instruction leaves pending (R420). -/
def holdDst (a id : Nat) (p : Plan) (xs : List Acc) (s : State) : State :=
  match p.dst with
  | .none => s
  | d => s.modGrp a (fun g => { g with board := g.board ++
      [{ scalar := d.scl, reg := d.num, n := if p.wide then 2 else 1, lanes := accMask xs, pc := s.cur.pc, id := id }] })

/-- One line of a plain load: an L1 hit, a join, or a request of its own. -/
def loadLine (p : Plan) (id a c k : Nat) (l : Nat × List Acc) (s : State) : List (Acc × Nat) × State :=
  let cp := (l.2.headD {}).cp
  if cp = 0 && inL1 s k l.1 then
    (l.2.map (fun x => (x, l1Read s k x.pa x.n)), l1Touch k l.1 p.hint s)
  else
    let s := s.count c 4 1
    let q := Req.ofPlan p id a c (s.coreClk k) l
    if cp = 0 then
      match joinsFill s k a l.1 l.2 with
      | some f => ([], s.modCore k (fun x => { x with waiters := x.waiters ++ [{ fill := f.id, req := q }] }))
      | none =>
        let (fid, s) := s.takeId
        let f : Req := { q with id := fid, kind := .fill, accs := [], flag := 15, dst := .none }
        let s := enqueue k f s
        ([], s.modCore k (fun x => { x with waiters := x.waiters ++ [{ fill := fid, req := q }] }))
    else ([], enqueue k q s)

/-- A plain instruction's requests leave for their slices; a RED may join partials instead (R443). -/
def post_ (p : Plan) (joins : Bool) (r : Reached) (s : State) : Res :=
  let a := s.cur.agent
  let k := s.coreNo a
  let c := s.ctxNo a
  let xs := r.good.map (·.1)
  let way (l : Nat × List Acc) : RedWay := if joins && isFrame (128 * l.1) then redWay s k a p.op p.ty l.1 l.2 else .send
  if entriesFull s k a p xs || (p.kind = .red && (byLine xs).any (fun l => decide (way l = .hold))) then .hold
  else
    let s := r.good.foldl (fun s y => match y.2 with | some t => markAD c p.kind.writes t s | none => s) s
    let (id, s) := s.takeId
    match p.kind with
    | .load =>
      let (vs, s) := (byLine xs).foldl (fun (acc : List (Acc × Nat) × State) l =>
        let (vs, s) := loadLine p id a c k l acc.2
        (acc.1 ++ vs, s)) ([], s)
      let s := writeVals a p.dst p.wide p.ext vs s
      let rest := xs.filter (fun x => !vs.any (fun v => v.1 = x))
      if rest = [] then .ok s
      else .ok ((holdDst a id p rest s).modGrp a (fun g => g.setFlag p.flag s.cur.pc))
    | .red =>
      let s := (byLine xs).foldl (fun s l =>
        let s := dropLine k l.1 s
        if way l = .join then l.2.foldl (fun s x => joinRed k p.op p.ty id a c x s) s
        else enqueue k (Req.ofPlan p id a c 0 l) s) s
      .ok (s.modGrp a (fun g => g.setFlag p.flag s.cur.pc))
    | .store =>
      let s := xs.foldl (fun s x => l1Touch k (lineOf x.pa) p.hint (patchL1 k x.pa (leBytes x.n x.data.toNat) s)) s
      let s := (byLine xs).foldl (fun s l => enqueue k (Req.ofPlan p id a c 0 l) s) s
      .ok (s.modGrp a (fun g => g.setFlag p.flag s.cur.pc))
    | _ =>
      let s := (byLine xs).foldl (fun s l => enqueue k (Req.ofPlan p id a c 0 l) (dropLine k l.1 s)) s
      .ok ((holdDst a id p xs s).modGrp a (fun g => g.setFlag p.flag s.cur.pc))

/-- The group's earlier loads and read-modify-writes have their values (R156, at GROUP scope). -/
def groupQuiet (s : State) (a : Nat) : Bool :=
  let c := s.core (s.coreNo a)
  !c.queue.any (fun q => decide (q.agent = a) && (q.kind = .load || q.kind = .atom || q.kind = .cas))
    && !c.waiters.any (fun w => decide (w.req.agent = a))

/-- The group's earlier writes to peer memory have been acknowledged (R156, at SYSTEM scope). -/
def peersQuiet (s : State) (a : Nat) : Bool :=
  !(s.core (s.coreNo a)).eddy.any (fun e => decide (e.agent = a) && decide (e.acks ≠ []))

/-- What a release or FENCE at a scope waits for (R156). -/
def releaseReady (s : State) (a scope : Nat) : Bool :=
  if scope = 0 then groupQuiet s a else coreQuiet s (s.coreNo a) && (decide (scope ≠ 5) || peersQuiet s a)

/-- An instruction's accesses, aligned already: performed at once where order, checks, a region, a fault or
Headwater ask for it, else sent. A lane of which one access faults makes none. -/
def access (p : Plan) (joins : Bool) (xs : List Acc) (pre : List (Acc × BitVec 8)) (s : State) : Res :=
  let a := s.cur.agent
  let k := s.coreNo a
  let r := reachAll s a p.kind.need xs
  let bad := pre ++ r.bad
  let r := { r with bad := bad, good := r.good.filter (fun y => !bad.any (fun z => z.1.lane = y.1.lane)) }
  let reg : Mask := match s.me.region with
    | some g => if p.priv || p.kind = .cflush then 0 else g.parts
    | none => 0
  let ys := r.good.map (·.1)
  let ordered := decide (p.order ≠ 0) && ys.any (fun x => !reg.getLsbD x.lane)
  let now := ordered || s.isHw || decide (r.bad ≠ []) || ys.any (fun x => reg.getLsbD x.lane)
    || ys.any (fun x => s.raceOn (s.ctxNo a) x.rc)
  if r.wait then .pfault 0 s
  else if xs = [] ∧ pre = [] then .ok s
  else if now then
    if !s.isHw && (behind s k ys || (ordered && bit1 p.order 1 && !releaseReady s a p.scope) || entriesFull s k a p ys) then .hold
    else accessNow p r reg s
  else post_ p (joins && ys.all (fun x => !x.rc)) r s

/-! ## Arrival at the home slice (R132 to R135, R151) -/

/-- An instruction whose last request has been answered completes its flag (R354). -/
def finish (k : Nat) (q : Req) (s : State) : State :=
  let c := s.core k
  if c.queue.any (fun x => x.id = q.id) || c.waiters.any (fun w => w.req.id = q.id) then s
  else completeFlag q.agent q.flag s

/-- Values come back to a request's destination, which a lane still waits for while another request of the instruction brings
it a part (R420); the registers of a lane that has exited are gated (R93). -/
def reply (k : Nat) (q : Req) (vs : List (Acc × Nat)) (s : State) : State :=
  let there (v : Acc × Nat) : Bool := q.dst.scl || decide (((s.grp q.agent).lane v.1.lane).st ≠ .gone)
  let s := writeVals q.agent q.dst q.wide q.ext (vs.filter there) s
  let open_ := ((s.core k).queue ++ (s.core k).waiters.map (·.req)).filter (fun x => x.id = q.id)
  let m := accMask (vs.map (·.1)) &&& ~~~ accMask (open_.flatMap (·.accs))
  s.modGrp q.agent (fun g => { g with board := (g.board.map (fun p =>
    if p.id = q.id then { p with lanes := p.lanes &&& ~~~ m } else p)).filter (fun p => p.lanes ≠ 0) })

/-- A fill answers every load that joined it; each takes the data the fill returns, under the core's own
older stores, and the line enters L1 (R132, R151). -/
def fillArrives (k : Nat) (q : Req) (s : State) : State :=
  let s := bring q.ctx q.va q.rc q.cp (some q.hint) q.line s
  let (d, s) := l2Read none q.conf (128 * q.line) 128 s
  let ws := (s.core k).waiters.filter (fun w => w.fill = q.id)
  let s := s.modCore k (fun c => { c with waiters := c.waiters.filter (fun w => w.fill ≠ q.id) })
  let hint := if ws.any (fun w => w.req.hint = 2) then 2 else if ws.any (fun w => w.req.hint = 0) then 0 else 1
  let s := install k q.line hint d q.rc s
  ws.foldl (fun s w =>
    let e := patchQueued s k q.line (fun x => decide (x.id < w.req.id)) d
    let vs := w.req.accs.map (fun x => (x, fieldOf e (x.pa % 128) x.n))
    finish k w.req (reply k w.req vs s)) s

/-- CFLUSH at the slice (R392): the line is written back and leaves L2, or stays clean at NORMAL. -/
def flushLine (line : Nat) (clean : Bool) (s : State) : State :=
  let s := touchLine none true line s
  if clean then s.modL2 line (fun l => { l.cleaned with priority := if l.present then 1 else l.priority })
  else if (s.l2line line).present then leaveL2 line s
  else s

/-- A request is performed. -/
def performReq (k : Nat) (q : Req) (s : State) : State :=
  match q.kind with
  | .fill => fillArrives k q s
  | .enrol => enrolAt k q.line q.op q.ty (bring q.ctx q.va false 0 none q.line s)
  | .part => holdPartial k q.line q.op q.ty (q.accs.map (fun x => (x.pa, x.data))) s
  | .cflush => finish k q (flushLine q.line (decide (q.op = 1)) s)
  | .pref =>
    if (s.l2line q.line).merge.isSome || s.sums.any (fun x => x.lines.contains q.line) then s
    else
      let s := bring q.ctx q.va q.rc q.cp (some q.hint) q.line s
      if q.op = 1 then s
      else if inL1 s k q.line then l1Touch k q.line q.hint s
      else install k q.line q.hint ((List.range 128).map (fun i => s.view q.conf (128 * q.line + i))) q.rc s
  | _ =>
    let s := bring q.ctx q.va q.rc q.cp (if q.kind = .load ∨ q.kind = .store then some q.hint else none) q.line s
    let (vs, s) := doAccs q.agent { kind := q.kind, op := q.op, ty := q.ty } 0 q.accs s
    finish k q (if q.kind = .store ∨ q.kind = .red then s else reply k q vs s)

/-- Takes the first request out of a queue that a test picks, if no older one goes to the same slice. -/
def takeReq (s : State) (k n : Nat) : Option Req :=
  match (s.core k).queue.drop n with
  | [] => none
  | q :: _ =>
    if ((s.core k).queue.take n).any (fun x => decide (s.home (128 * x.line) = s.home (128 * q.line))) then none
    else some q

/-- HOME_SLICE_ARRIVAL: the n-th request of a core's queue arrives at its slice; an older one to the same
slice is not overtaken (R151). -/
def arrive (k n : Nat) (s : State) : State :=
  match takeReq s k n with
  | none => s
  | some q => performReq k q (s.modCore k (fun c => { c with queue := c.queue.eraseIdx n }))

def execHomeSliceArrival (core n : Nat) (s : State) : Out := .next (arrive core n s)

/-- FILL: the fill of a line comes back (R132). -/
def execFill (core line : Nat) (s : State) : Out :=
  match (s.core core).queue.findIdx? (fun q => q.kind = .fill && decide (q.line = line)) with
  | some n => .next (arrive core n s)
  | none => .next s

end Sys2Proof.Machine
end

