-- ==== Sys2Proof/Machine/LoadStore.lean ====
section
/-!
DEFINITION. LD, ST, LDS, STS, ATOM, CAS, RED, PREF, CFLUSH and FENCE (R126, R373 to R375, R388, R389,
R391, R392, R410, R411, R418 to R422, R433, R442, R443, R452, R453).
-/

namespace Sys2Proof.Machine

/-! ## Addresses (R419) -/

/-- The index: a register zero-extended, an immediate or literal sign-extended. -/
def idxVal (g : Group) (o : Body) (l : Nat) : Int :=
  match o.b with
  | .imm i => i.toInt
  | .lit w => w.toInt
  | b => ((g.opv false b l).toNat : Int)

/-- The offset: an S register sign-extended, or an immediate. -/
def offVal (g : Group) (o : Body) (l : Nat) : Int :=
  match o.c with
  | .s n => (g.sreg n.toNat).toInt
  | .imm i => i.toInt
  | _ => let _ := l; 0

/-- The 64-bit address of a lane (R419). -/
def ea (g : Group) (o : Body) (l : Nat) : DWord :=
  g.opv true o.a l + BitVec.ofInt 64 (idxVal g o l + offVal g o l)

/-- The size code and what it selects (R418, R452). -/
def sizeSel (o : Body) : Nat := (o.md.extractLsb' 0 3).toNat
def sizeBytes (sz : Nat) : Nat := if sz = 1 ∨ sz = 7 then 8 else if sz = 2 ∨ sz = 3 then 1 else if sz = 4 ∨ sz = 5 then 2 else 4
def sizeExt (sz : Nat) : Nat := if sz = 3 then 8 else if sz = 5 then 16 else 0
def orderSel (o : Body) : Nat := (o.md.extractLsb' 3 2).toNat
def scopeSel (o : Body) : Nat := (o.md.extractLsb' 5 3).toNat
def isPriv (o : Body) : Bool := decide (sizeSel o ≥ 6)

/-- The lanes an access instruction acts in (R349, R435): once for a class 1 destination, or without a
present class 0 operand; .PRIV stores and loads to V act for each lane (R420, R453). -/
def accLanes (isStore : Bool) (o : Body) (m : Mask) : List Nat :=
  let one := if isStore then !isPriv o && !(o.dst.vec || o.a.vec || o.b.vec) else o.dst.scl
  if one then (lanesOf m).take 1 else lanesOf m

/-- The word index of a .PRIV access, its address (R124), and its checks. -/
def privWord (g : Group) (o : Body) (l : Nat) : Int := idxVal g o l + offVal g o l
def privAddr (g : Group) (w : Int) (l : Nat) : DWord := g.privBase + BitVec.ofInt 64 ((w * 64 + l) * 4)

/-- The accesses of the .PRIV forms: aligned ones, and those that fault with ALIGN or ACCESS. -/
def privAccs (s : State) (o : Body) (val_ : Nat → DWord) (ls : List Nat) : List Acc × List (Acc × BitVec 8) :=
  let g := s.me
  let grid := s.myGrid
  let wide := decide (sizeSel o = 7)
  ls.foldl (fun r l =>
    let w := privWord g o l
    let x : Acc := { lane := l, va := privAddr g w l, n := 4, data := val_ l }
    if wide && decide (w % 2 ≠ 0) then (r.1, r.2 ++ [(x, cALIGN)])
    else if grid.priv = 0 ∨ canonical g.privBase = false ∨ w < 0 ∨ w ≥ grid.pwords then (r.1, r.2 ++ [(x, cACCESS)])
    else if wide then
      let lo : DWord := (val_ l).extractLsb' 0 32 |>.zeroExtend 64
      let hi : DWord := (val_ l).extractLsb' 32 32 |>.zeroExtend 64
      (r.1 ++ [{ x with data := lo }, { x with va := privAddr g (w + 1) l, sh := 32, data := hi }], r.2)
    else (r.1 ++ [x], r.2)) ([], [])

/-- Sends an instruction's accesses, after the alignment check of all of them. -/
def sendAccs (p : Plan) (joins : Bool) (xs : List Acc) (pre : List (Acc × BitVec 8)) (s : State) : Res :=
  let mis := (xs.filter (fun x => x.va.toNat % x.n ≠ 0)).map (fun x => (x, cALIGN))
    ++ pre.filter (fun y => y.2 = cALIGN)
  if mis ≠ [] then .trap (faultOf p.kind.code mis 0 (fun _ => [])) s
  else access p joins xs pre s

def planOf (kind : ReqKind) (o : Body) : Plan :=
  let sz := sizeSel o
  { kind := kind, order := orderSel o, scope := scopeSel o, hint := o.hint.toNat, dst := if kind = .load then o.dst else .none,
    wide := decide (sz = 1 ∨ sz = 7), ext := sizeExt sz, flag := o.fset, priv := isPriv o }

def ldK (o : Body) (s : State) : Res :=
  let g := s.me
  let ls := accLanes false o (s.actMask o)
  let p := planOf .load o
  if isPriv o then
    let r := privAccs s o (fun _ => 0) ls
    sendAccs p false r.1 r.2 s
  else sendAccs p false (ls.map (fun l => { lane := l, va := ea g o l, n := sizeBytes (sizeSel o) })) [] s
def execLd (o : Body) (s : State) : Out := perform 0x70 o (ldK o) s

def stK (o : Body) (s : State) : Res :=
  let g := s.me
  let ls := accLanes true o (s.actMask o)
  let p := planOf .store o
  let val_ := g.opv p.wide o.dst
  if isPriv o then
    let r := privAccs s o val_ ls
    sendAccs p false r.1 r.2 s
  else sendAccs p false (ls.map (fun l => { lane := l, va := ea g o l, n := sizeBytes (sizeSel o), data := val_ l })) [] s
def execSt (o : Body) (s : State) : Out := perform 0x71 o (stK o) s

/-! ## Scratchpad (R126, R419, R422, R453) -/

/-- Bytes of a scratchpad access. -/
def scrBytes (o : Body) : Nat := if sizeSel o = 6 then 16 else sizeBytes (sizeSel o)
def scrOffset (g : Group) (o : Body) (l : Nat) : Int := ((g.opv false o.a l).toNat : Int) + idxVal g o l + offVal g o l

/-- The checks of every lane: ALIGN, then ACCESS; none performs. -/
def scrFault (kind : Nat) (window : Nat) (n : Nat) (xs : List (Nat × Int)) : Option TrapInfo :=
  let mis := xs.filter (fun x => x.2 % (n : Int) ≠ 0)
  let out := xs.filter (fun x => decide (x.2 < 0) || decide (x.2 + (n : Int) > (window : Int)))
  let info (c : BitVec 8) (l : List (Nat × Int)) : TrapInfo :=
    { code := c, kind := kind, lane := (l.headD (0, 0)).1, addr := BitVec.ofInt 64 (l.headD (0, 0)).2,
      fail := l.foldl (fun m x => m ||| laneBit x.1) 0 }
  if mis ≠ [] then some (info cALIGN mis) else if out ≠ [] then some (info cACCESS out) else none

/-- Registers of a quad or narrower value as bytes, and back. -/
def quadBytes (g : Group) (d : Opd) (n l : Nat) : List Byte :=
  if n = 16 then
    (List.range 4).flatMap (fun i => leBytes 4 (match d with | .s r => g.sreg (r.toNat + i) | _ => g.vreg (d.num + i) l).toNat)
  else leBytes n (g.opv (n = 8) d l).toNat
def quadWrite (d : Opd) (n ext l : Nat) (bs : List Byte) (g : Group) : Group :=
  if n = 16 then
    (List.range 4).foldl (fun g i =>
      let w := bv 32 (fieldOf bs (4 * i) 4)
      match d with | .s r => g.setS (r.toNat + i) w | _ => g.setV (d.num + i) l w) g
  else g.wr (n = 8) d l (bv 64 (extVal ext (ofLe bs)))

def ldsK (o : Body) (s : State) : Res :=
  let g := s.me
  let t := s.myTeam
  let n := scrBytes o
  let xs := (accLanes false { o with md := 0 } (s.actMask o)).map (fun l => (l, scrOffset g o l))
  match scrFault 1 t.scratchSize n xs with
  | some f => .trap f s
  | none =>
    let vs := xs.map (fun x => (x.1, t.scratchBytes x.2.toNat n))
    .ok (s.modMe (fun g => vs.foldl (fun g v => quadWrite o.dst n (sizeExt (sizeSel o)) v.1 v.2 g) g))
def execLds (o : Body) (s : State) : Out := perform 0x72 o (ldsK o) s

def stsK (o : Body) (s : State) : Res :=
  let g := s.me
  let t := s.myTeam
  let n := scrBytes o
  let xs := (accLanes true { o with md := 0 } (s.actMask o)).map (fun l => (l, scrOffset g o l))
  match scrFault 2 t.scratchSize n xs with
  | some f => .trap f s
  | none => .ok (s.modTeam g.team (fun t => xs.foldl (fun t x => t.setScratch x.2.toNat (quadBytes g o.dst n x.1)) t))
def execSts (o : Body) (s : State) : Out := perform 0x73 o (stsK o) s

/-! ## Read-modify-writes (R133, R373 to R375, R388, R442, R443) -/

/-- Accesses of a read-modify-write: the address is the base pair alone. -/
def rmwAccs (g : Group) (o : Body) (cas : Bool) (ls : List Nat) : List Acc :=
  let n := tySize o.cc.toNat
  let wide := decide (n = 8)
  ls.map (fun l => { lane := l, va := g.opv true o.a l, n := n, data := g.opv wide o.b l,
                     cmp := if cas then g.opv wide o.dst l else 0 })
def rmwPlan (kind : ReqKind) (o : Body) : Plan :=
  { kind := kind, op := sizeSel o, ty := o.cc.toNat, order := orderSel o, scope := scopeSel o, dst := o.dst,
    wide := decide (tySize o.cc.toNat = 8), flag := o.fset }

def execAtom (o : Body) (s : State) : Out :=
  perform 0x74 o (fun s =>
    sendAccs (rmwPlan .atom o) false (rmwAccs s.me o false (actLanes o (s.actMask o))) [] s) s
def execCas (o : Body) (s : State) : Out :=
  perform 0x75 o (fun s =>
    sendAccs (rmwPlan .cas o) false (rmwAccs s.me o true (actLanes o (s.actMask o))) [] s) s
/-- RED may join partials when R443 allows it. -/
def execRed (o : Body) (s : State) : Out :=
  perform 0x76 o (fun s =>
    let joins := decide (o.cc.toNat ≠ 4) && decide (orderSel o = 0) && decide (o.fset = 15)
    sendAccs (rmwPlan .red o) joins (rmwAccs s.me o false (actLanes o (s.actMask o))) [] s) s

/-! ## PREF and CFLUSH (R391, R392, R433) -/

/-- PREF does nothing for a line it cannot reach, or whose CP the fill would break. It and CFLUSH set no A bit of the
pages they name (DESIGN CHOICE, log 92). -/
def prefK (o : Body) (s : State) : Res :=
  let g := s.me
  let a := s.cur.agent
  let k := s.coreNo a
  let l2 := decide (sizeSel o = 1)
  let xs := (accLanes true { o with md := 0 } (s.actMask o)).map (fun l => ({ lane := l, va := ea g o l, n := 1 } : Acc))
  let r := reachAll s a { r := true } xs
  let ok := (r.good.map (·.1)).filter (fun x => isFrame x.pa && (decide (x.cp = 0) || (decide (x.cp = 1) && l2)))
  let (id, s) := s.takeId
  .ok ((byLine ok).foldl (fun s l =>
    enqueue k { Req.ofPlan { kind := .pref, op := if l2 then 1 else 0, hint := o.hint.toNat } id a (s.ctxNo a) 0 l with accs := [] } s) s)
def execPref (o : Body) (s : State) : Out := perform 0x77 o (prefK o) s

/-- CFLUSH: each named line leaves the core's L1 and goes to its slice; faults are precise. -/
def cflushK (o : Body) (s : State) : Res :=
  let g := s.me
  let a := s.cur.agent
  let k := s.coreNo a
  let c := s.ctxNo a
  let xs := (accLanes true { o with md := 0 } (s.actMask o)).map (fun l => ({ lane := l, va := ea g { o with c := .none } l, n := 1 } : Acc))
  let r := reachAll s a { r := true } xs
  let ok := (r.good.map (·.1)).filter (fun x => isFrame x.pa)
  if r.wait then .pfault 0 s
  else if r.bad ≠ [] then
    if behind s k ok then .hold
    else
      let s := (byLine ok).foldl (fun s l => flushLine l.1 (decide (o.md = 1#8)) (dropLine k l.1 s)) s
      .trap (faultOf 1 r.bad (accMask (r.good.map (·.1))) (fun _ => [])) s
  else if ok = [] then .ok s
  else
    let (id, s) := s.takeId
    let s := (byLine ok).foldl (fun s l =>
      enqueue k { Req.ofPlan { kind := .cflush, op := o.md.toNat, flag := o.fset } id a c 0 l with accs := [] } (dropLine k l.1 s)) s
    .ok (s.modGrp a (fun g => g.setFlag o.fset s.cur.pc))
def execCflush (o : Body) (s : State) : Out := perform 0x78 o (cflushK o) s

/-! ## FENCE (R156, R410, R411) -/

/-- At GROUP scope the group's earlier loads have their values first; at TEAM scope or wider the core's earlier accesses
are performed first, at SYSTEM scope also its earlier writes to peers, the L1 is empty after, and the race clock rises. -/
def fenceK (o : Body) (s : State) : Res :=
  let a := s.cur.agent
  let k := s.coreNo a
  if s.actMask o = 0 ∨ s.isHw = true then .ok s
  else if !releaseReady s a (scopeSel o) then .hold
  else if scopeSel o = 0 then .ok s
  else .ok (stampRelease a (dropL1 k s))
def execFence (o : Body) (s : State) : Out := perform 0x11 o (fenceK o) s

end Sys2Proof.Machine
end

