-- ==== Sys2Proof/Machine/Regions.lean ====
section
/-!
DEFINITION. Atomic regions: XENTER, XCOMMIT, XQUIT, XPROBE, and their aborts by the hardware (R163, R168
to R172, R186, R465).
-/

namespace Sys2Proof.Machine

/-- Opens a region for the bundle's lanes, or aborts the open one (R163). -/
def xenterK (o : Body) (s : State) : Res :=
  let a := s.cur.agent
  match s.me.region with
  | some _ => abandoned (abortRegion a 0 4 2 s)
  | none => .ok (s.modMe (fun g => { g with
      region := some { parts := s.cur.act, target := target o s.cur.pc }, xstat := 0x8000 }))
def execXenter (o : Body) (s : State) : Out := perform 0x7C o (xenterK o) s

/-- Held stores become visible together, oldest first (R168). -/
def commitStores (a : Nat) (r : Region) (s : State) : State :=
  r.held.reverse.foldl (fun s h => l2Write (some a) h.2.2 h.1 [h.2.1] s) s

/-- The race metadata of the half-lines a commit wrote (R186). -/
def commitMarks (a : Nat) (r : Region) (pc : DWord) (s : State) : State :=
  if (s.ctx (s.ctxNo a)).racectl.getLsbD 0 = false ∨ (s.grp a).role = .headwater then s
  else r.marks.foldl (fun s h =>
    let x : RAcc := { agent := a, race := (s.grp a).race, writes := true, wkind := 1, scope := 4, pc := pc }
    setMd (h / 2) (decide (h % 2 = 1)) (update183 s x (s.md (h / 2) (decide (h % 2 = 1)))) s) s

/-- The commit: as an ATOM.AR at DEVICE scope of every participant, which go on as one run. -/
def commit (a : Nat) (r : Region) (s : State) : State :=
  let s := commitMarks a r s.cur.pc (commitStores a r s)
  let s := stampRelease a s
  let s := if (s.grp a).role = .headwater then s else dropL1 (s.coreNo a) s
  s.modGrp a (fun g => { g.wake (r.parts &&& g.live) with
    region := none, xstat := xstatOf 0 0 r.lines 0,
    bundle := { g.bundle with lanes := r.parts &&& g.live, clause := 0, due := false } })

def xcommitK (s : State) : Res :=
  let a := s.cur.agent
  match s.me.region with
  | none => .trap { code := cNOREGION } s
  | some r =>
    let m := s.cur.act &&& r.parts
    if m = 0 then .trap { code := cNOREGION } s
    else
      let s' := waitAt m .xcommit s
      let g := s'.grp a
      if r.parts &&& g.live &&& ~~~ (g.lanesWith (fun x => x = .xcommit)) ≠ 0 then .wait s'
      else if !s.isHw && !coreQuiet s (s.coreNo a) then .hold
      else .run (commit a r s')
def execXcommit (o : Body) (s : State) : Out := perform 0x7D o xcommitK s

def xquitK (o : Body) (s : State) : Res :=
  let a := s.cur.agent
  if s.actMask o = 0 then .ok s
  else match s.me.region with
    | none => .trap { code := cNOREGION } s
    | some r =>
      if s.actMask o &&& r.parts = 0 then .trap { code := cNOREGION } s
      else .run (abortRegion a (s.me.opv false o.a 0).toNat 3 0 s)
def execXquit (o : Body) (s : State) : Out := perform 0x7E o (xquitK o) s

def execXprobe (o : Body) (s : State) : Out :=
  perform 0x7F o (fun s => .ok (laneOp o false (fun g _ =>
    match g.region with
    | none => 0
    | some r => if o.dst.scl then bv 64 (1 + r.lines) else 1) s)) s

/-- TRANSIENT_ABORT: a region may abort at any instruction boundary (R172). -/
def execTransientAbort (g : Nat) (s : State) : Out := .next (abortRegion g 0 5 0 s)

/-- REGION_STOP_LIMIT: 4,096 clk after a capture-mode request a region still open aborts (R172). -/
def execRegionStopLimit (g : Nat) (s : State) : Out :=
  match (s.ctx (s.ctxNo g)).stop with
  | .capture .. => .next (if s.clkOf (s.clusterNo g / 20) ≥ (s.ctx (s.ctxNo g)).stopClks.at (s.clusterNo g / 20) + 4096 then endRegion g 0 5 0 s else s)
  | _ => .next s

end Sys2Proof.Machine
end

