-- ==== Sys2Proof/Machine/Summaries.lean ====
section
/-!
DEFINITION. The summary instructions, opcodes 0xA0 to 0xA8 (R216 to R233, R436, R437): where a summary
lies, its checks, and each instruction performed whole.
-/

namespace Sys2Proof.Machine

/-- A summary's place: an offset in the team's scratchpad, or global accesses, one per half-line. -/
structure SLoc where
  scr : Option Nat := none
  va : DWord := 0
  accs : List (Acc × Option Trans) := []
  deriving DecidableEq, Repr, Inhabited

/-- What stops an instruction before its effect. -/
inductive SStop where
  | fault (t : TrapInfo)
  | wait
  | hold
  deriving DecidableEq, Repr, Inhabited

/-- .SCR of the modifier (R436). -/
def isScr (o : Body) : Bool := o.md.getLsbD 7

/-- The lane a single access is made for, and its fault (R240). -/
def sFault (o : Body) (s : State) (code : BitVec 8) (kind : Nat) (addr : DWord) : TrapInfo :=
  let l := (lanesOf (s.actMask o)).headD 0
  { code := code, kind := kind, lane := l, addr := addr, fail := laneBit l }

/-- The address of a summary field: ALIGN unless a multiple of 128 (R216). -/
def sAddr (s : State) (o : Body) (x : Opd) : DWord := s.me.opv (!isScr o) x 0

/-- Translates and checks every line of a summary of a size (R220). -/
def sLoc (s : State) (o : Body) (x : Opd) (writes : Bool) (size : Nat) : Except SStop SLoc :=
  let a := sAddr s o x
  let kind := if writes then 3 else 1
  if a.toNat % 128 ≠ 0 then .error (.fault (sFault o s cALIGN kind a))
  else if isScr o then
    if a.toNat + size > s.myTeam.scratchSize then .error (.fault (sFault o s cACCESS kind a))
    else .ok { scr := some a.toNat, va := a }
  else
    let xs := (List.range (size / 64)).map (fun i =>
      ({ lane := (lanesOf (s.actMask o)).headD 0, va := a + bv 64 (64 * i), n := 64 } : Acc))
    let r := reachAll s s.cur.agent { r := true, w := writes } xs
    match r.bad with
    | (y, c) :: _ => .error (.fault (sFault o s c kind y.va))
    | [] => if r.wait then .error .wait else .ok { va := a, accs := r.good }

def SLoc.xs (l : SLoc) : List Acc := l.accs.map (·.1)
def SLoc.lines (l : SLoc) : List Nat := ((l.xs.filter (fun x => isFrame x.pa)).map (fun x => lineOf x.pa)).eraseDups

/-- The bytes of a summary where it lies. -/
def sBytes (s : State) (l : SLoc) (size : Nat) : List Byte :=
  match l.scr with
  | some o => s.myTeam.scratchBytes o size
  | none => (l.xs.flatMap (fun x => (List.range x.n).map (fun i => s.view x.conf (x.pa + i)))).take size

/-- Writes a summary back. -/
def sWrite (l : SLoc) (bs : List Byte) (s : State) : State :=
  match l.scr with
  | some o => s.modTeam s.me.team (fun t => t.setScratch o bs)
  | none => l.xs.zipIdx.foldl (fun s p => l2Write none p.1.conf p.1.pa (sub bs (64 * p.2) p.1.n) s) s

/-- An older request of the core is on its way to a slice of the summary. -/
def sBehind (s : State) (l : SLoc) : Bool := !s.isHw && l.scr.isNone && behind s (s.coreNo s.cur.agent) l.xs

/-- Pending merges of a summary are folded first (R220, R232). -/
def sFold (l : SLoc) (s : State) : State := l.lines.foldl (fun s n => foldLine n s) s

/-- A summary's lines come to L2, and the race metadata of those that had left it with them (R185). -/
def sBring (l : SLoc) (s : State) : State := bringAll (s.ctxNo s.cur.agent) { kind := .atom } [] l.accs s

/-- A summary instruction acts at the slice: its lines conflict as an ATOM's and leave the core's L1 (R133, R220). -/
def sTouch (writes : Bool) (l : SLoc) (s : State) : State :=
  let a := s.cur.agent
  let s := l.accs.foldl (fun s y => match y.2 with | some t => markAD (s.ctxNo a) writes t s | none => s) s
  let s := l.lines.foldl (fun s n => touchLine none true n s) s
  if s.isHw then s else l.lines.foldl (fun s n => dropLine (s.coreNo a) n s) s

/-- The race checks of an instruction's half-lines, as an ATOM of its active lanes (R186, R189, R220). -/
def sRace (o : Body) (xs : List Acc) (s : State) : Option TrapInfo × State :=
  let p : Plan := { kind := .atom, lanes := s.actMask o }
  let a := s.cur.agent
  let (hs, s) := checkHalves a s.cur.pc p 0 xs s
  match racing hs with
  | [] => (none, updateHalves a s.cur.pc p hs (fun _ => true) s)
  | (x, rec_) :: _ => (some { sFault o s cRACE 3 x.va with special := rec_ }, s)

/-- One summary, read and perhaps written: place, fold, header and race checks, effect (R218, R220, R437). Until the
checks have passed nothing changes but that pending merges are folded. `kind` 0 makes no header check (SINIT). -/
def withSumm (o : Body) (x : Opd) (writes : Bool) (kind size : Nat) (eff : SLoc → List Byte → State → State) (s : State) : Res :=
  if s.actMask o = 0 then .ok s
  else match sLoc s o x writes size with
    | .error (.fault t) => .trap t s
    | .error .wait => .pfault 0 s
    | .error .hold => .hold
    | .ok l =>
      if sBehind s l then .hold
      else
        let s := sFold l s
        let bs := sBytes s l size
        if kind ≠ 0 ∧ headerOk kind bs = false then .trap (sFault o s cACCESS (if writes then 3 else 1) l.va) s
        else match sRace o l.xs (sBring l s) with
          | (some t, s) => .trap t s
          | (none, s) => .ok (eff l bs (sTouch writes l s))

/-- An update of one summary in place. -/
def updateSumm (o : Body) (kind : Nat) (f : Group → Summ → Summ) (s : State) : Res :=
  withSumm o o.a true kind (summSize kind) (fun l bs s => sWrite l (f s.me (summOf bs)).bytes s) s

/-- The kind SINIT makes (R436). -/
def sinitKind (o : Body) : Nat := (o.md.extractLsb' 0 2).toNat + 1

def execSinit (o : Body) (s : State) : Out :=
  perform 0xA0 o (fun s =>
    let seed := (s.me.opv false o.b 0).toNat
    withSumm o o.a true 0 (summSize (sinitKind o)) (fun l _ s => sWrite l (summInit (sinitKind o) seed).bytes s) s) s

/-- The values of the active lanes, ascending. -/
def laneWords (o : Body) (s : State) (g : Group) : List Nat :=
  (lanesOf (s.actMask o)).map (fun l => (g.opv false o.b l).toNat)

def execSqadd (o : Body) (s : State) : Out :=
  perform 0xA1 o (fun s => updateSumm o 1 (fun _ x => sqAdd x (laneWords o s s.me)) s) s
def execShadd (o : Body) (s : State) : Out :=
  perform 0xA2 o (fun s => updateSumm o 2 (fun _ x => shAdd x (laneWords o s s.me)) s) s
def execSdadd (o : Body) (s : State) : Out :=
  perform 0xA3 o (fun s => updateSumm o 3 (fun _ x => sdAdd x (laneWords o s s.me)) s) s

/-! ## Queries -/

def execSqry (o : Body) (s : State) : Out :=
  perform 0xA5 o (fun s => withSumm o o.a false 1 (summSize 1) (fun _ bs s =>
    let x := summOf bs
    laneOp o false (fun g l => bv 64 (sqQuery x (g.opv false o.b l).toNat)) s) s) s

def execShtop (o : Body) (s : State) : Out :=
  perform 0xA6 o (fun s => withSumm o o.a false 2 (summSize 2) (fun _ bs s =>
    laneOp o true (fun g l =>
      let r := shTop (summOf bs) (g.opv false o.b l).toNat
      bv 64 (r.1 + r.2 * 2 ^ 32)) s) s) s

def execSdest (o : Body) (s : State) : Out :=
  perform 0xA7 o (fun s => withSumm o o.a false 3 (summSize 3) (fun _ bs s =>
    laneOp o true (fun _ _ => bv 64 (sdEst (summOf bs))) s) s) s

/-- A value clamped between two quantiles; a NaN stays the canonical NaN (R225). -/
def clampQ (lo hi v : Nat) : Nat :=
  if (unpack fp32 false v).isNan then 0x7FC00000
  else (minMaxNum fp32 false false (minMaxNum fp32 false true v lo).1 hi).1

def execQclamp (o : Body) (s : State) : Out :=
  perform 0xA8 o (fun s => withSumm o o.b false 1 (summSize 1) (fun _ bs s =>
    let x := summOf bs
    let lo := sqQuery x ((s.me.opv true o.c 0).toNat % 2 ^ 32)
    let hi := sqQuery x ((s.me.opv true o.c 0).toNat / 2 ^ 32)
    laneOp o false (fun g l => bv 64 (clampQ lo hi (g.opv false o.a l).toNat)) s) s) s

/-! ## SMERGE (R218, R230, R232) -/

/-- The places of destination and source, sized by the destination's KIND: both addresses are aligned first (R242), and
the destination's first line has what earlier stores and pending merges give it before KIND is read. -/
def mergeLocs (s : State) (o : Body) : Except SStop (Nat × SLoc × SLoc × State) := do
  let mis (x : Opd) : Bool := decide ((sAddr s o x).toNat % 128 ≠ 0)
  if mis o.a then .error (.fault (sFault o s cALIGN 3 (sAddr s o o.a)))
  else if mis o.b then .error (.fault (sFault o s cALIGN 1 (sAddr s o o.b)))
  else do
    let h ← sLoc s o o.a true 64
    if sBehind s h then .error .hold
    else do
      let s := sFold h s
      let kind := fieldOf (sBytes s h 64) 0 1
      if kind = 0 ∨ kind > 3 then .error (.fault (sFault o s cACCESS 3 h.va))
      else do
        let d ← sLoc s o o.a true (summSize kind)
        let r ← sLoc s o o.b false (summSize kind)
        if sBehind s d || sBehind s r then .error .hold else .ok (kind, d, r, sFold r (sFold d s))

/-- SMERGE.RED joins the core's partial of the destination (R232), for whose lines a new one makes room (R135). -/
def joinSumm (k : Nat) (lines : List Nat) (kind : Nat) (src : Summ) (s : State) : State :=
  let start := summInit kind 0x2545F491
  match (s.core k).sums.find? (fun q => decide (q.lines = lines) && !q.out) with
  | some p =>
    s.modCore k (fun c => { c with sums := c.sums.map (fun q =>
      if q = p then { q with bytes := (smerge (summOf p.bytes) src).bytes } else q) })
  | none =>
    let s := lines.foldl (fun s l => conflicts none true l (foldReds l s)) s
    let (id, s) := (makeRoom k lines.length s).takeId
    s.modCore k (fun c => { c with sums := c.sums ++ [{ lines := lines, bytes := (smerge start src).bytes, id := id }] })

/-- The destination of SMERGE.RED: pages marked, lines out of the core's L1 (R133, R144). -/
def sMark (l : SLoc) (s : State) : State :=
  let a := s.cur.agent
  let s := l.accs.foldl (fun s y => match y.2 with | some t => markAD (s.ctxNo a) true t s | none => s) s
  l.lines.foldl (fun s n => dropLine (s.coreNo a) n s) s

/-- SMERGE.RED leaves the destination's partials as they are, and reads its header without a fold. -/
def smergeRedK (o : Body) (s : State) : Res :=
  let a := s.cur.agent
  let k := s.coreNo a
  let mis (x : Opd) : Bool := decide ((sAddr s o x).toNat % 128 ≠ 0)
  if mis o.a then .trap (sFault o s cALIGN 3 (sAddr s o o.a)) s
  else if mis o.b then .trap (sFault o s cALIGN 1 (sAddr s o o.b)) s
  else
    let stop (e : SStop) (s : State) : Res := match e with | .fault t => .trap t s | .wait => .pfault 0 s | .hold => .hold
    match sLoc s o o.a true 64 with
    | .error e => stop e s
    | .ok h =>
      if sBehind s h then .hold
      else
        let kind := fieldOf (sBytes s h 64) 0 1
        if kind = 0 ∨ kind > 3 then .trap (sFault o s cACCESS 3 h.va) s
        else match sLoc s o o.a true (summSize kind), sLoc s o o.b false (summSize kind) with
          | .error e, _ => stop e s
          | _, .error e => stop e s
          | .ok d, .ok r =>
            if sBehind s d || sBehind s r then .hold
            else
              let s := sFold r s
              let sb := sBytes s r (summSize kind)
              if headerOk kind (sBytes s d (summSize kind)) = false then .trap (sFault o s cACCESS 3 d.va) s
              else if headerOk kind sb = false then .trap (sFault o s cACCESS 1 r.va) s
              else match sRace o (d.xs ++ r.xs) (sBring r (sBring d s)) with
                | (some t, s) => .trap t s
                | (none, s) =>
                  let s := sMark d (sTouch false r s)
                  -- partials of another kind, or of a summary that shares lines with this one, are folded first
                  let other (q : SumPart) : Bool :=
                    q.lines.any d.lines.contains && (decide (q.lines ≠ d.lines) || decide (fieldOf q.bytes 0 1 ≠ kind))
                  let s := if s.sums.any other then d.lines.foldl (fun s l => foldSums l s) s else s
                  .ok (joinSumm k d.lines kind (summOf sb) s)

def smergeK (o : Body) (s : State) : Res :=
  if s.actMask o = 0 then .ok s
  else if o.md = 1#8 ∧ s.isHw = false then smergeRedK o s
  else match mergeLocs s o with
    | .error (.fault t) => .trap t s
    | .error .wait => .pfault 0 s
    | .error .hold => .hold
    | .ok (kind, d, r, s) =>
      let size := summSize kind
      let db := sBytes s d size
      let sb := sBytes s r size
      if headerOk kind db = false then .trap (sFault o s cACCESS 3 d.va) s
      else if headerOk kind sb = false then .trap (sFault o s cACCESS 1 r.va) s
      else match sRace o (d.xs ++ r.xs) (sBring r (sBring d s)) with
        | (some t, s) => .trap t s
        | (none, s) => .ok (sWrite d (smerge (summOf db) (summOf sb)).bytes (sTouch false r (sTouch true d s)))
def execSmerge (o : Body) (s : State) : Out := perform 0xA4 o (smergeK o) s

end Sys2Proof.Machine
end

