-- ==== Sys2Proof/Machine/Engine.lean ====
section
/-!
DEFINITION. What the engines share: their reads and writes of memory on behalf of an agent (R143, R161,
R175, R186), with the outcomes of a translation or race fault, and the queues that a QFENCE waits for
(R162).
-/

namespace Sys2Proof.Machine

/-- For whom an engine acts: the operation's number, its agent, the agent's race clocks and active lanes when it
issued, the instruction's address (R178, R182, R189), and the hint that its reads act on (R137). -/
structure Owner where
  op : Nat := 0
  agent : Nat := 0
  race : RaceClk := {}
  lanes : Mask := 1
  pc : DWord := 0
  hint : Option Nat := none
  deriving DecidableEq, Repr, Inhabited

/-- An operation has ended: its reported half-lines are forgotten. -/
def dropRaced (op : Nat) (s : State) : State := { s with raced := s.raced.filter (fun x => x.1 ≠ op) }

/-- What an engine's access comes to: done, a fault at an address, or a wait for the supervisor (R145). -/
inductive EngRes where
  | ok (bs : List Byte) (s : State)
  | bad (code : BitVec 8) (addr : DWord) (s : State)
  | wait
  deriving DecidableEq, Repr, Inhabited

/-- The parts of `n` bytes at an address that no 64-byte boundary splits: address and length. -/
def pieces (va n : Nat) : List (Nat × Nat) :=
  if n = 0 then []
  else (List.range ((va + n - 1) / 64 - va / 64 + 1)).map (fun i =>
    let lo := max va (64 * (va / 64 + i))
    (lo, min (va + n) (64 * (va / 64 + i + 1)) - lo))

/-- Translates an engine's access; the first faulting part in address order decides. `deliver` turns a
wait for the supervisor into ACCESS (R145). -/
def engReach (s : State) (a : Nat) (n : Need) (deliver : Bool) (xs : List Acc) :
    Except (Option (BitVec 8 × DWord)) (List (Acc × Option Trans)) :=
  xs.foldl (fun r x => match r with
    | .error e => .error e
    | .ok l => match reach s a n x with
      | .ok y t => if 43 * 2 ^ 58 ≤ y.pa ∧ y.pa < 2 ^ 70 then .error (some (cACCESS, x.va)) else .ok (l ++ [(y, t)])
      | .bad c => .error (some (c, x.va))
      | .wait => if deliver then .error (some (cACCESS, x.va)) else .error none) (.ok [])

/-- An owner's access to a half-line, a plain one (R186). -/
def Owner.racc (e : Owner) (writes : Bool) (y : Acc) : RAcc :=
  { agent := e.agent, race := e.race, writes := writes, reads := !writes, wkind := 3, ckind := if writes then 6 else 5,
    pc := e.pc, lanes := e.lanes, addr := y.va }

/-- The accesses of an engine that are checked; they lie in different half-lines. -/
def engChecked (e : Owner) (ys : List Acc) (s : State) : List Acc :=
  if (s.grp e.agent).role = .headwater then [] else ys.filter (fun y => s.raceOn (s.ctxNo e.agent) y.rc)
def halfOf (y : Acc) : Bool := decide (y.pa / 64 % 2 = 1)

/-- The race checks of an engine's access: the address that races in fault mode. In report mode an operation reports a
half-line once (R189). -/
def engCheck (e : Owner) (writes : Bool) (ys : List Acc) (s : State) : Option DWord × State :=
  (engChecked e ys s).foldl (fun (r : Option DWord × State) y =>
    if r.1.isSome || r.2.raced.contains (e.op, y.pa / 64) then r
    else
      let x := e.racc writes y
      let md := r.2.md (lineOf y.pa) (halfOf y)
      let hit := (decide182 x md r.2).1.isSome
      let q := raceCheck x md r.2
      (q.1.map (fun _ => y.va), if hit && q.1.isNone then { q.2 with raced := (e.op, y.pa / 64) :: q.2.raced } else q.2))
    (none, s)

/-- The updates of an engine's access that performs (R183); those of a write reach the issuing core's copy (R184). -/
def engUpdates (e : Owner) (writes : Bool) (ys : List Acc) (s : State) : State :=
  (engChecked e ys s).foldl (fun s y =>
    let s := raceUpdate (e.racc writes y) (lineOf y.pa) (halfOf y) s
    if writes then l1Writer (s.coreNo e.agent) (lineOf y.pa) (halfOf y) s else s) s

/-- The lines of an engine's access come into L2 and its pages are marked. -/
def engTouch (e : Owner) (w : Bool) (ys : List (Acc × Option Trans)) (s : State) : State :=
  ys.foldl (fun s y => match y.2 with
    | some t =>
      markAD (s.ctxNo e.agent) w t
        (bring (s.ctxNo e.agent) y.1.va y.1.rc y.1.cp (if w then none else e.hint) (lineOf y.1.pa) s)
    | none => s) s

/-- An engine's accesses of bytes at context addresses, all checked before any is made. -/
def engAccess (e : Owner) (deliver : Bool) (n : Need) (ps : List (Nat × Nat)) (k : List Acc → State → List Byte × State)
    (s : State) : EngRes :=
  let s := s.atUnit e.agent
  match engReach s e.agent n deliver (ps.map (fun p => { va := bv 64 p.1, n := p.2 })) with
  | .error none => .wait
  | .error (some (c, a)) => .bad c a s
  | .ok ys =>
    let s := engTouch e n.w ys s
    match engCheck e n.w (ys.map (·.1)) s with
    | (some a, s) => .bad cRACE a s
    | (none, s) => let r := k (ys.map (·.1)) s; .ok r.1 (engUpdates e n.w (ys.map (·.1)) r.2)

def engRead (e : Owner) (deliver : Bool) (va : DWord) (n : Nat) (s : State) : EngRes :=
  engAccess e deliver { r := true } (pieces va.toNat n)
    (fun ys s => ys.foldl (fun (r : List Byte × State) y =>
      let q := l2Read none y.conf y.pa y.n r.2
      (r.1 ++ q.1, q.2)) ([], s)) s

/-- An engine's write reaches a core's L1 copy, under the stores that the core has still on their way (R128, R155). -/
def patchUnder (core k : Nat) (bs : List Byte) (s : State) : State :=
  (linesOf k bs.length).foldl (fun s l =>
    let x := (s.core core).l1.at l
    if x.data = [] then s
    else s.modCore core (fun c => { c with
      l1 := c.l1.put l { x with data := patchQueued s core l (fun _ => true) (patchLine l x.data k bs) } })) s

/-- Writes of an engine also reach the issuing core's L1 copy, so that the issuer sees them (R161). -/
def engPut (e : Owner) (bs : List Byte) (ys : List Acc) (s : State) : State :=
  (ys.foldl (fun (r : Nat × State) y =>
    let b := sub bs r.1 y.n
    let t := l2Write none y.conf y.pa b r.2
    (r.1 + y.n, if e.agent = 0 then t else patchUnder (s.coreNo e.agent) y.pa b t)) (0, s)).2

/-- Writes bytes; the answer's bytes are those they replace. -/
def engWrite (e : Owner) (deliver : Bool) (va : DWord) (bs : List Byte) (s : State) : EngRes :=
  engAccess e deliver { w := true } (pieces va.toNat bs.length)
    (fun ys s => (ys.flatMap (fun y => (List.range y.n).map (fun i => s.view y.conf (y.pa + i))), engPut e bs ys s)) s

/-- Replaces bytes by a function of them, whole or not at all (R245). -/
def engUpdate (e : Owner) (deliver : Bool) (va : DWord) (n : Nat) (f : List Byte → List Byte) (s : State) : EngRes :=
  engAccess e deliver { r := true, w := true } (pieces va.toNat n) (fun ys s =>
    let r := ys.foldl (fun (r : List Byte × State) y =>
      let q := l2Read none y.conf y.pa y.n r.2
      (r.1 ++ q.1, q.2)) ([], s)
    (r.1, engPut e (f r.1) ys r.2)) s

/-! ## Queues (R162) -/

/-- Whether an operation of an engine queue is still to be performed. -/
def opPending (s : State) (id : Nat) : Bool :=
  s.cores.any (fun c => c.2.eddy.any (fun e => e.id = id))
    || s.teams.any (fun t => t.2.mqueue.any (fun e => decide (e.id = id) && !e.performed))

/-- A QFENCE entry has nothing left to wait for. -/
def fenceOver (s : State) (waits : List Nat) : Bool := waits.all (fun id => !opPending s id)

/-- A context's engines run: it is RUNNING, or stopping in drain mode (R247). -/
def enginesRun (s : State) (c : Nat) : Bool :=
  match (s.ctx c).stop with
  | .capture .. => false
  | _ => decide ((s.ctx c).st = .running) || decide ((s.ctx c).st = .stopping)

/-- Whether an agent's engine operations may start or go on. -/
def agentRuns (s : State) (a : Nat) : Bool := decide (a = 0) || (enginesRun s (s.ctxNo a) && !(s.gridOf a).faulted)

end Sys2Proof.Machine
end

