-- ==== Sys2Proof/Machine/Float.lean ====
section
/-!
DEFINITION. The floating-point, packed and conversion instructions, opcodes 0x40 to 0x58 (R382, R383,
R390, R396 to R399, R405 to R413): each lane's result and flags, and each instruction over them.
-/

namespace Sys2Proof.Machine

/-- The number of a 32-bit source in a lane. -/
def Group.opn (g : Group) (o : Opd) (l : Nat) : Nat := (g.opv false o l).toNat

/-- An FP32 operation of the group's rounding mode and FTZ on sources a, b and c. -/
def fp3 (o : Body) (f : Rm → Bool → Nat → Nat → Nat → Nat × FFlags) (s : State) : Res :=
  fpOp o (fun g l => f g.rm g.ftz (g.opn o.a l) (g.opn o.b l) (g.opn o.c l)) s

/-! ## Results -/

/-- The class bit of R407. -/
def classR (x : Nat) : Nat :=
  let neg := bit1 x 31
  match unpack fp32 false x with
  | .inf n => if n then 2 ^ 0 else 2 ^ 7
  | .nan sig => if sig then 2 ^ 8 else 2 ^ 9
  | .fin _ m _ =>
    if m = 0 then (if neg then 2 ^ 3 else 2 ^ 4)
    else if x % 2 ^ 31 < 2 ^ 23 then (if neg then 2 ^ 2 else 2 ^ 5)
    else (if neg then 2 ^ 1 else 2 ^ 6)

/-- FCMP by its condition (R408). -/
def fcmpR (cond : Nat) (ftz : Bool) (x y : Nat) : Nat × FFlags :=
  let a := unpack fp32 ftz x
  let b := unpack fp32 ftz y
  let u := a.isNan || b.isNan
  let nv := a.isSig || b.isSig || (u && decide (2 ≤ cond ∧ cond ≤ 5))
  let c := cmpV a b
  let r : Bool :=
    if u then cond = 1 || cond = 6
    else match cond with
      | 0 => c = 0
      | 1 => c ≠ 0
      | 2 => c < 0
      | 3 => c ≤ 0
      | 4 => c > 0
      | 5 => c ≥ 0
      | 6 => false
      | _ => true
  (if r then 1 else 0, if nv then fNV else 0)

/-- FRND in a direction (R412). -/
def frndR (dir : Nat) (ftz : Bool) (x : Nat) : Nat × FFlags :=
  match unpack fp32 ftz x with
  | .nan sig => (qnan fp32, if sig then fNV else 0)
  | .inf n => (infBits fp32 n, 0)
  | .fin neg m e =>
    let (i, inexact) := roundInt dir neg m e
    ((roundFin fp32 rne neg i 0 false).1, if inexact then fNX else 0)

/-- The element format of a packed instruction (R104, R413). -/
def halfFmt (o : Body) : Fmt := if o.md.extractLsb' 4 4 = 6#4 then bf16 else fp16

/-- A packed operation: both elements, element 1 − k of b with .XB, flags ORed (R104, R413). -/
def packed (xb : Bool) (f : Nat → Nat → Nat → Nat × FFlags) (a b c : Nat) : Nat × FFlags :=
  let lo (x : Nat) := x % 65536
  let hi (x : Nat) := x / 65536 % 65536
  let r0 := f (lo a) (if xb then hi b else lo b) (lo c)
  let r1 := f (hi a) (if xb then lo b else hi b) (hi c)
  (r0.1 + r1.1 * 65536, r0.2 ||| r1.2)

/-- The exact sum of products and an addend, rounded once to FP32 (R119, R398, R399). -/
def dotR (rm : Rm) (ftz : Bool) (xs ys : List FVal) (z : FVal) : Nat × FFlags :=
  let ins := xs ++ ys ++ [z]
  if ins.any FVal.isNan then (qnan fp32, if ins.any FVal.isSig then fNV else 0)
  else roundV fp32 rm ftz (sumV rm (List.zipWith mulV xs ys ++ [z]))

def dot2R (f : Fmt) (rm : Rm) (ftz : Bool) (a b c : Nat) : Nat × FFlags :=
  let el (x : Nat) := [unpack f ftz (x % 65536), unpack f ftz (x / 65536 % 65536)]
  dotR rm ftz (el a) (el b) (unpack fp32 ftz c)

def bytesOf (x : Nat) : List Nat := (List.range 4).map (fun k => x / 2 ^ (8 * k) % 256)
def dot4F (f : Fmt) (rm : Rm) (ftz : Bool) (a b c : Nat) : Nat × FFlags :=
  dotR rm ftz ((bytesOf a).map (unpack f ftz)) ((bytesOf b).map (unpack f ftz)) (unpack fp32 ftz c)
def dot4I (sat : Bool) (a b c : Nat) : Nat :=
  let t : Int := (List.zipWith (fun x y => toS 8 x * toS 8 y) (bytesOf a) (bytesOf b)).foldl (· + ·) (toS 32 c)
  if sat then satS 32 t else wrapN 32 t

/-- Integer formats' widths, and the floating formats, by code (R94). -/
def intWidth (c : Nat) : Nat := if c = 1 then 8 else if c = 2 then 16 else 32
def fmtOf (c : Nat) : Fmt := if c = 4 then fp32 else if c = 5 then fp16 else if c = 6 then bf16 else if c = 7 then e4m3 else e5m2

/-- CVT (R105, R106, R397): source and destination codes, signedness, saturation. -/
def cvtR (df sf : Nat) (du su sat : Bool) (rm : Rm) (ftz : Bool) (x : Nat) : Nat × FFlags :=
  let dInt := df ≤ 3
  let ext (w r : Nat) : Nat := if du then r % 2 ^ w else wrapN 32 (toS w r)
  if sf ≤ 3 then
    let sw := intWidth sf
    let v : Int := if su then ((x % 2 ^ sw : Nat) : Int) else toS sw x
    if dInt then
      let w := intWidth df
      (ext w (if sat then (if du then satU w v else satS w v) else wrapN w v), 0)
    else roundV (fmtOf df) rm ftz (.fin (decide (v < 0)) v.natAbs 0)
  else
    let v := unpack (fmtOf sf) ftz (x % 2 ^ (fmtOf sf).width)
    if dInt then
      let w := intWidth df
      let lo : Int := if du then 0 else -((2 ^ (w - 1) : Nat) : Int)
      let hi : Int := if du then ((2 ^ w : Nat) : Int) - 1 else ((2 ^ (w - 1) : Nat) : Int) - 1
      match v with
      | .nan _ => (0, fNV)
      | .inf neg => (ext w (wrapN w (if neg then lo else hi)), fNV)
      | .fin neg m e =>
        let (i, inexact) := roundInt rm.toNat neg m e
        let r : Int := if neg then -(i : Int) else (i : Int)
        if r < lo then (ext w (wrapN w lo), fNV)
        else if r > hi then (ext w (wrapN w hi), fNV)
        else (ext w (wrapN w r), if inexact then fNX else 0)
    else
      let r := roundV (fmtOf df) rm ftz v
      if sat && df ≠ 7 then
        match v with
        | .inf neg => (maxFin (fmtOf df) neg, 0)
        | _ => if r.2 &&& fOF ≠ 0 then (maxFin (fmtOf df) v.neg, fNX) else r
      else r

/-- The exponent floor(log2 |x|) of a nonzero finite value. -/
def log2Fin (m : Nat) (e : Int) : Int := e + bitLen m - 1

/-- The magnitude and exponent of a finite value. -/
def FVal.mag : FVal → Nat × Int
  | .fin _ m e => (m, e)
  | _ => (0, 0)

/-- round_ne of ±m × 2^(e + k), and whether it is exact. -/
def scaledNe (v : FVal) (k : Int) : Int × Bool :=
  let (m, e) := v.mag
  let (i, inexact) := roundInt 0 false m (e + k)
  (if v.neg then -(i : Int) else (i : Int), !inexact)

/-- R109 on 16 values: E, the codes, the micro-exponents, and the flags. -/
def bnEncode (bn4 : Bool) (xs : List FVal) : Nat × List Int × List Nat × FFlags :=
  let f : Int := if bn4 then 2 else 6
  let qmax : Int := if bn4 then 7 else 127
  let none16 : List Int := List.replicate 16 0
  if xs.any (fun v => match v with | .fin .. => false | _ => true) then (0xFF, none16, List.replicate 8 0, fNV)
  else if xs.all FVal.isZero then (0, none16, List.replicate 8 0, 0)
  else
    let e : Int := (xs.filter (fun v => !v.isZero)).foldl
      (fun x v => let k := log2Fin v.mag.1 v.mag.2; if k > x then k else x) (-2000)
    let ee : Int := if e + 127 < 0 then 0 else if e + 127 > 254 then 254 else e + 127
    let big (v : FVal) : Int := (scaledNe v (127 + f + 1 - ee)).1.natAbs
    let ms : List Nat := (List.range 8).map (fun j =>
      let a := big (xs.getD (2 * j) default)
      let b := big (xs.getD (2 * j + 1) default)
      if a ≤ qmax ∧ b ≤ qmax then 1 else 0)
    let qs := (List.range 16).map (fun i =>
      let k : Int := 127 + f + ((ms.getD (i / 2) 0 : Nat) : Int) - ee
      let (r, exact) := scaledNe (xs.getD i default) k
      let q : Int := if r < -qmax - 1 then -qmax - 1 else if r > qmax then qmax else r
      (q, exact && decide (q = r)))
    (ee.toNat, qs.map (·.1), ms, if qs.all (·.2) then 0 else fNX)

/-- The value of one BN code (R107). -/
def bnVal (bn4 : Bool) (q : Int) (ee m : Nat) : FVal :=
  .fin (decide (q < 0)) q.natAbs ((ee : Int) - 127 - (if bn4 then 2 else 6) - (m : Int))

/-- BNUNPK's element (R383). -/
def bnDecode (bn4 : Bool) (rm : Rm) (ftz : Bool) (l c0 c1 : Nat) : Nat × FFlags :=
  let q := if bn4 then toS 4 c0 else toS 8 c0
  let ee := c1 % 256
  if ee = 0xFF then (qnan fp32, 0)
  else roundV fp32 rm ftz (bnVal bn4 q ee (bits c1 (8 + l % 16 / 2) (8 + l % 16 / 2)))

def isBn4 (o : Body) : Bool := o.md.extractLsb' 4 4 = 0xA#4

/-! ## Instructions -/

def execFadd (o : Body) (s : State) : Out := perform 0x40 o (fp3 o (fun rm z a b _ => addF fp32 rm z a b)) s
def execFsub (o : Body) (s : State) : Out := perform 0x41 o (fp3 o (fun rm z a b _ => subF fp32 rm z a b)) s
def execFmul (o : Body) (s : State) : Out := perform 0x42 o (fp3 o (fun rm z a b _ => mulF fp32 rm z a b)) s
def execFfma (o : Body) (s : State) : Out := perform 0x43 o (fp3 o (fun rm z a b c => fmaF fp32 rm z a b c)) s
def execFmin (o : Body) (s : State) : Out := perform 0x44 o (fp3 o (fun _ z a b _ => minMaxNum fp32 z false a b)) s
def execFmax (o : Body) (s : State) : Out := perform 0x45 o (fp3 o (fun _ z a b _ => minMaxNum fp32 z true a b)) s
def execFcmp (o : Body) (s : State) : Out :=
  perform 0x46 o (fp3 o (fun _ z a b _ => fcmpR (o.md.toNat % 16) z a b)) s
def execFclass (o : Body) (s : State) : Out := perform 0x47 o (fp3 o (fun _ _ a _ _ => (classR a, 0))) s
def execFrnd (o : Body) (s : State) : Out :=
  perform 0x48 o (fp3 o (fun rm z a _ _ => frndR (if o.md.toNat % 16 = 4 then rm.toNat else o.md.toNat % 16) z a)) s
def execFrcp (o : Body) (s : State) : Out := perform 0x49 o (fp3 o (fun _ z a _ _ => funF 0x49 z a)) s
def execFrsq (o : Body) (s : State) : Out := perform 0x4A o (fp3 o (fun _ z a _ _ => funF 0x4A z a)) s
def execFsqrt (o : Body) (s : State) : Out := perform 0x4B o (fp3 o (fun _ z a _ _ => funF 0x4B z a)) s
def execFexp2 (o : Body) (s : State) : Out := perform 0x4C o (fp3 o (fun _ z a _ _ => funF 0x4C z a)) s
def execFlog2 (o : Body) (s : State) : Out := perform 0x4D o (fp3 o (fun _ z a _ _ => funF 0x4D z a)) s
def execFsin (o : Body) (s : State) : Out := perform 0x4E o (fp3 o (fun _ z a _ _ => funF 0x4E z a)) s
def execFcos (o : Body) (s : State) : Out := perform 0x4F o (fp3 o (fun _ z a _ _ => funF 0x4F z a)) s
def execHwadd (o : Body) (s : State) : Out :=
  perform 0x50 o (fp3 o (fun rm z a b c => packed (o.md.getLsbD 0) (fun x y _ => addF (halfFmt o) rm z x y) a b c)) s
def execHwmul (o : Body) (s : State) : Out :=
  perform 0x51 o (fp3 o (fun rm z a b c => packed (o.md.getLsbD 0) (fun x y _ => mulF (halfFmt o) rm z x y) a b c)) s
def execHwfma (o : Body) (s : State) : Out :=
  perform 0x52 o (fp3 o (fun rm z a b c => packed (o.md.getLsbD 0) (fun x y w => fmaF (halfFmt o) rm z x y w) a b c)) s
def execDot2 (o : Body) (s : State) : Out :=
  perform 0x53 o (fp3 o (fun rm z a b c => dot2R (halfFmt o) rm z a b c)) s
def execDot4 (o : Body) (s : State) : Out :=
  perform 0x54 o (fp3 o (fun rm z a b c =>
    if o.md = 0x70#8 then dot4F e4m3 rm z a b c
    else if o.md = 0x80#8 then dot4F e5m2 rm z a b c
    else (dot4I (o.md.getLsbD 0) a b c, 0))) s
def execCvt (o : Body) (s : State) : Out :=
  perform 0x55 o (fp3 o (fun rm z a _ _ =>
    cvtR (o.md.extractLsb' 4 4).toNat (o.md.extractLsb' 0 4).toNat (o.cc.getLsbD 1) (o.cc.getLsbD 2) (o.cc.getLsbD 0) rm z a)) s

/-- BNPACK (R382): each run of 16 lanes with an active lane is one block. -/
def bnpackK (o : Body) (s : State) : Res :=
  let g := s.me
  let m := s.actMask o
  let blocks := (List.range 4).filter (fun b => (List.range 16).any (fun i => m.getLsbD (16 * b + i)))
  let enc := blocks.map (fun b => (b, bnEncode (isBn4 o) ((List.range 16).map (fun i =>
    if m.getLsbD (16 * b + i) then unpack fp32 g.ftz (g.opn o.a (16 * b + i)) else .fin false 0 0))))
  let perLane := enc.flatMap (fun (b, r) =>
    ((List.range 16).filter (fun i => m.getLsbD (16 * b + i))).map (fun i => (16 * b + i, i, r)))
  let word (r : Nat × List Int × List Nat × FFlags) : Nat :=
    r.1 + r.2.2.1.zipIdx.foldl (fun a p => a + p.1 * 2 ^ (8 + p.2)) 0
  fpCommit (perLane.map (fun p => (p.1, p.2.2.2.2.2)))
    (fun g => g.wrAll true o.dst (perLane.map (fun p =>
      (p.1, bv 64 (wrapN 32 (p.2.2.2.1.getD p.2.1 0) + word p.2.2 * 2 ^ 32))))) s
def execBnpack (o : Body) (s : State) : Out := perform 0x56 o (bnpackK o) s

def execBnunpk (o : Body) (s : State) : Out :=
  perform 0x57 o (fpOp o (fun g l =>
    let x := (g.opv true o.a l).toNat
    bnDecode (isBn4 o) g.rm g.ftz l (x % 2 ^ 32) (x / 2 ^ 32))) s

/-- CBDEC's element (R390): `cb` is the codebook's 256 bits. -/
def cbdecR (toBf : Bool) (cb code : Nat) : Nat :=
  let e := cb / 2 ^ (16 * code) % 65536
  if (unpack bf16 false e).isNan then (if toBf then qnan bf16 else qnan fp32)
  else if toBf then e else e * 65536
/-- CBDEC's codebook: eight S registers, or a short immediate of that width (R347). -/
def codebook (g : Group) (b : Opd) : Nat :=
  match b with
  | .imm i => (i.signExtend 256).toNat
  | _ => (List.range 8).foldl (fun a k => a + (g.sreg (b.num + k)).toNat * 2 ^ (32 * k)) 0
def execCbdec (o : Body) (s : State) : Out :=
  perform 0x58 o (fun s => .ok (laneOp o false (fun g l =>
    let n := (o.md.extractLsb' 0 4).toNat
    bv 64 (cbdecR (o.md.extractLsb' 4 4 = 6#4) (codebook g o.b) (g.opn o.a l / 2 ^ (4 * n) % 16))) s)) s

end Sys2Proof.Machine
end

