-- ==== Sys2Proof/Machine/Matrix.lean ====
section
/-!
DEFINITION. The matrix engine: the entries of the matrix queue (R192, R454), tile accesses of the groups
(R193, R461), operand records and their checks (R200 to R206), the arithmetic of MMA and MMAS (R110 to
R114, R207, R214), TDRAIN (R115, R194), staging, admission, completion and array checks (R196 to R198, R208,
R209, R213), and the records of faults and stops (R210 to R212).
-/

namespace Sys2Proof.Machine

/-! ## Tiles and accumulators whole -/

def Team.tileRow (t : Team) (n r : Nat) : List Byte := (List.range 128).map (fun b => t.tile n (128 * r + b))
def Team.putTileRow (t : Team) (n r : Nat) (bs : List Byte) : Team := { t with tiles := putRange t.tiles (8192 * n + 128 * r) bs }
def Team.putTile (t : Team) (n : Nat) (bs : List Byte) : Team := { t with tiles := putRange t.tiles (8192 * n) bs }
def Team.accAll (t : Team) (n : Nat) : List Nat := (List.range 4096).map (fun i => t.acc n i)
def Team.putAcc (t : Team) (n : Nat) (vs : List Nat) : Team :=
  { t with accs := putRange t.accs (24576 * n) (vs.flatMap (leBytes 6)) }

/-! ## Entering the queue (R192, R428, R454 to R457) -/

/-- Queues an entry for the steer thread that issues; one that accesses memory issues when its core's
earlier accesses are performed (R161). An operation that has completed with a RECORD fault holds its place, and its entry of
the 32, until the handler's ERET (DESIGN CHOICE, log 127). -/
def enterMatrix (o : Body) (memory : Bool) (e : MEntry) (s : State) : Res :=
  let a := s.cur.agent
  if s.actMask o = 0 then .ok s
  else if s.myTeam.mqueue.length ≥ Config.matrixEntries then .hold
  else if memory && !coreQuiet s (s.coreNo a) then .hold
  else
    let (id, s) := s.takeId
    let e := { e with id := id, agent := a, oppc := s.cur.pc, flag := o.fset, race := s.me.race }
    let s := s.modTeam s.me.team (fun t => { t with mqueue := t.mqueue ++ [e] })
    .ok (s.modMe (fun g => g.setFlag o.fset s.cur.pc))

/-- Elements that fill a tile row (R39, R94). -/
def rowElems (f : Nat) : Nat :=
  if f = 3 ∨ f = 4 then 32 else if f = 2 ∨ f = 5 ∨ f = 6 then 64 else if f = 10 ∨ f = 11 then 256 else 128

/-- TCFG's check of its shape word (R455). -/
def shapeOk (w : Nat) : Bool :=
  let f := bits w 31 28
  decide (1 ≤ f ∧ f ≤ 11) && decide (1 ≤ bits w 27 20 ∧ bits w 27 20 ≤ 64)
    && decide (1 ≤ bits w 19 8 ∧ bits w 19 8 ≤ rowElems f) && decide (bits w 7 0 = 0)

def tcfgK (o : Body) (s : State) : Res :=
  let w := (s.me.opv false o.a 0).extractLsb' 0 32
  if s.actMask o ≠ 0 && !shapeOk w.toNat then .trap { code := cACCESS } s
  else enterMatrix o false { opc := 0x90, t := o.dst.num, rc := w } s
def execTcfg (o : Body) (s : State) : Out := perform 0x90 o (tcfgK o) s

def execTzero (o : Body) (s : State) : Out :=
  perform 0x91 o (enterMatrix o false { opc := 0x91, d := o.dst.num }) s

/-- MMA and MMAS: record addresses are multiples of 64 (R192). -/
def mmaK (opc : BitVec 8) (o : Body) (s : State) : Res :=
  let ra := s.me.opv true o.a 0
  let rb := s.me.opv true o.b 0
  if s.actMask o = 0 then .ok s
  else if ra.toNat % 64 ≠ 0 then .trap { code := cALIGN, addr := ra } s
  else if rb.toNat % 64 ≠ 0 then .trap { code := cALIGN, addr := rb } s
  else enterMatrix o true { opc := opc, md := o.md, d := o.dst.num, ra := ra, rb := rb,
                            rc := (s.me.opv false o.c 0).extractLsb' 0 32 } s
def execMma (o : Body) (s : State) : Out := perform 0x92 o (mmaK 0x92 o) s
def execMmas (o : Body) (s : State) : Out := perform 0x93 o (mmaK 0x93 o) s

def execTdrain (o : Body) (s : State) : Out :=
  perform 0x94 o (enterMatrix o false { opc := 0x94, md := o.md, t := o.dst.num, d := o.a.num }) s

/-- TLD and TST: base and stride are multiples of 16 (R457). -/
def rowsK (opc : BitVec 8) (o : Body) (s : State) : Res :=
  let base := s.me.opv true o.a 0
  let st := (s.me.opv false o.b 0).extractLsb' 0 32
  if s.actMask o = 0 then .ok s
  else if base.toNat % 16 ≠ 0 ∨ st.toNat % 16 ≠ 0 then .trap { code := cALIGN, addr := base } s
  else enterMatrix o true { opc := opc, t := o.dst.num, ra := base, rc := st } s
def execTld (o : Body) (s : State) : Out := perform 0x95 o (rowsK 0x95 o) s
def execTst (o : Body) (s : State) : Out := perform 0x96 o (rowsK 0x96 o) s

/-! ## Tile accesses of the groups (R193, R461) -/

/-- The byte of the tile that lane `l` touches first, and the lanes whose row exceeds 63. -/
def laneByte (row0 l : Nat) : Nat := 128 * (row0 + 4 * l / 128) + 4 * l % 128
def badRows (row0 : Nat) (ls : List Nat) : List Nat := ls.filter (fun l => decide (row0 + 4 * l / 128 > 63))

/-- The XRANGE of lanes beyond row 63. -/
def rowFault (row0 : Nat) (ls : List Nat) : Option TrapInfo :=
  match badRows row0 ls with
  | [] => none
  | l :: r => some { code := cXRANGE, lane := l, fail := (l :: r).foldl (fun m x => m ||| laneBit x) 0 }

def twrK (o : Body) (s : State) : Res :=
  let g := s.me
  let row0 := (g.opv false o.a 0).toNat
  let ls := lanesOf (s.actMask o)
  match rowFault row0 ls with
  | some t => .trap t s
  | none =>
    .ok (s.modTeam g.team (fun t => ls.foldl (fun t l =>
      (leBytes 4 (g.vreg o.b.num l).toNat).zipIdx.foldl (fun t p => t.setTile o.c.num (laneByte row0 l + p.2) p.1) t) t))
def execTwr (o : Body) (s : State) : Out := perform 0x97 o (twrK o) s

def trdK (o : Body) (s : State) : Res :=
  let g := s.me
  let row0 := (g.opv false o.b 0).toNat
  let ls := lanesOf (s.actMask o)
  match rowFault row0 ls with
  | some t => .trap t s
  | none =>
    let t := s.myTeam
    let val_ := fun l => bv 64 (ofLe ((List.range 4).map (fun i => t.tile o.a.num (laneByte row0 l + i))))
    .ok (s.modMe (fun g => g.wrAll false o.dst (ls.map (fun l => (l, val_ l)))))
def execTrd (o : Body) (s : State) : Out := perform 0x98 o (trdK o) s

/-! ## Operand records (R200 to R206) -/

structure Oprec where
  data : Nat := 0
  scale : Nat := 0
  ind : Nat := 0
  stride : Nat := 0
  fmtB : Nat := 0
  srcB : Nat := 0
  grant : Nat := 0
  cb : List Byte := []
  deriving DecidableEq, Repr, Inhabited

def oprec (l : List Byte) : Oprec :=
  { data := fieldOf l 0 8, scale := fieldOf l 8 8, ind := fieldOf l 16 8, stride := fieldOf l 24 4,
    fmtB := fieldOf l 28 1, srcB := fieldOf l 29 1, grant := fieldOf l 30 2, cb := sub l 32 32 }

def Oprec.fmt (r : Oprec) : Nat := r.fmtB % 16
def Oprec.isTile (r : Oprec) : Bool := bit1 r.srcB 7

/-- Formats that pair with one another share a class (R202). -/
def fmtClass (f : Nat) : Nat :=
  if f = 10 then 1 else if f = 9 then 2 else if f = 7 ∨ f = 8 then 3 else if f = 5 ∨ f = 6 ∨ f = 11 then 4 else 0
def kOf (f : Nat) : Nat := if fmtClass f = 1 then 256 else if fmtClass f = 4 then 64 else 128
def elemBits (f : Nat) : Nat := if f = 10 ∨ f = 11 then 4 else if f = 5 ∨ f = 6 then 16 else 8
def isBn (f : Nat) : Bool := f = 9 || f = 10
def pairOk (h1 : Bool) (fa fb : Nat) : Bool :=
  decide (fmtClass fa = fmtClass fb) && decide (fmtClass fa ≠ 0)
    && (!h1 || decide (fmtClass fa = 3) || (decide (fmtClass fa = 4) && decide (fa ≠ 11) && decide (fb ≠ 11)))
/-- Bytes between a row's scale entries and the next row's (R200). -/
def scaleStride (r : Oprec) : Nat := if r.fmt = 9 then r.stride / 8 else r.stride / 4

/-- FORM (R201). -/
def formBad (mmasA : Bool) (r : Oprec) : Bool :=
  decide (r.fmtB / 16 ≠ 0) || decide (bits r.srcB 6 4 ≠ 0) || (!r.isTile && decide (r.data % 16 ≠ 0))
    || ((!r.isTile || isBn r.fmt) && (decide (r.stride = 0) || decide (r.stride % 16 ≠ 0)))
    || (isBn r.fmt && decide (r.scale % 2 ≠ 0)) || (mmasA && decide (r.ind % 64 ≠ 0))

/-- TILE (R201): held, with the record's format, 64 rows and K columns. -/
def tileBad (t : Team) (r : Oprec) : Bool :=
  let n := r.srcB % 16
  r.isTile && !(t.tmask.getLsbD n
    && decide ((t.tshape.at n).toNat / 256 = r.fmt * 2 ^ 20 + 64 * 2 ^ 12 + kOf r.fmt))

/-- The byte ranges of a record's span (R204). -/
def spans (mmasA : Bool) (r : Oprec) : List (Nat × Nat) :=
  let k := kOf r.fmt
  (if r.isTile then [] else [(r.data, r.data + 63 * r.stride + k * elemBits r.fmt / 8)])
    ++ (if isBn r.fmt then [(r.scale, r.scale + 63 * scaleStride r + k / 8)] else [])
    ++ (if mmasA then [(r.ind, r.ind + 64)] else [])

/-- GRANT, RANGE and TAG (R203 to R205); 0 where the check passes. -/
def grantReason (s : State) (part : Nat) (mmasA : Bool) (tag : Option Nat) (r : Oprec) : Nat :=
  let p := s.part part
  let e := s.rdN (hbmKey part (p.grantBase.toNat + 32 * r.grant)) 32
  if r.grant ≥ p.grantCnt then 1
  else if fieldOf e 18 2 ≠ 1 ∨ fieldOf e 20 12 ≠ 0 then 1
  else if (spans mmasA r).any (fun x => decide (x.1 < fieldOf e 0 8) || decide (fieldOf e 8 8 < x.2)) then 2
  else match tag with
    | some t => if fieldOf e 16 2 = t then 0 else 3
    | none => 0

/-- The first check the A record fails (R205). A format that no other could pair with is FORMAT. -/
def reasonA (s : State) (part : Nat) (t : Team) (mmas h1 : Bool) (r : Oprec) : Nat :=
  if formBad mmas r then 6 else if !pairOk h1 r.fmt r.fmt then 4 else if tileBad t r then 5
  else grantReason s part mmas none r

/-- The first check the B or adapter record fails. -/
def reasonB (s : State) (part : Nat) (t : Team) (h1 : Bool) (tag : Option Nat) (a b : Oprec) : Nat :=
  if formBad false b then 6 else if !pairOk h1 a.fmt b.fmt then 4
  else if tileBad t b || (tag.isSome && b.isTile) then 5
  else grantReason s part false tag b

/-! ## Arithmetic (R110 to R114) -/

/-- Element `k` of a row of packed data (R108, R111, R200). -/
def code (f : Nat) (row : List Byte) (k : Nat) : Nat :=
  match elemBits f with
  | 4 => (row.getD (k / 2) 0).toNat / 16 ^ (k % 2) % 16
  | 16 => fieldOf row (2 * k) 2
  | _ => (row.getD k 0).toNat
def elemVal (f : Nat) (cb row : List Byte) (k : Nat) : FVal :=
  if f = 11 then unpack bf16 false (fieldOf cb (2 * code f row k) 2) else unpack (fmtOf f) false (code f row k)

/-- R113: the block's 16 products summed exactly and rounded once. -/
def blockFp (xs ys : List FVal) : Nat :=
  (roundV acc48 rne false (sumV rne (List.zipWith mulV xs ys))).1

/-- R110: the block's integer sum, with the scales applied at its conversion. -/
def blockBn (bn4 : Bool) (qa qb : List Int) (ea eb ma mb : Nat) : Nat :=
  if ea = 0xFF ∨ eb = 0xFF then qnan acc48
  else
    let sum : Int := (List.range 16).foldl (fun x i =>
      x + qa.getD i 0 * qb.getD i 0 * ((2 ^ (2 - bits ma (i / 2) (i / 2) - bits mb (i / 2) (i / 2)) : Nat) : Int)) 0
    let f : Int := if bn4 then 2 else 6
    (roundV acc48 rne false (.fin (decide (sum < 0)) sum.natAbs ((ea : Int) + eb - 254 - f - f - 2))).1

/-- `block_result` of R207: element (i, j) for the 16 elements from 16 × blk. -/
def blockResult (st : Staged) (i j blk : Nat) : Nat :=
  let sg := i / 8
  let fb := st.fb.getD sg 0
  let (da, sa) := st.a.getD i default
  let (db, sb) := (st.b.getD sg []).getD j default
  let ks := (List.range 16).map (fun x => 16 * blk + x)
  if isBn st.fa then
    let w := elemBits st.fa
    let q := fun row => ks.map (fun k => toS w (code st.fa row k))
    blockBn (st.fa = 10) (q da) (q db) (fieldOf sa (2 * blk) 1) (fieldOf sb (2 * blk) 1)
      (fieldOf sa (2 * blk + 1) 1) (fieldOf sb (2 * blk + 1) 1)
  else blockFp (ks.map (elemVal st.fa st.cba da)) (ks.map (elemVal fb (st.cbb.getD sg []) db))

/-- R114's loop over blocks `b0` up to `b1`. -/
def accumulate (st : Staged) (i j b0 b1 acc : Nat) : Nat :=
  (List.range (b1 - b0)).foldl (fun x n => addRne acc48 x (blockResult st i j (b0 + n))) acc

/-- The accumulator after blocks `b0` to `b1` of the elements that `on` selects (R207). -/
def accAfter (st : Staged) (on : Nat → Nat → Bool) (b0 b1 : Nat) (old : List Nat) : List Nat :=
  old.zipIdx.map (fun p =>
    let i := p.2 / 64
    let j := p.2 % 64
    if st.skip.getD (i / 8) false || !on i j then p.1
    else if st.reason.getD (i / 8) 0 ≠ 0 then 0
    else accumulate st i j b0 b1 p.1)

/-- The micro-tile of an element (R214). -/
def microTile (i j : Nat) : Nat := i / 16 * 4 + j / 16

def rgMask (st : Staged) : Nat :=
  (List.range 8).foldl (fun m k => if st.reason.getD k 0 ≠ 0 then m + 2 ^ k else m) 0

/-- For whom the engine acts: the steer thread's one lane. -/
def MEntry.owner (e : MEntry) : Owner := { op := e.id, agent := e.agent, race := e.race, pc := e.oppc }

/-! ## MSTAT and the matrix fault record (R210, R212) -/

def MEntry.h1 (e : MEntry) : Bool := decide (e.opc = 0x92#8) && e.md.getLsbD 0
def mstatOf (e : MEntry) (kstep rg : Nat) (mt : BitVec 16) : Word :=
  bv 32 (2 ^ 31 + (if e.h1 then 2 ^ 30 else kstep * 2 ^ 24) + rg * 2 ^ 16 + (if e.h1 then mt.toNat else 0))

def matrixRecord (e : MEntry) (mstat : Word) (cause : BitVec 8) (addr : DWord) (reason : List Nat) (crow ccol : Nat) :
    List Byte :=
  leBytes 8 e.oppc.toNat ++ leBytes 4 mstat.toNat ++ leBytes 1 e.d ++ leBytes 1 cause.toNat ++ leBytes 2 0
    ++ leBytes 8 addr.toNat ++ padTo 8 (reason.map (bv 8)) ++ leBytes 2 crow ++ leBytes 2 ccol ++ zeros 28

/-- Changes the entry of an id in a team's queue. -/
def modEntry (tm id : Nat) (f : MEntry → MEntry) (s : State) : State :=
  s.modTeam tm (fun t => { t with mqueue := t.mqueue.map (fun e => if e.id = id then f e else e) })

/-- An entry completes: it leaves the queue and its flag clears (R192). -/
def endEntry (tm : Nat) (e : MEntry) (s : State) : State :=
  completeFlag e.agent e.flag
    (dropRaced e.id (s.modTeam tm (fun t => { t with mqueue := t.mqueue.filter (fun x => x.id ≠ e.id) })))

/-- An MMA or MMAS stops on a deferred fault (R209, R213). -/
def stopMma (tm : Nat) (e : MEntry) (cause : BitVec 8) (addr : DWord) (st : Staged) (mt : BitVec 16) (crow ccol : Nat)
    (s : State) : State :=
  let ms := mstatOf e e.kstep (rgMask st) mt
  let s := modEntry tm e.id (fun x => { x with stopped := true, staged := none, mtmask := mt }) s
  let s := s.modTeam tm (fun t => { t with mstat := ms })
  post e.agent { code := cause, oppc := e.oppc, addr := if cause = cMATRIXCHK then 0 else addr, op := e.id, order := e.id,
                 record := matrixRecord e ms cause addr st.reason crow ccol } s

/-! ## TCFG, TZERO, TDRAIN, TLD and TST performed (R194, R454 to R457) -/

/-- R115's conversion. -/
def drainR (df : Nat) (sat : Bool) (x : Nat) : Nat :=
  let v := unpack acc48 false x
  let r := roundV (fmtOf df) rne false v
  if sat then (match v with
    | .inf neg => maxFin (fmtOf df) neg
    | _ => if r.2 &&& fOF ≠ 0 then maxFin (fmtOf df) v.neg else r.1)
  else r.1

/-- The tile that TDRAIN fills, and its shape (R194). -/
def drainTile (md : BitVec 8) (acc : List Nat) : List Byte × Word :=
  let f := (md.extractLsb' 4 4).toNat
  let f := if f = 0 then 4 else f
  let n := (fmtOf f).width / 8
  let cols := if n = 4 then 32 else 64
  let j0 := if md.getLsbD 0 then 32 else 0
  let row := fun i => padTo 128 ((List.range cols).flatMap (fun j => leBytes n (drainR f (md.getLsbD 1) (acc.getD (64 * i + j0 + j) 0))))
  ((List.range 64).flatMap row, bv 32 (f * 2 ^ 28 + 64 * 2 ^ 20 + cols * 2 ^ 8))

/-- Rows of TLD or TST from `r` on: rows done, the fault that stopped it, whether it waits for the
supervisor. -/
def rowsFrom (tm : Nat) (e : MEntry) (deliver : Bool) : Nat → Nat → State → Nat × Option (BitVec 8 × DWord) × State
  | 0, r, s => (r, none, s)
  | n + 1, r, s =>
    let va := e.ra + bv 64 r * e.rc.signExtend 64
    let own := e.owner
    let res := if e.opc = 0x95 then engRead own deliver va 128 s
      else engWrite own deliver va ((s.team tm).tileRow e.t r) s
    match res with
    | .ok bs s => rowsFrom tm e deliver n (r + 1) (if e.opc = 0x95 then s.modTeam tm (fun t => t.putTileRow e.t r bs) else s)
    | .bad c a s => (r, some (c, a), s)
    | .wait => (r, none, s)

/-- Performs the head entry of a matrix queue that is not an MMA or MMAS (R192). -/
def entryPerform (deliver : Bool) (tm : Nat) (s : State) : State :=
  match (s.team tm).mqueue with
  | [] => s
  | e :: _ =>
    if e.stopped || e.performed || !agentRuns s e.agent then s
    else if e.fence then (if fenceOver s e.waits then endEntry tm e s else s)
    else if e.opc = 0x90 then endEntry tm e (s.modTeam tm (fun t => { t with tshape := t.tshape.put e.t e.rc }))
    else if e.opc = 0x91 then endEntry tm e (s.modTeam tm (fun t => t.putAcc e.d (List.replicate 4096 0)))
    else if e.opc = 0x94 then
      let d := drainTile e.md ((s.team tm).accAll e.d)
      endEntry tm e (s.modTeam tm (fun t => { t.putTile e.t d.1 with tshape := t.tshape.put e.t d.2 }))
    else if e.opc = 0x95 ∨ e.opc = 0x96 then
      let (r, f, s) := rowsFrom tm e deliver (64 - e.row) e.row s
      if r ≥ 64 then endEntry tm e s
      else match f with
        | none => modEntry tm e.id (fun x => { x with row := r }) s
        | some (c, a) =>
          post e.agent { code := c, oppc := e.oppc, addr := a, op := e.id, order := e.id,
                         record := progressRecord e.oppc 2 c r a 0x7F 0 }
            (modEntry tm e.id (fun x => { x with row := r, stopped := true }) s)
    else s

def execMatrixEntryPerformed (tm : Nat) (s : State) : Out := .next (entryPerform false tm s)

/-! ## Staging (R198, R207, R213) -/

/-- What staging has come to: a state, or the fault or wait that ends it; with a fault, the reasons of the segments that it
had checked before (R212). -/
inductive Stg (α : Type) where
  | ok (x : α) (s : State)
  | bad (code : BitVec 8) (addr : DWord) (reasons : List Nat) (s : State)
  | wait

def Stg.bind (x : Stg α) (f : α → State → Stg β) : Stg β :=
  match x with
  | .ok a s => f a s
  | .bad c a l s => .bad c a l s
  | .wait => .wait

/-- A fault that comes with given reasons. -/
def Stg.noting (x : Stg α) (l : List Nat) : Stg α :=
  match x with
  | .bad c a _ s => .bad c a l s
  | y => y

def stgRead (e : MEntry) (deliver : Bool) (va n : Nat) (s : State) : Stg (List Byte) :=
  match engRead e.owner deliver (bv 64 va) n s with
  | .ok bs s => .ok bs s
  | .bad c a s => .bad c a [] s
  | .wait => .wait

def stgMap (f : Nat → State → Stg β) : List Nat → State → Stg (List β)
  | [], s => .ok [] s
  | x :: r, s => (f x s).bind (fun y s => (stgMap f r s).bind (fun ys s => .ok (y :: ys) s))

/-- The data and scale bytes of one row of a record (R200). -/
def stgRow (tm : Nat) (e : MEntry) (deliver : Bool) (r : Oprec) (i : Nat) (s : State) : Stg (List Byte × List Byte) :=
  let n := kOf r.fmt * elemBits r.fmt / 8
  let scale := fun (d : List Byte) (s : State) =>
    if isBn r.fmt then (stgRead e deliver (r.scale + i * scaleStride r) (kOf r.fmt / 8) s).bind (fun b s => .ok (d, b) s)
    else .ok (d, []) s
  if r.isTile then scale (((s.team tm).tileRow (r.srcB % 16) i).take n) s
  else (stgRead e deliver (r.data + i * r.stride) n s).bind scale

/-- A segment's request (R206): its reason so far, whether it is skipped, its tag and its B record. -/
structure Seg where
  reason : Nat := 0
  skip : Bool := false
  tag : Option Nat := none
  b : Oprec := {}
  deriving DecidableEq, Repr, Inhabited

/-- The request entry and adapter record of a segment of MMAS. -/
def stgSeg (tm : Nat) (e : MEntry) (deliver : Bool) (ra : Oprec) (ar k : Nat) (s : State) : Stg Seg :=
  if ar ≠ 0 then .ok { reason := ar } s
  else (stgRead e deliver (ra.ind + 8 * k) 8 s).bind (fun q s =>
    let w := ofLe q
    if bit1 w 63 then .ok { skip := true } s
    else if bits w 62 32 ≠ 0 then .ok { reason := 6 } s
    else if bits w 15 0 ≥ e.rc.toNat then .ok { reason := 7 } s
    else (stgRead e deliver (e.rb.toNat + 64 * bits w 15 0) 64 s).bind (fun b s =>
      let rb := oprec b
      let tag := some (bits w 31 16)
      .ok { reason := reasonB s (s.partNo e.agent) (s.team tm) false tag ra rb, tag := tag, b := rb } s))

/-- The requests of the segments in order; a fault comes with the reasons of those before it. -/
def stgSegs (f : Nat → State → Stg Seg) : List Nat → List Seg → State → Stg (List Seg)
  | [], done, s => .ok done s
  | k :: r, done, s => ((f k s).noting (done.map (·.reason))).bind (fun x s => stgSegs f r (done ++ [x]) s)

/-- What staging reads and checks (R207). -/
def stageEntry (tm : Nat) (e : MEntry) (deliver : Bool) (s : State) : Stg Staged :=
  let mmas := decide (e.opc = 0x93#8)
  (stgRead e deliver e.ra.toNat 64 s).bind (fun abytes s =>
    let ra := oprec abytes
    let ar := reasonA s (s.partNo e.agent) (s.team tm) mmas e.h1 ra
    let segs : Stg (List Seg) :=
      if mmas then stgSegs (stgSeg tm e deliver ra ar) (List.range 8) [] s
      else ((stgRead e deliver e.rb.toNat 64 s).noting (List.replicate 8 ar)).bind (fun bbytes s =>
        let rb := oprec bbytes
        let br := if ar ≠ 0 then ar else reasonB s (s.partNo e.agent) (s.team tm) e.h1 none ra rb
        .ok (List.replicate 8 { reason := br, b := rb }) s)
    segs.bind (fun segs s =>
      let pass := fun k => let x := segs.getD k {}; decide (x.reason = 0) && !x.skip
      ((stgMap (fun i s => if pass (i / 8) then stgRow tm e deliver ra i s else .ok ([], []) s) (List.range 64) s).bind
        (fun arows s =>
          let rowsB := fun (r : Oprec) s => stgMap (stgRow tm e deliver r) (List.range 64) s
          let bs : Stg (List (List (List Byte × List Byte))) :=
            if mmas then stgMap (fun k s => if pass k then rowsB (segs.getD k {}).b s else .ok [] s) (List.range 8) s
            else if pass 0 then (rowsB (segs.getD 0 {}).b s).bind (fun b s => .ok (List.replicate 8 b) s)
            else .ok [] s
          bs.bind (fun brows s =>
            let tiles := ((ra :: segs.map (·.b)).filter (·.isTile)).foldl (fun m r => m ||| 2 ^ (r.srcB % 16)) 0
            .ok { tiles := tiles, reason := segs.map (·.reason), skip := segs.map (·.skip), k := kOf ra.fmt, fa := ra.fmt,
                  fb := segs.map (·.b.fmt), cba := ra.cb, cbb := segs.map (·.b.cb), a := arows, b := brows,
                  addr := e.ra } s))).noting (segs.map (·.reason))))

def isMma (e : MEntry) : Bool := !e.fence && (decide (e.opc = 0x92#8) || decide (e.opc = 0x93#8))

/-- The entry that the queue stages next: the first unstaged one with only staged MMAs and MMAS before it,
at most 4 being staged ahead of the one that is admitted (R198). -/
def nextToStage (admitted : Nat) (q : List MEntry) : Option MEntry :=
  let ahead := q.takeWhile (fun e => isMma e && e.staged.isSome)
  match q.drop ahead.length with
  | e :: _ =>
    if isMma e && decide ((ahead.filter (fun x => x.id ≠ admitted)).length < 4) && !(e.stopped || e.performed || ahead.any (fun x => x.stopped || x.performed))
    then some e else none
  | [] => none

/-- Stages the next entry. A fault of the staging stops the entry once it is the oldest: a steer thread has at most one
deferred matrix fault outstanding (R208). -/
def stage (deliver : Bool) (tm : Nat) (s : State) : State :=
  match nextToStage (s.cluster ((s.team tm).core / 2)).admitted (s.team tm).mqueue with
  | none => s
  | some e =>
    if !agentRuns s e.agent then s
    else match stageEntry tm e deliver s with
      | .ok st s => modEntry tm e.id (fun x => { x with staged := some st }) s
      | .bad c a l t =>
        if ((s.team tm).mqueue.headD {}).id = e.id then stopMma tm e c a { reason := l } e.mtmask 0xFFFF 0xFFFF t else s
      | .wait => s

def execStaging (tm : Nat) (s : State) : Out := .next (stage false tm s)

/-! ## Slots, admission and completion (R196, R197, R208, R209, R211, R214) -/

/-- The engine's slot entry of a cluster at the current slot. -/
def slotEntry (s : State) (c : Nat) : Word := (s.cluster c).slots.at (s.slotOf c)

/-- Every 512 clk of a die the slot advances on its clusters. -/
def slotDue (s : State) (die : Nat) : Bool := decide (s.clkOf die ≥ (s.slotNo.at die + 1) * 512)
def slotTo (s : State) (die n : Nat) : State := { s with slotNo := s.slotNo.put die (max (s.slotNo.at die) n) }
def execSlotRotation (s : State) : Out :=
  .next ((List.range 4).foldl (fun s d => if slotDue s d then slotTo s d (s.slotNo.at d + 1) else s) s)

/-- Teams of a cluster whose oldest entry is staged and may be admitted. -/
def admissible (s : State) (c : Nat) : List (Nat × Team) :=
  s.teams.filter (fun p => decide (p.2.core / 2 = c) && p.2.live && (match p.2.mqueue with
    | e :: _ => isMma e && e.staged.isSome && !e.stopped && !e.performed && agentRuns s e.agent
    | [] => false))

/-- Round-robin by steer slot, after the one admitted last. -/
def roundRobin (last : Nat) (l : List (Nat × Team)) : Option (Nat × Team) :=
  let rank := fun (p : Nat × Team) => (p.2.steerSlot + 15 - last) % 16
  match l with
  | [] => none
  | p :: r => some (r.foldl (fun x y => if rank y < rank x then y else x) p)

def admitNext (c : Nat) (s : State) : State :=
  if (s.cluster c).admitted ≠ 0 then s
  else
    let all := admissible s c
    let w := slotEntry s c
    let own := if w.getLsbD 18 then all.filter (fun p => decide ((s.grid p.2.grid).ctx = (w.extractLsb' 0 12).toNat)) else []
    match roundRobin (s.cluster c).lastSteer (if own = [] then all else own) with
    | none => s
    | some (_, t) => s.modCluster c (fun x => { x with admitted := (t.mqueue.headD {}).id, lastSteer := t.steerSlot })

def execAdmission (cluster : Nat) (s : State) : Out := .next (admitNext cluster s)

/-- The team whose oldest entry is in a cluster's array. -/
def admittedTeam (s : State) (c : Nat) : Option (Nat × MEntry × Staged) :=
  if (s.cluster c).admitted = 0 then none
  else s.teams.findSome? (fun p => match p.2.mqueue with
    | e :: _ => if e.id = (s.cluster c).admitted then e.staged.map (fun st => (p.1, e, st)) else none
    | [] => none)

/-- The operation in the array completes: its accumulator is written, its flag clears, and a failed
segment's RECORD is due (R207, R208). -/
def finishMma (tm : Nat) (e : MEntry) (st : Staged) (s : State) : State :=
  let on := fun i j => !e.h1 || !e.mtmask.getLsbD (microTile i j)
  let s := s.modTeam tm (fun t => t.putAcc e.d (accAfter st on e.kstep (st.k / 16) (t.accAll e.d)))
  let rg := rgMask st
  if rg = 0 then (endEntry tm e s).modTeam tm (fun t => { t with mstat := 0 })
  else
    let ms := mstatOf e (st.k / 16) rg 0xFFFF
    let s := completeFlag e.agent e.flag (modEntry tm e.id (fun x => { x with performed := true }) s)
    let s := s.modTeam tm (fun t => { t with mstat := ms })
    post e.agent { code := cRECORD, oppc := e.oppc, op := e.id, order := e.id,
                   record := matrixRecord e ms cRECORD e.ra st.reason 0xFFFF 0xFFFF } s

/-- A second mismatch: the accumulator, or the micro-tile of the mismatch, keeps its value from before
(R209). -/
def chkMma (tm : Nat) (e : MEntry) (st : Staged) (row col : Nat) (s : State) : State :=
  let m := microTile row col
  let mt : BitVec 16 := if e.h1 then e.mtmask ||| bv 16 (2 ^ m - 1) else 0
  let on := fun i j => e.h1 && decide (microTile i j < m) && !e.mtmask.getLsbD (microTile i j)
  let s := s.modTeam tm (fun t => t.putAcc e.d (accAfter st on e.kstep (st.k / 16) (t.accAll e.d)))
  stopMma tm e cMATRIXCHK e.ra st mt row col s

/-- MATRIX_COMPLETION: the array finishes, after as many mismatches of its checksums. -/
def complete_ (c mismatches row col : Nat) (s : State) : State :=
  match admittedTeam s c with
  | none => s.modCluster c (fun x => { x with admitted := 0 })
  | some (tm, e, st) =>
    if !agentRuns s e.agent then s
    else
      let s := s.modCluster c (fun x => { x with admitted := 0 })
      if mismatches ≥ 2 then
        chkMma tm e st (row % 64) (col % 64) (s.modCluster c (fun x => { x with chks := x.chks ++ [s.gtime] }))
      else finishMma tm e st s

def execMatrixCompletion (cluster mismatches row col : Nat) (s : State) : Out :=
  .next (complete_ cluster mismatches row col s)

/-- A team's staged entries are queue entries again: their staging is made anew (R211). -/
def unstage (tm : Nat) (s : State) : State :=
  s.modTeam tm (fun t => { t with mqueue := t.mqueue.map (fun e => { e with staged := none }) })

/-- A capture-mode stop leaves an admitted operation at a k-step or micro-tile boundary, which one the spec
leaves open (R211, R214); every other entry stays as it is, unstaged. -/
def haltMatrix (tm : Nat) (s : State) : State :=
  unstage tm (haltArray tm s)
where haltArray (tm : Nat) (s : State) : State :=
  let c := (s.team tm).core / 2
  match admittedTeam s c with
  | none => s
  | some (t, e, st) =>
    if t ≠ tm then s
    else
      let s := s.modCluster c (fun x => { x with admitted := 0 })
      let n := Config.haltPoint s.tick tm
      if e.h1 then
        let m := n % 17
        let on := fun i j => decide (microTile i j < m) && !e.mtmask.getLsbD (microTile i j)
        let mt := e.mtmask ||| bv 16 (2 ^ m - 1)
        let s := s.modTeam tm (fun t => { t.putAcc e.d (accAfter st on 0 (st.k / 16) (t.accAll e.d)) with mstat := mstatOf e 0 (rgMask st) mt })
        modEntry tm e.id (fun x => { x with mtmask := mt }) s
      else
        let k := e.kstep + n % (st.k / 16 - e.kstep + 1)
        let s := s.modTeam tm (fun t => { t.putAcc e.d (accAfter st (fun _ _ => true) e.kstep k (t.accAll e.d)) with mstat := mstatOf e k (rgMask st) 0 })
        modEntry tm e.id (fun x => { x with kstep := k }) s

end Sys2Proof.Machine
end

