-- ==== Sys2Proof/Machine/Eddy.lean ====
section
/-!
DEFINITION. Eddy: the shape record and its checks (R139 to R141, R315), the promise (R142), TCOPY (R458) and
QFENCE (R162, R438), the moving of elements, reductions and collective steps, completion, and deferred faults
(R245); with the fabric's sending and the mismatch of an instance (R309, R310, R314).
-/

namespace Sys2Proof.Machine

/-! ## The fabric (R308 to R310) -/

/-- Whether a flit reaches a module: this one, or one with a route over a port that is up. -/
def reaches (s : State) (m : Nat) : Bool :=
  decide (m = s.boot.moduleNo) || s.boot.routes.any (fun p => decide (p.1 = m) && decide (p.2 ≠ 0) && s.boot.ports.getLsbD (p.2 - 1))

/-- The flits of 224 bytes of payload that a flit of the model stands for, and the 256 bytes of one of them on a port
whose sequences are `l` (R308). -/
def flitFrames (fl : Flit) : Nat := max 1 ((fl.data.length + 223) / 224)
def flitWire (fl : Flit) (l : Link) (nak : Bool) (n : Nat) : List Byte :=
  let b := [fl.typ, 0] ++ leBytes 2 fl.dst ++ leBytes 2 fl.src ++ leBytes 2 (fl.ctx % 4096) ++ leBytes 8 fl.info.toNat
    ++ padTo 224 ((fl.data.drop (224 * n)).take 224)
    ++ leBytes 4 (l.sent.toNat + l.got.toNat * 2 ^ 16 + (if nak then 2 ^ 28 else 0)) ++ zeros 4
  b ++ leBytes 8 (Config.crc64 b).toNat

/-- The port that the routes give for a module, and a change of its sequences. -/
def portOf (s : State) (m : Nat) : Option Nat := let p := s.boot.routes.at m; if p = 0 then none else some (p - 1)
def onPort (m : Nat) (f : Link → Link) (s : State) : State :=
  match portOf s m with
  | some p => { s with links := s.links.put p (f (s.links.at p)) }
  | none => s

/-- Sends a flit; one for this module comes in at once. On a port its frames are kept for a replay until they are
acknowledged, and carry a NAK while the last flit that came in there has failed its check (R308, R310). -/
def send (fl : Flit) (s : State) : State :=
  let fl := { fl with src := s.boot.moduleNo }
  let t := { s with sent := s.sent ++ [fl] }
  let n := flitFrames fl
  if fl.dst = s.boot.moduleNo then { t with inbox := t.inbox ++ [fl] }
  else onPort fl.dst (fun l => { l with
    sent := l.sent + bv 12 n,
    out := l.out ++ (List.range n).map (fun i => flitWire fl { l with sent := l.sent + bv 12 i } l.nak i) }) t

/-- The model's layout of INFO: GID, SEQ, step, the sender's rank, and a code (log 21). -/
def infoOf (gid : Nat) (seq : BitVec 16) (step rank code : Nat) : DWord :=
  bv 64 (gid % 256 + seq.toNat * 2 ^ 8 + step % 2 ^ 24 * 2 ^ 24 + rank % 256 * 2 ^ 48 + code % 256 * 2 ^ 56)
def infoGid (i : DWord) : Nat := bits i.toNat 7 0
def infoSeq (i : DWord) : BitVec 16 := i.extractLsb' 8 16
def infoStep (i : DWord) : Nat := bits i.toNat 47 24
def infoRank (i : DWord) : Nat := bits i.toNat 55 48
def infoCode (i : DWord) : Nat := bits i.toNat 63 56

/-- TAG, KIND, OP and ALG of an instance, as its flits carry them (R314). -/
def Inst.desc (x : Inst) : List Byte := leBytes 2 x.tag.toNat ++ leBytes 1 (x.kind * 64 + x.op * 4 + x.alg)

/-! ## Waits on copies (R464) -/

/-- WAITP lanes whose covered copies have all completed go on. -/
def waitpWake (a : Nat) (s : State) : State :=
  let g := s.grp a
  s.modGrp a (fun g => g.wake (g.lanesWith (fun x => match x with | .waitp p n => decide (covered s a p n = []) | _ => false)))

/-- An entry leaves the queue: its flag clears and WAITPs on it end. -/
def finishCopy (k : Nat) (c : Copy) (s : State) : State :=
  let s := dropRaced c.id (s.modCore k (fun x => { x with eddy := x.eddy.filter (fun e => e.id ≠ c.id) }))
  waitpWake c.agent (completeFlag c.agent c.flag s)

def modCopy (k id : Nat) (f : Copy → Copy) (s : State) : State :=
  s.modCore k (fun x => { x with eddy := x.eddy.map (fun e => if e.id = id then f e else e) })

/-! ## Instances end and mismatch (R313, R314, R316) -/

/-- What an instance tells rank 0's switch (the model's flits, log 21): 1 it has closed, 2 it has opened, 3 it waits for the
slot decision. -/
def tellSwitch (x : Inst) (code : Nat) (s : State) : State :=
  match x.members with
  | [] => s
  | (m, c) :: _ => send { typ := 5, dst := m, ctx := c, info := infoOf x.gid x.seq 0 x.rank code, data := x.desc } s

/-- An instance closes, and rank 0's switch hears of it (R313, R316). What is left of it are QPOPs that wait, and whom a
mismatch faults. -/
def closeInst (i : Nat) (s : State) : State :=
  tellSwitch (s.inst i) 1 (s.modInst i (fun x => { x with live := false, closed := true }))

/-- Closes an instance that is no longer its team's current one and has no step left (R313). -/
def tryClose (i : Nat) (s : State) : State :=
  let x := s.inst i
  if x.closing && x.live && !s.cores.any (fun c => c.2.eddy.any (fun e => decide (e.inst = i) && !e.fence)) then closeInst i s
  else s

/-- COLLMISMATCH once: the issuing group's deferred fault; steps that wait for a peer complete (R314). While the context
is stopped it is owed (R267). -/
def mismatch (i unit rank : Nat) (s : State) : State :=
  let x := s.inst i
  if !(x.live || x.closed) || x.mismatch then s
  else if (s.ctx x.ctx).vrun = false then s.modInst i (fun x => { x with owed := some (x.owed.getD (unit, rank)) })
  else
    let s := s.modInst i (fun x => { x with mismatch := true, owed := none })
    let s := if (s.grp x.agent).ended then s
      else post x.agent { code := cCOLL, oppc := x.oppc, order := i,
                          record := progressRecord x.oppc 3 cCOLL unit 0 rank x.seq.toNat } s
    let es := (s.core (s.team x.team).core).eddy.filter (fun e => e.inst = i && e.moved && !e.stopped)
    tryClose i (es.foldl (fun s e => finishCopy (s.team x.team).core e s) s)

/-! ## Shape records (R139, R140) -/

structure Shp where
  src : DWord := 0
  dst : DWord := 0
  esz : Nat := 1
  sside : Bool := false
  sscr : Bool := false
  dscr : Bool := false
  resv : Nat := 0
  trank : Nat := 0x7F
  ext : Nat := 0
  s1 : Int := 0
  s2 : Int := 0
  s3 : Nat := 0
  op : Nat := 0
  repl : Nat := 0
  deriving DecidableEq, Repr, Inhabited

def shpOf (ws : List Word) : Shp :=
  let w := fun k => (ws.getD k 0).toNat
  let base := fun lo hi => (bv 57 (w lo + bits (w hi) 24 0 * 2 ^ 32)).signExtend 64
  { src := base 0 1, dst := base 2 3, esz := 2 ^ bits (w 1) 31 30, sside := bit1 (w 1) 29, sscr := bit1 (w 1) 28,
    dscr := bit1 (w 1) 27, resv := bits (w 1) 26 25, trank := bits (w 3) 31 25, ext := w 4,
    s1 := toS 32 (w 5), s2 := toS 32 (w 6), s3 := bits (w 7) 11 0, op := bits (w 7) 15 12, repl := bits (w 7) 31 16 }

def Shp.n (x : Shp) (k : Nat) : Nat := bits x.ext (8 * k + 7) (8 * k) + 1
def Shp.count (x : Shp) : Nat := x.n 0 * x.n 1 * x.n 2 * x.n 3
def Shp.remote (x : Shp) : Bool := decide (x.trank ≠ 0x7F) || decide (x.repl ≠ 0)
/-- The target ranks, ascending (R140). -/
def Shp.targets (x : Shp) : List Nat :=
  if x.repl = 0 then (if x.trank = 0x7F then [] else [x.trank])
  else ((List.range 16).filter (fun j => bit1 x.repl j)).map (fun j => x.trank + j)

/-- The offset of element `i` on the strided and on the dense side (R140). -/
def Shp.strided (x : Shp) (i : Nat) : Int :=
  let i0 := i % x.n 0
  let r := i / x.n 0
  let i1 := r % x.n 1
  let r2 := r / x.n 1
  (i0 * x.esz : Nat) + (i1 : Int) * x.s1 + ((r2 % x.n 2 : Nat) : Int) * x.s2 + ((r2 / x.n 2 * x.s3 * 4096 : Nat) : Int)
def Shp.offset (x : Shp) (isSrc : Bool) (i : Nat) : Int :=
  if isSrc = x.sside then x.strided i else ((i * x.esz : Nat) : Int)

/-- An element's address, or its offset in the scratchpad. -/
def Shp.addr (x : Shp) (isSrc : Bool) (i : Nat) : DWord := (if isSrc then x.src else x.dst) + BitVec.ofInt 64 (x.offset isSrc i)

/-- The team's current instance, if any. -/
def curInst (s : State) (tm : Nat) : Option (Nat × Inst) :=
  let i := (s.team tm).inst
  if i = 0 ∨ (s.inst i).live = false then none else some (i, s.inst i)

/-- R140's and R315's checks: a record that fails raises ACCESS and starts nothing. -/
def shapeBad (x : Shp) (inst : Option Inst) : Bool :=
  let last := fun r => match inst with | some i => decide (r ≥ i.members.length) | none => true
  decide (x.src.toNat % x.esz ≠ 0) || decide (x.dst.toNat % x.esz ≠ 0)
    || decide (x.s1 % (x.esz : Int) ≠ 0) || decide (x.s2 % (x.esz : Int) ≠ 0) || decide (x.resv ≠ 0)
    || (x.remote && (x.sscr || x.dscr)) || decide (64 ≤ x.trank ∧ x.trank ≤ 126)
    || (decide (x.trank ≠ 0x7F) && last x.trank) || (x.remote && x.targets.any last)
    || decide (x.op ≥ 0xC) || (match opEsz x.op with | some e => decide (x.esz ≠ 2 ^ e) | none => false)
    || (decide (x.op = 0xA) && (decide (x.ext ≠ 0) || decide (x.s1 ≠ 0) || decide (x.s2 ≠ 0) || decide (x.s3 ≠ 0)))
    || (decide (x.op = 0xB) && (decide (x.ext / 256 ≠ 0) || decide (x.n 0 < 2)))
    || (match inst with
        | some i => (decide (i.kind = 0) && x.remote && decide (x.op ≠ 0))
            || (decide (i.kind = 1) && decide (x.op ≠ 0) && (x.remote || decide (x.op ≠ i.op)))
        | none => x.remote)

/-! ## The promise (R142) -/

/-- Bytes a copy's element counts as. -/
def Shp.unitBytes (x : Shp) : Nat :=
  if x.op = 0xA then 4160 else x.esz * (if x.repl = 0 then 1 else popc x.repl 16)
def Copy.shp (c : Copy) : Shp := shpOf c.shape
def Copy.left (c : Copy) : Nat := if c.fence || c.moved then 0 else (c.shp.count - c.unit) * c.shp.unitBytes

/-- A side counts as second-tier: its base's page, or no page at all. -/
def sideTier (s : State) (a : Nat) (scr : Bool) (va : DWord) : Bool :=
  !scr && (match translate s (s.ctxNo a) {} va with | .ok t => t.tier | _ => true)

def promiseOf (s : State) (a : Nat) (x : Shp) (step : Bool) : Word :=
  let ahead := if step then 0 else ((s.core (s.coreNo a)).eddy.map Copy.left).sum
  let b := x.count * x.unitBytes + ahead
  let tier := sideTier s a x.sscr x.src || (!x.remote && sideTier s a x.dscr x.dst)
  let l := if x.remote then 4000 else if tier then 2500 else 1500
  let g := if x.remote || tier then 8 else 32
  bv 32 ((s.vclk (s.ctxNo a)).toNat + l + (b + g - 1) / g)

/-! ## TCOPY and QFENCE (R438, R458) -/

def tcopyK (o : Body) (s : State) : Res :=
  let a := s.cur.agent
  let k := s.coreNo a
  let g := s.me
  if s.actMask o = 0 then .ok s
  else if s.isHw then .trap { code := cACCESS } s
  else if (s.core k).eddy.length ≥ Config.eddyEntries then .hold
  else
    let ws := (List.range 8).map (fun i => g.sreg (o.a.num + i))
    let x := shpOf ws
    let inst := curInst s g.team
    if shapeBad x (inst.map (·.2)) then .trap { code := cACCESS } s
    else if !coreQuiet s k then .hold
    else
      let step := match inst with | some (_, i) => decide (i.kind = 1) && decide (x.op ≠ 0) | none => false
      let p := promiseOf s a x step
      let (id, s) := s.takeId
      let ours := step || x.remote
      let n := match inst with | some (_, i) => i.steps | none => 0
      let counts := match inst with | some (_, i) => step || (x.remote && decide (i.kind = 0)) | none => false
      let c : Copy := { id := id, agent := a, team := g.team, ctx := s.ctxNo a, oppc := s.cur.pc, shape := ws, promise := p,
                        flag := o.fset, isStep := step, race := g.race, lanes := s.actMask o, hint := o.hint.toNat,
                        inst := if ours then (inst.map (·.1)).getD 0 else 0, step := if counts then n else 0xFFFFFF }
      let s := s.modCore k (fun y => { y with eddy := y.eddy ++ [c] })
      let s := if counts then s.modInst c.inst (fun i => { i with steps := i.steps + 1 }) else s
      .ok (s.modMe (fun g => (g.wr false o.dst 0 (p.zeroExtend 64)).setFlag o.fset s.cur.pc))
def execTcopy (o : Body) (s : State) : Out := perform 0x80 o (tcopyK o) s

/-- The entries that a QFENCE of team `tm` naming a mask of its queues waits for (R162): bit 2 is the Delta queue of its current
instance. A QFENCE in a Sluice queue waits
for what is ahead of it there, and the queue runs in order. -/
def fenceWaits (s : State) (tm : Nat) (mask : BitVec 4) : List Nat :=
  let es := ((s.core (s.team tm).core).eddy).filter (fun e => e.team = tm)
  (if mask.getLsbD 0 then (es.filter (fun e => e.q = 0)).map (·.id) else [])
    ++ (if mask.getLsbD 1 then ((s.team tm).mqueue.filter (fun e => !e.performed)).map (·.id) else [])
    ++ (if mask.getLsbD 2 then (es.filter (fun e => decide (e.inst ≠ 0) && decide (e.inst = (s.team tm).inst))).map (·.id) else [])

def qfenceK (o : Body) (s : State) : Res :=
  let a := s.cur.agent
  let tm := s.me.team
  let q := (o.md.extractLsb' 0 2).toNat
  let mask := o.md.extractLsb' 4 4
  let part := s.regs.scrubctl.toNat
  if s.actMask o = 0 then .ok s
  else if s.isHw then
    if q ≠ 3 then .trap { code := cACCESS } s
    else
      .ok (s.modPart part (fun p => { p with jobs := p.jobs ++ [{ fence := true }] }))
  else if (q = 1 ∧ s.myTeam.steer = none) ∨ (q = 2 ∧ (curInst s tm).isNone) then .trap { code := cACCESS } s
  else
    let ws := fenceWaits s tm mask
    if q = 1 then
      if s.myTeam.mqueue.length ≥ Config.matrixEntries then .hold
      else
        let (id, s) := s.takeId
        .ok (s.modTeam tm (fun t => { t with mqueue := t.mqueue ++ [{ id := id, agent := a, oppc := s.cur.pc, fence := true, waits := ws }] }))
    else if (s.core (s.coreNo a)).eddy.length ≥ Config.eddyEntries then .hold
    else
      let (id, s) := s.takeId
      .ok (s.modCore (s.coreNo a) (fun y => { y with eddy := y.eddy ++
        [{ id := id, agent := a, team := tm, ctx := s.ctxNo a, oppc := s.cur.pc, fence := true, waits := ws, q := q,
           inst := if q = 2 then s.myTeam.inst else 0 }] }))
def execQfence (o : Body) (s : State) : Out := perform 0x12 o (qfenceK o) s

/-! ## Elements -/

def Copy.owner (c : Copy) : Owner := 
  { op := c.id, agent := c.agent, race := c.race, lanes := c.lanes, pc := c.oppc, hint := some c.hint }

/-- Whether a range of a team's scratchpad share exists. -/
def scrOk (s : State) (tm : Nat) (a : DWord) (n : Nat) : Bool := decide (a.toNat + n ≤ (s.team tm).scratchSize)

/-- Reads one side of a copy. -/
def sideRead (c : Copy) (deliver scr : Bool) (a : DWord) (n : Nat) (s : State) : EngRes :=
  if scr then (if scrOk s c.team a n then .ok ((s.team c.team).scratchBytes a.toNat n) s else .bad cACCESS a s)
  else engRead c.owner deliver a n s
/-- Writes one side; the answer's bytes are those it replaces. -/
def sideWrite (c : Copy) (deliver scr : Bool) (a : DWord) (bs : List Byte) (s : State) : EngRes :=
  if scr then
    if scrOk s c.team a bs.length then
      .ok ((s.team c.team).scratchBytes a.toNat bs.length) (s.modTeam c.team (fun t => t.setScratch a.toNat bs))
    else .bad cACCESS a s
  else engWrite c.owner deliver a bs s
/-- Replaces bytes of one side by a function of them. -/
def sideUpdate (c : Copy) (deliver scr : Bool) (a : DWord) (n : Nat) (f : List Byte → List Byte) (s : State) : EngRes :=
  if scr then
    if scrOk s c.team a n then
      let old := (s.team c.team).scratchBytes a.toNat n
      .ok old (s.modTeam c.team (fun t => t.setScratch a.toNat (f old)))
    else .bad cACCESS a s
  else engUpdate c.owner deliver a n f s

/-- A source's bytes where an earlier element of the copy may have overwritten some: which of the two values
it reads is not fixed (R458). -/
def overlapped (c : Copy) (s : State) (a : DWord) (now : List Byte) : List Byte :=
  let n := now.length
  if c.olds.any (fun p => decide (a.toNat ≤ p.1) && decide (p.1 < a.toNat + n)) && !Config.overlapSeesNew s.tick c.id c.unit then
    now.zipIdx.map (fun p => match c.olds.find? (fun q => q.1 = a.toNat + p.2) with | some q => q.2 | none => p.1)
  else now

/-- Remembers what an element overwrites, where both sides lie in one space. -/
def keepOlds (c : Copy) (x : Shp) (a : DWord) (old : List Byte) : Copy :=
  if x.sscr = x.dscr then
    { c with olds := c.olds ++ (old.zipIdx.map (fun p => (a.toNat + p.2, p.1))).filter (fun p => !c.olds.any (fun q => q.1 = p.1)) }
  else c

/-- Sends an element to every target rank; a target that no route reaches fails (R310, R315). The payload:
address, element, flags (first, last, tile), the instance's fields, and the bytes. -/
def sendElem (c : Copy) (x : Shp) (i : Nat) (first : Bool) (bs : List Byte) (s : State) : Copy × State :=
  let inst := s.inst c.inst
  x.targets.foldl (fun (r : Copy × State) t =>
    let (m, ctx) := inst.members.getD t (0, 0)
    if reaches r.2 m then
      let flags := (if first then 1 else 0) + (if i + 1 = x.count then 2 else 0) + (if inst.kind = 0 then 4 else 0)
      let fl : Flit := { typ := 1, dst := m, ctx := ctx, info := infoOf inst.gid inst.seq c.step inst.rank 0,
                         data := leBytes 8 (x.addr false i).toNat ++ leBytes 4 i ++ leBytes 1 flags ++ inst.desc ++ bs }
      ({ r.1 with acks := r.1.acks ++ [(t, i)] }, send fl r.2)
    else ({ r.1 with fails := r.1.fails ++ [(i, t, cACCESS, x.addr false i)] }, r.2)) (c, s)

/-- What moving comes to: the copy with its progress, and the fault, or a wait. -/
inductive Moved where
  | ok (c : Copy) (s : State)
  | bad (code : BitVec 8) (addr : DWord) (c : Copy) (s : State)
  | wait (c : Copy) (s : State)

/-- Moves element `i` (R139, R141, R315). -/
def moveElem (deliver : Bool) (c : Copy) (x : Shp) (i : Nat) (s : State) : Moved :=
  let sa := x.addr true i
  match sideRead c deliver x.sscr sa x.esz s with
  | .wait => .wait c s
  | .bad code a s => .bad code a c s
  | .ok bs s =>
    let bs := overlapped c s sa bs
    let da := x.addr false i
    if c.isStep then .ok { c with buf := c.buf ++ bs, unit := i + 1 } s
    else if x.remote then
      let r := sendElem c x i (c.buf = []) bs s
      .ok { r.1 with buf := [1], unit := i + 1 } r.2
    else
      let res := if x.op = 0 then sideWrite c deliver x.dscr da bs s
        else sideUpdate c deliver x.dscr da x.esz (fun old => leBytes x.esz (foldElems x.op [ofLe old, ofLe bs])) s
      match res with
      | .wait => .wait c s
      | .bad code a s => .bad code a c s
      | .ok old s => .ok { keepOlds c x da old with unit := i + 1 } s

/-- An SMX3 copy in one unit (R121, R141, R245). -/
def moveSmx3 (deliver : Bool) (c : Copy) (x : Shp) (s : State) : Moved :=
  let n := 4 * x.count
  let ws := fun l => (List.range x.count).map (fun k => fieldOf l (4 * k) 4)
  match sideRead c deliver x.sscr x.src n s with
  | .wait => .wait c s
  | .bad code a s => .bad code a c s
  | .ok bs s =>
    if c.isStep then .ok { c with buf := bs, unit := x.count } s
    else match sideUpdate c deliver x.dscr x.dst n (fun old => (smx3 (ws old) (ws bs)).flatMap (leBytes 4)) s with
      | .wait => .wait c s
      | .bad code a s => .bad code a c s
      | .ok _ s => .ok { c with unit := x.count } s

/-- A SUMMARY copy: one SMERGE into the destination, both headers checked as R218 says. A step contributes its summary as
it stands, or the header alone where that names no kind: the fold checks it (R231). -/
def moveSumm (deliver : Bool) (c : Copy) (x : Shp) (s : State) : Moved :=
  let head := if c.isStep then sideRead c deliver x.sscr x.src 64 s else sideRead c deliver x.dscr x.dst 64 s
  match head with
  | .wait => .wait c s
  | .bad code a s => .bad code a c s
  | .ok h s =>
    let kind := fieldOf h 0 1
    let named := decide (1 ≤ kind ∧ kind ≤ 3)
    if !c.isStep && !(named && headerOk kind h) then .bad cACCESS x.dst c s
    else match sideRead c deliver x.sscr x.src (if named then summSize kind else 64) s with
      | .wait => .wait c s
      | .bad code a s => .bad code a c s
      | .ok src s =>
        if c.isStep then .ok { c with buf := src, unit := 1 } s
        else if headerOk kind src = false then .bad cACCESS x.src c s
        else match sideUpdate c deliver x.dscr x.dst (summSize kind) (fun d => (smerge (summOf d) (summOf src)).bytes) s with
          | .wait => .wait c s
          | .bad code a s => .bad code a c s
          | .ok _ s => .ok { c with unit := 1 } s

/-- Moves up to `n` elements. -/
def moveSome (deliver : Bool) (x : Shp) : Nat → Copy → State → Moved
  | 0, c, s => .ok c s
  | n + 1, c, s =>
    if c.unit ≥ x.count then .ok c s
    else
      let r := if x.op = 0xA then moveSumm deliver c x s else if x.op = 0xB then moveSmx3 deliver c x s
        else moveElem deliver c x c.unit s
      match r with
      | .ok c s => moveSome deliver x n c s
      | r => r

/-! ## Progress of an entry -/

/-- Whether an entry may start or go on: no earlier entry of its context stands in its queues, and no QFENCE of its
instance's Delta queue holds it (R162). -/
def atTurn (q : List Copy) (i : Nat) : Bool :=
  match q[i]? with
  | none => false
  | some c =>
    (q.take i).all (fun e =>
      if e.q = 2 then decide (e.inst ≠ c.inst)
      else decide (e.ctx ≠ c.ctx) || decide (c.q = 2))

/-- The ENGINE code of a copy's progress record (R245). -/
def Copy.engine (c : Copy) : Nat := if c.shp.op = 0xA then 5 else 1

/-- A copy stops on a deferred fault at its unit (R245). -/
def stopCopy (k : Nat) (c : Copy) (code : BitVec 8) (addr : DWord) (rank : Nat) (s : State) : State :=
  let s := modCopy k c.id (fun _ => { c with stopped := true }) s
  if (s.grp c.agent).ended then s
  else post c.agent { code := code, oppc := c.oppc, addr := addr, op := c.id, order := c.id,
                      record := progressRecord c.oppc c.engine code (if c.shp.op ≥ 0xA then 0 else c.unit) addr rank 0 } s

/-- A step's contribution goes where they are folded, rank 0's module and context; where no route reaches it the step fails
(R310). UNIT of the failure is the step, as many steps as are done before it (R245). -/
def contribute (k : Nat) (c : Copy) (s : State) : State :=
  let x := s.inst c.inst
  let (m, ctx) := x.members.headD (0, 0)
  if reaches s m then
    send { typ := 5, dst := m, ctx := ctx, info := infoOf x.gid x.seq c.step x.rank 0,
           data := leBytes 1 x.members.length ++ x.desc ++ leBytes 1 c.shp.esz ++ leBytes 4 c.shp.count
             ++ leBytes 8 c.shp.src.toNat ++ leBytes 8 c.step ++ c.buf } s
  else tryClose c.inst (finishCopy k c (mismatch c.inst c.step 0 s))

/-- Writes a step's result from element `runit` on (R317): progress, and the fault. -/
def writeResult (deliver : Bool) (x : Shp) (bs : List Byte) : Nat → Copy → State → Moved
  | 0, c, s => .ok c s
  | n + 1, c, s =>
    let whole := decide (x.op = 0xA)
    if c.runit ≥ (if whole then 1 else x.count) then .ok c s
    else
      match sideWrite c deliver x.dscr (x.addr false c.runit) (if whole then bs else sub bs (c.runit * x.esz) x.esz) s with
      | .ok _ s => writeResult deliver x bs n { c with runit := c.runit + 1 } s
      | .bad code a s => .bad code a c s
      | .wait => .wait c s

/-- A step with its result: writes it, then completes. Where a summary fold failed the step stops, with a deferred ACCESS,
and the destination holds the summary after the last merge step, if any was made (R231, R245, R317). -/
def resultStep (deliver : Bool) (k : Nat) (c : Copy) (bs : List Byte) (s : State) : State :=
  let seq := (s.inst c.inst).seq.toNat
  match (if bs = [] then .ok c s else writeResult deliver c.shp bs (c.shp.count + 1) c s) with
  | .wait c s => modCopy k c.id (fun _ => c) s
  | .bad code a c s =>
    let s := modCopy k c.id (fun _ => { c with stopped := true }) s
    if (s.grp c.agent).ended then s
    else post c.agent { code := code, oppc := c.oppc, addr := a, op := c.id, order := c.id,
                        record := progressRecord c.oppc 3 code c.runit a 0x7F seq } s
  | .ok c s =>
    match c.foldErr with
    | none => tryClose c.inst (finishCopy k c s)
    | some (j, r, a) =>
      let s := modCopy k c.id (fun _ => { c with stopped := true, res := none }) s
      if (s.grp c.agent).ended then s
      else
        let rank := if r = (s.inst c.inst).rank then 0x7F else r
        post c.agent { code := cACCESS, oppc := c.oppc, addr := a, op := c.id, order := c.id,
                       record := progressRecord c.oppc 5 cACCESS j a rank seq } s

/-- ERET after a failed fold, which goes on at its failed merge step (R245): the member whose header failed contributes its
summary anew, and the others wait for the result. -/
def again (k : Nat) (c : Copy) (s : State) : State :=
  let mine := match c.foldErr with | some (_, r, _) => decide (r = (s.inst c.inst).rank) | none => false
  modCopy k c.id (fun _ =>
    if mine then { c with unit := 0, runit := 0, moved := false, buf := [], foldErr := none }
    else { c with runit := 0, foldErr := none }) s

/-- A remote copy all of whose writes have been answered completes, or stops at the lowest failing element
(R245). -/
def remoteEnd (k : Nat) (c : Copy) (s : State) : State :=
  if c.acks ≠ [] then s
  else match sortBy (fun (a b : Nat × Nat × BitVec 8 × DWord) => decide (a.1 < b.1) || (decide (a.1 = b.1) && decide (a.2.1 ≤ b.2.1))) c.fails with
    | [] => tryClose c.inst (finishCopy k c s)
    | (u, rank, code, addr) :: _ =>
      stopCopy k { c with unit := u, moved := false, fails := [], buf := [] } code addr rank s

/-- An entry goes on by up to `n` elements; `force` moves one whose grid has failed or whose context stops (R247). -/
def moveCopy (force deliver : Bool) (k i n : Nat) (s : State) : State :=
  let q := (s.core k).eddy
  match q[i]? with
  | none => s
  | some c =>
    if c.stopped || !(force || agentRuns s c.agent) || !atTurn q i then s
    else if c.fence then (if fenceOver s c.waits then finishCopy k c s else s)
    else if decide (c.inst ≠ 0) && (s.inst c.inst).mismatch then tryClose c.inst (finishCopy k c s)
    else if c.moved then
      match c.res with
      | some bs => resultStep deliver k c bs s
      | none => if c.foldErr.isSome then again k c s else if c.shp.remote then remoteEnd k c s else s
    else
      let x := c.shp
      match moveSome deliver x n c s with
      | .wait c s => modCopy k c.id (fun _ => c) s
      | .bad code a c s =>
        -- the writes that a remote copy has sent are answered before its source's fault is due (R245)
        if x.remote then
          let c := { c with moved := true, fails := c.fails ++ [(c.unit, 0x7F, code, a)] }
          remoteEnd k c (modCopy k c.id (fun _ => c) s)
        else stopCopy k c code a 0x7F s
      | .ok c s =>
        if c.unit < x.count then modCopy k c.id (fun _ => c) s
        else
          let c := { c with moved := true }
          let s := modCopy k c.id (fun _ => c) s
          if c.isStep then contribute k c s
          else if x.remote then remoteEnd k c s
          else finishCopy k c s

def runCopy (deliver : Bool) (k i n : Nat) (s : State) : State := moveCopy false deliver k i n s

/-- The rest of the tile in progress of every copy that a test picks (R247). -/
def finishTile (k : Nat) (e : Copy) (s : State) : State :=
  let per := max 1 (4096 / max 1 e.shp.esz)
  if e.fence ∨ e.moved ∨ e.stopped ∨ e.unit % per = 0 then s
  else match (s.core k).eddy.findIdx? (fun x => x.id = e.id) with
    | some i => moveCopy true false k i (per - e.unit % per) s
    | none => s
def finishTilesOf (mine : Copy → Bool) (s : State) : State :=
  s.cores.foldl (fun s k => (k.2.eddy.filter mine).foldl (fun s e => finishTile k.1 e s) s) s

/-- A copy stands at its stop unit: at the end of a tile, and, for a step, with its result written (R247). -/
def tileWhole (e : Copy) : Bool :=
  e.fence || e.moved || e.stopped || decide (e.unit % max 1 (4096 / max 1 e.shp.esz) = 0)
def stepWhole (e : Copy) : Bool := !(e.isStep && e.moved && !e.stopped)

/-- COPY_COMPLETION: the i-th entry of a core's queue goes on to its end. -/
def execCopyCompletion (core i : Nat) (s : State) : Out := .next (runCopy false core i (2 ^ 32) s)

/-- COPY_DEFERRED_FAULT: the entry goes on to the element whose access faults, and stops there. -/
def execCopyDeferredFault (core i : Nat) (s : State) : Out :=
  let s' := runCopy false core i (2 ^ 32) s
  .next (if ((s'.core core).eddy[i]?.getD {}).stopped then s' else s)

end Sys2Proof.Machine
end

