-- ==== Sys2Proof/Machine/Delta.lean ====
section
/-!
DEFINITION. Delta and the switch: COLLSET (R311 to R313, R395), Confluence slots (R316, R317), collective flits
(R309, R314, R315, R326), remote writes and their ACKs, arrived-tile queues (R318, R319), ports (R310),
residency and departure notices (R256, R268).
-/

namespace Sys2Proof.Machine

/-! ## Registered groups and instances -/

def collOf (s : State) (c gid : Nat) : CollGroup := (s.ctx c).colls.at gid
def modColl (c gid : Nat) (f : CollGroup → CollGroup) (s : State) : State :=
  s.modCtx c (fun x => { x with colls := x.colls.put gid (f (x.colls.at gid)) })

/-- The instance of a context for a group and sequence number. -/
def findInst (s : State) (c gid : Nat) (seq : BitVec 16) : Option Nat :=
  (s.insts.find? (fun p => decide (p.2.ctx = c) && decide (p.2.gid = gid) && decide (p.2.seq = seq)
    && (p.2.live || p.2.waiting))).map (·.1)

/-- Whether a sequence number lies before NEXTSEQ: its instance has been opened. -/
def wasOpened (s : State) (c gid : Nat) (seq : BitVec 16) : Bool :=
  decide (((collOf s c gid).nextSeq - seq - 1).toNat < 2 ^ 15)

/-- Takes a flit that has been dealt with out of the inbox. -/
def taken (fl : Flit) (s : State) : State := { s with inbox := s.inbox.erase fl }
/-- A flit the link holds stays in the inbox. -/
def heldBack (fl : Flit) (s : State) : State := if fl ∈ s.inbox then s else { s with inbox := s.inbox ++ [fl] }

/-- The virtual channel of a flit type (R309). -/
def channelOf (typ : BitVec 8) : Nat := (typ.toNat - 1) / 2
/-- An earlier flit of its sender and channel is still to be taken: those arrive in the order sent, and a full channel
blocks no other (R309). -/
def behindFlit (s : State) (fl : Flit) : Bool :=
  (s.inbox.takeWhile (fun e => e ≠ fl)).any (fun e =>
    decide (e.src = fl.src) && decide (channelOf e.typ = channelOf fl.typ))
/-- A flit's event, in its order. -/
def inOrder (f : Flit → State → State) (fl : Flit) (s : State) : Out :=
  .next (if behindFlit s fl then heldBack fl s else f fl s)

/-- Opens an instance (R313, R326): NEXTSEQ rises, the previous one closes when its steps are done, flits
that came early are delivered, rank 0's switch compares its fields with the other members', and a departed member makes
it mismatched (R256, R314). -/
def openInst (i : Nat) (s : State) : State :=
  let x := s.inst i
  let s := s.modInst i (fun x => { x with live := true, waiting := false })
  let s := modColl x.ctx x.gid (fun g => { g with nextSeq := g.nextSeq + 1 }) s
  let old := (s.team x.team).inst
  let s := s.modTeam x.team (fun t => { t with inst := i })
  let s := if old = 0 then s else tryClose old (s.modInst old (fun y => { y with closing := true }))
  let mine := fun (f : Flit) => decide (f.ctx = x.ctx) && decide (infoGid f.info = x.gid) && decide (infoSeq f.info = x.seq)
  let s := { s with inbox := s.early.filter (fun f => mine f && decide (f.typ ≠ 7)) ++ s.inbox, early := s.early.filter (fun f => !mine f) }
  let s := tellSwitch x 2 s
  match (collOf s x.ctx x.gid).departed with
  | [] => s
  | r :: l => mismatch i 0 (l.foldl min r) s

/-- COLLSET's outcome: the status is written, then the flag clears (R312, R395). -/
def collDone (i status : Nat) (s : State) : State :=
  let x := s.inst i
  let s := s.modGrp x.agent (fun g =>
    ({ g.setS x.dst (bv 32 status) with board := g.board.filter (fun p => p.id ≠ i) }).clearFlag x.flag)
  if status = 0 then openInst i s else { s with insts := s.insts.drop i }

/-! ## COLLSET (R311 to R316, R395) -/

/-- The status a COLLSET meets at its own module (R313); `none` where it is to be opened. -/
def collStatus (s : State) (c : Nat) (w0 w1 : Nat) : Option Nat :=
  let g := collOf s c (bits w1 23 16)
  let alg := bits w1 15 14
  let kind := bits w1 11 8
  let op := bits w1 7 4
  if g.members.contains (s.boot.moduleNo, c) = false then some 2
  else if bits w1 31 24 ≠ 0 ∨ bits w1 13 12 ≠ 0 ∨ bits w1 3 0 ≠ 0 ∨ alg = 3 ∨ kind > 1 ∨ op > 0xB
      ∨ (kind = 0 ∧ op ≠ 0) ∨ (kind = 1 ∧ op = 0) ∨ (alg = 0 ∧ g.members.length > 16) then some 4
  else if bv 16 (bits w0 15 0) ≠ g.nextSeq then some 3
  else none

def collsetK (o : Body) (s : State) : Res :=
  let a := s.cur.agent
  let g := s.me
  let c := s.ctxNo a
  let w0 := (g.opv true o.a 0).toNat % 2 ^ 32
  let w1 := (g.opv true o.a 0).toNat / 2 ^ 32
  if s.actMask o = 0 then .ok s
  else if s.isHw then .ok (s.modMe (fun g => g.wr false o.dst 0 2))
  else match collStatus s c w0 w1 with
    | some n => .ok (s.modMe (fun g => g.wr false o.dst 0 (bv 64 n)))
    | none =>
      let gid := bits w1 23 16
      let cg := collOf s c gid
      let (i, s) := s.takeId
      let x : Inst := { ctx := c, gid := gid, seq := bv 16 (bits w0 15 0), tag := bv 16 (bits w0 31 16), alg := bits w1 15 14,
                        kind := bits w1 11 8, op := bits w1 7 4, agent := a, team := g.team, oppc := s.cur.pc, waiting := true,
                        dst := o.dst.num, flag := o.fset, members := cg.members,
                        rank := cg.members.idxOf (s.boot.moduleNo, c), stamp := s.gtime }
      let s := s.modInst i (fun _ => x)
      if x.alg ≠ 0 then .ok (collDone i 0 s)
      else
        let s := s.modMe (fun g => { g.setFlag o.fset s.cur.pc with
          board := g.board ++ [{ scalar := true, reg := o.dst.num, lanes := BitVec.allOnes 64, pc := s.cur.pc, id := i }] })
        -- a decision that came before the COLLSET, or a rank 0 that has departed; else rank 0's switch hears that it waits (R316)
        match s.early.find? (fun f => decide (f.typ = 7) && decide (f.ctx = c) && decide (infoGid f.info = gid) && decide (infoSeq f.info = x.seq)) with
        | some f => .ok (collDone i (fieldOf f.data 0 1) { s with early := s.early.filter (fun e => e ≠ f) })
        | none => .ok (if cg.departed.contains 0 then collDone i 0 s else tellSwitch x 3 s)
def execCollset (o : Body) (s : State) : Out := perform 0x84 o (collsetK o) s

/-! ## Slots (R316) -/

/-- An instance whose COLLSET waits and whose slot request rank 0 has still to send. -/
def asksSlot (x : Inst) : Bool := x.waiting && decide (x.rank = 0) && !x.requested

/-- Rank 0's waiting COLLSET sends its request, with the COLLSET's stamp, to its switch. -/
def requestSlot (i : Nat) (s : State) : State :=
  let x := s.inst i
  { s.modInst i (fun x => { x with requested := true }) with
    slotReqs := s.slotReqs ++ [{ stamp := x.stamp, part := (s.ctx x.ctx).part, ctx := x.ctx, gid := x.gid, seq := x.seq }] }

/-- SLOT_REQUEST of a context's group. -/
def execSlotRequest (ctx gid : Nat) (s : State) : Out :=
  .next (match s.insts.find? (fun p => asksSlot p.2 && decide (p.2.ctx = ctx) && decide (p.2.gid = gid)) with
    | some (i, _) => requestSlot i s
    | none => s)

/-- Whether a module is this one or wired to a port that is up (R313). -/
def oneHop (s : State) (m : Nat) : Bool :=
  decide (m = s.boot.moduleNo) || s.boot.wires.any (fun p => decide (p.2 = m + 1) && s.boot.ports.getLsbD p.1)

/-- What the switch holds of an instance. -/
def findSlot (s : State) (c gid : Nat) (seq : BitVec 16) : Option Nat :=
  (s.slots.find? (fun p => decide (p.2.ctx = c) && decide (p.2.gid = gid) && decide (p.2.seq = seq))).map (·.1)

/-- One request decided: granted, refused, or BADARG; the decision goes to every member. -/
def decideSlot (r : SlotReq) (s : State) : State :=
  let ms := (collOf s r.ctx r.gid).members
  let status := if !ms.all (fun m => oneHop s m.1) then 4
    else if (s.slots.filter (fun p => p.2.used && !p.2.ring)).length < Config.slots then 0 else 1
  let (n, s) := s.takeId
  let s := { s with slotReqs := s.slotReqs.filter (fun q => q ≠ r) }
  let i := (findSlot s r.ctx r.gid r.seq).getD n
  let s := if status = 0 then
      { s with slots := s.slots.put i { s.slots.at i with
          used := true, ring := false, refused := false, module_ := s.boot.moduleNo, ctx := r.ctx, gid := r.gid, seq := r.seq, members := ms } }
    else { s with slots := s.slots.put i { s.slots.at i with
             used := true, ring := true, refused := true, module_ := s.boot.moduleNo, ctx := r.ctx, gid := r.gid, seq := r.seq,
             members := ms } }
  ms.foldl (fun s m => send { typ := 7, dst := m.1, ctx := m.2, info := infoOf r.gid r.seq 0 0 4, data := leBytes 1 status } s) s

/-- A member that will not open a granted instance tells the switch that it is closed (R316). -/
def refuseOpen (fl : Flit) (s : State) : State :=
  let ms := (collOf s fl.ctx (infoGid fl.info)).members
  if fieldOf fl.data 0 1 = 0 then
    tellSwitch { gid := infoGid fl.info, seq := infoSeq fl.info, members := ms, rank := ms.idxOf (s.boot.moduleNo, fl.ctx) } 1 s
  else s

/-- A flit is buffered for a stopped context, stamped VCLKSAVE, or held by the link where the buffer is full (R267). -/
def bufferFlit (fl : Flit) (s : State) : State :=
  if s.buffered.any (fun e => e.1 = fl) then taken fl s
  else if s.buffered.length ≥ Config.deltaBuffer then heldBack fl s
  else taken fl { s with buffered := s.buffered ++ [(fl, (s.vclk fl.ctx).toNat)] }

/-- A decision's NOTICE reaches a member: its waiting COLLSET returns, or the notice waits for it, or for a stopped
context's release. -/
def decided (fl : Flit) (s : State) : State :=
  if (s.ctx fl.ctx).st = .free ∨ (s.ctx fl.ctx).st = .lost then refuseOpen fl (taken fl s)
  else if (s.ctx fl.ctx).vrun = false then bufferFlit fl s
  else
    let s := taken fl s
    match findInst s fl.ctx (infoGid fl.info) (infoSeq fl.info) with
    | some i => if (s.inst i).waiting then collDone i (fieldOf fl.data 0 1) s else s
    | none => { s with early := s.early ++ [fl] }

/-- Every slot request due is decided: at its stamp + 500 gt, by stamp, partition and context. -/
def decideSlots (s : State) : State :=
  let due := s.slotReqs.filter (fun r => decide (r.stamp + 500 ≤ s.gtime))
  let le := fun (a b : SlotReq) => decide (a.stamp < b.stamp) || (decide (a.stamp = b.stamp)
    && (decide (a.part < b.part) || (decide (a.part = b.part) && decide (a.ctx ≤ b.ctx))))
  (sortBy le due).foldl (fun s r => decideSlot r s) s

/-- SLOT_DECISION: requests that are due are decided, and notices that have come in are delivered, each in its order
(R309). -/
def execSlotDecision (s : State) : Out :=
  let s := decideSlots s
  .next ((s.inbox.filter (fun f => decide (f.typ = 7) && decide (infoCode f.info = 4))).foldl
    (fun s f => if behindFlit s f then s else decided f s) s)

/-! ## Folding contributions (R315, R317, R120, R121, R231) -/

/-- The merge steps of summaries in ascending rank, from a summary that so many steps have made: the summary so far, the steps
made, and the rank whose header failed (R218, R231). -/
def foldSumms (n : Nat) (p : List Byte) (r : List (List Byte)) : List Byte × Nat × Option Nat :=
  let kind := fieldOf p 0 1
  let good (b : List Byte) : Bool := decide (1 ≤ kind ∧ kind ≤ 3) && headerOk kind b
  r.foldl (fun (x : List Byte × Nat × Option Nat) q =>
    if x.2.2.isSome then x
    else if !good x.1 then (x.1, x.2.1, some 0)
    else if !good q then (x.1, x.2.1, some (x.2.1 + 1))
    else ((smerge (summOf x.1) (summOf q)).bytes, x.2.1 + 1, none)) (p, n, none)

/-- The fold of contributions in ascending rank, of summaries from the merge steps that have been made on; where a summary
header failed, the merge step and the rank, with no bytes where no step was made. -/
def foldContribs (op esz : Nat) (from_ : Nat × List Byte) (ps : List (List Byte)) : List Byte × Option (Nat × Nat) :=
  match ps with
  | [] => ([], none)
  | p :: r =>
    if op = 0xA then
      let t := if from_.1 = 0 then foldSumms 0 p r else foldSumms from_.1 from_.2 (r.drop from_.1)
      (if t.2.2.isSome && decide (t.2.1 = 0) then [] else t.1, t.2.2.map (fun k => (t.2.1, k)))
    else if op = 0xB then
      let ws := fun (l : List Byte) => (List.range (l.length / 4)).map (fun k => fieldOf l (4 * k) 4)
      ((smx3Fold (ps.map ws)).flatMap (leBytes 4), none)
    else
      ((List.range (p.length / esz)).flatMap (fun k => leBytes esz (foldElems op (ps.map (fun q => fieldOf q (k * esz) esz)))), none)

/-- RESULT to every member of a list. -/
def sendResults (ms : List (Nat × Nat)) (gid : Nat) (seq : BitVec 16) (step code : Nat) (data : List Byte) (s : State) : State :=
  ms.foldl (fun s m => send { typ := 6, dst := m.1, ctx := m.2, info := infoOf gid seq step 0 code, data := data } s) s

/-- A slot all of whose members' instances have closed is released (R316). -/
def releaseSlots (s : State) : State :=
  { s with slots := s.slots.filter (fun p => !(List.range p.2.members.length).all (fun r => p.2.closed.contains r)) }

/-- Every member's instance mismatches: the unit and the rank of its record (R310, R314, R315). -/
def sendMismatch (x : Slot) (unit rank : Nat) (s : State) : State :=
  sendResults x.members x.gid x.seq unit 1 (leBytes 4 unit ++ leBytes 4 rank) s

/-- The instances of the members that have opened, or of those that wait beside an open one of rank 0, differ (R314). A
refused request leaves the members to open it otherwise (R316). -/
def Slot.differs (x : Slot) : Bool :=
  let zero := x.descs.at 0
  x.descs.any (fun p => x.descs.any (fun q => p.2 ≠ q.2))
    || (decide (zero ≠ []) && !x.refused && x.asking.any (fun p => p.2 ≠ zero))

/-- A missing contribution of a step to come from a rank that no route reaches (R310). -/
def lostRank (s : State) (x : Slot) (k n : Nat) : Option Nat :=
  (List.range n).find? (fun r => decide (x.contribs.at (64 * k + r) = []) && !reaches s (x.members.getD r (0, 0)).1)

/-- A contribution, or the opening or close of a member's instance, at the switch. A step whose summary fold failed keeps
its contributions and the merge steps made, for the member that contributes anew (R245). -/
def atSwitch (fl : Flit) (s : State) : State :=
  let gid := infoGid fl.info
  let seq := infoSeq fl.info
  let s := taken fl s
  let (i, s) := match findSlot s fl.ctx gid seq with
    | some i => (i, s)
    | none =>
      let (i, s) := s.takeId
      (i, { s with slots := s.slots.put i { used := true, ring := true, module_ := s.boot.moduleNo, ctx := fl.ctx, gid := gid, seq := seq,
                                            members := (collOf s fl.ctx gid).members } })
  let upd := fun (f : Slot → Slot) (s : State) => { s with slots := s.slots.put i (f (s.slots.at i)) }
  if infoCode fl.info = 1 then releaseSlots (upd (fun x => { x with closed := (infoRank fl.info :: x.closed).eraseDups }) s)
  else if infoCode fl.info = 2 ∨ infoCode fl.info = 3 then
    let r := infoRank fl.info
    let s := upd (fun x => if infoCode fl.info = 2 then { x with descs := x.descs.put r fl.data, asking := x.asking.drop r }
                           else { x with asking := x.asking.put r fl.data }) s
    let x := s.slots.at i
    if x.differs then sendMismatch x 0 0x7F s else s
  else
    let k := fieldOf fl.data 17 8
    let s := upd (fun x => { x with contribs := x.contribs.put (64 * k + infoRank fl.info) fl.data }) s
    let x := s.slots.at i
    let n := fieldOf fl.data 0 1
    let got := (List.range n).filterMap (fun r => let d := x.contribs.at (64 * k + r); if d = [] then none else some d)
    let clear := upd (fun x => { x with contribs := x.contribs.filter (fun p => p.1 / 64 ≠ k), merged := x.merged.drop k })
    let first := got.headD []
    if got.any (fun d => sub d 1 3 ≠ sub first 1 3) then sendMismatch x 0 0x7F s
    else if got.any (fun d => sub d 4 5 ≠ sub first 4 5) then sendMismatch x k 0x7F s
    else if got.length < n then match lostRank s x k n with | some r => sendMismatch x k r s | none => s
    else
      let r := foldContribs (bits (fieldOf first 3 1) 5 2) (fieldOf first 4 1) (x.merged.at k) (got.map (fun d => d.drop 25))
      let e := r.2.getD (0xFFFFFFFF, 0)
      sendResults x.members gid seq k 0 (leBytes 4 e.1 ++ leBytes 4 e.2 ++ sub (got.getD e.2 []) 9 8 ++ r.1)
        (if r.2.isSome then upd (fun x => { x with merged := x.merged.put k (e.1, r.1) }) s else clear s)

/-- What is delivered to a context is stamped with its VCLK; what was buffered keeps the stamp it got then (R267). -/
def stamp (m : Message) (c : Nat) (s : State) : State :=
  match s.buffered.find? (fun e => m = .flit e.1) with
  | some e => { s with stamped := s.stamped ++ [(m, e.2)], buffered := s.buffered.erase e }
  | none => { s with stamped := s.stamped ++ [(m, (s.vclk c).toNat)] }

/-- CONTRIB: what is for rank 0's stopped context waits for its release (R267). -/
def contribFlit (fl : Flit) (s : State) : State :=
  let x := s.ctx fl.ctx
  if infoCode fl.info = 1 then atSwitch fl s
  else if x.st = .free ∨ x.st = .lost then taken fl { s with discarded := s.discarded + 1 }
  else if x.vrun = false then bufferFlit fl s
  else atSwitch fl (stamp (.flit fl) fl.ctx s)

def execContrib (fl : Flit) (s : State) : Out := inOrder contribFlit fl s

/-! ## Flits for a context (R267, R309, R317, R326) -/

/-- Where a flit for a context goes. -/
inductive Way where
  | drop | buffer | early | hold | now (i : Option Nat)
  deriving DecidableEq, Repr, Inhabited

/-- A step of the context stands with a result it could not write: the link holds further flits (R317). -/
def linkHeld (s : State) (c : Nat) : Bool :=
  s.cores.any (fun p => p.2.eddy.any (fun e => decide (e.ctx = c) && e.stopped && e.res.isSome))

def wayOf (s : State) (fl : Flit) (stopBuffers : Bool) : Way :=
  let x := s.ctx fl.ctx
  if x.st = .free ∨ x.st = .lost then .drop
  else if linkHeld s fl.ctx then .hold
  else if stopBuffers && !x.vrun then .buffer
  else match findInst s fl.ctx (infoGid fl.info) (infoSeq fl.info) with
    | some i => if (s.inst i).live then .now (some i) else .early
    | none => if wasOpened s fl.ctx (infoGid fl.info) (infoSeq fl.info) then .now none else .early

/-- Flits held for the same instance, which the context has not opened yet: they count against the entries of its
arrived-tile queue (R326). -/
def earlyOf (s : State) (fl : Flit) : List Flit :=
  s.early.filter (fun f => decide (f.typ ≠ 7) && decide (f.ctx = fl.ctx) && decide (infoGid f.info = infoGid fl.info)
    && decide (infoSeq f.info = infoSeq fl.info))

/-- Puts a flit where it waits. -/
def waitFlit (fl : Flit) (w : Way) (s : State) : State :=
  match w with
  | .drop => taken fl { s with discarded := s.discarded + 1, buffered := s.buffered.filter (fun e => e.1 ≠ fl) }
  | .buffer => bufferFlit fl s
  | .early => if (earlyOf s fl).length ≥ Config.tileQueue then heldBack fl s else taken fl { s with early := s.early ++ [fl] }
  | .hold => heldBack fl s
  | .now _ => s

/-! ## Remote writes (R175, R245, R267, R309, R318) -/

/-- A peer's write to a context's memory: the fault, `none` for a wait, or the state. -/
def peerWrite (c : Nat) (va : DWord) (bs : List Byte) (s : State) : Except (Option (BitVec 8 × DWord)) State :=
  let r := (pieces va.toNat bs.length).foldl (fun (r : Except (Option (BitVec 8 × DWord)) (List (Nat × Trans × Nat))) p =>
    match r with
    | .error e => .error e
    | .ok l =>
      let a := bv 64 p.1
      if canonical a = false then .error (some (cACCESS, a))
      else match translate s c { w := true } a with
        | .ok t => .ok (l ++ [(p.1 - va.toNat, t, p.2)])
        | .own code => .error (some (code, a))
        | .part _ => .error none) (.ok [])
  match r with
  | .error e => .error e
  | .ok l => .ok (l.foldl (fun s p =>
      let b := sub bs p.1 p.2.2
      raceEmpty p.2.1.key b.length (l2Write none p.2.1.conf p.2.1.key b (markAD c true p.2.1 s))) s)

/-- A write of the instance's own member to itself reaches the L1 copies of its team's core (R161). -/
def patchOwn (x : Inst) (c : Nat) (va : DWord) (bs : List Byte) (s : State) : State :=
  (pieces va.toNat bs.length).foldl (fun s p =>
    match translate s c { w := true } (bv 64 p.1) with
    | .ok t => patchUnder (s.team x.team).core t.key (sub bs (p.1 - va.toNat) p.2) s
    | _ => s) s

/-- ACK of a WRITE: the last element's, with the fault if there is one. -/
def sendAck (fl : Flit) (last : Bool) (fault : Option (BitVec 8 × DWord)) (s : State) : State :=
  let ms := (collOf s fl.ctx (infoGid fl.info)).members
  let me := ms.idxOf (s.boot.moduleNo, fl.ctx)
  send { typ := 4, dst := fl.src, ctx := (ms.getD (infoRank fl.info) (0, 0)).2,
         info := infoOf (infoGid fl.info) (infoSeq fl.info) (infoStep fl.info) me 0,
         data := leBytes 1 (if last then 1 else 0) ++ leBytes 1 ((fault.map (fun f => f.1.toNat)).getD 0)
           ++ leBytes 4 (fieldOf fl.data 8 4) ++ leBytes 8 ((fault.map (fun f => f.2.toNat)).getD 0) } s

/-- The instances of a context for a group and sequence number that a mismatch concerns: also one that has closed, or that
waits for the slot decision. -/
def mismatched (s : State) (fl : Flit) : List Nat :=
  (s.insts.filter (fun p => decide (p.2.ctx = fl.ctx) && decide (p.2.gid = infoGid fl.info) && decide (p.2.seq = infoSeq fl.info)
    && (p.2.live || p.2.closed || p.2.waiting))).map (·.1)

/-- WRITE: performed at once, and acknowledged. When the last of a step's writes has been performed, its
tile is due (R318). -/
def writeFlit (fl : Flit) (s : State) : State :=
  match wayOf s fl false with
  | .now i =>
    let flags := fieldOf fl.data 12 1
    let key := (infoRank fl.info, infoStep fl.info)
    let x := match i with | some n => s.inst n | none => {}
    if i.isSome && decide (x.tiles.length + x.arrivals.length ≥ Config.tileQueue) && bit1 flags 2 then heldBack fl s
    else if (mismatched s fl).any (fun n => (s.inst n).mismatch) || (i.isSome && decide (sub fl.data 13 3 ≠ x.desc)) then
      let s := stamp (.flit fl) fl.ctx (taken fl s)
      let s := if i.isNone || x.mismatch then s
        else sendMismatch { members := x.members, gid := x.gid, seq := x.seq } 0 0x7F (mismatch (i.getD 0) 0 0x7F s)
      sendAck fl (bit1 flags 1) none s
    else match peerWrite fl.ctx (bv 64 (fieldOf fl.data 0 8)) (fl.data.drop 16) s with
      | .error none => heldBack fl s
      | r =>
        let s := stamp (.flit fl) fl.ctx (taken fl s)
        let own := decide (fl.src = s.boot.moduleNo) && decide (infoRank fl.info = x.rank)
        let (fault, s) : Option (BitVec 8 × DWord) × State := match r with
          | .ok s' =>
            let s' := if i.isSome && own then patchOwn x fl.ctx (bv 64 (fieldOf fl.data 0 8)) (fl.data.drop 16) s' else s'
            (none, { s' with inbox := s.inbox, stamped := s.stamped })
          | .error e => (e, s)
        let s := match i with
          | none => s
          | some n => s.modInst n (fun x =>
              let failed := if bit1 flags 0 then x.failed.filter (fun p => p ≠ key) else x.failed
              let failed := if fault.isSome then (key :: failed).eraseDups else failed
              let push := bit1 flags 1 && bit1 flags 2 && !failed.contains key && !x.pushed.contains key && !x.arrivals.contains key
              { x with failed := failed, arrivals := if push then x.arrivals ++ [key] else x.arrivals })
        sendAck fl (bit1 flags 1) fault s
  | w => waitFlit fl w s

def execWrite (fl : Flit) (s : State) : Out := inOrder writeFlit fl s

/-- ACK: of a WRITE, or of a residency notice (R268). A member's acknowledgements come in the order of the notices (R309), so
that one which is late is an earlier notice's. -/
def ackFlit (fl : Flit) (s : State) : State :=
  if infoCode fl.info = 10 then taken fl s
  else if infoCode fl.info = 9 then
    let p := (infoGid fl.info, infoRank fl.info)
    taken fl (s.modCtx fl.ctx (fun x =>
      if x.lateAcks.contains p then { x with lateAcks := x.lateAcks.erase p }
      else { x with noticeAcks := x.noticeAcks.filter (fun q => q ≠ p) }))
  else match wayOf s fl true with
    | .now (some i) =>
      let s := stamp (.flit fl) fl.ctx (taken fl s)
      let k := (s.team (s.inst i).team).core
      let r := infoRank fl.info
      let n := fieldOf fl.data 2 4
      match (s.core k).eddy.find? (fun e =>
          decide (e.inst = i) && decide (e.step % 2 ^ 24 = infoStep fl.info) && !e.isStep && e.acks.contains (r, n)) with
      | none => s
      | some e =>
        let cause := bv 8 (fieldOf fl.data 1 1)
        let e := if cause = 0 then e else { e with fails := e.fails ++ [(n, r, cause, bv 64 (fieldOf fl.data 6 8))] }
        let e := { e with acks := e.acks.erase (r, n) }
        let s := modCopy k e.id (fun _ => e) s
        if e.moved then remoteEnd k e s else s
    | .now none => taken fl s
    | .early => taken fl s
    | w => waitFlit fl w s
def execAck (fl : Flit) (s : State) : Out := inOrder ackFlit fl s

/-- A mismatch that the switch tells. -/
def failInsts (fl : Flit) (s : State) : State :=
  (mismatched s fl).foldl (fun s i =>
    mismatch i (fieldOf fl.data 0 4) (fieldOf fl.data 4 4) (if (s.inst i).waiting then collDone i 0 s else s)) s

/-- RESULT: written to the member's DST (R317), or a mismatch (R314, R315), which opens an instance that still waits for the
slot decision: its steps complete at once. -/
def resultFlit (fl : Flit) (s : State) : State :=
  match wayOf s fl true with
  | .now i =>
    let s := stamp (.flit fl) fl.ctx (taken fl s)
    if infoCode fl.info = 1 then failInsts fl s
    else match i with
      | none => s
      | some i =>
        let k := (s.team (s.inst i).team).core
        match (s.core k).eddy.find? (fun e => decide (e.inst = i) && decide (e.step % 2 ^ 24 = infoStep fl.info) && e.isStep && e.moved) with
        | none => s
        | some e =>
          let err := fieldOf fl.data 0 4
          let bs := fl.data.drop 16
          let e := { e with
            res := some bs
            runit := 0
            foldErr := if err = 0xFFFFFFFF then none else some (err, fieldOf fl.data 4 4, bv 64 (fieldOf fl.data 8 8)) }
          let s := modCopy k e.id (fun _ => e) s
          if e.stopped then s else resultStep false k e bs s
  | w => if infoCode fl.info = 1 ∧ w = .early ∧ mismatched s fl ≠ [] then failInsts fl (stamp (.flit fl) fl.ctx (taken fl s))
         else waitFlit fl w s
def execResult (fl : Flit) (s : State) : Out := inOrder resultFlit fl s

/-- A read of a context's memory from outside, by a host, a debugger or a peer: an event of R135 on its lines. No bytes
where the address does not translate. -/
def outsideRead (c addr n : Nat) (s : State) : Option (List Byte) × State :=
  (pieces addr n).foldl (fun (r : Option (List Byte) × State) p =>
    match r.1 with
    | none => r
    | some l =>
      if canonical (bv 64 p.1) = false then (none, r.2)
      else match translate r.2 c { r := true } (bv 64 p.1) with
        | .ok t => let q := l2Read none t.conf t.key p.2 r.2; (some (l ++ q.1), q.2)
        | _ => (none, r.2)) (some [], s)

/-- READ: answered with the bytes. INFO is the address. -/
def readFlit (fl : Flit) (s : State) : State :=
  let r := outsideRead fl.ctx fl.info.toNat (min (fieldOf fl.data 0 4) 224) s
  send { typ := 3, dst := fl.src, ctx := fl.ctx, info := fl.info, data := r.1.getD [] } (taken fl r.2)
def execRead (fl : Flit) (s : State) : Out := inOrder readFlit fl s

/-- REPLY: completes a remote read; no operation of this module starts one, so none waits for it. -/
def execReply (fl : Flit) (s : State) : Out := inOrder taken fl s

/-! ## Arrived-tile queues (R318, R319, R439) -/

/-- Serves waiting QPOPs from the queue, oldest first; each is an acquire at DEVICE scope. -/
def serveQ (i : Nat) : Nat → State → State
  | 0, s => s
  | n + 1, s =>
    let x := s.inst i
    match x.tiles, x.qwait with
    | t :: ts, (a, m, d, b) :: ws =>
      let here := m &&& (s.grp a).lanesWith (fun y => match y with | .qpop e _ => decide (e = d) | _ => false)
      let s := s.modInst i (fun x => { x with qwait := ws, tiles := if here = 0 then x.tiles else ts })
      if here = 0 then serveQ i n s
      else
        let s := s.modGrp a (fun g => { (g.setS d t).wake here with board := g.board.filter (fun p => p.id ≠ b) })
        serveQ i n (dropL1 (s.coreNo a) s)
    | _, _ => s

/-- The tile of a step of `rank` whose writes are performed enters the queue, when the context is resident and the queue
has room (R267, R318). -/
def pushTile (inst rank : Nat) (s : State) : State :=
  let x := s.inst inst
  match x.arrivals.find? (fun p => p.1 = rank) with
    | none => s
    | some p =>
      if (s.ctx x.ctx).vrun = false ∨ x.tiles.length ≥ Config.tileQueue then s
      else
        let w := bv 32 (p.1 * 2 ^ 24 + p.2 % 2 ^ 24)
        let s := (stamp (.tile inst w) x.ctx s).modInst inst (fun x => { x with
          arrivals := x.arrivals.filter (fun q => q ≠ p), pushed := x.pushed.filter (fun q => q.1 ≠ p.1) ++ [p],
          tiles := x.tiles ++ [w] })
        serveQ inst ((s.inst inst).qwait.length + 1) s

/-- ARRIVED_TILE_PUSH. -/
def execArrivedTilePush (inst rank : Nat) (s : State) : Out := .next (pushTile inst rank s)

/-- The current EXCHANGE instance of the issuer's team. -/
def exchange (s : State) : Option (Nat × Inst) :=
  if s.isHw then none
  else match curInst s s.me.team with
    | some (i, x) => if x.kind = 0 then some (i, x) else none
    | none => none

def qpopK (o : Body) (s : State) : Res :=
  let a := s.cur.agent
  let m := s.actMask o
  if m = 0 then .ok s
  else match exchange s with
    | none => .trap { code := cACCESS } s
    | some (i, x) =>
      let n := (s.me.opv false o.a 0).toNat
      match x.tiles with
      | t :: ts =>
        let s := s.modInst i (fun x => { x with tiles := ts })
        .ok (dropL1 (s.coreNo a) (s.modMe (fun g => g.wr false o.dst 0 (t.zeroExtend 64))))
      | [] =>
        if n = 0 then .ok (s.modMe (fun g => g.wr false o.dst 0 0xFFFFFFFF))
        else
          let (id, s) := s.takeId
          let s := waitAt m (.qpop o.dst.num (if n = 0xFFFFFFFF then none else some n)) s
          let s := s.modInst i (fun x => { x with qwait := x.qwait ++ [(a, m, o.dst.num, id)] })
          unlessWaits (s.modMe (fun g => { g with board := g.board ++
            [{ scalar := true, reg := o.dst.num, lanes := BitVec.allOnes 64, pc := s.cur.pc, id := id }] }))
def execQpop (o : Body) (s : State) : Out := perform 0x81 o (qpopK o) s

def qpushK (o : Body) (s : State) : Res :=
  let w := (s.me.opv false o.a 0).extractLsb' 0 32
  if s.actMask o = 0 then .ok s
  else match exchange s with
    | none => .trap { code := cACCESS } s
    | some (i, x) =>
      if w = 0xFFFFFFFF then .trap { code := cACCESS } s
      else if x.tiles.length ≥ Config.tileQueue || !coreQuiet s (s.coreNo s.cur.agent) then .hold
      else
        let s := s.modInst i (fun x => { x with tiles := x.tiles ++ [w] })
        .ok (serveQ i (x.qwait.length + 1) s)
def execQpush (o : Body) (s : State) : Out := perform 0x82 o (qpushK o) s

/-- QPOP_TIMEOUT: a QPOP of the group whose time-out has run out writes 0xFFFF_FFFF, whichever instance it waits on. -/
def execQpopTimeout (g : Nat) (s : State) : Out :=
  .next ((s.insts.flatMap (fun p => p.2.qwait.map (fun w => (p.1, w)))).foldl (fun s w =>
    let (i, a, m, d, b) := w
    let here := m &&& (s.grp a).lanesWith (fun y => match y with | .qpop e (some 0) => decide (e = d) | _ => false)
    if a ≠ g ∨ here = 0 then s
    else
      let s := s.modInst i (fun x => { x with qwait := x.qwait.filter (fun v => v ≠ w.2) })
      s.modGrp a (fun g => { (g.setS d 0xFFFFFFFF).wake here with board := g.board.filter (fun p => p.id ≠ b) })) s)

/-! ## Ports (R310) -/

/-- Steps at this module's switch that a rank which no route reaches still has to contribute to fail at every member. -/
def failSteps (s : State) : State :=
  s.slots.foldl (fun s p =>
    let x := p.2
    match (x.contribs.map (fun e => e.1 / 64)).eraseDups.filterMap (fun k =>
        (lostRank s x k x.members.length).map (fun r => (k, r))) with
    | [] => s
    | (k, r) :: _ => sendMismatch x k r s) s

/-- What a port that went down leaves unreachable fails: steps with COLLMISMATCH, remote writes with a
deferred ACCESS. -/
def failUnreachable (s : State) : State :=
  (failSteps s).insts.foldl (fun s p =>
    let (i, x) := p
    let lost := (List.range x.members.length).filter (fun r => !reaches s (x.members.getD r (0, 0)).1)
    if lost = [] ∨ x.live = false then s
    else
      let k := (s.team x.team).core
      let es := (s.core k).eddy.filter (fun e => decide (e.inst = i) && !e.fence)
      let s := match es.find? (fun e => e.isStep && e.moved && e.res.isNone) with
        | some e => if lost.contains 0 then mismatch i e.step 0 s else s
        | none => s
      (es.filter (fun e => !e.isStep && e.acks.any (fun w => lost.contains w.1))).foldl (fun s e =>
        let bad := e.acks.filter (fun w => lost.contains w.1)
        let e := { e with acks := e.acks.filter (fun w => !lost.contains w.1),
                          fails := e.fails ++ bad.map (fun w => (w.2, w.1, cACCESS, e.shp.addr false w.2)) }
        let s := modCopy k e.id (fun _ => e) s
        if e.moved then remoteEnd k e s else s) s) (failSteps s)

/-- NAK: a flit failed its check on a port and is replayed. The flit and its 16 replays having failed in a row takes the port
down. -/
def execNak (port : Nat) (s : State) : Out :=
  let n := s.replays.at port + 1
  if n ≤ 16 then .next { s with replays := s.replays.put port n }
  else
    .next (failUnreachable { s with
      replays := s.replays.put port n,
      boot := { s.boot with ports := s.boot.ports &&& ~~~ (1#16 <<< port), routes := s.boot.routes.filter (fun p => p.2 ≠ port + 1) } })

/-! ## Notices (R256, R268) -/

/-- Sends a notice of context `c` to every member of each of its groups. -/
def sendNotices (c code : Nat) (s : State) : State :=
  (s.ctx c).colls.foldl (fun s p =>
    let r := p.2.members.idxOf (s.boot.moduleNo, c)
    p.2.members.foldl (fun s m => send { typ := 7, dst := m.1, ctx := m.2, info := infoOf p.1 0 0 r code } s) s) s

/-- RESIDENCY_NOTICE: the sender's bit in the group as context `ctx` has it; the receipt is acknowledged. -/
def execResidencyNotice (ctx gid rank : Nat) (resident : Bool) (s : State) : Out :=
  let s := modColl ctx gid (fun g => { g with halted := if resident then g.halted.filter (fun r => r ≠ rank) else (rank :: g.halted).eraseDups }) s
  let ms := (collOf s ctx gid).members
  let (m, c) := ms.getD rank (0, 0)
  .next (if ms = [] then s
    else send { typ := 4, dst := m, ctx := c, info := infoOf gid 0 0 (ms.idxOf (s.boot.moduleNo, ctx)) (if resident then 10 else 9) } s)

/-- NOTICE_TIMEOUT: 100,000 gt after the notice, a member's missing acknowledgement is counted and no longer awaited; it may
still come. A member is a group and a rank of it, 64 × GID + rank. -/
def execNoticeTimeout (ctx member : Nat) (s : State) : Out :=
  let x := s.ctx ctx
  let p := (member / 64, member % 64)
  .next (if x.stop ≠ .none ∧ s.gtime ≥ x.noticeAt + 100000 ∧ x.noticeAcks.contains p = true then
      s.modCtx ctx (fun x => { x with noticeAcks := x.noticeAcks.filter (fun q => q ≠ p), lateAcks := x.lateAcks ++ [p], unreached := x.unreached + 1 })
    else s)

/-- What the departures that a context knows of do to its instances: pending collectives mismatch, and a wait for a
departed rank 0's slot decision ends with OPEN (R256, R316). -/
def applyDepartures (c : Nat) (s : State) : State :=
  (s.insts.filter (fun p => p.2.ctx = c)).foldl (fun s p =>
    let ds := (collOf s c p.2.gid).departed
    if p.2.waiting then (if ds.contains 0 then collDone p.1 0 s else s)
    else if p.2.live then match ds with
      | [] => s
      | r :: l => mismatch p.1 0 (l.foldl min r) s
    else s) s

/-- DEPARTURE_NOTICE: the rank's pending and later collectives on the group mismatch; a stopped context's at its
release (R267). -/
def execDepartureNotice (ctx gid rank : Nat) (s : State) : Out :=
  let s := modColl ctx gid (fun g => { g with departed := (rank :: g.departed).eraseDups }) s
  let s := if (s.ctx ctx).vrun then applyDepartures ctx s else s
  let s := { s with slots := s.slots.map (fun p =>
    if p.2.ctx = ctx ∧ p.2.gid = gid then (p.1, { p.2 with closed := (rank :: p.2.closed).eraseDups }) else p) }
  .next (releaseSlots s)

/-- A flit that a module takes in, by its type (R309). -/
def takeFlit (fl : Flit) (s : State) : State :=
  if fl.typ = 1 then writeFlit fl s else if fl.typ = 4 then ackFlit fl s else if fl.typ = 5 then contribFlit fl s
  else if fl.typ = 6 then resultFlit fl s else if fl.typ = 7 then decided fl s else taken fl s

/-- What waited for a context's release: buffered flits, which keep their stamps, mismatches owed, departures, and arrived tiles
(R267). -/
def releaseFlits (c : Nat) (s : State) : State :=
  let bs := (s.buffered.filter (fun f => decide (f.1.ctx = c) && !s.inbox.contains f.1)).map (·.1)
  let s := { s with inbox := bs ++ s.inbox }
  let s := bs.foldl (fun s f => if behindFlit s f then s else takeFlit f s) s
  let s := applyDepartures c (s.insts.foldl (fun s p =>
    if p.2.ctx = c then (match p.2.owed with | some o => mismatch p.1 o.1 o.2 s | none => s) else s) s)
  s.insts.foldl (fun s p => if p.2.ctx = c then p.2.arrivals.foldl (fun s a => pushTile p.1 a.1 s) s else s) s

/-- Awaited parties are all resident (R269): the ranks of a group of context `c`. -/
def allResident (s : State) (c gid : Nat) (ranks : List Nat) : Bool :=
  ranks.all (fun r => !((collOf s c gid).halted.contains r))

end Sys2Proof.Machine
end

