-- ==== Sys2Proof/Machine/Launch.lean ====
section
/-!
DEFINITION. Launches: host traffic under Weir (R293), kicks and command rings (R291, R321, R324),
completions (R323), kernel descriptors (R35, R36, R54), energy bookings (R300), placement (R48 to R53,
R322).
-/

namespace Sys2Proof.Machine

/-! ## Host traffic under Weir (R292, R293) -/

/-- A class of a partition is below its budget: 0 reads, 1 writes, 2 translation requests. -/
def weirOpen (s : State) (p cls : Nat) : Bool :=
  let w := s.weir.at (4 * p + cls)
  let budget := ~~~ w.unbudget
  decide (budget = BitVec.allOnes 24) || decide (w.count < budget.toNat)

/-- Charges units of a class: 256 bytes, or a request. -/
def weirCharge (p cls units : Nat) (s : State) : State :=
  let w := s.weir.at (4 * p + cls)
  { s with weir := s.weir.put (4 * p + cls) { w with count := w.count + units } }

/-- Units of a request of `n` bytes. -/
def units256 (n : Nat) : Nat := (n + 255) / 256

/-- The 4 KiB pages of a range of host addresses. -/
def hostPages (a n : Nat) : List Nat := (List.range ((a + n - 1) / 4096 + 1 - a / 4096)).map (fun i => a / 4096 + i)

/-- A page of a device's host memory that the module has no translation of is asked for by a translation request, and a page
that the host's memory does not hold by a PRI request after it, each where Weir admits it (R293, R320). -/
def askPage (p vd q : Nat) (s : State) : State :=
  let absent := s.hostAbsent.contains (vd, q)
  if s.atc.contains (vd, q) || s.hostWaits.contains (vd, q, true) || !weirOpen s p 2 then s
  else
    let s := weirCharge p 2 1 s
    if !absent then { s with atc := s.atc ++ [(vd, q)] }
    else { s with hostWaits := (vd, q, s.hostWaits.contains (vd, q, false)) :: s.hostWaits.filter (fun e => e ≠ (vd, q, false)) }

/-- Whether the module holds a device's translations of a range, after the requests for the pages it lacks. -/
def hostXlate (p vd a n : Nat) (s : State) : Bool × State :=
  let qs := hostPages a n
  let s := qs.foldl (fun s q => askPage p vd q (askPage p vd q s)) s
  (qs.all (fun q => s.atc.contains (vd, q)), s)

/-- A write to host memory that Weir admits, and the MSI-X signal after it. -/
def hostPut (w : HostWrite) (s : State) : State :=
  let s := (weirCharge w.part 1 (units256 w.data.length) s).wrN (hostKey w.vd w.iova) w.data
  match w.signal with
  | some m => { s with msix := s.msix ++ [m] }
  | none => s

/-- A partition's write to host memory: at once, or at the base die behind those that wait for a window. -/
def hostSend (w : HostWrite) (s : State) : State :=
  let held (s : State) : State := { s with hostWrites := s.hostWrites ++ [w] }
  if s.hostWrites.any (fun x => x.part = w.part) then held s
  else
    let r := hostXlate w.part w.vd w.iova w.data.length s
    if r.1 && weirOpen r.2 w.part 1 then hostPut w r.2 else held r.2

/-- Waiting writes that a window admits, oldest first. -/
def hostDrain (s : State) : State := s.hostWrites.foldl (fun s w => hostSend w s) { s with hostWrites := [] }

/-- WEIR_WINDOW: the next window begins; a count past its budget is charged to it (R293). -/
def execWeirWindow (s : State) : Out :=
  .next (if s.gtime < (s.weirWin + 1) * 10000 then s
    else
      let next (w : Weir) : Weir :=
        let b := (~~~ w.unbudget).toNat
        { w with count := if b = 0xFFFFFF then 0 else w.count - b }
      hostDrain { s with weirWin := s.weirWin + 1,
                         weir := mapV (fun _ w => next w) s.weir })

/-! ## Completions (R54, R323, R324) -/

def stDONE : Nat := 0
def stTOOLARGE : Nat := 1
def stBADDESC : Nat := 2
def stFAULTED : Nat := 3

/-- Writes a completion of a queue: the record of a FAULTED launch first, then the entry, then WRITTEN,
then the signal. CAUSE and the record of a confidential context go out under REPORT (R298). -/
def complete16 (c vd q : Nat) (tag : Word) (status : Nat) (cause : BitVec 8) (recAddr : DWord) (rec_ : List Byte)
    (s : State) : State :=
  let v := s.vq vd q
  let p := (s.ctx c).part
  if v.size = 0 then s
  else
    let conf := s.isConf c
    let key := (s.key (s.keySlotOf c)).report.getD 0
    let hide (bs : List Byte) : List Byte := if conf then enc key s.gtime bs else bs
    let out (a : Nat) (bs : List Byte) (sig : Option (Nat × Nat)) (s : State) : State :=
      hostSend { part := p, vd := vd, iova := a, data := bs, signal := sig } s
    let s := if status = stFAULTED ∧ recAddr ≠ 0 then out recAddr.toNat (hide rec_) none s else s
    let vclk := if conf then 0 else (s.vclk c).toNat
    let entry := leBytes 4 tag.toNat ++ leBytes 1 status ++ (if status = stFAULTED then hide [cause] else [0])
      ++ leBytes 2 0 ++ leBytes 8 vclk
    let s := out (v.cring.toNat + 16 + 16 * (v.written % v.size)) entry none s
    let s := out (v.cring.toNat + 4) (leBytes 4 (v.written + 1)) (some (vd, v.vector)) s
    s.modVQ vd q (fun v => { v with written := v.written + 1 })

/-- A grid whose launch has not completed. -/
def gridOpen (s : State) (g : Nat) : Bool := decide ((s.grid g).st = .held) || decide ((s.grid g).st = .placing)

/-- FENCE commands all of whose earlier launches have completed (R321). -/
def checkFences (c vd q : Nat) (s : State) : State :=
  let fs := (s.vq vd q).fences
  let due := fs.filter (fun f => f.2.all (fun g => !gridOpen s g))
  let s := s.modVQ vd q (fun v => { v with fences := fs.filter (fun f => !f.2.all (fun g => !gridOpen s g)) })
  due.foldl (fun s f => complete16 c vd q f.1 stDONE 0 0 [] s) s

/-! ## Kicks that a release replays (R291) -/

/-- Latched kicks of a context's devices go to their queues in ascending number, each stamped VCLKSAVE (R267, R291). -/
def replayKicks (c : Nat) (s : State) : State :=
  (s.vdevs.filter (fun p => p.2.bound = some c)).foldl (fun s p =>
    let qs := lanesOf p.2.pending
    let s := qs.foldl (fun s q => kickQueue p.1 q (p.2.kicks.at q) s) s
    s.modVDev p.1 (fun d => { d with
      pending := 0, stamps := qs.foldl (fun t q => t.put q (s.desc c 0x60 8)) d.stamps })) s

/-! ## Commands and descriptors (R35, R36, R44, R54, R321) -/

/-- Commands a queue's tail names and Delta has not read: up to the ring's size as counted, else modulo it. -/
def VQueue.left (v : VQueue) : Nat :=
  let d := (v.tail + 2 ^ 32 - v.head % 2 ^ 32) % 2 ^ 32
  if d ≤ v.size then d else d % v.size

/-- Where the next command of a queue stands. -/
def VQueue.slot (v : VQueue) : Nat := v.ring.toNat + 64 * (v.head % v.size)

/-- The context for which Delta may read a queue's next command. -/
def commandFor (s : State) (vd q : Nat) : Option Nat :=
  match (s.vdev vd).bound with
  | none => none
  | some c =>
    let v := s.vq vd q
    if v.size = 0 ∨ v.left = 0 ∨ enginesRun s c = false ∨ (s.part (s.ctx c).part).st ≠ .active then none else some c

/-- The next command of a queue, where its page is translated and Weir admits the read. -/
def nextCommand (s : State) (vd q : Nat) : Option (Nat × List Byte) :=
  (commandFor s vd q).bind (fun c =>
    let a := (s.vq vd q).slot
    if weirOpen s (s.ctx c).part 0 && (hostXlate (s.ctx c).part vd a 64 s).1 then some (c, s.rdN (hostKey vd a) 64) else none)

/-- The page of a queue's next command is asked for. -/
def askCommand (vd q : Nat) (s : State) : State :=
  match commandFor s vd q with
  | some c => (hostXlate (s.ctx c).part vd (s.vq vd q).slot 64 s).2
  | none => s

/-- A command has been read: READ rises (R324). -/
def commandRead (c vd q : Nat) (s : State) : State :=
  let v := s.vq vd q
  let p := (s.ctx c).part
  let s := (hostXlate p vd v.slot 64 s).2
  let s := weirCharge p 0 (units256 64) s
  let s := hostSend { part := p, vd := vd, iova := v.cring.toNat, data := leBytes 4 (v.read + 1) } s
  s.modVQ vd q (fun v => { v with head := (v.head + 1) % 2 ^ 32, read := (v.read + 1) % 2 ^ 32 })

def kernelOf (d : List Byte) : Kernel :=
  { pEntry := bv 64 (fieldOf d 0 8), cEntry := bv 64 (fieldOf d 8 8), sEntry := bv 64 (fieldOf d 0x10 8),
    scratch := fieldOf d 0x18 4, pcount := fieldOf d 0x1C 1, ccount := fieldOf d 0x1D 1,
    steer := bit1 (fieldOf d 0x1E 1) 0, coresident := bit1 (fieldOf d 0x1E 1) 1,
    pregs := fieldOf d 0x20 2, cregs := fieldOf d 0x22 2, tiles := fieldOf d 0x24 1, accs := fieldOf d 0x25 1,
    bars := fieldOf d 0x26 1 }

/-- An entry and a budget are as R35, R36 and R54 ask for a role of a count. -/
def entryBad (n : Nat) (e : DWord) : Bool :=
  if n = 0 then decide (e ≠ 0) else decide (e = 0) || decide (e.extractLsb' 0 2 ≠ 0#2)
def budgetBad (n b : Nat) : Bool := if n = 0 then decide (b ≠ 0) else decide (b % 8 ≠ 0) || decide (b < 8) || decide (b > 256)

def descBad (d : List Byte) : Bool :=
  let k := kernelOf d
  decide (k.pcount + k.ccount < 1) || decide (k.pcount + k.ccount > 16) || decide (fieldOf d 0x1E 1 > 3)
    || decide (fieldOf d 0x1F 1 ≠ 0) || decide (fieldOf d 0x27 25 ≠ 0)
    || entryBad k.pcount k.pEntry || entryBad k.ccount k.cEntry || entryBad (if k.steer then 1 else 0) k.sEntry
    || budgetBad k.pcount k.pregs || budgetBad k.ccount k.cregs
    || decide (k.scratch % 16 ≠ 0) || decide (k.scratch > Config.maxShare)
    || decide (k.tiles > 16) || decide (k.accs > 8) || decide (k.bars > 16)
    || (!k.steer && (decide (k.tiles ≠ 0) || decide (k.accs ≠ 0)))

/-- Fields of a LAUNCH command that complete BADDESC whatever the descriptor holds (R44, R54, R321). -/
def commandBad (w : List Byte) : Bool :=
  let x := fieldOf w 0x18 4
  let y := fieldOf w 0x1C 2
  let z := fieldOf w 0x1E 2
  decide (fieldOf w 1 1 > 7) || decide (fieldOf w 2 2 ≠ 0) || decide (fieldOf w 0x3C 4 ≠ 0)
    || decide (x < 1) || decide (x ≥ 2 ^ 31) || decide (y < 1) || decide (z < 1) || decide (x * y * z ≥ 2 ^ 32)
    || decide (fieldOf w 0x30 8 % 4096 ≠ 0) || decide (fieldOf w 0x38 4 > 2 ^ 24) || decide (fieldOf w 8 8 % 64 ≠ 0)

/-! ## What a team needs, and what is free (R49, R50) -/

/-- A team's groups and steer thread. -/
def Team.agents (t : Team) : List Nat := t.groups ++ t.steer.toList

def Kernel.groups (k : Kernel) : Nat := k.pcount + k.ccount
def Kernel.regBytes (k : Kernel) : Nat := (k.pcount * k.pregs + k.ccount * k.cregs) * 256

/-- Live teams of a core, and of a cluster. -/
def coreTeams (s : State) (k : Nat) : List (Nat × Team) := s.teams.filter (fun p => p.2.live && decide (p.2.core = k))
def clusterTeams (s : State) (c : Nat) : List (Nat × Team) := s.teams.filter (fun p => p.2.live && decide (p.2.core / 2 = c))
/-- Contexts that reside on a core: they have teams there, and their clocks run. -/
def coreCtxs (s : State) (k : Nat) : List Nat :=
  (((coreTeams s k).map (fun t => (s.grid t.2.grid).ctx)).eraseDups).filter (fun c => (s.ctx c).vrun)
/-- Groups that hold a slot of a core. -/
def coreGroups (s : State) (k : Nat) : List Group :=
  (coreTeams s k).flatMap (fun t => (t.2.groups.map s.grp).filter (fun g => decide (g.role ≠ .absent)))

/-- Tile registers and accumulators free in a cluster, and steer slots. -/
def freeTiles (s : State) (c : Nat) : Nat := Config.poolTiles - ((clusterTeams s c).map (fun t => popc t.2.tmask.toNat 16)).sum
def freeAccs (s : State) (c : Nat) : Nat := Config.poolAccs - ((clusterTeams s c).map (fun t => popc t.2.amask.toNat 8)).sum
def freeSteers (s : State) (c : Nat) : Nat := Config.steerSlots - ((clusterTeams s c).filter (fun t => t.2.steer.isSome)).length

def perUnit (cap need : Nat) (n : Nat) : Nat := if need = 0 then n else min n (cap / need)

/-- Teams an empty core could hold under every row but scratchpad. -/
def coreCap (k : Kernel) : Nat :=
  perUnit Config.coreBars k.bars (perUnit Config.regFile k.regBytes (perUnit Config.groupSlots k.groups Config.teamSlots))

/-- A team's scratchpad, in units of 256 bytes (R49). -/
def Kernel.scratchBytes (k : Kernel) : Nat := roundUp k.scratch 256

/-- `n` lowered to what a cluster with as many steer slots, tile registers and accumulators free can hold. -/
def clusterCap (k : Kernel) (steers tiles accs n : Nat) : Nat :=
  perUnit accs k.accs (perUnit tiles k.tiles (perUnit steers (if k.steer then 1 else 0) n))

/-- The share for `n` teams of a kernel, or for as many as the largest share holds (R50). -/
def shareOf (k : Kernel) (n : Nat) : Nat := roundUp (perUnit Config.maxShare k.scratch n * k.scratch) 65536

/-- The share set for a team on an empty core (R50). -/
def shareFor (s : State) (core : Nat) (k : Kernel) : Nat :=
  let c := core / 2
  shareOf k (clusterCap k (freeSteers s c) (freeTiles s c) (freeAccs s c) (coreCap k))

/-- A cluster is being cleared for a partition (R280, R282). -/
def clearingCluster (s : State) (c : Nat) : Bool :=
  s.parts.any (fun p => p.2.clearing.any (fun e => decide (e.1 = 0) && decide (e.2.1 = c)))

/-- Whether a team of a kernel fits a core now, and the share it then has. -/
def fits (s : State) (ctx core : Nat) (k : Kernel) : Option Nat :=
  let ts := coreTeams s core
  let gs := coreGroups s core
  let c := core / 2
  let share := if ts.isEmpty then shareFor s core k else (s.core core).share
  let ran := (s.core core).ranConf
  if (s.cluster c).unusable = false ∧ (s.cluster c).retiring.isNone = true ∧ clearingCluster s c = false
      ∧ (ran = 0 ∨ ran = ctx + 1)
      ∧ ts.length + 1 ≤ Config.teamSlots
      ∧ gs.length + k.groups ≤ Config.groupSlots
      ∧ (gs.map (fun g => g.budget * 256)).sum + k.regBytes ≤ Config.regFile
      ∧ (ts.map (fun t => t.2.scratchSize)).sum + k.scratchBytes ≤ share
      ∧ (ts.map (fun t => t.2.bars)).sum + k.bars ≤ Config.coreBars
      ∧ (if k.steer then 1 else 0) ≤ freeSteers s c
      ∧ k.tiles ≤ freeTiles s c ∧ k.accs ≤ freeAccs s c
  then some share else none

/-- The cores of a partition, ascending. -/
def partCores (s : State) (p : Nat) : List Nat :=
  (sortBy (fun a b => decide (a ≤ b)) (s.part p).clusters).flatMap (fun c => [2 * c, 2 * c + 1])

/-- The cores a team of a kernel fits on, with the share it then has: fewest resident teams first, then lowest (R51). -/
def coreChoices (s : State) (ctx p : Nat) (k : Kernel) : List (Nat × Nat) :=
  sortBy (fun a b => decide ((coreTeams s a.1).length ≤ (coreTeams s b.1).length))
    ((partCores s p).filterMap (fun c => (fits s ctx c k).map (fun share => (c, share))))

/-- The core the next team of a kernel takes (R51). -/
def chooseCore (s : State) (ctx p : Nat) (k : Kernel) : Option (Nat × Nat) := (coreChoices s ctx p k).head?

/-- Whether the partition could ever hold `n` teams, all its cores and clusters empty (R53, R54). -/
def couldHold (s : State) (p : Nat) (k : Kernel) (n : Nat) : Bool :=
  let all := clusterCap k Config.steerSlots Config.poolTiles Config.poolAccs
  let perCore := perUnit (shareOf k (all (coreCap k))) k.scratchBytes (coreCap k)
  let perCluster := all (2 * perCore)
  decide (n ≤ ((s.part p).clusters.filter (fun c => !(s.cluster c).unusable)).length * perCluster)

/-! ## A team starts (R48, R322) -/

/-- PRIVBASE of a group (R322). -/
def privBaseOf (g : Grid) (index gid : Nat) : DWord :=
  let stride := roundUp (0x100 + g.pwords * Config.gwidth * 4) 4096
  g.priv + bv 64 ((17 * index + gid) * stride + 0x100)

/-- The lowest number of a range that a list does not hold. -/
def lowestFree (n : Nat) (l : List Nat) : Nat := ((List.range n).find? (fun i => !l.contains i)).getD 0

/-- A group at its role's entry, its registers zero but S0 and S1 (R48). -/
def newGroup (role : Role) (team gid slot budget : Nat) (param entry priv : DWord) : Group :=
  { role := role, gid := gid, team := team, slot := slot, budget := budget, privBase := priv,
    s := (Tbl.put (Tbl.put [] 0 (param.extractLsb' 0 32)) 1 (param.extractLsb' 32 32)),
    lanes := (List.range role.width).map (fun l => (l, { st := .ready, pc := entry })),
    bundle := { due := true } }

/-- Adds a group to a team under a fresh number. -/
def addGroup (tm : Nat) (g : Group) (s : State) : State :=
  let (a, s) := s.takeId
  let s := s.modGrp a (fun _ => g)
  s.modTeam tm (fun t => if g.role = .steer then { t with steer := some a } else { t with groups := t.groups ++ [a] })

/-- A core's share; a change of it invalidates the core's L1 (R50). -/
def setShare (core share : Nat) (s : State) : State :=
  if (s.core core).share = share then s else s.modCore core (fun c => { c with share := share, l1 := [] })

/-- The next team of a grid starts on a core. -/
def startTeam (gr core share : Nat) (s : State) : State :=
  let g := s.grid gr
  let k := g.kernel
  let s := setShare core share s
  let s := if s.isConf g.ctx then s.modCore core (fun c => { c with ranConf := g.ctx + 1 }) else s
  let (tm, s) := s.takeId
  let slot := lowestFree Config.teamSlots ((coreTeams s core).map (fun t => t.2.slot))
  let sslot := lowestFree Config.steerSlots (((clusterTeams s (core / 2)).filter (fun t => t.2.steer.isSome)).map (fun t => t.2.steerSlot))
  let s := s.modTeam tm (fun _ =>
    { live := true, grid := gr, core := core, index := g.next, slot := slot, steerSlot := sslot, bars := k.bars,
      scratchSize := k.scratchBytes, tmask := bv 16 (2 ^ k.tiles - 1), amask := bv 8 (2 ^ k.accs - 1) })
  let s := (List.range k.groups).foldl (fun s i =>
    let pr := decide (i < k.pcount)
    let slot := lowestFree Config.groupSlots ((coreGroups s core).map (fun g => g.slot))
    addGroup tm (newGroup (if pr then .produce else .consume) tm i slot (if pr then k.pregs else k.cregs) g.param
      (if pr then k.pEntry else k.cEntry) (privBaseOf g g.next i)) s) s
  let s := if k.steer then addGroup tm (newGroup .steer tm 16 sslot 0 g.param k.sEntry (privBaseOf g g.next 16)) s else s
  firstSync g.ctx core (s.modGrid gr (fun g => { g with next := g.next + 1, st := .placing }))

/-- Places up to `n` further teams of a grid, each where R51 says; none if one of them fits nowhere. -/
def placeTeams (gr : Nat) : Nat → State → Option State
  | 0, s => some s
  | n + 1, s =>
    let g := s.grid gr
    match chooseCore s g.ctx g.part g.kernel with
    | none => none
    | some (c, share) => placeTeams gr n (startTeam gr c share s)

/-! ## Bookings and the order of grids (R52, R300) -/

/-- Grids of a partition with unplaced teams, in the order of R52. -/
def waitingGrids (s : State) (p : Nat) : List Nat :=
  let gs := s.grids.filter (fun x => decide (x.2.part = p) && (decide (x.2.st = .held) || decide (x.2.st = .placing))
    && decide (x.2.next < x.2.dimX * x.2.dimY * x.2.dimZ) && !x.2.faulted && decide ((s.ctx x.2.ctx).st = .running))
  (sortBy (fun a b => decide (a.2.prio > b.2.prio)
    || (decide (a.2.prio = b.2.prio) && decide (a.2.submitted ≤ b.2.submitted))) gs).map (·.1)

/-- A generation that a live grid of a context holds, other than `gr`. -/
def genHeld (s : State) (c gr : Nat) (f : Nat × Grid → Bool) (gen : BitVec 4) : Bool :=
  s.grids.any (fun y => decide (y.1 ≠ gr) && f y && decide (y.2.ctx = c) && y.2.checked && decide (y.2.gen = gen)
    && (decide (y.2.st = .held) || decide (y.2.st = .placing)))

/-- The launch's generation is neither held by an earlier or booked live grid nor being cleared (R180). -/
def genFree (s : State) (gr : Nat) : Bool :=
  let g := s.grid gr
  !g.checked || (!(s.ctx g.ctx).clearing.contains g.gen
    && !genHeld s g.ctx gr (fun y => decide (y.1 < gr) || y.2.booked) g.gen)

/-- The next generation of a context that no live grid holds and no entry carries; the counter's where there is none. -/
def nextGen (s : State) (c : Nat) : BitVec 4 :=
  let n := (s.ctx c).gen
  (((List.range 16).map (fun i => n + bv 4 i)).find? (fun v =>
    !(s.ctx c).clearing.contains v && !genHeld s c 0 (fun _ => true) v)).getD n

/-- The race checker of a context is turned on: grids launched while it was off receive generations now (R180, R187). -/
def giveGens (c : Nat) (s : State) : State :=
  (s.grids.filter (fun p => decide (p.2.ctx = c) && !p.2.checked && gridOpen s p.1)).foldl (fun s p =>
    let v := nextGen s c
    (s.modGrid p.1 (fun g => { g with checked := true, gen := v })).modCtx c (fun x => { x with gen := v + 1 })) s

/-- Books a grid's estimate where its generation is free and the balance allows (R180, R300). -/
def book (gr : Nat) (s : State) : State :=
  let g := s.grid gr
  let bal := (s.part g.part).eacct
  if g.booked = false ∧ genFree s gr = true ∧ (g.estimate = 0 ∨ bal ≥ (g.estimate : Int)) then
    (s.modPart g.part (fun p => { p with eacct := p.eacct - (g.estimate : Int) })).modGrid gr
      (fun g => { g with booked := true, booking := g.estimate })
  else s

/-- Held grids are tried again when the balance has risen (R300). -/
def retryBookings (p : Nat) (s : State) : State := (waitingGrids s p).foldl (fun s g => book g s) s

/-- A grid's next team has been skipped for 1,000,000 gt while others were placed (R52). -/
def skipDue (s : State) (g : Grid) : Bool :=
  g.blocksOthers || (match g.skippedAt with | some t => decide (t + 1000000 ≤ s.gtime) | none => false)

/-- The placement a partition's scheduler makes at an opportunity: the first grid in order whose next team,
or whole co-resident grid, fits; the grids it passed over are skipped, and one at the skip limit stops the
search (R52, R53). -/
def tryGrids (p : Nat) : List Nat → List Nat → State → Option (Nat × State)
  | [], _, _ => none
  | g :: r, skipped, s =>
    let s := book g s
    let x := s.grid g
    let n := if x.kernel.coresident then x.dimX * x.dimY * x.dimZ else 1
    let done := if x.booked then placeTeams g n s else none
    match done with
    | some s =>
      let s := skipped.foldl (fun s k => s.modGrid k (fun y => { y with skippedAt := some (y.skippedAt.getD s.gtime) })) s
      some (g, s.modGrid g (fun y => { y with skippedAt := none, blocksOthers := false }))
    | none => if skipDue s x then none else tryGrids p r (skipped ++ [g]) s

def placement (p : Nat) (s : State) : Option (Nat × State) :=
  if (s.part p).st = .active then tryGrids p (waitingGrids s p) [] s else none

/-- TEAM_PLACEMENT and CORESIDENT_PLACEMENT, by the kind of the grid that is placed. -/
def placeOf (coresident : Bool) (p : Nat) (s : State) : State :=
  match placement p s with
  | some (g, s') => if (s'.grid g).kernel.coresident = coresident then s' else s
  | none => retryBookings p s

def execTeamPlacement (part : Nat) (s : State) : Out := .next (placeOf false part s)
def execCoresidentPlacement (part : Nat) (s : State) : Out := .next (placeOf true part s)

def execSkipLimit (grid : Nat) (s : State) : Out :=
  .next (match (s.grid grid).skippedAt with
    | some t => if t + 1000000 ≤ s.gtime then s.modGrid grid (fun g => { g with blocksOthers := true }) else s
    | none => s)

/-! ## LAUNCH and FENCE (R321) -/

/-- The kernel descriptor's bytes: not readable, or a wait for the supervisor (R54, R145). -/
def readKdesc (c : Nat) (va : DWord) (denied : Bool) (s : State) : Option (Option (List Byte) × State) :=
  if canonical va = false then some (none, s)
  else match translate s c { r := true } va with
    | .ok t => let r := l2Read none t.conf t.key 64 (markAD c false t s); some (some r.1, r.2)
    | .own _ => some (none, s)
    | .part _ => if denied then some (none, s) else none

/-- A grid submitted to a partition empties its cores' instruction caches of the partition's lines (R361). -/
def dropCode (p : Nat) (s : State) : State :=
  { s with cores := mapV (fun _ (c : Core) => { c with icache := c.icache.filter (fun e => decide (partOfKey (128 * e.1) ≠ p)) }) s.cores }

/-- Decides a LAUNCH: BADDESC, TOOLARGE, or a grid that waits for placement. -/
def launch (denied : Bool) (vd q : Nat) (s : State) : State :=
  match nextCommand s vd q with
  | none => askCommand vd q s
  | some (c, w) =>
    let op := fieldOf w 0 1
    let tag : Word := bv 32 (fieldOf w 4 4)
    let fail (st : Nat) (s : State) : State := complete16 c vd q tag st 0 0 [] s
    if op = 2 then s
    else if op ≠ 1 ∨ commandBad w = true then fail stBADDESC (commandRead c vd q s)
    else match readKdesc c (bv 64 (fieldOf w 8 8)) denied s with
      | none => s
      | some (none, s) => fail stBADDESC (commandRead c vd q s)
      | some (some d, s) =>
        let s := commandRead c vd q s
        let k := kernelOf d
        let x := fieldOf w 0x18 4
        let y := fieldOf w 0x1C 2
        let z := fieldOf w 0x1E 2
        let p := (s.ctx c).part
        if descBad d then fail stBADDESC s
        else if couldHold s p k (if k.coresident then x * y * z else 1) = false then fail stTOOLARGE s
        else
          let check := (s.ctx c).racectl.getLsbD 0
          let gen := (s.ctx c).gen
          let (g, s) := s.takeId
          let s := dropCode p s
          let s := s.modCtx c (fun x => { x with gen := if check then gen + 1 else gen })
          s.modGrid g (fun _ =>
            { st := .held, ctx := c, part := p, vd := vd, queue := q, tag := tag, kdesc := bv 64 (fieldOf w 8 8), kernel := k,
              param := bv 64 (fieldOf w 0x10 8), priv := bv 64 (fieldOf w 0x30 8), pwords := fieldOf w 0x38 4,
              checked := check,
              dimX := x, dimY := y, dimZ := z, prio := fieldOf w 1 1, gen := gen, estimate := fieldOf w 0x20 8,
              recAddr := bv 64 (fieldOf w 0x28 8), submitted := g })

def execLaunch (vd q : Nat) (s : State) : Out := .next (launch false vd q s)

def execFenceCommand (vd q : Nat) (s : State) : Out :=
  .next (match nextCommand s vd q with
    | none => askCommand vd q s
    | some (c, w) =>
      if fieldOf w 0 1 ≠ 2 then s
      else
        let s := commandRead c vd q s
        let gs := (s.grids.filter (fun g => decide (g.2.vd = vd) && decide (g.2.queue = q) && gridOpen s g.1)).map (·.1)
        checkFences c vd q (s.modVQ vd q (fun v => { v with fences := v.fences ++ [(bv 32 (fieldOf w 4 4), gs)] })))

end Sys2Proof.Machine
end

