-- ==== Sys2Proof/Machine/Talloc.lean ====
section
/-!
DEFINITION. TALLOC: requests, releases, the cluster's wait list, and the refusal that ends a deadlock (R64
to R68, R195).
-/

namespace Sys2Proof.Machine

/-- The fields of a write of TALLOC (R64). -/
def taBlock (v : Word) : Bool := v.getLsbD 31
def taFree (v : Word) : Bool := v.getLsbD 30
def taA (v : Word) : BitVec 8 := v.extractLsb' 16 8
def taT (v : Word) : BitVec 16 := v.extractLsb' 0 16

/-- What a read of TALLOC returns. -/
def tallocRead (t : Team) : Word := bv 32 (t.tstatus.toNat * 2 ^ 28 + t.amask.toNat * 2 ^ 16 + t.tmask.toNat)

def setStatus (tm : Nat) (st : BitVec 2) (s : State) : State := s.modTeam tm (fun t => { t with tstatus := st })

/-- A request names nothing, or something the team holds: INVALID (R65). -/
def requestBad (t : Team) (v : Word) : Bool :=
  decide (taA v = 0 ∧ taT v = 0) || decide (taA v &&& t.amask ≠ 0) || decide (taT v &&& t.tmask ≠ 0)

/-- The cluster's pool has enough for a request. -/
def requestFits (s : State) (cl : Nat) (v : Word) : Bool :=
  decide (popc (taT v).toNat 16 ≤ freeTiles s cl) && decide (popc (taA v).toNat 8 ≤ freeAccs s cl)

/-- Entries become the team's, holding zero (R65). -/
def grantTo (tm : Nat) (v : Word) (s : State) : State :=
  s.modTeam tm (fun t =>
    let ts := (List.range 16).filter (fun n => (taT v).getLsbD n)
    let as_ := (List.range 8).filter (fun n => (taA v).getLsbD n)
    { t with tmask := t.tmask ||| taT v, amask := t.amask ||| taA v, tstatus := 1,
             tiles := t.tiles.filter (fun p => !ts.contains (p.1 / 8192)),
             accs := t.accs.filter (fun p => !as_.contains (p.1 / 24576)),
             tshape := t.tshape.filter (fun p => !ts.contains p.1) })

/-- Entries go back to the pool; their contents are lost (R65, R83). -/
def takeBack (tm : Nat) (v : Word) (s : State) : State :=
  s.modTeam tm (fun t =>
    let ts := (List.range 16).filter (fun n => (taT v).getLsbD n)
    let as_ := (List.range 8).filter (fun n => (taA v).getLsbD n)
    { t with tmask := t.tmask &&& ~~~ taT v, amask := t.amask &&& ~~~ taA v, tstatus := 1,
             tiles := t.tiles.filter (fun p => !ts.contains (p.1 / 8192)),
             accs := t.accs.filter (fun p => !as_.contains (p.1 / 24576)),
             tshape := t.tshape.filter (fun p => !ts.contains p.1) })

/-! ## Entries in use (R195) -/

/-- Bytes of the context's memory as they stand, 0 where they do not translate. -/
def peek (s : State) (c va n : Nat) : List Byte :=
  (pieces va n).flatMap (fun p => match translate s c { r := true } (bv 64 p.1) with
    | .ok t => (List.range p.2).map (fun i => s.view t.conf (t.key + i))
    | _ => zeros p.2)

/-- The tile registers the records of an MMA or MMAS name: as staged, or as its records stand. -/
def mmaTiles (s : State) (e : MEntry) : Nat :=
  match e.staged with
  | some st => st.tiles
  | none =>
    let c := s.ctxNo e.agent
    let bit (r : Oprec) : Nat := if r.isTile then 2 ^ (r.srcB % 16) else 0
    let ra := oprec (peek s c e.ra.toNat 64)
    if e.opc = 0x93 then
      (List.range 8).foldl (fun m k =>
        let w := ofLe (peek s c (ra.ind + 8 * k) 8)
        if bit1 w 63 || decide (bits w 15 0 ≥ e.rc.toNat) then m
        else m ||| bit (oprec (peek s c (e.rb.toNat + 64 * bits w 15 0) 64))) (bit ra)
    else bit ra ||| bit (oprec (peek s c e.rb.toNat 64))

/-- The tile registers and accumulators a queue entry uses, as masks. -/
def entryUses (s : State) (e : MEntry) : BitVec 16 × BitVec 8 :=
  if e.fence || e.performed then (0, 0)
  else if e.opc = 0x91 then (0, 1#8 <<< e.d)
  else if e.opc = 0x94 then (1#16 <<< e.t, 1#8 <<< e.d)
  else if isMma e then (bv 16 (mmaTiles s e), 1#8 <<< e.d)
  else (1#16 <<< e.t, 0)

/-- An entry of the team's matrix queue uses something a release names. -/
def releaseWaits (s : State) (tm : Nat) (v : Word) : Bool :=
  (s.team tm).mqueue.any (fun e => let u := entryUses s e; decide (u.1 &&& taT v ≠ 0) || decide (u.2 &&& taA v ≠ 0))

/-! ## The wait list (R66, R67) -/

/-- A waiting request comes before another: launch submission, team index, and, of one team's, the order in which they came
(DESIGN CHOICE, log 120: R67 gives no order for those). -/
def older (s : State) (x y : TWait) : Bool :=
  let k (w : TWait) : Nat × Nat × Nat := ((s.gridOf w.agent).submitted, (s.teamOf w.agent).index, w.id)
  let (a, b, c) := k x
  let (d, e, f) := k y
  decide (a < d) || (decide (a = d) && (decide (b < e) || (decide (b = e) && decide (c ≤ f))))

def waitList (s : State) (cl : Nat) : List TWait := sortBy (older s) (s.cluster cl).waits

/-- A waiting request's lanes go on at the next instruction. -/
def wakeWait (w : TWait) (s : State) : State :=
  s.modGrp w.agent (fun g => g.wake (w.lanes &&& g.lanesWith (fun x => x = .talloc w.request)))

def leaveList (cl : Nat) (w : TWait) (s : State) : State :=
  s.modCluster cl (fun c => { c with waits := c.waits.filter (fun x => x.id ≠ w.id) })

/-- A request has waited 65,536 clk (R66). -/
def agedNow (s : State) (cl : Nat) (w : TWait) : Bool := w.aged || decide (s.clkOf (cl / 20) ≥ w.since + 65536)

/-- Examines waiting requests from oldest to youngest, granting each that fits; nothing younger than one that
has waited 65,536 clk is granted before it (R66). -/
def grantAll (cl : Nat) : List TWait → State → State
  | [], s => s
  | w :: r, s =>
    let tm := (s.grp w.agent).team
    if requestBad (s.team tm) w.request then grantAll cl r (wakeWait w (setStatus tm 3 (leaveList cl w s)))
    else if requestFits s cl w.request then grantAll cl r (wakeWait w (grantTo tm w.request (leaveList cl w s)))
    else if agedNow s cl w then s
    else grantAll cl r s

/-- Every lane of the team that has not exited waits in a blocking request, at a JOIN or at a BAR. -/
def teamStuck (s : State) (t : Team) : Bool :=
  t.agents.all (fun a =>
    let g := s.grp a
    let m := g.lanesWith (fun x => match x with | .talloc _ => true | .join _ => true | .bar _ => true | _ => false)
    decide (g.live &&& ~~~ m = 0) && decide (g.live &&& g.trap.held = 0))

/-- The deadlock of R67: every team that holds an entry waits, and no waiting request fits. -/
def deadlocked (s : State) (cl : Nat) : Bool :=
  let ws := (s.cluster cl).waits
  !ws.isEmpty && !ws.any (fun w => requestFits s cl w.request)
    && (clusterTeams s cl).all (fun t => decide (t.2.tmask = 0 ∧ t.2.amask = 0)
        || (ws.any (fun w => t.2.agents.contains w.agent) && teamStuck s t.2))

/-- Refuses the youngest waiting request while the deadlock lasts (R67). -/
def breakDeadlock (cl : Nat) : Nat → State → State
  | 0, s => s
  | n + 1, s =>
    if deadlocked s cl then
      match (waitList s cl).getLast? with
      | none => s
      | some w =>
        if areaBusy s w.agent then s.modCluster cl (fun c => { c with stuck := true }) else
        let s := leaveList cl w (setStatus (s.grp w.agent).team 2 s)
        let m := w.lanes &&& (s.grp w.agent).lanesWith (fun x => x = .talloc w.request)
        let pc := match lanesOf m with | l :: _ => ((s.grp w.agent).lane l).pc | [] => 0
        let s := if m = 0 then s else enterTrap w.agent m pc pc false 0 { code := cREFUSED } s
        breakDeadlock cl n s
    else s

def checkDeadlock (cl : Nat) (s : State) : State :=
  breakDeadlock cl ((s.cluster cl).waits.length + 1) (s.modCluster cl (fun c => { c with stuck := false }))

/-- Entries have come back to a cluster's pool: the wait list is examined, and then the deadlock (R66, R67). -/
def entriesBack (cl : Nat) (s : State) : State := checkDeadlock cl (grantAll cl (waitList s cl) s)

/-- TALLOC_GRANT: the wait list is examined; a grant, or a refusal that is due, asks for the deadlock check (R66, R67). -/
def execTallocGrant (cluster : Nat) (s : State) : Out :=
  let t := grantAll cluster (waitList s cluster) s
  .next (if (t.cluster cluster).waits.length < (s.cluster cluster).waits.length ∨ (s.cluster cluster).stuck = true
    then checkDeadlock cluster t else t)

/-- TALLOC_AGE_LIMIT: requests that have waited 65,536 clk hold back younger ones (R66). -/
def execTallocAgeLimit (cluster : Nat) (s : State) : Out :=
  .next (s.modCluster cluster (fun c => { c with waits := c.waits.map (fun w =>
    { w with aged := agedNow s cluster w }) }))

/-! ## The write of TALLOC -/

/-- A request or release made at once for a team: its new state, or that it cannot be made now. -/
def tallocNow (tm : Nat) (v : Word) (s : State) : Option State :=
  let t := s.team tm
  let cl := t.core / 2
  if taFree v then
    if taA v &&& ~~~ t.amask ≠ 0 ∨ taT v &&& ~~~ t.tmask ≠ 0 then some (setStatus tm 3 s)
    else if releaseWaits s tm v then none
    else some (entriesBack cl (takeBack tm v s))
  else if requestBad t v then some (setStatus tm 3 s)
  else if requestFits s cl v && !(s.cluster cl).waits.any (fun w =>
      agedNow s cl w && older s w { agent := t.agents.headD 0, id := s.fresh }) then some (checkDeadlock cl (grantTo tm v s))
  else if taBlock v then none
  else some (setStatus tm 2 s)

/-- The write by the lanes of the bundle: it acts, or holds them at the MTS, those with them that its predicate excludes
(DESIGN CHOICE, log 121). -/
def tallocK (v : Word) (s : State) : Res :=
  let a := s.cur.agent
  let tm := s.me.team
  match tallocNow tm v s with
  | some s => .ok s
  | none =>
    if taFree v then .wait (waitAt s.cur.act (.tallocRel v) s)
    else
      let cl := (s.team tm).core / 2
      let (id, s) := s.takeId
      let s := waitAt s.cur.act (.talloc v) s
      let w : TWait := { agent := a, lanes := s.cur.act, request := v, since := s.clkOf (cl / 20), id := id }
      .wait (checkDeadlock cl (s.modCluster cl (fun c => { c with waits := c.waits ++ [w] })))

/-- The rows of TALLOC as events: the MTS, of two words, of the bundle that a group would issue next. -/
def tallocEvent (g : Nat) (v : Word) (s : State) : State :=
  let x := s.grp g
  if g = 0 ∨ x.role = .absent ∨ x.bundle.lanes = 0 ∨ (x.bundle.lanes &&& ~~~ x.ready) ≠ 0 then s
  else
    let pc := match lanesOf x.bundle.lanes with | l :: _ => (x.lane l).pc | [] => 0
    let s := { s.modGrp g (fun y => y.setPcs x.bundle.lanes (pc + 8)) with
               cur := { agent := g, act := x.bundle.lanes, pc := pc } }
    match tallocK v s with
    | .ok s => s
    | .wait s => s.modMe (Group.wait x.bundle.lanes (lanesOf x.bundle.lanes).length)
    | _ => s

def execTallocRequest (g : Nat) (v : Word) (s : State) : Out :=
  .next (if taFree v || taBlock v then s else tallocEvent g v s)
def execTallocBlockingRequest (g : Nat) (v : Word) (s : State) : Out :=
  .next (if taFree v || !taBlock v then s else tallocEvent g v s)

/-- TALLOC_RELEASE: a release held at its MTS completes once no entry of the matrix queue uses what it names
(R195); else the release is made by the bundle that would issue next. -/
def execTallocRelease (g : Nat) (v : Word) (s : State) : Out :=
  let x := s.grp g
  let m := x.lanesWith (fun y => y = .tallocRel v)
  .next (if !taFree v then s
    else if m = 0 then tallocEvent g v s
    else match tallocNow x.team v s with
      | none => s
      | some s => s.modGrp g (fun x => x.wake m))

end Sys2Proof.Machine
end

