-- ==== Sys2Proof/Machine/Ends.lean ====
section
/-!
DEFINITION. The ends of groups, teams and grids (R70 to R72, R180, R244, R245, R263), with what they give back to a cluster
(R66, R67).
-/

namespace Sys2Proof.Machine

/-! ## Ends (R70 to R72, R180, R244, R245, R263) -/

/-- Engine operations of an ended agent that stand on a deferred fault are abandoned (R245). -/
def abandon (a : Nat) (s : State) : State :=
  let k := s.coreNo a
  let tm := (s.grp a).team
  let s := ((s.core k).eddy.filter (fun e => e.stopped && decide (e.agent = a))).foldl
    (fun s e => tryClose e.inst (finishCopy k e s)) s
  ((s.team tm).mqueue.filter (fun e => e.stopped && decide (e.agent = a))).foldl (fun s e => endEntry tm e s) s

/-- Requests of an agent still on their way (R70). -/
def hasRequests (s : State) (a : Nat) : Bool :=
  let c := s.core (s.coreNo a)
  c.queue.any (fun q => q.agent = a) || c.waiters.any (fun w => w.req.agent = a)

/-- A COLLSET of an agent still waits for its slot decision (R71, R316). -/
def collWaits (s : State) (mine : Inst → Bool) : Bool := s.insts.any (fun p => p.2.waiting && mine p.2)

/-- GROUP_END: an ended group with nothing under way gives back its slot and registers. -/
def groupEnd (a : Nat) (s : State) : State :=
  let g := s.grp a
  if a = 0 ∨ g.role = .absent ∨ g.ended = false then s
  else
    let s := abandon a s
    let g := s.grp a
    if g.flags ≠ 0 ∨ hasRequests s a = true ∨ collWaits s (fun x => decide (x.agent = a)) = true then s
    else s.modGrp a (fun g => { gid := g.gid, team := g.team, ended := true })

def execGroupEnd (g : Nat) (s : State) : Out := .next (groupEnd g s)

/-- A team's instances close; one that waits for its slot decision leaves the decision to the next COLLSET (R313, R316). -/
def leaveInsts (tm : Nat) (s : State) : State :=
  let s := s.insts.foldl (fun s p => if p.2.team = tm ∧ p.2.live then closeInst p.1 s else s) s
  { s with insts := s.insts.filter (fun p => p.2.team ≠ tm) }

/-- A team leaves: its groups, its requests and what it held of the cluster's pool, its instances. -/
def dropTeam (tm : Nat) (s : State) : State :=
  let t := s.team tm
  let s := leaveInsts tm s
  let s := s.modCluster (t.core / 2) (fun c => { c with waits := c.waits.filter (fun w => !t.agents.contains w.agent) })
  let s := { s with groups := s.groups.filter (fun p => !t.agents.contains p.1), teams := s.teams.drop tm }
  if t.tmask = 0 ∧ t.amask = 0 then s else entriesBack (t.core / 2) s

/-- TEAM_END: all groups have ended and every engine operation has completed (R71). -/
def teamEnd (tm : Nat) (s : State) : State :=
  let t := s.team tm
  if t.live = false ∨ t.agents.any (fun a => decide ((s.grp a).role ≠ .absent)) = true then s
  else
    let s := t.agents.foldl (fun s a => abandon a s) s
    if (s.core t.core).eddy.any (fun e => e.team = tm) ∨ (s.team tm).mqueue ≠ [] ∨ collWaits s (fun x => decide (x.team = tm)) = true
    then s
    else (dropTeam tm s).modGrid t.grid (fun g => { g with endedTeams := g.endedTeams + 1 })

def execTeamEnd (tm : Nat) (s : State) : Out := .next (teamEnd tm s)

/-- Merge-pending lines of a partition are folded (R72, R135). -/
def foldPart (p : Nat) (s : State) : State :=
  let ls := s.l2.filterMap (fun l => if l.2.merge.isSome && decide (partOfKey (128 * l.1) = p) then some l.1 else none)
  let ms := (s.cores.flatMap (fun c => c.2.sums.flatMap (fun q => q.lines))).filter (fun l => partOfKey (128 * l) = p)
  (ls ++ ms).foldl (fun s l => foldLine l s) s

/-- A grid's launch completes: its energy is charged, its generation is cleared, its status goes out, and
held grids and fences are looked at again. -/
def finishGrid (gr status : Nat) (cause : BitVec 8) (rec_ : List Byte) (s : State) : State :=
  let g := s.grid gr
  let s := s.modPart g.part (fun p => { p with
    eacct := p.eacct + (g.booking : Int) - (g.measured : Int), ended := p.ended ++ [(gr, s.gtime)] })
  let s := if g.checked then s.modCtx g.ctx (fun x => { x with clearing := (x.clearing ++ [g.gen]).eraseDups }) else s
  let s := { s with grids := s.grids.drop gr }
  let s := complete16 g.ctx g.vd g.queue g.tag status cause g.recAddr rec_ s
  retryBookings g.part (checkFences g.ctx g.vd g.queue s)

/-- Teams of a grid. -/
def gridTeams (s : State) (gr : Nat) : List (Nat × Team) := s.teams.filter (fun t => t.2.live && decide (t.2.grid = gr))

/-- Everything of a team on its core and in the engines is discarded; what has left the core stays (R244). -/
def discardTeam (tm : Nat) (s : State) : State :=
  let t := s.team tm
  let s := s.modCore t.core (fun c => { c with eddy := c.eddy.filter (fun e => e.team ≠ tm) })
  dropTeam tm s

/-- The engines of a faulted grid go on to their stop units: the tile in progress of every copy (R244, R247). -/
def finishGridTiles (gr : Nat) (s : State) : State := finishTilesOf (fun e => decide ((s.team e.team).grid = gr)) s

/-- What a stop has saved of a grid's teams is discarded with them (R244). -/
def dropSaved (gr : Nat) (s : State) : State :=
  s.modCtx (s.grid gr).ctx (fun x => { x with saved := x.saved.map (fun v =>
    let ts := v.teams.filter (fun t => t.2.grid = gr)
    let gone (tm : Nat) : Bool := ts.any (fun t => t.1 = tm)
    { v with teams := v.teams.filter (fun t => !gone t.1), groups := v.groups.filter (fun g => !gone g.2.team),
             copies := v.copies.filter (fun e => !gone e.team) }) })

/-- GRID_END: the last team has ended, or an unhandled fault has stopped the grid's groups, its engines stand at their
stop units and what left the cores has been performed (R72, R244). -/
def gridEnd (gr : Nat) (s : State) : State :=
  let g := s.grid gr
  if gridOpen s gr = false then s
  else if g.faulted then
    let s := finishGridTiles gr s
    let ts := gridTeams s gr
    let es := s.cores.flatMap (fun k => k.2.eddy.filter (fun e => decide ((s.team e.team).grid = gr)))
    if ts.any (fun t => t.2.agents.any (fun a => hasRequests s a)) ∨ es.all (fun e => tileWhole e && stepWhole e) = false then s
    else
      let s := ts.foldl (fun s t => discardTeam t.1 s) (dropSaved gr s)
      finishGrid gr stFAULTED g.cause g.record (foldPart g.part s)
  else if g.next = g.dimX * g.dimY * g.dimZ ∧ g.endedTeams = g.next then finishGrid gr stDONE 0 [] (foldPart g.part s)
  else s

def execGridEnd (grid : Nat) (s : State) : Out := .next (gridEnd grid s)

/-- The entries of a context's shadow region that carry a generation become EMPTY (R180, R185). -/
def clearShadow (c : Nat) (gen : BitVec 4) (s : State) : State :=
  let base := s.desc c 0x30 8
  let n := s.desc c 0x40 8 / 64
  (List.range n).foldl (fun s i =>
    let m : BitVec 96 := bv 96 (ofLe (readStage2 s c (base + 12 * i) 12))
    if m ≠ 0 ∧ mdGen m = gen then writeStage2 c (base + 12 * i) (zeros 12) s else s) s

/-- GENERATION_CLEAR: metadata that carries the value is EMPTY in the partition's slices and the shadow
region, and a launch may take it (R180). -/
def execGenerationClear (ctx gen : Nat) (s : State) : Out :=
  let g : BitVec 4 := bv 4 gen
  .next (if (s.ctx ctx).clearing.contains g = false then s
    else
      let wipe (m : BitVec 96) : BitVec 96 := if mdGen m = g then 0 else m
      let p := (s.ctx ctx).part
      let s := { s with l2 := mapV (fun l x =>
        if partOfKey (128 * l) = p then { x with race0 := wipe x.race0, race1 := wipe x.race1 } else x) s.l2 }
      (clearShadow ctx g s).modCtx ctx (fun x => { x with clearing := x.clearing.filter (fun y => y ≠ g) }))

end Sys2Proof.Machine
end

