-- ==== Sys2Proof/Machine/Timers.lean ====
section
/-!
DEFINITION. Timers and what ends in time: ARMT, expiry, SLEEP, WAITF time-outs, promises, the watchdog, and the
passing of virtual and dilated time over waiting lanes (R257, R261 to R265, R269, R270, R371, R464).
-/

namespace Sys2Proof.Machine

/-! ## The timer (R262, R263, R371) -/

/-- The clock of an agent advances: its context is resident (R257), and Headwater's always (R302). -/
def clockRuns (s : State) (a : Nat) : Bool := decide (a = 0) || (s.ctx (s.ctxNo a)).vrun

/-- Evaluates the timer (R263): expiry sets FIRED, clears the flag, posts TIMER or ends sleeps, disarms. -/
def timerEval (a : Nat) (s : State) : State :=
  let t := (s.grp a).timer
  if t.mode = 0 ∨ s.clockOf a < t.dl ∨ clockRuns s a = false then s
  else
    let s := s.modGrp a (fun g => { g.clearFlag t.flag with timer := { t with fired := true, mode := 0, flag := 0xF } })
    if t.mode = 2 then post a { code := cTIMER } s
    else s.modGrp a (fun g => g.wake (g.lanesWith (fun x => match x with | .sleep _ => true | _ => false)))

def armtK (o : Body) (s : State) : Res :=
  if s.actMask o = 0 then .ok s
  else
    let dl := s.me.opv true o.a ((lanesOf (s.actMask o)).headD 0)
    let s := s.modMe (fun g => (g.clearFlag g.timer.flag).setFlag o.fset s.cur.pc)
    let s := s.modMe (fun g => { g with timer := { g.timer with
      dl := dl, mode := if o.md = 1 then 2 else 1, flag := if o.fset.toNat < 12 then o.fset else 0xF } })
    .ok (timerEval s.cur.agent s)
def execArmt (o : Body) (s : State) : Out := perform 0xB1 o (armtK o) s

/-- A write of TIMERCTL (R262): WD, the W1C of FIRED, and MODE, which arms with FLAG 0xF or disarms. -/
def writeTimerctl (a : Nat) (v : Word) (s : State) : State :=
  let s := s.modGrp a (fun g => { g with timer := { g.timer with
    wd := v.extractLsb' 16 5, fired := if v.getLsbD 2 then false else g.timer.fired } })
  let m := v.extractLsb' 0 2
  if m = 3 then s
  else if m = 0 then s.modGrp a (fun g => g.disarm)
  else timerEval a (s.modGrp a (fun g => { g.clearFlag g.timer.flag with timer := { g.timer with mode := m, flag := 0xF } }))

def execTimerctl (g : Nat) (v : Word) (s : State) : Out := .next (writeTimerctl g v s)
def execTimerExpiry (g : Nat) (s : State) : Out := .next (timerEval g s)

/-! ## Waits that end in time (R264, R269, R463, R464) -/

def execSleepEnd (g : Nat) (s : State) : Out := .next (s.modGrp g (fun x => x.wake (x.lanesWith (fun y => y = .sleep 0))))

def execWaitfTimeout (g : Nat) (s : State) : Out :=
  .next (s.modGrp g (fun x => x.wake (x.lanesWith (fun y => match y with | .waitf _ (some 0) => true | _ => false))))

/-- Lanes at a WAITP whose promise has passed with a covered copy incomplete. -/
def promiseDue (s : State) (a : Nat) : Mask :=
  let g := s.grp a
  g.lanesWith (fun x => match x with
    | .waitp p n => promisePast s a p && !(covered s a p n).isEmpty
    | _ => false) &&& ~~~ g.trap.held

/-- PROMISE_EXPIRY: they take a precise PROMISE, those at the lowest PC first (R464). -/
def execPromiseExpiry (g : Nat) (s : State) : Out :=
  let x := s.grp g
  let m := lowestRun x (promiseDue s g)
  .next (match lanesOf m with
    | [] => s
    | l :: _ =>
      if clockRuns s g = false ∨ areaBusy s g = true then s
      else
        let ln := x.lane l
        let e := match ln.st with | .waitp p n => (covered s g p n).headD {} | _ => {}
        enterTrap g m ln.nx ln.pc false 0 (promiseFault e) s)

/-- The limit of the hang watchdog (R262). -/
def watchLimit (g : Group) : Nat := 2 ^ (g.timer.wd.toNat + 10)

/-- Every live lane waits where the watchdog counts (R270). -/
def allWatched (g : Group) : Bool := decide (g.live ≠ 0) && decide (g.live &&& ~~~ (g.lanesWith watchWait) = 0)

def execWatchdog (g : Nat) (s : State) : Out :=
  let x := s.grp g
  .next (if g = 0 ∨ x.timer.wd = 0 ∨ x.watch < watchLimit x ∨ allWatched x = false then s
    else post g { code := cWATCHDOG } (s.modGrp g (fun x => { x with watch := 0 })))

/-! ## Time passes (R257, R265, R269, R270) -/

/-- The parties a wait awaits are all resident (R269). -/
def dilates (s : State) (a : Nat) (st : LaneSt) : Bool :=
  let c := s.ctxNo a
  let ranks (i : Inst) : List Nat := (List.range i.members.length).filter (fun r => r ≠ i.rank)
  match st with
  | .qpop d _ =>
    match s.insts.find? (fun p => p.2.qwait.any (fun w => decide (w.1 = a) && decide (w.2.2.1 = d))) with
    | some p => allResident s c p.2.gid (List.range p.2.members.length)
    | none => true
  | .waitf f _ =>
    match (s.core (s.coreNo a)).eddy.find? (fun e => decide (e.agent = a) && decide (e.flag.toNat = f)) with
    | some e =>
      let i := s.inst e.inst
      if e.isStep then allResident s c i.gid (ranks i)
      else if e.shp.remote then allResident s c i.gid (if e.moved then e.acks.map (·.1) else e.shp.targets)
      else true
    | none =>
      match s.insts.find? (fun p => p.2.waiting && decide (p.2.agent = a) && decide (p.2.flag.toNat = f)) with
      | some p => allResident s c p.2.gid [0]
      | none => true
  | _ => true

/-- `n` vt pass for a lane's wait. -/
def LaneSt.pass (n : Nat) (dil : Bool) : LaneSt → LaneSt
  | .sleep k => .sleep (k - n)
  | .waitf f (some k) => .waitf f (some (if dil then k - n else k))
  | .qpop d (some k) => .qpop d (some (if dil then k - n else k))
  | x => x

/-- `n` vt pass for an agent. -/
def passGroup (s : State) (n a : Nat) (g : Group) : Group :=
  if clockRuns s a = false ∨ g.role = .absent then g
  else
    let w := allWatched g && (lanesOf g.live).all (fun l => dilates s a (g.lane l).st)
    { g with lanes := g.lanes.map (fun (p : Nat × Lane) => (p.1, { p.2 with st := p.2.st.pass n (dilates s a p.2.st) })),
             watch := if a ≠ 0 && w && decide (g.timer.wd ≠ 0) then g.watch + n else g.watch }

/-! ## Clk pass (R5, R11, R56 to R60, R91, R329, R331) -/

/-- The clk of a die that `n` gt bring. -/
def clkIn (s : State) (n die : Nat) : Nat := (s.clks.at die + n * dieMhz s die) / 1000 - s.clkOf die

/-- An agent whose pipelines run: it is there, and its context is resident. -/
def clkRuns (s : State) (a : Nat) (g : Group) : Bool := decide (g.role ≠ .absent) && !g.stopped && clockRuns s a

/-- The clk that passed last and that do not lie behind an agent. -/
def clkLeft (s : State) (a : Nat) (g : Group) : Nat := if clkRuns s a g then s.passedOf (s.coreNo a) - g.issued else 0

/-- `n` more clk pass for an agent: those that passed last lie behind it. -/
def passClk (s : State) (n a : Nat) (g : Group) : Group :=
  if n = 0 then g else { advance s (clkLeft s a g) a g with issued := 0 }

/-- Event 0x0006: clk in which the bundle that issues next waited on an operand. -/
def countOperand (u s : State) (n : Nat) : State :=
  u.groups.foldl (fun s p =>
    let d := clkLeft u p.1 p.2
    if d ≠ 0 ∧ clkIn u n (u.coreNo p.1 / 40) ≠ 0 ∧ p.2.role ≠ .headwater ∧ p.2.ready ≠ 0
        ∧ lacks u p.1 (nextBundle u p.1) = .operand then
      s.count (u.ctxNo p.1) 6 d
    else s) s

/-- `n` clk of residence pass at a core for the SYNC records of its contexts (R335). -/
def passSync (s : State) (n k : Nat) (t : Tbl Nat) : Tbl Nat :=
  t.map (fun (e : Nat × Nat) => (e.1, if e.2 ≠ 0 ∧ (coreCtxs s k).contains e.1 = true then e.2 + n else e.2))

/-- The clk of every die pass: a clk is left to what has issued. -/
def passDies (s : State) (n : Nat) : State :=
  let fresh (k : Nat) : Bool := decide (clkIn s n (k / 40) ≠ 0)
  let sync (k : Nat) (c : Core) : Core := { c with synced := passSync s (clkIn s n (k / 40)) k c.synced }
  { s with
    clks := (List.range 4).foldl (fun t d => t.put d (t.at d + n * dieMhz s d)) s.clks,
    passed := (List.range 4).foldl (fun t d => if clkIn s n d = 0 then t else t.put d (clkIn s n d)) s.passed,
    cores := s.cores.map (fun (p : Nat × Core) => (p.1,
      if fresh p.1 then
        { sync p.1 p.2 with pipe := { p.2.pipe with clk := 0, issued := 0 }, seq := { p.2.seq with clk := 0, issued := 0 } }
      else p.2)) }

/-- `n` gt pass: GTIME and the dies' clk rise, and with them the waits, watchdogs and counters of what is resident. -/
def passGt (n : Nat) (s : State) : State :=
  let u := s
  let s := { passDies s n with gtime := s.gtime + n }
  let s := { s with groups := s.groups.map (fun (p : Nat × Group) =>
    (p.1, passGroup s n p.1 (passClk u (clkIn u n (u.coreNo p.1 / 40)) p.1 p.2))) }
  let s := countOperand u s n
  s.ctxs.foldl (fun s p => if p.2.vrun then s.count p.1 1 n else s) s

end Sys2Proof.Machine
end

