-- ==== Sys2Proof/Machine/Image.lean ====
section
/-!
DEFINITION. What belongs to a context, and its save image (R215, R249, R252, R253, R298): the parts with their sizes and
bytes, the write of it, and what a resume reads back.
-/

namespace Sys2Proof.Machine

/-! ## What belongs to a context -/

/-- Its groups and steer threads that have not ended. -/
def ctxAgents (s : State) (c : Nat) : List Nat :=
  (s.groups.filter (fun p => p.1 ≠ 0 && decide (p.2.role ≠ .absent) && decide (s.ctxNo p.1 = c))).map (·.1)
def ctxTeams (s : State) (c : Nat) : List (Nat × Team) := s.teams.filter (fun p => p.2.live && decide ((s.grid p.2.grid).ctx = c))
def ctxGrids (s : State) (c : Nat) : List Nat := (s.grids.filter (fun p => decide (p.2.ctx = c))).map (·.1)
def ctxCopies (s : State) (c : Nat) : List (Nat × Copy) :=
  s.cores.flatMap (fun k => (k.2.eddy.filter (fun e => e.ctx = c)).map (fun e => (k.1, e)))

/-- Saved teams in the order of the image: by grid and then linear index (R252). -/
def byGrid (ts : List (Nat × Team)) : List (Nat × Team) :=
  sortBy (fun p q => decide (p.2.grid < q.2.grid) || (decide (p.2.grid = q.2.grid) && decide (p.2.index ≤ q.2.index))) ts

/-! ## Parts (R252)

A part's fields stand in the order R252 names them, each little-endian and as wide as its register, and zero fills the
part; what does not fit before the V registers of a group's part, or into an instance's, is cut (DESIGN CHOICE, log 59). -/

def headerPart (s : State) (c : Nat) (drain : Bool) : List Byte :=
  leBytes 4 (if drain then 0 else 1) ++ leBytes 4 (ctxGrids s c).length
    ++ leBytes 4 (if drain then 0 else (ctxTeams s c).length) ++ leBytes 4 (if drain then 0 else (ctxAgents s c).length)
    ++ leBytes 8 (s.vclk c).toNat ++ leBytes 8 (s.ctx c).retired

def gridPart (g : Grid) : List Byte :=
  leBytes 8 g.kdesc.toNat ++ leBytes 8 g.param.toNat ++ leBytes 8 g.priv.toNat ++ leBytes 4 g.pwords
    ++ leBytes 4 g.dimX ++ leBytes 2 g.dimY ++ leBytes 2 g.dimZ ++ leBytes 1 g.prio ++ leBytes 1 g.gen.toNat
    ++ leBytes 4 g.next ++ leBytes 8 g.booking

/-- Entries of a matrix queue not yet performed, in order (R215). -/
def Team.unperformed (t : Team) : List MEntry := t.mqueue.filter (fun e => !e.performed)

def entryPart (e : MEntry) : List Byte :=
  leBytes 1 e.opc.toNat ++ leBytes 1 e.md.toNat ++ leBytes 1 e.d ++ leBytes 1 e.t ++ leBytes 8 e.ra.toNat ++ leBytes 8 e.rb.toNat
    ++ leBytes 4 e.rc.toNat ++ leBytes 8 e.oppc.toNat ++ leBytes 1 e.flag.toNat ++ leBytes 4 e.kstep
    ++ leBytes 2 e.mtmask.toNat ++ leBytes 1 e.row

/-- A team's own fields: identity, barriers, BCLK, the TALLOC masks and MSTAT. -/
def teamFields (t : Team) : List Byte :=
  leBytes 4 t.grid ++ leBytes 4 t.index
    ++ (List.range 16).flatMap (fun i => let b : Bar := t.bar.at i; [bv 8 b.arrived.length, bv 8 b.phase.toNat])
    ++ (List.range 16).flatMap (fun i => leBytes 2 (t.bclk.at i).toNat)
    ++ leBytes 2 t.tmask.toNat ++ leBytes 1 t.amask.toNat ++ leBytes 1 t.tstatus.toNat ++ leBytes 4 t.mstat.toNat

def heldTiles (t : Team) : List Nat := (List.range 16).filter (fun n => t.tmask.getLsbD n)
def heldAccs (t : Team) : List Nat := (List.range 8).filter (fun n => t.amask.getLsbD n)

def tblBytes (t : Tbl Byte) (lo n : Nat) : List Byte := (List.range n).map (fun i => t.at (lo + i))

/-- A team's parts: its fields, the scratchpad, each held tile's bytes in row order with its TSHAPE, each held
accumulator's elements of 6 bytes, and the queue (R215). -/
def teamParts (t : Team) : List (Nat × List Byte) :=
  [(512, teamFields t), (roundUp t.scratchSize 256, tblBytes t.scratch 0 t.scratchSize)]
    ++ (heldTiles t).map (fun n => (8256, tblBytes t.tiles (8192 * n) 8192 ++ leBytes 4 (t.tshape.at n).toNat))
    ++ (heldAccs t).map (fun n => (24576, tblBytes t.accs (24576 * n) 24576))
    ++ t.unperformed.map (fun e => (64, entryPart e))

def liveLanes (g : Group) : Nat := (lanesOf g.live).length

/-- A field of a group's part: its bytes, what is written, and what a resume that reads a value does. -/
structure GField where
  n : Nat
  get : Group → Nat
  set : Nat → Group → Group

def GField.mask (get : Group → Mask) (set : Mask → Group → Group) : GField :=
  { n := 8, get := fun g => (get g).toNat, set := fun v => set (bv 64 v) }
def GField.word (get : Group → Word) (set : Word → Group → Group) : GField :=
  { n := 4, get := fun g => (get g).toNat, set := fun v => set (bv 32 v) }

/-- The PC table, a run at a time (the PC of its lanes and their mask), ACTMASK and the gated mask. -/
def pcFields (g : Group) : List GField :=
  let run (m : Mask) : GField :=
    { n := 16, get := fun g => runPc g m + m.toNat * 2 ^ 64, set := fun v g => g.setPcs (bv 64 (v / 2 ^ 64) &&& g.live) (bv 64 v) }
  (runsOf g g.live).map run
    ++ [.mask (fun g => g.bundle.lanes) (fun v g => { g with bundle := { g.bundle with lanes := v &&& g.live } }),
        .mask (fun g => ~~~ g.live) (fun _ g => g)]

/-- Join barriers, flags, S0 to S127 and P. -/
def regFields : List GField :=
  (List.range 8).map (fun i => ({
      n := 24,
      get := fun g => (g.j.at i).parts.toNat + (g.j.at i).waiting.toNat * 2 ^ 64 + (g.j.at i).pc.toNat * 2 ^ 128,
      set := fun v g => { g with j := g.j.put i { parts := bv 64 v, waiting := bv 64 (v / 2 ^ 64), pc := bv 64 (v / 2 ^ 128) } } } : GField))
    ++ [{ n := 2, get := fun g => g.flags.toNat, set := fun v g => { g with flags := bv 12 v } }]
    ++ (List.range 128).map (fun i => .word (fun g => g.sreg i) (fun w g => g.setS i w))
    ++ (List.range 7).map (fun i => .mask (fun g => g.p.at (i + 1)) (fun m g => { g with p := g.p.put (i + 1) m }))

/-- A shadow: whether it stands, its index and its bits (R87). -/
def shadowNat (x : Option (Nat × Word)) : Nat := match x with | some (i, w) => 1 + i % 2 ^ 16 * 2 ^ 8 + w.toNat * 2 ^ 24 | none => 0
def shadowOf (v : Nat) : Option (Nat × Word) := if v % 2 = 0 then none else some (v / 2 ^ 8 % 2 ^ 16, bv 32 (v / 2 ^ 24))

/-- FPMODE, FPFLAGS, the trap registers, DONE, XSTAT, the timer, CLK, ACQ, OVFCLK and the shadows. -/
def smallFields : List GField :=
  [.word (fun g => g.fpmode) (fun w g => { g with fpmode := w }),
   .word (fun g => g.fpflags) (fun w g => { g with fpflags := w }),
   .mask (fun g => g.trap.base) (fun w g => { g with trap := { g.trap with base := w } }),
   .mask (fun g => g.trap.pc) (fun w g => { g with trap := { g.trap with pc := w } }),
   .mask (fun g => g.trap.recd) (fun w g => { g with trap := { g.trap with recd := w } }),
   { n := 2, get := fun g => g.trap.inTrap.toNat + g.trap.deferred.toNat * 2 + g.trap.code.toNat * 2 ^ 8,
     set := fun v g => { g with trap := { g.trap with inTrap := bit1 v 0, deferred := bit1 v 1, code := bv 8 (v / 2 ^ 8) } } },
   .mask (fun g => g.trap.lanes) (fun w g => { g with trap := { g.trap with lanes := w } }),
   .mask (fun g => g.trap.held) (fun w g => { g with trap := { g.trap with held := w } }),
   .mask (fun g => g.trap.done) (fun w g => { g with trap := { g.trap with done := w } }),
   .word (fun g => g.xstat) (fun w g => { g with xstat := w }),
   .mask (fun g => g.timer.dl) (fun w g => { g with timer := { g.timer with dl := w } }),
   { n := 3, get := fun g => g.timer.wd.toNat + g.timer.flag.toNat * 2 ^ 8 + g.timer.fired.toNat * 2 ^ 12 + g.timer.mode.toNat * 2 ^ 16,
     set := fun v g => { g with timer := { g.timer with
       wd := bv 5 v, flag := bv 4 (v / 2 ^ 8), fired := bit1 v 12, mode := bv 2 (v / 2 ^ 16) } } },
   { n := 2, get := fun g => g.race.clk.toNat, set := fun v g => { g with race := { g.race with clk := bv 16 v } } },
   { n := 41,
     get := fun g => g.race.acq.length + ofLe (g.race.acq.flatMap (fun e => leBytes 5 (e.1.toNat + e.2.toNat * 2 ^ 20))) * 2 ^ 8,
     set := fun v g => { g with race := { g.race with acq := (List.range (min 8 (v % 2 ^ 8))).map (fun i =>
       let e := v / 2 ^ (8 + 40 * i)
       (bv 20 e, bv 16 (e / 2 ^ 20))) } } },
   { n := 3, get := fun g => match g.race.ovf with | some w => 1 + w.toNat * 2 ^ 8 | none => 0,
     set := fun v g => { g with race := { g.race with ovf := if v % 2 = 0 then none else some (bv 16 (v / 2 ^ 8)) } } },
   { n := 7, get := fun g => shadowNat g.mfs, set := fun v g => { g with mfs := shadowOf v } },
   { n := 7, get := fun g => shadowNat g.mts, set := fun v g => { g with mts := shadowOf v } }]

/-- X0 to X3 of the live lanes. -/
def xFields (g : Group) : List GField :=
  (lanesOf g.live).flatMap (fun l => (List.range 4).map (fun i => .word (fun g => g.xreg i l) (fun w g => g.setX i l w)))

/-- The fields of a group's part before its V registers, and those. -/
def headFields (g : Group) : List GField := pcFields g ++ regFields ++ smallFields ++ xFields g
def vFields (g : Group) : List GField :=
  (lanesOf g.live).flatMap (fun l => (List.range g.budget).map (fun i => .word (fun g => g.vreg i l) (fun w g => g.setV i l w)))

def putFields (fs : List GField) (g : Group) : List Byte := fs.flatMap (fun f => leBytes f.n (f.get g))
/-- A group with the fields that stand whole in bytes. -/
def getFields : List GField → List Byte → Group → Group
  | [], _, g => g
  | f :: r, bs, g => if bs.length < f.n then g else getFields r (bs.drop f.n) (f.set (fieldOf bs 0 f.n) g)

def groupPart (g : Group) : Nat × List Byte :=
  (roundUp (2048 + liveLanes g * g.budget * 4) 64, padTo 2048 ((putFields (headFields g) g).take 2048) ++ putFields (vFields g) g)

def copyPart (e : Copy) : List Byte :=
  e.shape.flatMap (fun w => leBytes 4 w.toNat) ++ leBytes 8 e.unit ++ leBytes 4 e.promise.toNat ++ leBytes 1 e.flag.toNat
    ++ leBytes 8 e.oppc.toNat

def faultPart (d : Deferred) : List Byte :=
  leBytes 1 d.code.toNat ++ leBytes 8 d.oppc.toNat ++ leBytes 8 d.addr.toNat ++ d.record

/-- Delta state of an instance: group, sequence number, TAG, KIND, OP and ALG, rank, members, how it stands, steps, COLLSET's
destination, flag and stamp, and as many arrived tiles as there is room for. -/
def instPart (x : Inst) : List Byte :=
  (leBytes 1 x.gid ++ leBytes 2 x.seq.toNat ++ x.desc ++ leBytes 1 x.rank ++ leBytes 1 x.members.length
    ++ leBytes 1 (x.live.toNat + x.waiting.toNat * 2 + x.mismatch.toNat * 4 + x.closing.toNat * 8 + x.requested.toNat * 16)
    ++ leBytes 8 x.steps ++ leBytes 1 x.dst ++ leBytes 1 x.flag.toNat ++ leBytes 8 x.oppc.toNat ++ leBytes 8 x.stamp
    ++ leBytes 2 x.tiles.length ++ x.tiles.flatMap (fun w => leBytes 4 w.toNat)).take 128

/-- The groups of saved teams in the order of the image: by team, then GROUPID, the steer thread last (R252). -/
def imageAgents (s : State) (c : Nat) : List Nat :=
  (byGrid (ctxTeams s c)).flatMap (fun t => t.2.agents.filter (fun a => decide ((s.grp a).role ≠ .absent)))

/-- The parts of a context's image, each with its size and what stands there. -/
def imageParts (s : State) (c : Nat) (drain : Bool) : List (Nat × List Byte) :=
  let head := (256, headerPart s c drain) :: (ctxGrids s c).map (fun g => (64, gridPart (s.grid g)))
  if drain then head
  else
    let as_ := imageAgents s c
    head ++ (byGrid (ctxTeams s c)).flatMap (fun t => teamParts t.2) ++ as_.map (fun a => groupPart (s.grp a))
      ++ (ctxCopies s c).map (fun p => (128, copyPart p.2))
      ++ (s.insts.filter (fun i => decide (i.2.ctx = c) && !i.2.closed)).map (fun i => (128, instPart i.2))
      ++ as_.flatMap (fun a => (s.grp a).faults.map (fun d => (128, faultPart d)))

/-- Bytes of the image. -/
def imageSize (s : State) (c : Nat) (drain : Bool) : Nat := ((imageParts s c drain).map (·.1)).sum

/-- The bytes of parts that follow each other. -/
def imageBytes (ps : List (Nat × List Byte)) : List Byte := ps.flatMap (fun p => padTo p.1 p.2)

/-- Where things of given sizes that follow each other from an offset on begin. -/
def offsets : Nat → List (Nat × Nat) → Tbl Nat
  | _, [] => []
  | o, (n, size) :: r => (offsets (o + size) r).put n o

/-- Where the parts of a context's teams, and of its groups, begin in the image. -/
def teamOffsets (s : State) (c : Nat) : Tbl Nat :=
  offsets (256 + 64 * (ctxGrids s c).length) ((byGrid (ctxTeams s c)).map (fun t => (t.1, ((teamParts t.2).map (·.1)).sum)))
def groupOffsets (s : State) (c : Nat) : Tbl Nat :=
  let before := ((ctxTeams s c).map (fun t => ((teamParts t.2).map (·.1)).sum)).sum
  offsets (256 + 64 * (ctxGrids s c).length + before) ((imageAgents s c).map (fun a => (a, (groupPart (s.grp a)).1)))

/-- Bytes of a context that leave for its memory: under MEM where it is confidential (R298). -/
def memView (s : State) (c : Nat) (bs : List Byte) : List Byte :=
  if s.isConf c then enc ((s.key (s.keySlotOf c)).mem.getD 0) s.gtime bs else bs

/-- Writes the image's parts at SAVEBASE. -/
def writeImage (c : Nat) (ps : List (Nat × List Byte)) (s : State) : State :=
  writeStage2 c (s.desc c 0x18 8) (memView s c (imageBytes ps)) s

/-! ## What a resume reads (R215, R253) -/

/-- A team with the scratchpad, tiles, TSHAPE and accumulators that stand in the image from an offset on. -/
def teamFrom (s : State) (c o : Nat) (t : Team) : Team :=
  let rd (o n : Nat) : List Byte := readStage2 s c (s.desc c 0x18 8 + o) n
  let o1 := o + 512
  let o2 := o1 + roundUp t.scratchSize 256
  let o3 := o2 + 8256 * (heldTiles t).length
  let t := { t with scratch := putRange [] 0 (rd o1 t.scratchSize) }
  let t := (heldTiles t).zipIdx.foldl (fun t p =>
    let t := t.putTile p.1 (rd (o2 + 8256 * p.2) 8192)
    { t with tshape := t.tshape.put p.1 (bv 32 (ofLe (rd (o2 + 8256 * p.2 + 8192) 4))) }) t
  (heldAccs t).zipIdx.foldl (fun t p => { t with accs := putRange t.accs (24576 * p.1) (rd (o3 + 24576 * p.2) 24576) }) t

/-- The teams a resume restores, in order, with what the image holds of them; the key opens a confidential one to no reader
but the module. -/
def savedTeams (s : State) (c : Nat) (v : Saved) : List (Nat × Team) :=
  (byGrid v.teams).map (fun p => (p.1, if s.isConf c then p.2 else teamFrom s c (v.teamOff.at p.1) p.2))

/-- A group with the fields that stand in the image from an offset on (R337). Lanes that a bundle no longer holds at one PC are
chosen from at a formation point. -/
def groupFrom (s : State) (c o : Nat) (g : Group) : Group :=
  let rd (o n : Nat) : List Byte := readStage2 s c (s.desc c 0x18 8 + o) n
  let x := getFields (vFields g) (rd (o + 2048) (liveLanes g * g.budget * 4)) (getFields (headFields g) (rd o 2048) g)
  if (runsOf x x.bundle.lanes).length ≤ 1 then x else { x with bundle := { x.bundle with due := true, clause := 0 } }

/-- The groups it restores. -/
def savedGroups (s : State) (c : Nat) (v : Saved) : Tbl Group :=
  if s.isConf c then v.groups
  else v.groups.map (fun p =>
    (p.1, if p.2.role = .absent then p.2 else groupFrom s c (v.groupOff.at p.1) p.2))

end Sys2Proof.Machine
end

