-- ==== Sys2Proof/Machine/Stops.lean ====
section
/-!
DEFINITION. Stopping, saving, resuming and killing a context (R246 to R254, R257 to R260, R267, R268), the debug
step and the counted stop (R338, R339), and the ends of contexts (R249, R256).
-/

namespace Sys2Proof.Machine

/-! ## Requests (R247, R249, R268) -/

/-- The members of each of a context's groups, itself among them, hear HALTED, and each is to acknowledge it. -/
def tellHalted (c : Nat) (s : State) : State :=
  (sendNotices c 1 s).modCtx c (fun x => { x with
    noticed := true, noticeAt := s.gtime, noticeAcks := x.colls.flatMap (fun p => (List.range p.2.members.length).map (fun r => (p.1, r))) })

/-- A stop is requested: STATE becomes STOPPING, and members hear HALTED. -/
def startStop (c : Nat) (capture kill : Bool) (s : State) : State := tellHalted c (requestStop c capture kill s)

/-! ## Ends of launches and contexts (R249, R256) -/

/-- Every team, group, copy and instance of a context is discarded, decisions that wait for it are turned away at their
switch, and every launch completes FAULTED with the cause in its record. -/
def endLaunches (c : Nat) (cause : BitVec 8) (s : State) : State :=
  let unread := (s.early ++ s.buffered.map (·.1)).filter (fun f => decide (f.ctx = c) && decide (f.typ = 7) && decide (infoCode f.info = 4))
  let s := unread.foldl (fun s f => refuseOpen f s) s
  let s := { s with cores := s.cores.map (fun (p : Nat × Core) => (p.1, { p.2 with
    eddy := p.2.eddy.filter (fun e => e.ctx ≠ c), queue := p.2.queue.filter (fun q => decide (s.ctxNo q.agent ≠ c) || decide (q.agent = 0)),
    waiters := p.2.waiters.filter (fun w => decide (s.ctxNo w.req.agent ≠ c)) })) }
  let s := (ctxTeams s c).foldl (fun s t => dropTeam t.1 s) s
  let s := { s with insts := s.insts.filter (fun p => p.2.ctx ≠ c), slotReqs := s.slotReqs.filter (fun r => r.ctx ≠ c),
                    early := s.early.filter (fun f => f.ctx ≠ c), buffered := s.buffered.filter (fun f => f.1.ctx ≠ c) }
  let rec_ := zeros 8 ++ [cause] ++ zeros 119
  let s := s.modCtx c (fun x => { x with saved := none })
  (ctxGrids s c).foldl (fun s g => finishGrid g stFAULTED cause rec_ s) s

/-- L2 lines of a context's CONF pages leave L2; what memory holds of them stays encrypted (R282, R294). -/
def dropConf (c : Nat) (s : State) : State :=
  let k := s.keySlotOf c + 1
  if s.isConf c then { s with l2 := mapV (fun _ x => if x.conf = k then { conf := k, tag := x.tag, ctr := x.cleaned.ctr } else x) s.l2 } else s

/-- Cores still to be cleared of a confidential context. -/
def confCores (s : State) (c : Nat) : Bool := s.cores.any (fun p => p.2.ranConf = c + 1)

/-- Both keys of a slot become zero, and its binding ends; lines under it keep the ciphertext they had
(R296). -/
def zeroise (k : Nat) (s : State) : State :=
  let ls := (s.l2.filter (fun p => p.2.conf = k + 1)).map (·.1)
  let s := ls.foldl (fun s l =>
    (s.wrN (128 * l) ((List.range 128).map (fun i => Config.leftCipher s.tick (128 * l + i)))).modL2 l (fun x => { x with conf := 0 })) s
  s.modKey k (fun x => { x with mem := none, report := none, bound := none })

/-- Slots whose KZERO waits for a context that is FREE now are zeroised, and Headwater goes on (R417). -/
def finishKzero (s : State) : State :=
  match ((s.grp 0).lane 0).st with
  | .kzero k =>
    match (s.key k).bound with
    | some c => if (s.ctx c).st = .free then (zeroise k s).modGrp 0 (fun g => g.wake 1) else s
    | none => (zeroise k s).modGrp 0 (fun g => g.wake 1)
  | _ => s

/-- A killed context becomes FREE, once the cores of a confidential one are clear (R282). -/
def tryFree (c : Nat) (s : State) : State :=
  if s.isConf c && confCores s c then s
  else
    let s := dropConf c s
    let s := s.modCtx c (fun x => { x with st := .free, stop := .none, acks := [], vrun := false })
    finishKzero (s.setDesc c 0x04 4 0)

/-- A kill's stop is complete: no image; every launch completes FAULTED with cause 0 (R249). -/
def finishKill (c : Nat) (s : State) : State :=
  tryFree c ((endLaunches c 0 s).modCtx c (fun x => { x with st := .stopping, stop := .capture s.gtime true, vrun := false }))

/-- A kill whose launches have completed waits for cores to be cleared. -/
def killWaits (s : State) (c : Nat) : Bool :=
  let x := s.ctx c
  (x.stop matches .capture _ true) && !x.vrun && decide (x.st = .stopping)

/-! ## Acknowledgements (R247, R257, R258) -/

/-- The copy in progress of every queue entry of a context goes on to its tile's end. -/
def finishTiles (c : Nat) (s : State) : State := finishTilesOf (fun e => decide (e.ctx = c)) s

/-- No copy of the context stands inside a tile. -/
def tilesWhole (s : State) (c : Nat) : Bool := (ctxCopies s c).all (fun p => tileWhole p.2)

/-- Whether an engine of a stopping context stands at its stop unit: 0 compute, 1 matrix, 2 Eddy, 3 Delta,
4 Sluice. -/
def atStopUnit (s : State) (c e : Nat) : Bool :=
  let x := s.ctx c
  match x.stop with
  | .none => false
  | .drain _ =>
    if e = 3 then x.noticeAcks.isEmpty && (ctxCopies s c).isEmpty
    else if e = 4 then true
    else (ctxTeams s c).isEmpty
  | .capture .. =>
    if e = 0 then (ctxAgents s c).all (fun a => (s.grp a).region.isNone && !hasRequests s a)
    else if e = 2 then tilesWhole s c
    else if e = 3 then x.noticeAcks.isEmpty && (ctxCopies s c).all (fun p => stepWhole p.2)
    else true

/-- At an instruction boundary every lane at a blocking TALLOC request stands at its MTS, the request
withdrawn (R68), and one at an access that waits for the supervisor stands at that access (R145). A clause ends there (R356). -/
def settle (c : Nat) (s : State) : State :=
  (ctxAgents s c).foldl (fun s a =>
    let s := s.modCluster (s.clusterNo a) (fun x => { x with waits := x.waits.filter (fun w => w.agent ≠ a) })
    s.modGrp a (fun g =>
      let m := g.lanesWith (fun x => match x with | .talloc _ => true | .pfault => true | _ => false)
      ((g.unfinish m).modLanes m (fun l => { l with st := .ready })).endClause)) s

/-- VCLK stops, after the timers that expire at this VCLK (R258, R263). -/
def freeze (c : Nat) (s : State) : State :=
  let s := (ctxAgents s c).foldl (fun s a => timerEval a s) s
  let v := s.vclk c
  let s := s.modCtx c (fun x => { x with vfrozen := v, vrun := false, frozenAt := s.gtime })
  s.setDesc c 0x60 8 v.toNat

/-- STOP_ACKNOWLEDGEMENT: an engine acknowledges at its stop unit; VCLK stops at the last one. -/
def acknowledge (c e : Nat) (s : State) : State :=
  let x := s.ctx c
  if x.stop = .none ∨ x.vrun = false ∨ e > 4 ∨ x.acks.contains e = true then s
  else
    let cap := match x.stop with | .capture .. => true | _ => false
    let s := if cap && e = 2 then finishTiles c s else s
    if atStopUnit s c e = false then s
    else
      let s := if cap && e = 0 then settle c s
        else if cap && e = 1 then (ctxTeams s c).foldl (fun s t => haltMatrix t.1 s) s else s
      let s := s.modCtx c (fun x => { x with acks := x.acks ++ [e] })
      if (s.ctx c).acks.length < 5 then s
      else
        let s := freeze c s
        match x.stop with
        | .capture _ true => finishKill c s
        | _ => s

def execStopAcknowledgement (ctx engine : Nat) (s : State) : Out := .next (acknowledge ctx engine s)

/-- DRAINMAX: a drain that has lasted DRAINMAX gt becomes a capture (R248). -/
def execDrainmax (ctx : Nat) (s : State) : Out :=
  .next (match (s.ctx ctx).stop with
    | .drain t =>
      let m := s.desc ctx 0x58 8
      if m ≠ 0 ∧ s.gtime ≥ t + m ∧ (s.ctx ctx).vrun = true then toCapture ctx false s else s
    | _ => s)

/-! ## Release (R249, R258, R259, R267, R268, R335) -/

/-- Every engine is released: VCLK goes on from where it stopped, flits and kicks that waited are delivered. -/
def releaseCtx (c : Nat) (s : State) : State :=
  let s := s.modCtx c (fun x => { x with st := .running, stop := .none, acks := [], saved := none, vrun := true,
                                         voff := s.gtime - x.vfrozen.toNat, noticed := false, noticeAcks := [] })
  let s := s.setDesc c 0x04 4 1
  let s := (ctxTeams s c).foldl (fun s t => s.modTeam t.1 (fun t =>
    if t.mqueue.any (fun e => e.stopped || e.performed) then t else { t with mstat := 0 })) s
  let s := sendNotices c 2 (replayKicks c (releaseFlits c s))
  let s := { s with cores := mapV (fun _ (x : Core) => { x with synced := x.synced.drop c }) s.cores }
  ((ctxTeams s c).map (fun t => t.2.core)).eraseDups.foldl (fun s k => firstSync c k s) s

/-! ## The save image (R249, R252) -/

/-- The context's compute leaves the cores and clusters; partials go to their slices (R135, R252). -/
def unplace (c : Nat) (drain : Bool) (size : Nat) (s : State) : State :=
  let ts := ctxTeams s c
  let gs := s.groups.filter (fun p => p.1 ≠ 0 && decide (s.ctxNo p.1 = c))
  let s := (ts.map (fun t => t.2.core)).eraseDups.foldl (fun s k => pushOutAll k s) s
  let sv : Saved := { drain := drain, size := size, teamOff := teamOffsets s c, groupOff := groupOffsets s c, teams := ts, groups := gs, copies := (ctxCopies s c).map (·.2) }
  let s := { s with teams := s.teams.filter (fun p => !ts.any (fun t => t.1 = p.1)),
                    groups := s.groups.filter (fun p => !gs.any (fun g => g.1 = p.1)),
                    cores := s.cores.map (fun (p : Nat × Core) => (p.1, { p.2 with eddy := p.2.eddy.filter (fun e => e.ctx ≠ c) })) }
  let s := s.modCtx c (fun x => { x with saved := some sv })
  let held := ts.filter (fun t => decide (t.2.tmask ≠ 0) || decide (t.2.amask ≠ 0))
  (held.map (fun t => t.2.core / 2)).eraseDups.foldl (fun s k => entriesBack k s) s

/-- SAVE_IMAGE: after every acknowledgement the image is written, or, if it does not fit, the context goes on
as if no stop had been requested (R249). -/
def saveImage (c : Nat) (s : State) : State :=
  let x := s.ctx c
  let drain := match x.stop with | .drain _ => true | _ => false
  if x.st ≠ .stopping ∨ x.stop = .none ∨ x.vrun = true ∨ x.saved.isSome = true ∨ (x.stop matches .capture _ true) then s
  else
    let n := imageSize s c drain
    if s.desc c 0x20 8 < n then
      (releaseCtx c s).modCtx c (fun x => { x with err := 1, need := (n + 4095) / 4096, stepping := false })
    else sameCounts s (writeImage c (imageParts s c drain) (unplace c drain n s))
def execSaveImage (ctx : Nat) (s : State) : Out := .next (saveImage ctx s)

/-! ## The report (R254) -/

/-- An entry of the dirty-page ring, under MEM for a confidential context (R298). -/
def dirtyWrite (c k : Nat) (w : Nat) (s : State) : State :=
  let size := s.desc c 0x50 4
  writeStage2 c (s.desc c 0x48 8 + 8 * (k % max 1 size)) (memView s c (leBytes 8 w)) s

/-- Writes the pages' entries while slots are free; the entries written, and whether an all-ones entry is
still owed. -/
def reportPages (c head free : Nat) : List (DWord × Nat) → Nat → State → Nat × Bool × State
  | [], n, s => (n, false, s)
  | p :: r, n, s =>
    if free - n ≥ 2 then reportPages c head free r (n + 1) (dirtyWrite c (head + n) (p.1.toNat + p.2 * 1024) s)
    else if free - n = 1 then (n + 1, false, dirtyWrite c (head + n) (2 ^ 64 - 1) s)
    else (n, true, s)

/-- The report: where an earlier one found no slot, it begins with the all-ones entry, which covers every page, and goes
on with the pages' own as slots allow. -/
def dirtyReport (c : Nat) (s : State) : State :=
  let x := s.ctx c
  let head := s.desc c 0x54 4
  let free := s.desc c 0x50 4 - (head + 2 ^ 32 - s.desc c 0x6C 4) % 2 ^ 32
  let pages := x.dirty.eraseDups
  let r := if x.dirtyAll = false then reportPages c head free pages 0 s
    else if free = 0 then (0, true, s)
    else
      let r := reportPages c head free pages 1 (dirtyWrite c head (2 ^ 64 - 1) s)
      (r.1, false, r.2.2)
  let s := r.2.2.setDesc c 0x54 4 ((head + r.1) % 2 ^ 32)
  s.modCtx c (fun x => { x with dirty := [], dirtyAll := r.2.1 })

/-- Every write of the context is performed: its copies' remote writes are acknowledged, and nothing of its
partition waits for the host link. -/
def writesDone (s : State) (c : Nat) : Bool :=
  let cs := match (s.ctx c).saved with | some v => v.copies | none => []
  cs.all (fun e => e.acks.all (fun w => s.buffered.any (fun f => decide (f.1.ctx = c) && decide (f.1.typ = 4)
      && decide (infoRank f.1.info = w.1) && decide (infoStep f.1.info = e.step % 2 ^ 24) && decide (fieldOf f.1.data 2 4 = w.2))))
    && !s.hostWrites.any (fun w => w.part = (s.ctx c).part)

def stopReport (c : Nat) (s : State) : State :=
  let x := s.ctx c
  if x.st ≠ .stopping ∨ x.saved.isNone = true ∨ writesDone s c = false then s
  else
    let s := dirtyReport c s
    (s.modCtx c (fun x => { x with st := .stopped, stop := .none, acks := [] })).setDesc c 0x04 4 3
def execStopReport (ctx : Nat) (s : State) : Out := .next (stopReport ctx s)

/-! ## Resume (R253) -/

/-- What a saved team needs of a core. -/
def savedNeed (v : Saved) (g : Grid) (t : Team) : Kernel :=
  let gs := v.groups.filter (fun p => t.groups.contains p.1 && decide (p.2.role ≠ .absent))
  let n (r : Role) : Nat := (gs.filter (fun p => p.2.role = r)).length
  { g.kernel with pcount := n .produce, ccount := n .consume, steer := t.steer.isSome,
                  tiles := popc t.tmask.toNat 16, accs := popc t.amask.toNat 8 }

/-- A saved team takes a core: its slots, its groups and its copies. -/
def restoreTeam (v : Saved) (tm : Nat) (t : Team) (core share : Nat) (s : State) : State :=
  let g := s.grid t.grid
  let s := (setShare core share s).modCore core (fun c => { c with l1 := [] })
  let s := if s.isConf g.ctx then s.modCore core (fun c => { c with ranConf := g.ctx + 1 }) else s
  let slot := lowestFree Config.teamSlots ((coreTeams s core).map (fun t => t.2.slot))
  let sslot := lowestFree Config.steerSlots (((clusterTeams s (core / 2)).filter (fun t => t.2.steer.isSome)).map (fun t => t.2.steerSlot))
  let s := s.modTeam tm (fun _ => { t with core := core, slot := slot, steerSlot := sslot })
  let s := t.agents.foldl (fun s a =>
    let x : Group := v.groups.at a
    let slot := if x.role = .steer then sslot else lowestFree Config.groupSlots ((coreGroups s core).map (fun g => g.slot))
    s.modGrp a (fun _ => { x with slot := slot })) s
  s.modCore core (fun c => { c with eddy := c.eddy ++ v.copies.filter (fun e => e.team = tm) })

/-- Places every saved team, or none: the first placement of all of them there is, by grid and linear index and by the
order of R51, which takes another order or core where that leaves no room for the rest (R253). -/
def restoreAll (v : Saved) : Nat → List (Nat × Team) → State → Option State
  | _, [], s => some s
  | 0, _, _ => none
  | n + 1, ts, s => ts.findSome? (fun p =>
    let g := s.grid p.2.grid
    (coreChoices s g.ctx g.part (savedNeed v g p.2)).findSome? (fun k =>
      restoreAll v n (ts.filter (fun q => q.1 ≠ p.1)) (restoreTeam v p.1 p.2 k.1 k.2 s)))

/-- A scope record of a context that moved to other cores is discarded (R160). -/
def dropRecords (c : Nat) (s : State) : State :=
  { s with l2 := mapV (fun _ x => if (x.scope.map (fun r => r.ctx)) = some c then { x with scope := none } else x) s.l2 }

/-- RESUME: the image is restored when every saved team can be placed at once, else NOROOM. -/
def resume (c : Nat) (s : State) : State :=
  let x := s.ctx c
  if x.st ≠ .stopped ∨ (s.part x.part).st ≠ .active then s
  else
    let v := x.saved.getD {}
    let v := { v with groups := savedGroups s c v }
    match restoreAll v v.teams.length (savedTeams s c v) s with
    | none => s.modCtx c (fun x => { x with err := 4 })
    | some s' =>
      let moved := v.teams.any (fun p => (s'.team p.1).core ≠ p.2.core)
      let s' := if moved then dropRecords c s' else s'
      (s'.modCtx c (fun x => { x with st := .resuming, err := 0 })).setDesc c 0x04 4 4

/-- A formation point is due for the target of a step: its bundle is chosen by the head rule (R338). -/
def aimStep (c : Nat) (s : State) : State :=
  match stepTarget s c with
  | some a => s.modGrp a (fun g => { g with bundle := { g.bundle with due := true, clause := 0 } })
  | none => s

/-- RELEASE: a restored context runs; with DBGSET.STEP, for one instruction of the target (R258, R338). -/
def release (c : Nat) (s : State) : State :=
  if (s.ctx c).st ≠ .resuming then s
  else
    let step := (s.ctx c).dbgset.getLsbD 4
    let s := sameCounts s (releaseCtx c s)
    (if step then aimStep c s else s).modCtx c (fun x => { x with stepping := step, stepAt := s.gtime })
def execRelease (ctx : Nat) (s : State) : Out := .next (release ctx s)

/-- SINGLE_STEP: a resume, or the release after it, with DBGSET.STEP set (R338). -/
def execSingleStep (ctx : Nat) (s : State) : Out :=
  let x := s.ctx ctx
  .next (if x.dbgset.getLsbD 4 = false then s else if x.st = .resuming then release ctx s else resume ctx s)

/-- A capture-mode stop is requested, by a debugger's step or count: members hear HALTED where they have not (R268). -/
def stopHere (c : Nat) (s : State) : State :=
  if (s.ctx c).st = .running then startStop c true false s else breakStop c s

/-- The step is over: the context stops again, also where a drain was under way, STEP clears, and unless STDBG is set the
target owes a STEP fault; an open region of it aborts (R172, R247, R338). -/
def stepOver (c : Nat) (s : State) : State :=
  let x := s.ctx c
  let t := stepTarget s c
  let s := match t with
    | some a =>
      let s := endRegion a 0 5 0 s
      if x.dbgset.getLsbD 1 then s else post a { code := cSTEP } s
    | none => s
  stopHere c (s.modCtx c (fun x => { x with stepping := false, dbgset := x.dbgset &&& ~~~ (16#64) }))

def execStepTimeout (ctx : Nat) (s : State) : Out :=
  let x := s.ctx ctx
  .next (if x.stepping && decide (s.gtime ≥ x.stepAt + 65536) then stepOver ctx s else s)

/-- The counted stop (R339). -/
def rstopDue (s : State) (c : Nat) : Bool :=
  let x := s.ctx c
  x.dbgset.getLsbD 3 && x.vrun && decide (x.st = .running ∨ x.st = .stopping) && decide (x.retired ≥ x.rstop.toNat)
def rstop (c : Nat) (s : State) : State :=
  if rstopDue s c then
    stopHere c (s.modCtx c (fun x => { x with dbgset := x.dbgset &&& ~~~ (8#64) }))
  else s
def execRstop (ctx : Nat) (s : State) : Out := .next (rstop ctx s)

/-! ## CTXCMD (R246, R247, R249) -/

def setErr (c e : Nat) (s : State) : State := s.modCtx c (fun x => { x with err := e })

/-- A command of CTXCMD on a context: 1 drain, 2 capture, 3 resume, 4 kill. -/
def ctxCommand (op c : Nat) (s : State) : State :=
  let s := { s with regs := { s.regs with ctx := bv 12 c } }
  let x := s.ctx c
  if op = 0 ∨ op > 4 then s
  else if x.hasDesc = false ∨ x.st = .free ∨ x.st = .lost then setErr c 3 s
  else match x.st with
    | .running =>
      let s := setErr c 0 s
      if op = 1 then startStop c false false s else if op = 2 then startStop c true false s
      else if op = 4 then startStop c true true s else s
    | .stopped =>
      let s := setErr c 0 s
      if op = 3 then resume c s else if op = 4 then finishKill c s else s
    | .stopping => if op = 2 ∧ (x.stop matches .drain _) ∧ x.vrun = true then toCapture c false (setErr c 0 s) else setErr c 2 s
    | _ => setErr c 2 s

def execStopDrain (ctx : Nat) (s : State) : Out := .next (ctxCommand 1 ctx s)
def execStopCapture (ctx : Nat) (s : State) : Out := .next (ctxCommand 2 ctx s)
def execResume (ctx : Nat) (s : State) : Out := .next (ctxCommand 3 ctx s)
def execKill (ctx : Nat) (s : State) : Out := .next (ctxCommand 4 ctx s)

/-- A kill that KZERO needs, whatever the context is doing (R296, R417). -/
def forceKill (c : Nat) (s : State) : State :=
  match (s.ctx c).st with
  | .running => startStop c true true s
  | .stopped => finishKill c s
  | .resuming => finishKill c s
  | .stopping => if (s.ctx c).vrun then toCapture c true s else finishKill c s
  | .lost => finishKill c s
  | .free => s

/-! ## Deferred faults (R238, R242) -/

/-- DEFERRED_FAULT_DELIVERY: the first due fault of an agent that its context lets run. -/
def execDeferredFaultDelivery (g : Nat) (s : State) : Out :=
  let x := s.grp g
  .next (if x.role = .absent ∨ x.stopped = true ∨ ctxLets s g = false ∨ areaBusy s g = true then s else deliver g s)

end Sys2Proof.Machine
end

