-- ==== Sys2Proof/Machine/Supervisor.lean ====
section
/-!
DEFINITION. Partitions and their resources, key slots, virtual devices, Sluice, partition resets, errors and
retirement (R255, R256, R275 to R288, R290, R294 to R300, R302 to R305), and the instructions KZERO, SCRUB,
PASGN and PFREE (R417, R431, R446).
-/

namespace Sys2Proof.Machine

/-! ## The partition block (R278) -/

def blockKey (p : Nat) : Nat := hwKey (0x100000 + 256 * p)
def maskOfList (l : List Nat) : Nat := l.foldl (fun m i => m ||| 2 ^ i) 0

/-- The base die's fields of a partition's block. -/
def writeBlock (p : Nat) (s : State) : State :=
  let x := s.part p
  let s := s.wrLe (blockKey p) 16 (maskOfList x.clusters)
  let s := s.wrLe (blockKey p + 0x10) 24 (maskOfList x.slices)
  let s := s.wrLe (blockKey p + 0x28) 32 (maskOfList x.channels)
  let s := s.wrLe (blockKey p + 0x48) 2 x.ranges.length
  s.wrLe (blockKey p + 0x60) 8 x.emeter

/-- The supervisor's fields take effect (R278, R279). -/
def loadFields (p : Nat) (s : State) : State :=
  let w := s.rdLe (blockKey p + 0x4A) 2
  s.modPart p (fun x => { x with t2weight := if w = 0 then 1 else w, grantCnt := s.rdLe (blockKey p + 0x4C) 4,
                                 grantBase := bv 64 (s.rdLe (blockKey p + 0x50) 8) })

/-! ## Owners -/

def ownedBy (s : State) (kind idx p : Nat) : Bool :=
  let x := s.part p
  if kind = 0 then x.clusters.contains idx else if kind = 1 then x.slices.contains idx
  else if kind = 2 then x.channels.contains idx else if kind = 3 then x.ranges.contains idx
  else if kind = 4 then decide ((s.key idx).owner = some p) else decide ((s.vdev idx).owner = some p)

def ownerOf (s : State) (kind idx : Nat) : Option Nat := (List.range Config.partitions).find? (fun p => ownedBy s kind idx p)

/-- Numbers of a kind (R275). -/
def kindSize (kind : Nat) : Nat :=
  if kind = 0 then Config.clusters else if kind = 1 then Config.slices else if kind = 2 then Config.channels
  else if kind = 3 then Config.ranges else if kind = 4 then 64 else 256

/-- Frames of a partition's second tier follow their ranges, which lie in ascending index, when a range comes to the place
`i` among them or leaves it (R276). -/
def moveTier (p i : Nat) (own : Bool) (s : State) : State :=
  let lo := t2Key p (i * Config.rangeBytes)
  let hi := (p + 1) * 2 ^ 58
  let g := Config.rangeBytes
  let inside (u k : Nat) : Bool := decide (lo / u ≤ k) && decide (k < hi / u)
  let move (u k : Nat) : Option Nat :=
    if inside u k = false then some k
    else if own then (if k + g / u < hi / u then some (k + g / u) else none)
    else if k < lo / u + g / u then none else some (k - g / u)
  let s := ((s.l2.map (·.1)).filter (inside 128)).foldl (fun s l => foldLine l s) s
  { s with mem := s.mem.filterMap (fun x => (move 1 x.1).map (fun k => (k, x.2))),
           l2 := s.l2.filterMap (fun x => (move 128 x.1).map (fun k => (k, x.2))),
           cores := mapV (fun _ c => { c with l1 := c.l1.filter (fun x => !inside 128 x.1) }) s.cores }

def insertNum (n : Nat) (l : List Nat) : List Nat := sortBy (fun a b => decide (a ≤ b)) (n :: l.filter (fun x => x ≠ n))

/-- A Sluice job that zeroes part of a partition's memory as its clearing. -/
def zeroJob (base pages : Nat) (tier : Bool) (what : Nat × Nat) : Job :=
  { base := base, pages := pages, tier := tier, clear := some what }

/-- The most pages of a job (R305). -/
def maxPages : Nat := 2 ^ 24 - 1
/-- Jobs that zero `t` pages of the second tier: in two where one cannot hold them (R305). -/
def tierJobs (t : Nat) : List Job :=
  if t = 0 then [] else if t ≤ maxPages then [zeroJob 0 t true (3, 4096)]
  else [zeroJob 0 maxPages true (3, 4096), zeroJob (maxPages * 65536) (t - maxPages) true (3, 4096)]

/-- The clearing jobs that are queued fit the memory that a partition owns now: those over all of it, and those of its
ranges. -/
def fitJobs (p : Nat) (s : State) : State :=
  let rs := (s.part p).ranges
  let h := s.hbmSize p / 65536
  let t := s.t2Size p / 65536
  let two := (s.part p).jobs.any (fun j => decide (j.clear = some (3, 4096)) && decide (j.base ≠ 0))
  let fit (j : Job) : List Job :=
    match j.clear with
    | some (2, _) => [{ j with pages := min j.pages h }]
    | some (3, 4096) =>
      if j.base ≠ 0 then [{ j with pages := t - maxPages }]
      else { j with pages := min t maxPages } :: (if two then [] else (tierJobs t).drop 1)
    | some (3, r) => [if rs.contains r then { j with base := rs.idxOf r * Config.rangeBytes } else { j with pages := 0 }]
    | _ => [j]
  s.modPart p (fun x => { x with jobs := x.jobs.flatMap fit })

def setOwned (kind idx p : Nat) (own : Bool) (s : State) : State :=
  let f (l : List Nat) : List Nat := if own then insertNum idx l else l.filter (fun x => x ≠ idx)
  let rs := (s.part p).ranges
  let s := if kind = 3 ∧ rs.contains idx ≠ own then moveTier p (rs.filter (fun r => decide (r < idx))).length own s else s
  let s := if kind = 4 then s.modKey idx (fun k => { k with owner := if own then some p else none })
    else if kind = 5 then s.modVDev idx (fun d => { d with owner := if own then some p else none })
    else s.modPart p (fun x =>
      if kind = 0 then { x with clusters := f x.clusters } else if kind = 1 then { x with slices := f x.slices }
      else if kind = 2 then { x with channels := f x.channels } else { x with ranges := f x.ranges })
  writeBlock p (if kind = 2 ∨ kind = 3 then fitJobs p s else s)

/-- A partition owns nothing. -/
def ownsNothing (s : State) (p : Nat) : Bool :=
  let x := s.part p
  x.clusters.isEmpty && x.slices.isEmpty && x.channels.isEmpty && x.ranges.isEmpty
    && !s.keys.any (fun k => k.2.owner = some p) && !s.vdevs.any (fun d => d.2.owner = some p)

/-- Contexts of a partition that have a descriptor. -/
def partCtxs (s : State) (p : Nat) : List Nat := (s.ctxs.filter (fun x => x.2.hasDesc && decide (x.2.part = p))).map (·.1)

/-! ## Clearing (R280, R282, R287, R305) -/

/-- Jobs over every frame of a partition (R305); that over its HBM4E is the clearing of a channel `ch`, or of none. -/
def wholeJobs (s : State) (p ch : Nat) : List Job :=
  let h := s.hbmSize p / 65536
  (if h = 0 then [] else [zeroJob 0 h false (2, ch)]) ++ tierJobs (s.t2Size p / 65536)

/-- What a partition has still to clear. -/
def isClear (x : Partition) : Bool := x.clearing.isEmpty && !x.jobs.any (fun j => j.clear.isSome)

/-- A SCRUBBING partition all of whose clearing is complete reports READY, or FREE when it owns nothing. -/
def settlePart (p : Nat) (s : State) : State :=
  let x := s.part p
  if isClear x = false then s
  else if ownsNothing s p then s.modPart p (fun x => { x with st := if x.st = .scrubbing ∨ x.st = .ready then .free else x.st })
  else if x.st = .scrubbing then s.modPart p (fun x => { x with st := .ready })
  else s

/-- A cluster's cores, tile pool and queues hold zero (R282); partials of grids that still run elsewhere leave for their
home slices first (R135). -/
def clearCore (k : Nat) (s : State) : State := (pushOutAll k s).modCore k (fun c => { queue := c.queue, synced := c.synced, sampled := c.sampled })
def clearCluster (c : Nat) (s : State) : State :=
  (clearCore (2 * c) (clearCore (2 * c + 1) s)).modCluster c (fun x => { x with waits := [], admitted := 0 })

/-- A slice's lines are written back and leave it, with their records and metadata; lines under a key stay so
in memory. -/
def clearSlice (p idx : Nat) (s : State) : State :=
  let sl := (s.part p).slices
  let here (l : Nat) : Bool := decide (partOfKey (128 * l) = p) && decide (sl.getD (homeIndex sl.length (128 * l)) 192 = idx)
  let s := ((s.l2.filter (fun l => here l.1)).map (·.1)).foldl (fun s l => foldLine l s) s
  { s with l2 := mapV (fun l x => if here l then { conf := x.conf, tag := x.tag, ctr := x.cleaned.ctr } else x) s.l2 }

/-- The kick page leaves its guest, and the bitmap is clear. -/
def clearVd (v : Nat) (s : State) : State := s.modVDev v (fun d => { owner := d.owner })

/-- The effect of clearing one resource. -/
def clearOne (p kind idx : Nat) (s : State) : State :=
  if kind = 0 then clearCluster idx s else if kind = 1 then clearSlice p idx s
  else if kind = 4 then zeroise idx s else if kind = 5 then clearVd idx s else s

/-- An entry of a partition's clearing is complete: ownership ends where it was freed. -/
def endClearing (p kind idx : Nat) (s : State) : State :=
  let es := (s.part p).clearing.filter (fun e => decide (e.1 = kind) && decide (e.2.1 = idx))
  if es = [] then s
  else
    let s := s.modPart p (fun x => { x with clearing := x.clearing.filter (fun e => !(decide (e.1 = kind) && decide (e.2.1 = idx))) })
    settlePart p (if es.any (fun e => e.2.2) then setOwned kind idx p false s else s)

/-- Cores that ran a confidential context are cleared, as kind 6, when no team is on them; a kill that waited
for the last of them ends (R282). -/
def clearConfCore (k : Nat) (s : State) : State :=
  let r := (s.core k).ranConf
  if r = 0 ∨ (coreTeams s k).isEmpty = false then s
  else
    let s := clearCore k s
    if killWaits s (r - 1) then tryFree (r - 1) s else s

/-- The on-chip clearing of a reset is complete: the paused job goes on (R287). -/
def unpause (p : Nat) (s : State) : State :=
  let x := s.part p
  if x.paused && decide (x.st = .scrubbing) && !x.clearing.any (fun e => decide (e.1 = 0) || decide (e.1 = 1)) then
    s.modPart p (fun x => { x with paused := false })
  else s

/-- CLEARING: the clearing of a resource of a partition completes; memory is cleared by its Sluice job. -/
def execClearing (part kind idx : Nat) (s : State) : Out :=
  .next (if kind = 6 then clearConfCore idx s
    else if kind = 2 ∨ kind = 3 then s
    else if (s.part part).clearing.any (fun e => decide (e.1 = kind) && decide (e.2.1 = idx)) then
      unpause part (endClearing part kind idx (clearOne part kind idx s))
    else s)

/-- Every resource of a partition is to be cleared: on-chip, keys and devices, and memory by Sluice. -/
def clearAll (p : Nat) (ends : Bool) (jobs : List Job) (s : State) : State :=
  let x := s.part p
  let ks := (s.keys.filter (fun k => k.2.owner = some p)).map (·.1)
  let vs := (s.vdevs.filter (fun d => d.2.owner = some p)).map (·.1)
  let es := x.clusters.map (fun c => (0, c, ends)) ++ x.slices.map (fun c => (1, c, ends))
    ++ ks.map (fun k => (4, k, ends)) ++ vs.map (fun v => (5, v, ends))
  s.modPart p (fun x => { x with st := .scrubbing, clearing := x.clearing ++ es.filter (fun e => !x.clearing.contains e),
                                 jobs := x.jobs ++ jobs })

/-! ## PASGN and PFREE (R280) -/

/-- Fields of an operand of PASGN or PFREE: kind, partition, index; BADARG where one is out of range. -/
def resArg (v : Word) : Option (Nat × Nat × Nat) :=
  let w := v.toNat
  let kind := bits w 31 28
  let p := bits w 27 22
  let idx := bits w 10 0
  if bits w 21 11 ≠ 0 ∨ kind > 5 ∨ p > 39 ∨ idx ≥ kindSize kind then none else some (kind, p, idx)

/-- A resource is being cleared: by itself, or a channel or range by a job over all its partition owns. -/
def beingCleared (s : State) (kind idx : Nat) : Bool :=
  s.parts.any (fun x => x.2.clearing.any (fun e => decide (e.1 = kind) && decide (e.2.1 = idx))
    || (decide (kind = 2) && x.2.channels.contains idx && x.2.jobs.any (fun j => j.clear.any (fun e => decide (e.1 = 2))))
    || (decide (kind = 3) && x.2.ranges.contains idx
        && x.2.jobs.any (fun j => decide (j.clear = some (3, 4096)) || decide (j.clear = some (3, idx)))))

/-- A resource is still being cleared after a PFREE that returned OK (R280). -/
def beingFreed (s : State) (kind idx : Nat) : Bool :=
  s.parts.any (fun x => x.2.clearing.contains (kind, idx, true))

/-- A queued or running job names a key slot (R280, R283). -/
def slotScrubbed (s : State) (k : Nat) : Bool := s.parts.any (fun x => x.2.jobs.any (fun j => j.kslot = k))

/-- A change of a partition's slices or channels: SCRUBBING, and Sluice zeroes all it owns, which is the clearing of a
channel `ch` that it frees; with nothing to zero it is clear at once. -/
def rescrub (p ch : Nat) (s : State) : State :=
  settlePart p (s.modPart p (fun x => { x with st := .scrubbing, jobs := x.jobs ++ wholeJobs s p ch }))

/-- PASGN. Before stage READY no partition may be created (R15): the status is STATE, after the others (DESIGN CHOICE,
log 113). -/
def assign (kind p idx : Nat) (s : State) : Nat × State :=
  let st := (s.part p).st
  if beingCleared s kind idx || (kind = 4 && slotScrubbed s idx) then (1, s)
  else if (ownerOf s kind idx).isSome then (2, s)
  else if s.boot.stage ≠ .ready ∨ ((kind = 1 ∨ kind = 2) ∧ (st = .active ∨ st = .resetting)) then (3, s)
  else
    let s := setOwned kind idx p true s
    (0, if kind = 1 ∨ kind = 2 then rescrub p 4096 s
        else if st = .free then s.modPart p (fun x => { x with st := .ready }) else s)

/-- A context that is not FREE is bound to a key slot or device. -/
def boundBusy (s : State) (b : Option Nat) : Bool := match b with | some c => decide ((s.ctx c).st ≠ .free) | none => false

/-- PFREE. A READY partition is SCRUBBING until the freed resource is clear (R277); an ACTIVE one stays so. -/
def free (kind p idx : Nat) (s : State) : Nat × State :=
  let x := s.part p
  let mem := decide (kind = 1) || decide (kind = 2)
  if ownedBy s kind idx p = false ∨ (mem = true ∧ x.st = .active) ∨ (kind = 0 ∧ x.st = .active ∧ x.clusters.length ≤ 1) then (3, s)
  else if x.st = .resetting ∨ beingFreed s kind idx = true then (1, s)
  else if (kind = 0 ∧ !(clusterTeams s idx).isEmpty) ∨ (kind = 4 ∧ boundBusy s (s.key idx).bound)
      ∨ (kind = 5 ∧ boundBusy s (s.vdev idx).bound) then (2, s)
  else
    let s := s.modPart p (fun x => { x with
      clearing := x.clearing ++ [(kind, idx, true)], st := if x.st = .ready then .scrubbing else x.st })
    (0, if mem then rescrub p (if kind = 2 then idx else 4096) s
        else if kind = 3 then
          let i := x.ranges.idxOf idx
          s.modPart p (fun x => { x with jobs := x.jobs ++ [zeroJob (i * Config.rangeBytes) (Config.rangeBytes / 65536) true (3, idx)] })
        else s)

def resK (f : Nat → Nat → Nat → State → Nat × State) (o : Body) (s : State) : Res :=
  if s.actMask o = 0 then .ok s
  else
    let v := (s.me.opv false o.a 0).extractLsb' 0 32
    let r := match resArg v with | none => (4, s) | some (kind, p, idx) => f kind p idx s
    .ok (r.2.modMe (fun g => g.wr false o.dst 0 (bv 64 r.1)))
def execPasgn (o : Body) (s : State) : Out := perform 0xC2 o (resK assign o) s
def execPfree (o : Body) (s : State) : Out := perform 0xC3 o (resK free o) s

/-! ## Sluice (R283, R286, R304, R446) -/

def scrubK (o : Body) (s : State) : Res :=
  if s.actMask o = 0 then .ok s
  else
    let g := s.me
    let n := o.a.num
    let w (i : Nat) : Nat := (g.sreg (n + i)).toNat
    let base := w 0 + bits (w 1) 24 0 * 2 ^ 32
    let count := w 2 % 2 ^ 24
    let kslot := bits (w 3) 23 16
    let tier := bit1 (w 3) 8
    let p := bits (w 3) 5 0
    let bad := decide (bits (w 0) 15 0 ≠ 0) || decide (bits (w 1) 31 25 ≠ 0) || decide (bits (w 2) 31 24 ≠ 0)
      || decide (bits (w 3) 31 24 ≠ 0) || decide (bits (w 3) 15 9 ≠ 0) || decide (bits (w 3) 7 6 ≠ 0)
      || decide (count = 0) || decide (p > 39) || (decide (kslot ≥ 64) && decide (kslot ≠ 255))
      || decide (base + 65536 * count > (if tier then s.t2Size p else s.hbmSize p))
    if bad then .trap { code := cACCESS } s
    else if (s.part p).jobs.length ≥ Config.sluiceJobs then .hold
    else
      let j : Job := { base := base, pages := count, tier := tier, kslot := kslot, agent := some s.cur.agent, flag := o.fset }
      .ok ((s.modPart p (fun x => { x with jobs := x.jobs ++ [j] })).modMe (fun g => g.setFlag o.fset s.cur.pc))
def execScrub (o : Body) (s : State) : Out := perform 0xC1 o (scrubK o) s

/-- A frame's first key. -/
def frameKey (p : Nat) (tier : Bool) (base : Nat) : Nat := if tier then t2Key p base else hbmKey p base

/-- What is left of one page is zeroed: its lines conflict and lose race metadata, also in the shadow region, and encryption with its tag (R167, R175, R186, R283).
Words that Sluice has zeroed already are not written again (R286). -/
def zeroPage (p : Nat) (tier : Bool) (base : Nat) (zeroed : List Nat) (s : State) : State :=
  let k := frameKey p tier base
  let inside (l : Nat) : Bool := decide (k / 128 ≤ l) && decide (l < k / 128 + 512)
  let ls := (s.openRegions.flatMap (fun r => r.2.reads ++ r.2.writes) ++ s.l2.map (·.1)
    ++ s.cores.flatMap (fun c => c.2.sums.flatMap (fun q => q.lines))).filter inside
  let s := ls.eraseDups.foldl (fun s l => touchLine none true l s) s
  let s : State := { s with l2 := mapV (fun l x => if inside l then
      let out := x.rc.isSome && !x.present
      { x with race0 := 0, race1 := 0, gone0 := x.gone0 || out, gone1 := x.gone1 || out, conf := 0, tag := 0 } else x) s.l2 }
  { s with mem := s.mem.filter (fun x => decide (x.1 < k) || decide (k + 65536 ≤ x.1) || zeroed.contains ((x.1 - k) / 4)) }

/-- Sluice zeroes a word of the page in progress (R286). -/
def zeroWord (p word : Nat) (s : State) : State :=
  let x := s.part p
  match x.jobs with
  | [] => s
  | j :: r =>
    if x.paused || j.fence || j.zeroed.contains word || decide (word ≥ 16384) then s
    else
      let k := frameKey p j.tier (j.base + 65536 * j.done) + 4 * word
      outsideWrite k (zeros 4) (s.modPart p (fun x => { x with jobs := { j with zeroed := j.zeroed ++ [word] } :: r }))

/-- SLUICE_PAGE: the head job zeroes a page, and completes at its last, with the clearing that no other job is for; a QFENCE
entry ends at the head. Headwater's flags are agent 0's. -/
def sluicePage (p : Nat) (s : State) : State :=
  let x := s.part p
  if x.paused then s
  else match x.jobs with
    | [] => s
    | j :: r =>
      let flag (s : State) : State := match j.agent with | some a => completeFlag a j.flag s | none => s
      if j.fence then flag (s.modPart p (fun x => { x with jobs := r }))
      else
        let s := if j.done < j.pages then zeroPage p j.tier (j.base + 65536 * j.done) j.zeroed s else s
        if j.done + 1 < j.pages then s.modPart p (fun x => { x with jobs := { j with done := j.done + 1, zeroed := [] } :: r })
        else
          let s := flag (s.modPart p (fun x => { x with jobs := r, lastDone := j.pages }))
          let s := match j.clear with
            | some e => if r.any (fun y => decide (y.clear = some e)) then s else endClearing p e.1 e.2 s
            | none => s
          settlePart p s
def execSluicePage (part : Nat) (s : State) : Out := .next (sameCounts s (sluicePage part s))

/-- SCRUBPROG of a partition (R285). -/
def scrubProg (x : Partition) : Word :=
  let jobs := x.jobs.filter (fun j => !j.fence)
  match jobs with
  | [] => bv 32 (x.lastDone % 2 ^ 24)
  | j :: r => bv 32 ((if x.paused then 2 else 1) * 2 ^ 29 + min 31 r.length * 2 ^ 24 + j.done % 2 ^ 24)

/-! ## KZERO and key slots (R295, R296, R417) -/

def kzeroK (o : Body) (s : State) : Res :=
  let v := (s.me.opv false o.a 0).toNat % 2 ^ 32
  if s.actMask o = 0 then .ok s
  else if v ≥ 64 then .trap { code := cACCESS } s
  else match (s.key v).bound with
    | some c =>
      if boundBusy s (some c) then unlessWaits (finishKzero (forceKill c (waitAt s.cur.act (.kzero v) s)))
      else .ok (zeroise v s)
    | none => .ok (zeroise v s)
def execKzero (o : Body) (s : State) : Out := perform 0xC0 o (kzeroK o) s

/-- STATE and KEYS of a slot (R295). -/
def keyState (k : KeySlot) : Nat :=
  if k.bound.isSome then 2 else if k.mem.isSome ∨ k.report.isSome then 1 else 0

def genMem (k : Nat) (s : State) : State :=
  if (s.key k).owner.isNone then s
  else { s.modKey k (fun x => { x with mem := some (Config.entropyKey s.fresh) }) with fresh := s.fresh + 1 }
def execGenerateMem (slot : Nat) (s : State) : Out := .next (genMem slot s)

/-- A block imports its key where the session key verifies its tag. -/
def importReport (k : Nat) (key : BitVec 256) (tag : BitVec 128) (s : State) : State :=
  if (s.key k).owner.isNone ∨ Config.gcmTagOk key tag = false then s
  else s.modKey k (fun x => { x with report := some key })
/-- IMPORT REPORT by MTS takes the block that the tenant has written (R295). -/
def importBlock (k : Nat) (s : State) : State :=
  match (s.key k).block with
  | some b => importReport k b.1 b.2 s
  | none => s
def execImportReport (slot : Nat) (key : BitVec 256) (tag : BitVec 128) (s : State) : Out := .next (importReport slot key tag s)

def bindKey (k c : Nat) (s : State) : State :=
  let x := s.key k
  if x.owner.isSome ∧ x.mem.isSome ∧ x.report.isSome ∧ (s.ctx c).hasDesc = true ∧ x.owner = some (s.ctx c).part then
    s.modKey k (fun x => { x with bound := some c })
  else s
def execKeyslotBind (slot ctx : Nat) (s : State) : Out := .next (bindKey slot ctx s)

/-! ## Virtual devices (R289, R290, R321) -/

/-- A queue's counts are 0, and its completion ring's header holds zero (R324). -/
def resetQueue (v p q : Nat) (s : State) : State :=
  let s := s.modVQ v q (fun x => { ring := x.ring, cring := x.cring, size := x.size, vector := x.vector })
  let x := s.vq v q
  if x.size = 0 then s else hostSend { part := p, vd := v, iova := x.cring.toNat, data := zeros 16 } s

/-- BIND: the device's queues start at 0, with no host translation held (R290, R320, R324). -/
def vdBind (v c : Nat) (s : State) : State :=
  match (s.vdev v).owner with
  | some p =>
    if (s.part p).st = .active ∧ (s.ctx c).hasDesc = true ∧ (s.ctx c).part = p then
      let s : State := { s.modVDev v (fun d => { d with bound := some c }) with atc := s.atc.filter (fun e => e.1 ≠ v) }
      (s.vdev v).queues.foldl (fun s q => resetQueue v p q.1 s) s
    else { s with regs := { s.regs with vdNone := true } }
  | none => { s with regs := { s.regs with vdNone := true } }
def execVdBind (vd ctx : Nat) (s : State) : Out := .next (vdBind vd ctx s)

def vdUnbind (v : Nat) (s : State) : State :=
  { s.modVDev v (fun d => { d with bound := none }) with atc := s.atc.filter (fun e => e.1 ≠ v) }
def execVdUnbind (vd : Nat) (s : State) : Out := .next (vdUnbind vd s)

/-! ## Commands of PARTCFG (R256, R279) -/

def setPartErr (p e : Nat) (s : State) : State := s.modPart p (fun x => { x with err := e })

def meetsMinimum (x : Partition) : Bool :=
  decide (x.clusters.length ≥ 1) && decide (x.slices.length ≥ 2) && decide (x.channels.length ≥ 4)

def activate (p : Nat) (s : State) : State :=
  let x := s.part p
  if x.st = .resetting then setPartErr p 1 s
  else if x.st ≠ .ready ∨ s.boot.stage ≠ .ready then setPartErr p 4 s
  else if meetsMinimum x = false then setPartErr p 2 s
  else loadFields p (s.modPart p (fun x => { x with st := .active, err := 0, eacct := 0 }))

def refresh (p : Nat) (s : State) : State :=
  let x := s.part p
  if x.st = .resetting then setPartErr p 1 s
  else if x.st ≠ .active then setPartErr p 4 s
  else
    let c := s.rdLe (blockKey p + 0x58) 8
    let s := (loadFields p s).modPart p (fun x => { x with err := 0, eacct := x.eacct + (c : Int) })
    retryBookings p (s.wrLe (blockKey p + 0x58) 8 0)

/-- Steps 1 to 3 of a partition reset (R256): engines stop, accesses not performed and partials are dropped,
contexts are LOST and their launches complete FAULTED, departures are sent; Sluice completes the page in progress, its job
is paused and the reset's jobs are placed (R287, R305). -/
def beginReset (p : Nat) (s : State) : State :=
  let cs := (partCtxs s p).filter (fun c => (s.ctx c).st ≠ .free)
  let s := if (s.part p).jobs.head?.any (fun j => !j.fence) then sameCounts s (sluicePage p s) else s
  let s := { s with
    l2 := mapV (fun l x => if partOfKey (128 * l) = p then { x with merge := none } else x) s.l2,
    cores := s.cores.map (fun (k : Nat × Core) => (k.1,
      if (s.part p).clusters.contains (k.1 / 2) then { k.2 with queue := [], waiters := [], eddy := [], partials := [], sums := [] } else k.2)) }
  let s := s.modPart p (fun x => { x with st := .resetting, paused := true, jobs := x.jobs ++ wholeJobs s p 4096 })
  let s := cs.foldl (fun s c => endLaunches c cECC s) s
  let s := cs.foldl (fun s c =>
    let v := s.vclk c
    let s := (noteFault c 2 s).modCtx c (fun x => { x with
      st := .lost, stop := .none, acks := [], saved := none, vfrozen := v, vrun := false, stepping := false })
    (sendNotices c 3 s).setDesc c 0x04 4 5) s
  finishKzero s

/-- Steps 1 to 3 end: the partition is SCRUBBING, and its on-chip state is cleared (R256, R282). -/
def resetScrubs (p : Nat) (s : State) : State := unpause p (clearAll p false [] s)

def resetCommand (p : Nat) (s : State) : State :=
  let x := s.part p
  if x.st = .resetting then setPartErr p 1 s
  else if x.st ≠ .active then setPartErr p 4 s
  else beginReset p (setPartErr p 0 s)

def deactivate (p : Nat) (s : State) : State :=
  let x := s.part p
  if x.st = .resetting then setPartErr p 1 s
  else if x.st ≠ .active then setPartErr p 4 s
  else if (partCtxs s p).any (fun c => (s.ctx c).st ≠ .free) then setPartErr p 3 s
  else clearAll p false (wholeJobs s p 4096) (setPartErr p 0 s)

def execActivate (part : Nat) (s : State) : Out := .next (activate part s)
def execRefresh (part : Nat) (s : State) : Out := .next (refresh part s)
/-- RESET: starts a reset of an ACTIVE partition; of one that is RESETTING, its steps 1 to 3 end. -/
def execReset (part : Nat) (s : State) : Out :=
  .next (if (s.part part).st = .resetting then resetScrubs part s else resetCommand part s)
def execDeactivate (part : Nat) (s : State) : Out := .next (deactivate part s)

/-! ## Errors and retirement (R255, R288) -/

/-- Headwater's count of errors of a unit: 0 to 3 the kinds of R275, 4 its own memory, 5 the key store. -/
def countError (unit idx : Nat) (s : State) : State :=
  { s with softErrors := s.softErrors.put (65536 * unit + idx) (s.softErrors.at (65536 * unit + idx) + 1) }
def execSoftError (unit idx : Nat) (s : State) : Out := .next (countError unit idx s)

/-- Where clearing jobs that are queued, in their order, have zeroed a tier to, from `lo` on without a gap. -/
def cleansTo (tier : Bool) (js : List Job) (lo : Nat) : Nat :=
  js.foldl (fun n j => if j.clear.isSome ∧ j.tier = tier ∧ j.base + 65536 * j.done ≤ n then max n (j.base + 65536 * j.pages) else n) lo

/-- Storage of a SCRUBBING partition fails: its clearing, where it has not got that far, takes the error in; what it has
cleared is cleared again (R255). A channel holds part of every frame of HBM4E. -/
def clearAgain (p unit idx : Nat) (s : State) : State :=
  let x := s.part p
  if unit = 3 then
    let lo := x.ranges.idxOf idx * Config.rangeBytes
    if lo + Config.rangeBytes ≤ cleansTo true x.jobs lo then s
    else s.modPart p (fun x => { x with jobs := x.jobs ++ [zeroJob lo (Config.rangeBytes / 65536) true (3, idx)] })
  else if unit = 2 then
    if s.hbmSize p ≤ cleansTo false x.jobs 0 then s
    else
      let ch := if x.clearing.any (fun e => decide (e.1 = 2) && decide (e.2.1 = idx)) then idx else 4096
      s.modPart p (fun x => { x with jobs := x.jobs ++ [zeroJob 0 (s.hbmSize p / 65536) false (2, ch)] })
  else if beingCleared s unit idx then s
  else s.modPart p (fun x => { x with clearing := x.clearing ++ [(unit, idx, false)] })

/-- UNCORRECTABLE_ERROR: the owner is reset in isolation; a reset or clearing in progress absorbs it, and what
was clear already is cleared again; Headwater's memory and the key store reset the module. -/
def uncorrectable (unit idx : Nat) (s : State) : State :=
  if unit ≥ 4 then moduleReset s
  else
    let s := countError unit idx s
    let s := if unit = 1 then { s with tagErrors := s.tagErrors.erase idx } else s
    let s := if unit = 0 then s.modCluster idx (fun c => { c with errors := c.errors + 1 }) else s
    match ownerOf s unit idx with
    | none => s
    | some p =>
      match (s.part p).st with
      | .resetting => s
      | .scrubbing => clearAgain p unit idx s
      | _ => beginReset p s
def execUncorrectableError (unit idx : Nat) (s : State) : Out := .next (uncorrectable unit idx s)

/-- Contexts with work on a cluster. -/
def clusterCtxs (s : State) (c : Nat) : List Nat := ((clusterTeams s c).map (fun t => (s.grid t.2.grid).ctx)).eraseDups

/-- A cluster is to be retired: an uncorrectable error once its owner's reset is complete, or 4 MATRIXCHK
faults within 2^30 gt. -/
def retireDue (s : State) (c : Nat) : Bool :=
  let x := s.cluster c
  let resetDone := match ownerOf s 0 c with | some p => decide ((s.part p).st ≠ .resetting) && decide ((s.part p).st ≠ .scrubbing) | none => true
  !x.unusable && ((decide (x.errors > 0) && resetDone) || decide ((x.chks.filter (fun t => s.gtime < t + 2 ^ 30)).length ≥ 4))

/-- The contexts with work on a cluster that is being retired stop in capture mode. -/
def stopAll (cs : List Nat) (s : State) : State :=
  cs.foldl (fun s k => if (s.ctx k).st = .running then startStop k true false s
    else if ((s.ctx k).stop matches .drain _) && (s.ctx k).vrun then toCapture k false s else s) s

/-- CLUSTER_RETIRE: stops the contexts with work there, those among them whose resume was under way too, then marks the
cluster, takes it out of CLMASK without clearing, and resumes each (R288). -/
def clusterRetire (c : Nat) (s : State) : State :=
  let here := clusterCtxs s c
  match (s.cluster c).retiring with
  | none =>
    if retireDue s c then (stopAll here s).modCluster c (fun x => { x with retiring := some here })
    else s
  | some cs =>
    if here.any (fun k => !cs.contains k) || here.any (fun k => decide ((s.ctx k).st = .running)) then
      (stopAll here s).modCluster c (fun x => { x with retiring := some (cs ++ here).eraseDups })
    else if !here.isEmpty || cs.any (fun k => decide ((s.ctx k).st = .stopping) || decide ((s.ctx k).st = .resuming)) then s
    else
      let s := s.modCluster c (fun x => { x with unusable := true, retiring := none, errors := 0, chks := [] })
      let s := { s with boot := { s.boot with usable := s.boot.usable - 1 } }
      let s := match ownerOf s 0 c with | some p => setOwned 0 c p false s | none => s
      cs.foldl (fun s k => resume k s) s
def execClusterRetire (cluster : Nat) (s : State) : Out := .next (clusterRetire cluster s)

/-! ## Energy and attestation (R297, R299) -/

/-- A unit's energy divided among the grids that used it, in proportion to their use: issue clk or bytes (R299); the last
of them takes what the division leaves (DESIGN CHOICE, log 114). -/
def energyShares (total : Nat) : List (Nat × Nat) → Nat → List (Nat × Nat)
  | [], _ => []
  | (g, u) :: r, energy =>
    let x := if r = [] then energy else min energy (if total = 0 then 0 else energy * u / total)
    (g, x) :: energyShares (total - u) r (energy - x)

/-- The shares of every unit of a window. -/
def windowShares (units : List (Nat × List (Nat × Nat))) : List (Nat × Nat) :=
  units.flatMap (fun u => energyShares ((u.2.map (·.2)).sum) u.2 u.1)

/-- A grid of a partition that can have used a unit in the window that ends: it is there, and its context has not been stopped
all the time, or it has ended in the window. -/
def inWindow (s : State) (p gr : Nat) : Bool :=
  let from_ := (s.part p).ewin * 10000
  let c := s.ctx (s.grid gr).ctx
  (gridOpen s gr && decide ((s.grid gr).part = p) && (c.vrun || decide (from_ ≤ c.frozenAt)))
    || (s.part p).ended.any (fun e => decide (e.1 = gr) && decide (from_ ≤ e.2))

/-- ENERGY_METER_WINDOW: what each unit of a partition took in a 10 µs window, with the use the grids made of it, joins
the grids' totals and EMETER; a stopped grid is measured at zero. A grid that has ended in the window is charged for its last
shares here (DESIGN CHOICE, log 114). -/
def meter (p : Nat) (units : List (Nat × List (Nat × Nat))) (s : State) : State :=
  if s.gtime < ((s.part p).ewin + 1) * 10000 then s
  else
    let xs := (windowShares units).filter (fun x => inWindow s p x.1)
    let late := xs.filter (fun x => !gridOpen s x.1)
    let s := (xs.filter (fun x => gridOpen s x.1)).foldl (fun s x => s.modGrid x.1 (fun g => { g with measured := g.measured + x.2 })) s
    let w := s.gtime / 10000
    writeBlock p (s.modPart p (fun y => { y with
      emeter := y.emeter + (xs.map (·.2)).sum, eacct := y.eacct - ((late.map (·.2)).sum : Int), ewin := w,
      ended := y.ended.filter (fun e => decide (w * 10000 ≤ e.2)) }))
def execEnergyMeterWindow (part : Nat) (units : List (Nat × List (Nat × Nat))) (s : State) : Out := .next (meter part units s)

/-- The bytes of a context's report, before its signature (R297). -/
def reportBody (c : Nat) (nonce : BitVec 256) (s : State) : List Byte :=
  let masks := s.rdN (blockKey (s.ctx c).part) 72
  leBytes 32 s.boot.measure.toNat ++ leBytes 2 s.boot.imgver.toNat
    ++ leBytes 32 (Config.sha3 masks).toNat ++ leBytes 2 c
    ++ (s.ctx c).digests.flatMap (fun d => leBytes 32 d.toNat) ++ leBytes 32 nonce.toNat
def execAttestationReport (ctx : Nat) (nonce : BitVec 256) (s : State) : Out :=
  let b := reportBody ctx nonce s
  .next { s with reports := s.reports ++ [b ++ Config.mldsaSign (Config.sha3 b)] }

/-- HOST_WRITE: a host or peer write to a context's memory is performed at once (R175, R267). -/
def execHostWrite (ctx : Nat) (addr : DWord) (data : List Byte) (s : State) : Out :=
  .next (match peerWrite ctx addr data s with
    | .ok s => s
    | .error _ => s)

end Sys2Proof.Machine
end

