-- ==== Sys2Proof/Machine/System.lean ====
section
/-!
DEFINITION. The status registers (R84 to R90) with their shadows, RDVT, RDCNT, EBOOK and TMARK (R301, R402, R426,
R427, R440, R459), and the events of the registers, of formation points and of faults at the partition's stage
(R145).
-/

namespace Sys2Proof.Machine

/-! ## Reading (R86) -/

/-- TRAPCAUSE (R237). -/
def trapcauseOf (t : TrapRegs) : Word :=
  bv 32 ((if t.inTrap then 512 else 0) + (if t.deferred then 256 else 0) + t.code.toNat)

/-- TIMERCTL (R262). -/
def timerctlOf (t : Timer) : Word :=
  bv 32 (t.wd.toNat * 65536 + t.flag.toNat * 256 + (if t.fired then 4 else 0) + t.mode.toNat)

/-- MSLOT (R199). -/
def mslotOf (s : State) (a : Nat) : Word :=
  let c := s.clusterNo a
  let x := s.cluster c
  let mine (w : Word) : Bool := w.getLsbD 18 && decide ((w.extractLsb' 0 12).toNat = s.ctxNo a)
  bv 32 ((x.slots.filter (fun p => mine p.2)).length * 65536
    + (if mine (x.slots.at (s.slotOf c)) then 128 else 0) + s.slotOf c)

def roleCode : Role → Nat
  | .consume => 1
  | .steer => 2
  | .headwater => 2
  | _ => 0

def ctxStCode : CtxSt → Nat
  | .free => 0 | .running => 1 | .stopping => 2 | .stopped => 3 | .resuming => 4 | .lost => 5

def partStCode : PartSt → Nat
  | .free => 0 | .scrubbing => 1 | .ready => 2 | .active => 3 | .resetting => 4

/-- The privileged registers of 32 bits (R196, R246, R279, R284, R285, R290, R292, R295); CTXCMD reads 0. -/
def privRead (s : State) (idx : Nat) : Word :=
  let r := s.regs
  match idx with
  | 0x800 =>
    let x := s.part r.partcfg.toNat
    bv 32 (partStCode x.st * 2 ^ 24 + x.err * 2 ^ 20 + r.partcfg.toNat)
  | 0x801 =>
    let k := s.key r.keyslot.toNat
    bv 32 (keyState k * 2 ^ 26 + (if k.mem.isSome then 2 ^ 25 else 0) + (if k.report.isSome then 2 ^ 24 else 0)
      + r.keyslot.toNat * 2 ^ 18 + r.keyctx.toNat)
  | 0x802 => r.scrubctl.zeroExtend 32
  | 0x803 => scrubProg (s.part r.scrubctl.toNat)
  | 0x804 =>
    let p := if r.vdNamed = false then 0 else if r.vdNone then 0x3F else (s.vdev r.vdcfg.toNat).owner.getD 0x3F
    bv 32 (r.vdcfg.toNat * 2 ^ 22 + p * 2 ^ 16 + r.vdctx.toNat)
  | 0x805 =>
    let w := s.weir.at (4 * r.weirPart.toNat + r.weirClass.toNat)
    bv 32 (r.weirClass.toNat * 2 ^ 30 + r.weirPart.toNat * 2 ^ 24 + (~~~ w.unbudget).toNat)
  | 0x806 =>
    let w := (s.cluster (r.slottab.toNat / 64)).slots.at (r.slottab.toNat % 64)
    bv 32 (r.slottab.toNat * 2 ^ 19) ||| (w &&& 0x40FFF)
  | 0x808 =>
    let x := s.ctx r.ctx.toNat
    bv 32 (ctxStCode x.st * 2 ^ 28 + x.err * 2 ^ 24 + x.need % 2 ^ 24)
  | _ => 0

/-- The indexes of the low halves of 64-bit registers (R86, R87). -/
def isWide (idx : Nat) : Bool :=
  [0x010, 0x012, 0x018, 0x030, 0x034, 0x036, 0x040, 0x080, 0x80A, 0x80C, 0x80E].contains idx

/-- A 64-bit register as it stands. -/
def wideRead (s : State) (a idx : Nat) : DWord :=
  let g := s.grp a
  match idx with
  | 0x010 => s.cur.act
  | 0x012 => g.privBase
  | 0x030 => g.trap.base
  | 0x034 => g.trap.pc
  | 0x036 => g.trap.recd
  | 0x040 => g.timer.dl
  | 0x080 => if a = 0 then 0 else BitVec.ofInt 64 (s.part (s.partNo a)).eacct
  | 0x80A => (s.ctx s.regs.ctx.toNat).trbuf
  | 0x80C => (s.ctx s.regs.ctx.toNat).dbgset
  | 0x80E => (s.ctx s.regs.ctx.toNat).rstop
  | _ => 0

/-- Position of a team on an axis (R43). -/
def teamId (s : State) (a k : Nat) : Nat :=
  let i := (s.teamOf a).index
  let g := s.gridOf a
  if k = 0 then i % g.dimX else if k = 1 then i / g.dimX % g.dimY else i / (g.dimX * g.dimY)

/-- A register of 32 bits other than LANEID; Headwater has no team, grid or context, and reads 0 there. -/
def plainRead (s : State) (a idx : Nat) : Word :=
  let g := s.grp a
  let t := s.teamOf a
  let d := s.gridOf a
  let c := s.ctx (s.ctxNo a)
  if idx ≥ 0x800 then privRead s idx
  else if idx = 0x000 then 64
  else if idx = 0x002 then bv 32 g.gid
  else if idx = 0x003 then bv 32 (roleCode g.role)
  else if idx = 0x014 then g.flags.zeroExtend 32
  else if idx = 0x020 then g.fpmode
  else if idx = 0x021 then g.fpflags
  else if idx = 0x032 then trapcauseOf g.trap
  else if idx = 0x042 then timerctlOf g.timer
  else if idx = 0x060 then g.xstat
  else if a = 0 then 0
  else if 0x004 ≤ idx ∧ idx ≤ 0x006 then bv 32 (teamId s a (idx - 4))
  else if idx = 0x008 then bv 32 d.dimX
  else if idx = 0x009 then bv 32 d.dimY
  else if idx = 0x00A then bv 32 d.dimZ
  else if idx = 0x050 then c.racectl
  else if idx = 0x051 then c.scopectl
  else if idx = 0x070 then t.mstat
  else if idx = 0x071 then mslotOf s a
  else if idx = 0x072 then tallocRead t
  else if 0x090 ≤ idx ∧ idx ≤ 0x097 then c.cntsel.at (idx - 0x090)
  else if idx = 0x0A0 then c.trctl
  else if idx = 0x0A1 then c.dbgctl
  else if 0x0C0 ≤ idx ∧ idx ≤ 0x0CF then t.tshape.at (idx - 0x0C0)
  else 0

/-- The value of an MFS and the shadow it leaves: a low half captures its high half, which the next MFS of that
high half returns (R87). -/
def readReg (s : State) (a idx : Nat) : Word × State :=
  if isWide idx then
    let v := wideRead s a idx
    (v.extractLsb' 0 32, s.modGrp a (fun g => { g with mfs := some (idx, v.extractLsb' 32 32) }))
  else if idx % 2 = 1 && isWide (idx - 1) then
    match (s.grp a).mfs with
    | some (i, w) => if i = idx - 1 then (w, s.modGrp a (fun g => { g with mfs := none }))
                     else ((wideRead s a (idx - 1)).extractLsb' 32 32, s)
    | none => ((wideRead s a (idx - 1)).extractLsb' 32 32, s)
  else (plainRead s a idx, s)

/-- A tile register that the team does not hold (R83). -/
def noTile (s : State) (idx : Nat) : Bool :=
  !s.isHw && decide (0x0C0 ≤ idx ∧ idx ≤ 0x0CF) && !s.myTeam.tmask.getLsbD (idx - 0x0C0)

def mfsK (o : Body) (s : State) : Res :=
  let idx := o.sysIndex
  if noTile s idx then .trap { code := cREGRANGE } s
  else if s.actMask o = 0 then .ok s
  else if idx = 1 then .ok (laneOp o false (fun g l => if g.role.scalar then 0 else bv 64 l) s)
  else
    let r := readReg s s.cur.agent idx
    .ok (laneOp o false (fun _ _ => r.1.zeroExtend 64) r.2)
def execMfs (o : Body) (s : State) : Out := perform 0xB3 o (mfsK o) s

/-! ## Writing -/

/-- A write of CNTSELn restarts its counter at 0; it counts from the next vt (R329). -/
def writeCntsel (c n : Nat) (v : Word) (s : State) : State :=
  s.modCtx c (fun x => { x with
    cntsel := x.cntsel.put n (v &&& 0xFFFF), counters := x.counters.put n 0, cntFrom := x.cntFrom.put n (s.gtime + 1) })

/-- Writes of the privileged registers of 32 bits. -/
def privWrite (idx : Nat) (v : Word) (s : State) : State :=
  let n := v.toNat
  match idx with
  | 0x800 =>
    let p := bits n 5 0
    if p ≥ Config.partitions then s
    else
      let s := { s with regs := { s.regs with partcfg := bv 6 p } }
      match bits n 31 28 with
      | 1 => activate p s
      | 2 => refresh p s
      | 3 => resetCommand p s
      | 4 => deactivate p s
      | _ => s
  | 0x801 =>
    let k := bits n 23 18
    let c := bits n 11 0
    let s := { s with regs := { s.regs with keyslot := bv 6 k, keyctx := bv 12 c } }
    match bits n 31 28 with
    | 1 => genMem k s
    | 2 => importBlock k s
    | 3 => bindKey k c s
    | _ => s
  | 0x802 => if bits n 5 0 ≥ Config.partitions then s else { s with regs := { s.regs with scrubctl := bv 6 (bits n 5 0) } }
  | 0x804 =>
    let d := bits n 29 22
    let s := { s with regs := { s.regs with vdcfg := bv 8 d, vdctx := bv 12 (bits n 11 0), vdNone := false, vdNamed := true } }
    match bits n 31 30 with
    | 1 => vdBind d (bits n 11 0) s
    | 2 => vdUnbind d s
    | _ => s
  | 0x805 =>
    let c := bits n 31 30
    let p := bits n 29 24
    if c = 3 ∨ p ≥ Config.partitions then s
    else
      { s with regs := { s.regs with weirClass := bv 2 c, weirPart := bv 6 p },
               weir := s.weir.put (4 * p + c) { s.weir.at (4 * p + c) with unbudget := ~~~ (v.extractLsb' 0 24) } }
  | 0x806 =>
    let k := bits n 31 25
    if k ≥ Config.clusters then s
    else
      let s := { s with regs := { s.regs with slottab := bv 13 (bits n 31 19) } }
      s.modCluster k (fun x => { x with slots := x.slots.put (bits n 24 19) (v &&& 0x40FFF) })
  | 0x807 => ctxCommand (bits n 31 28) (bits n 11 0) s
  | _ => s

/-- Writes of 64-bit registers; reserved fields keep reading zero (R7, R334, R336). -/
def wideWrite (a idx : Nat) (v : DWord) (s : State) : State :=
  let c := s.regs.ctx.toNat
  match idx with
  | 0x030 => s.modGrp a (fun g => { g with trap := { g.trap with base := v } })
  | 0x034 => s.modGrp a (fun g => { g with trap := { g.trap with pc := v } })
  | 0x040 => timerEval a (s.modGrp a (fun g => { g with timer := { g.timer with dl := v } }))
  | 0x80A => newRing c (v &&& 0x01FF_FFFF_FFFF_0000#64) s
  | 0x80C => s.modCtx c (fun x => { x with dbgset := v &&& 0xFFFF_FFFF_FFF8_001E#64 })
  | 0x80E => s.modCtx c (fun x => { x with rstop := v })
  | _ => s

/-- The 64-bit registers that can be written. -/
def wideRW (idx : Nat) : Bool := [0x030, 0x034, 0x040, 0x80A, 0x80C, 0x80E].contains idx

/-- Writes of 32-bit registers other than TALLOC. -/
def plainWrite (a idx : Nat) (v : Word) (s : State) : State :=
  let c := s.ctxNo a
  if idx ≥ 0x800 then privWrite idx v s
  else if idx = 0x020 then s.modGrp a (fun g => { g with fpmode := v &&& 0xFF })
  else if idx = 0x021 then s.modGrp a (fun g => { g with fpflags := v &&& 0x3F })
  else if idx = 0x042 then writeTimerctl a v s
  else if a = 0 then s
  else if idx = 0x050 then
    let t := s.modCtx c (fun x => { x with racectl := (x.racectl &&& ~~~ v &&& 0xE0) ||| (v &&& 7) })
    if v.getLsbD 0 && !(s.ctx c).racectl.getLsbD 0 then giveGens c t else t
  else if idx = 0x051 then s.modCtx c (fun x => { x with scopectl := (x.scopectl &&& ~~~ v &&& 2) ||| (v &&& 1) })
  else if 0x090 ≤ idx ∧ idx ≤ 0x097 then writeCntsel c (idx - 0x090) v s
  else if idx = 0x0A0 then s.modCtx c (fun x => { x with trctl := v &&& 7 })
  else if idx = 0x0A1 then s.modCtx c (fun x => { x with dbgctl := v &&& 0x1F })
  else s

/-- A write of a status register: a low half is held, and the write of its high half writes both (R87). -/
def writeReg (a idx : Nat) (v : Word) (s : State) : State :=
  if wideRW idx then s.modGrp a (fun g => { g with mts := some (idx, v) })
  else if idx % 2 = 1 && wideRW (idx - 1) then
    match (s.grp a).mts with
    | some (i, lo) =>
      if i = idx - 1 then wideWrite a (idx - 1) (v ++ lo) (s.modGrp a (fun g => { g with mts := none }))
      else wideWrite a (idx - 1) (v ++ 0#32) s
    | none => wideWrite a (idx - 1) (v ++ 0#32) s
  else plainWrite a idx v s

def mtsK (o : Body) (s : State) : Res :=
  if s.actMask o = 0 then .ok s
  else
    let v := (s.me.opv false o.a 0).extractLsb' 0 32
    if o.sysIndex = 0x072 then (if s.isHw then .ok s else tallocK v s)
    else .ok (writeReg s.cur.agent o.sysIndex v s)
def execMts (o : Body) (s : State) : Out := perform 0xB4 o (mtsK o) s

/-- REGISTER_WRITE: a write that reaches a status register of an agent; the privileged ones are Headwater's. -/
def execRegisterWrite (g idx : Nat) (v : Word) (s : State) : Out :=
  .next (if (s.grp g).role = .absent ∨ (idx ≥ 0x800 ∧ g ≠ 0) then s
    else if idx = 0x072 then tallocEvent g v s
    else writeReg g idx v s)

/-- CNTSEL: the write of a context's selection by an agent of it. -/
def execCntsel (g n : Nat) (v : Word) (s : State) : Out :=
  .next (if g = 0 ∨ (s.grp g).role = .absent ∨ n ≥ 8 then s else writeCntsel (s.ctxNo g) n v s)

/-! ## Time, counters, energy and marks (R301, R329, R402, R440, R459) -/

def execRdvt (o : Body) (s : State) : Out :=
  perform 0xB0 o (fun s => .ok (laneOp o true (fun _ _ => s.clockOf s.cur.agent) s)) s

/-- A counter as it stands; Headwater has none. -/
def counterOf (s : State) (a n : Nat) : DWord := if a = 0 then 0 else (s.ctx (s.ctxNo a)).counters.at n

def execRdcnt (o : Body) (s : State) : Out :=
  perform 0xB2 o (fun s => .ok (laneOp o true (fun g l => counterOf s s.cur.agent ((g.opv false o.a l).toNat % 8)) s)) s

def ebookK (o : Body) (s : State) : Res :=
  if s.actMask o = 0 ∨ s.isHw = true then .ok s
  else
    let n : Nat := (s.me.opv false o.a 0).toNat % 2 ^ 32
    let p := s.partNo s.cur.agent
    if (s.part p).eacct < (n : Int) then .trap { code := cENERGY } s
    else
      .ok ((s.modPart p (fun x => { x with eacct := x.eacct - (n : Int) })).modGrid s.myTeam.grid
        (fun g => { g with booking := g.booking + n }))
def execEbook (o : Body) (s : State) : Out := perform 0xB5 o (ebookK o) s

def tmarkK (o : Body) (s : State) : Res :=
  if s.actMask o = 0 ∨ s.isHw = true ∨ s.myCtx.trctl.getLsbD 2 = false then .ok s
  else .ok (trace s.cur.agent 5 0 ((s.me.opv false o.a 0).toNat % 2 ^ 32) s.cur.pc.toNat s.myCtx.retired s)
def execTmark (o : Body) (s : State) : Out := perform 0xB6 o (tmarkK o) s

/-! ## Formation points and drowsy registers (R56 to R58, R91) -/

/-- FORMATION_POINT: a formation point of a group that has one due. -/
def execFormationPoint (g : Nat) (s : State) : Out :=
  let t := toClk g s
  .next (if canIssue s g && formsNow (t.grp g) then t.modGrp g (form (!(s.ctx (s.ctxNo g)).stepping)) else s)

/-- DROWSY: a lane's registers are drowsy once it has idled 2,048 clk; they keep their values and wake without
a trace in the state, since the wake is time (R91). -/
def execDrowsy (_ : Nat) (s : State) : Out := .next s

/-! ## Faults at the partition's stage (R145) -/

/-- The access an instruction makes, for the instructions that translate addresses when they issue. -/
def accessOf (i : Instr) (s : State) : State :=
  match i with
  | .ld o => ldst (execLd o s) | .st o => ldst (execSt o s) | .atom o => ldst (execAtom o s)
  | .cas o => ldst (execCas o s) | .red o => ldst (execRed o s) | .cflush o => ldst (execCflush o s)
  | .sinit o => ldst (execSinit o s) | .sqadd o => ldst (execSqadd o s) | .shadd o => ldst (execShadd o s)
  | .sdadd o => ldst (execSdadd o s) | .smerge o => ldst (execSmerge o s) | .sqry o => ldst (execSqry o s)
  | .shtop o => ldst (execShtop o s) | .sdest o => ldst (execSdest o s) | .qclamp o => ldst (execQclamp o s)
  | _ => s
where
  ldst : Out → State
    | .next t => t
    | _ => s

/-- PARTITION_STAGE_FAULT: the next bundle of a group faults at the partition's stage, in its fetch or in the
access of its instruction, and waits with its lanes held. -/
def execPartitionStageFault (g : Nat) (s : State) : Out :=
  let waits (t : State) : State := if (t.grp g).lanesWith (fun x => x = .pfault) &&& (s.grp g).ready = 0 then s else t
  .next (if g = 0 ∨ canIssue s g = false then s
    else match nextOf g s with
      | .wait t => fetchWaits t
      | .instr i t => waits (accessOf i t)
      | _ => s)

/-- SUPERVISOR_FAULT_RESOLUTION: the supervisor has mapped the page, and the lanes that wait go on; or it turns
the fault into ACCESS, at the lowest PC of those lanes and in the group's engine operations. -/
def execSupervisorFaultResolution (g : Nat) (mapped : Bool) (s : State) : Out :=
  let x := s.grp g
  let m := x.lanesWith (fun y => y = .pfault)
  .next (if g = 0 ∨ x.role = .absent then
      (if mapped then s
       else s.vdevs.foldl (fun s d => d.2.queues.foldl (fun s q => launch true d.1 q.1 s) s) s)
    else if mapped then s.modGrp g (fun y => y.modLanes m (fun l => { l with st := .ready }))
    else if m ≠ 0 then
      let r := lowestRun x m
      let pc := match lanesOf r with | l :: _ => (x.lane l).pc | [] => 0
      s.modGrp g (fun y => { y.modLanes r (fun l => { l with st := .ready }) with deny := some pc })
    else
      let k := s.coreNo g
      let q := (s.core k).eddy
      let faults (i : Nat) : Bool := match q[i]? with
        | some c => decide (c.agent = g) && !c.stopped && ((runCopy true k i 1 s).core k).eddy.any (fun e => decide (e.id = c.id) && e.stopped)
        | none => false
      let s := match (List.range q.length).find? faults with
        | some i => runCopy true k i 1 s
        | none => s
      if x.role = .steer then entryPerform true x.team (stage true x.team s) else s)

end Sys2Proof.Machine
end

