-- ==== Sys2Proof/Machine/Boot.lean ====
section
/-!
DEFINITION. Bring-up, recovery, the version counter, heat, power and the dies' clocks (R11 to R19, R467), and
the loss of power.
-/

namespace Sys2Proof.Machine

def setStage (x : Stage) (s : State) : State := { s with boot := { s.boot with stage := x } }

/-- RECOVERY with a FAILCODE: the boot ROM runs on Headwater. -/
def recover (code : Nat) (s : State) : State :=
  { s.modGrp 0 (fun g => { g with lanes := [(0, { st := .rom })] }) with
    boot := { s.boot with stage := .recovery, failcode := code, staged := false } }

def execModuleReset (s : State) : Out := .next (moduleReset s)

/-! ## VERIFY (R14, R15, R18, R467) -/

/-- The fields of an image's header. -/
structure Header where
  valid : Bool := false
  secver : BitVec 16 := 0
  code : Nat := 0
  load : Nat := 0
  entry : DWord := 0
  deriving DecidableEq, Repr, Inhabited

/-- Reads a header and checks its form: MAGIC, FORMAT, the reserved bytes, CODESIZE and ENTRY (R467). -/
def headerOf (h : List Byte) : Header :=
  let code := fieldOf h 8 4
  let load := fieldOf h 0x10 8
  let entry := fieldOf h 0x18 8
  { valid := decide (fieldOf h 0 4 = 0x3444574C) && decide (fieldOf h 4 2 = 1) && (sub h 0x0C 4).all (fun b => b = 0)
      && (h.drop 0x20).all (fun b => b = 0) && decide (code ≠ 0) && decide (code % 4 = 0)
      && decide (entry % 4 = 0) && decide (load ≤ entry) && decide (entry < load + code),
    secver := bv 16 (fieldOf h 6 2), code := code, load := load, entry := bv 64 entry }

/-- FAILCODE of an image at a key: 0 where it is accepted. Of several failed checks it names the first of header, size,
signature and version (DESIGN CHOICE, log 117: the spec ranks them nowhere). -/
def checkImage (k : Nat) (s : State) : Nat :=
  let h := headerOf (s.rdN k 256)
  let n := 256 + h.code
  if h.valid = false then 1
  else if n + 2420 > 0x2000000 then 5
  else if Config.mldsaVerify (Config.sha3 (s.rdN k n)) (s.rdN (k + n) 2420) = false then 2
  else if h.secver.toNat < s.boot.fused.toNat then 3
  else 0

/-- VERIFY: the boot ROM goes from ROM to the check of the flash image, and from the check to SUPERVISOR or
RECOVERY; an accepted staged image replaces the one in flash, the code stands in Headwater memory, as far as it
reaches, and the supervisor starts at its entry. -/
def verify (s : State) : State :=
  match s.boot.stage with
  | .rom => setStage .verify s
  | .verify =>
    let k := if s.boot.staged then stageKey 0 else flashKey 0
    let c := checkImage k s
    if c ≠ 0 then recover c s
    else
      let h := headerOf (s.rdN k 256)
      let n := 256 + h.code + 2420
      let s := if s.boot.staged then (s.zeroN (flashKey 0) 0x2000000).wrN (flashKey 0) (s.rdN k n) else s
      let s := s.wrN (hwKey h.load) (s.rdN (k + 256) (min h.code (Config.hwBytes - h.load)))
      { s.modGrp 0 (fun g => { g with lanes := [(0, { st := .ready, pc := h.entry })], bundle := {} }) with
        boot := { s.boot with stage := .supervisor, failcode := 0, staged := false, imgver := h.secver,
                                measure := Config.sha3 (s.rdN (flashKey 0) (256 + h.code)) } }
  | _ => s
def execVerify (s : State) : Out := .next (verify s)

/-! ## SUPERVISOR to READY (R15, R17) -/

/-- SUPERVISOR: memory trains, and every cluster is self-tested; a failed training is reported before the lack of a
cluster (DESIGN CHOICE, log 83: the spec ranks them nowhere). -/
def supervisor (trained : Bool) (good : BitVec 80) (s : State) : State :=
  if s.boot.stage ≠ .supervisor then s
  else if trained = false then recover 4 s
  else if good = 0 then recover 6 s
  else
    let s := { s with clusters := (List.range 80).foldl (fun t c => t.put c { t.at c with unusable := !good.getLsbD c }) s.clusters }
    let n := ((List.range 80).filter (fun c => good.getLsbD c)).length
    { s with boot := { s.boot with stage := .scrub, usable := n } }
def execSupervisor (trained : Bool) (good : BitVec 80) (s : State) : Out := .next (supervisor trained good s)

/-- BOOT_SCRUB: all of HBM4E and LPDDR6 holds zero. -/
def execBootScrub (s : State) : Out :=
  .next (if s.boot.stage = .scrub then { setStage .fabric s with mem := s.mem.filter (fun p => decide (40 * 2 ^ 58 ≤ p.1)) } else s)

/-- FABRIC: the ports that trained are up, and the Confluence slots are clear. -/
def execFabric (ports : BitVec 16) (s : State) : Out :=
  .next (if s.boot.stage = .fabric then
      { s with slots := [], slotReqs := [], boot := { s.boot with stage := .ready, ports := ports } }
    else s)

/-- The supervisor runs, and takes signed commands and firmware updates; in stage TRIPPED it takes none (DESIGN CHOICE, log 118:
the spec is silent). -/
def supervising (s : State) : Bool :=
  decide (s.boot.stage = .supervisor) || decide (s.boot.stage = .scrub) || decide (s.boot.stage = .fabric) || decide (s.boot.stage = .ready)

/-- VERSION_COUNTER_RAISE: a signed command; the counter only rises (R14). -/
def execVersionCounterRaise (v : BitVec 16) (signed : Bool) (s : State) : Out :=
  .next (if signed && supervising s && decide (s.boot.fused.toNat < v.toNat) then { s with boot := { s.boot with fused := v } } else s)

/-- A firmware update on a running module: the supervisor checks an image that stands in Headwater memory, and
writes to flash one that the boot ROM would accept; it runs from the next module reset (R14, R19). -/
def updateFirmware (addr : Nat) (s : State) : State :=
  let k := hwKey addr
  let n := 256 + (headerOf (s.rdN k 256)).code + 2420
  if supervising s = false ∨ addr + n > Config.hwBytes ∨ checkImage k s ≠ 0 then s
  else (s.zeroN (flashKey 0) 0x2000000).wrN (flashKey 0) (s.rdN k n)

/-! ## Clocks (R11 to R13, R335) -/

/-- A FREQ record of a core. -/
def freqRecord (c k mhz : Nat) (s : State) : State :=
  let n := s.coreClk k
  writeTrace c (traceBytes 2 0 0 k n n s.gtime ((s.vclk c).toNat % 2 ^ 48 + mhz % 2 ^ 16 * 2 ^ 48)) s

/-- A die's clock changes: its 40 cores write FREQ records. -/
def setClock (die mhz : Nat) (s : State) : State :=
  if die ≥ 4 ∨ mhz = 0 ∨ mhz > Config.nominalMhz ∨ mhz = dieMhz s die then s
  else
    let s := { s with boot := { s.boot with slower := s.boot.slower.put die (Config.nominalMhz - mhz) } }
    (List.range 40).foldl (fun s i =>
      let k := 40 * die + i
      (coreCtxs s k).foldl (fun s c => freqRecord c k mhz s) s) s

/-- A clock that is lowered. -/
def lowerClock (die mhz : Nat) (s : State) : State := if mhz < dieMhz s die then setClock die mhz s else s

/-- FREQUENCY_CHANGE: a hot die's clock does not rise before its junction is below 100 °C (R13). -/
def execFrequencyChange (die mhz : Nat) (s : State) : Out :=
  .next (if s.boot.hot.at die = 1 then lowerClock die mhz s else setClock die mhz s)

/-- THERMAL_THROTTLE: at 105 °C a die is hot, below 100 °C no longer; a hot die's clock is lowered. -/
def execThermalThrottle (die mhz junction : Nat) (s : State) : Out :=
  .next (if junction < 100 then { s with boot := { s.boot with hot := s.boot.hot.put die 0 } }
    else if junction ≥ 105 ∨ s.boot.hot.at die = 1 then
      lowerClock die mhz { s with boot := { s.boot with hot := s.boot.hot.put die 1 } }
    else s)

/-- POWER_ENVELOPE_THROTTLE: above 2,800 W over a window of 1 ms a die's clock is lowered (R12). -/
def execPowerEnvelopeThrottle (die mhz watts : Nat) (s : State) : Out :=
  let s := { s with boot := { s.boot with watts := watts } }
  .next (if watts > 2800 then lowerClock die mhz s else s)

/-! ## Losing power (R13, R18) -/

/-- THERMAL_TRIP: at 115 °C of any die the compute dies lose their power, and every context is lost. Their launches and
instances go without a completion or a notice (DESIGN CHOICE, log 119: the spec is silent). -/
def thermalTrip (junction : Nat) (s : State) : State :=
  if junction < 115 then s
  else
    let cs := (s.ctxs.filter (fun p => p.2.hasDesc && decide (p.2.st ≠ .free))).map (·.1)
    let s := { s with
      groups := s.groups.filter (fun p => decide (p.1 = 0)), teams := [], grids := [], cores := [],
      clusters := mapV (fun _ x => { unusable := x.unusable }) s.clusters, xlat := [],
      l2 := mapV (fun _ x => { conf := x.conf, ctr := x.ctr, tag := x.tag }) s.l2,
      insts := [], slotReqs := [], early := [], buffered := [] }
    let s := cs.foldl (fun s c =>
      let v := s.vclk c
      let s := s.modCtx c (fun x => { x with
        st := .lost, stop := .none, acks := [], saved := none, vfrozen := v, vrun := false, stepping := false })
      s.setDesc c 0x04 4 5) s
    finishKzero (setStage .tripped s)
def execThermalTrip (_die junction : Nat) (s : State) : Out := .next (thermalTrip junction s)

/-- POWER_LOSS: the module starts again; frames keep nothing, and an image that was being written is invalid. -/
def powerLoss (flashing : Bool) (s : State) : State :=
  let s := moduleReset s
  let s := { s with mem := s.mem.filter (fun p => decide (40 * 2 ^ 58 ≤ p.1)) }
  if flashing then s.zeroN (flashKey 0) 4 else s
def execPowerLoss (flashing : Bool) (s : State) : Out := .next (powerLoss flashing s)

end Sys2Proof.Machine
end

