-- ==== Sys2Proof/Machine/Debug.lean ====
section
/-!
DEFINITION. Stall samples and SYNC records (R331, R335).
-/

namespace Sys2Proof.Machine

/-! ## Samples (R330, R331) -/

/-- How long an agent's current bundle has waited: clk since the group issued. -/
def waitOf (s : State) (a : Nat) : Nat := (s.grp a).bundle.stall + clkLeft s a (s.grp a)

/-- The sample period of a context, and of an agent's, in clk; 0 none. -/
def samplePeriodOf (s : State) (c : Nat) : Nat :=
  let n := (s.ctx c).dbgctl.toNat
  if n = 0 then 0 else 2 ^ (n + 7)
def samplePeriod (s : State) (a : Nat) : Nat := samplePeriodOf s (s.ctxNo a)

/-- The agent sampled: the one that has waited longest, the lowest slot first. -/
def sampled (s : State) : List Nat → Option Nat
  | [] => none
  | a :: r => some (r.foldl (fun x y => if waitOf s y > waitOf s x then y else x) a)

/-- The lanes whose wait a sample names: the bundle's, else the lowest run of the live lanes. -/
def sampleLanes (g : Group) : Mask :=
  let b := g.bundle.lanes &&& g.live
  if b = 0 then lowestRun g g.live else lowestRun g b

/-- The instruction that is to write a register which the instruction of a bundle waits for. -/
def blamed (s : State) (opc : BitVec 8) (o : Body) : Option DWord := (pendingFor s opc o).head?.map (fun p => p.pc)

/-- The agent that issued last on an agent's pipelines or sequencer, and its PC. -/
def lastIssuer (s : State) (a : Nat) : Nat := (pipeOf s a).last
def currentPc (g : Group) : DWord := match lanesOf (sampleLanes g) with | l :: _ => (g.lane l).pc | [] => 0

/-- The instruction that set a flag which a clause's header waits for. -/
def clauseFlag (s : State) (w : BitVec 12) : DWord :=
  s.me.flagPc.at (((List.range 12).find? (fun f => s.me.flags.getLsbD f && w.getLsbD f)).getD 0)

/-- The reason a bundle whose lanes are ready has not issued, and the PC blamed (R331). -/
def readyReason (s : State) (a : Nat) (pc : DWord) : Nat × DWord :=
  let g := s.grp a
  if waitOf s a = 0 then (0, pc)
  else if g.bundle.wake ≠ 0 ∨ isDrowsy s a = true then (5, pc)
  else
    let s' := atRun a (nextBundle s a) s
    match lacksAt s', nextAt a s' with
    | .flag, .instr (.clause _ w) t => (2, clauseFlag t w)
    | .flag, .instr i t => (2, match opcodeOf i with | some (_, o) => t.me.flagPc.at o.fset.toNat | none => pc)
    | .operand, .instr i t => (1, match opcodeOf i with | some (opc, o) => (blamed t opc o).getD pc | none => pc)
    | _, _ => if g.bundle.held = .full then (4, pc) else (6, currentPc (s.grp (lastIssuer s a)))

/-- The reason, the waiting PC and the blamed PC of an agent (R331). -/
def sampleOf (s : State) (a : Nat) : Nat × DWord × DWord :=
  let g := s.grp a
  match lanesOf (sampleLanes g) with
  | [] => (0, 0, 0)
  | l :: _ =>
    let x := g.lane l
    if g.trap.held.getLsbD l then (7, x.pc, g.trap.pc)
    else if x.st = .ready then let r := readyReason s a x.pc; (r.1, x.pc, r.2)
    else (3, x.pc, x.pc)

/-- A SAMPLE record of an agent. -/
def sampleRecord (a : Nat) (s : State) : State :=
  let x := sampleOf s a
  trace a 3 x.1 x.2.1.toNat x.2.2.toNat (s.ctx (s.ctxNo a)).retired s

/-- A sample point of a core's count has come for an agent. -/
def sampleDue (s : State) (k a : Nat) : Bool :=
  let n := samplePeriod s a
  decide ((s.grp a).role ≠ .absent) && (s.ctx (s.ctxNo a)).vrun && decide (n ≠ 0)
    && decide (s.coreClk k / max 1 n ≠ (s.core k).sampled / max 1 n)

/-- The agents sampled at a core, in slot order: its groups, or, at a cluster's first core, its sequencer's steer
threads. -/
def sampleAgents (s : State) (k : Nat) (steer : Bool) : List Nat :=
  let as_ :=
    if steer then (if k % 2 = 0 then (coreTeams s k ++ coreTeams s (k + 1)).flatMap (fun t => t.2.steer.toList) else [])
    else (coreTeams s k).flatMap (fun t => t.2.groups)
  sortBy (fun a b => decide ((s.grp a).slot ≤ (s.grp b).slot)) (as_.filter (sampleDue s k))

/-- SAMPLE: at a sample point of a core, the group slot that has waited longest, and the steer sequencer's. -/
def execSample (core : Nat) (s : State) : Out :=
  let one (l : List Nat) (s : State) : State := match sampled s l with | some a => sampleRecord a s | none => s
  .next ((one (sampleAgents s core true) (one (sampleAgents s core false) s)).modCore core
    (fun c => { c with sampled := s.coreClk core }))

/-- SYNC: after every 2^16 clk of a context's residence on a core the core writes a SYNC record for it. -/
def syncDue (s : State) (k c : Nat) : Bool := decide ((s.core k).synced.at c > 65536)
def execSync (core : Nat) (s : State) : Out :=
  .next ((coreCtxs s core).foldl (fun s c =>
    if syncDue s core c then
      (syncRecord c core s).modCore core (fun x => { x with synced := x.synced.put c ((s.core core).synced.at c - 65536) })
    else s) s)

end Sys2Proof.Machine
end

