-- ==== Sys2Proof/Machine/Integer.lean ====
section
/-!
DEFINITION. The integer and logic instructions, opcodes 0x20 to 0x38 (R351, R367 to R370, R379, R380,
R385, R393, R394, R424, R432, R447): each result as a function of numbers, and each instruction as a lane
operation over it.
-/

namespace Sys2Proof.Machine

/-- W of the modifier selects 64 bits (R351). -/
def wideOf (o : Body) : Bool := o.md.getLsbD 4
def wOf (wide : Bool) : Nat := if wide then 64 else 32
/-- SAT and U of the modifier (R351). -/
def satOf (o : Body) : Bool := o.md.getLsbD 7
def unsOf (o : Body) : Bool := o.md.getLsbD 6

/-- An integer's value under the modifier's U: unsigned, or two's complement. -/
def val (uns : Bool) (w x : Nat) : Int := if uns then (x : Int) else toS w x

/-- Wrapped, or clamped in the .SAT forms (R95). -/
def narrow (sat uns : Bool) (w : Nat) (r : Int) : Nat :=
  if sat then (if uns then satU w r else satS w r) else wrapN w r

/-- A lane operation on the numbers of sources a, b and c and the old destination, each at its width. -/
def intOp (o : Body) (wa wb wc wd : Bool) (f : Nat → Nat → Nat → Nat → Nat) (s : State) : Res :=
  .ok (laneOp o wd (fun g l => bv 64 (f (g.opv wa o.a l).toNat (g.opv wb o.b l).toNat (g.opv wc o.c l).toNat
    (g.opv wd o.dst l).toNat)) s)

/-! ## Results -/

def addR (sat uns : Bool) (w x y : Nat) : Nat := narrow sat uns w (val uns w x + val uns w y)
def subR (sat uns : Bool) (w x y : Nat) : Nat := narrow sat uns w (val uns w x - val uns w y)
def mulR (sat uns : Bool) (w x y : Nat) : Nat := narrow sat uns w (val uns w x * val uns w y)
def madR (sat uns : Bool) (w x y z : Nat) : Nat := narrow sat uns w (val uns w x * val uns w y + val uns w z)
/-- Bits [2w−1:w] of the exact product (R424). -/
def mulhR (uns : Bool) (w x y : Nat) : Nat := wrapN w ((val uns w x * val uns w y) / ((2 ^ w : Nat) : Int))
def maxR (uns : Bool) (w x y : Nat) : Nat := if val uns w x < val uns w y then y else x
def minR (uns : Bool) (w x y : Nat) : Nat := if val uns w y < val uns w x then y else x
/-- ABS by its SUB field: integer, .F32, .H2 (R368). -/
def absR (sub_ : Nat) (sat : Bool) (w x : Nat) : Nat :=
  if sub_ = 1 then x % 2 ^ 31
  else if sub_ = 2 then (bv 32 x &&& 0x7FFF7FFF#32).toNat
  else if toS w x < 0 then narrow sat false w (0 - toS w x) else x
def bfeR (uns : Bool) (x off wid : Nat) : Nat :=
  let off := off % 256
  let wid := wid % 256
  if wid = 0 ∨ off ≥ 32 then 0
  else
    let n := min wid (32 - off)
    let f := x / 2 ^ off % 2 ^ n
    if uns then f else wrapN 32 (toS n f)
def bfiR (y x off wid : Nat) : Nat :=
  let off := off % 256
  let wid := wid % 256
  if wid = 0 ∨ off ≥ 32 then y
  else
    let n := min wid (32 - off)
    let mask : Word := bv 32 ((2 ^ n - 1) * 2 ^ off)
    ((bv 32 y &&& ~~~ mask) ||| (bv 32 (x * 2 ^ off) &&& mask)).toNat
/-- Bit i of the result is bit w − 1 − i (R385). -/
def brevR : Nat → Nat → Nat
  | 0, _ => 0
  | n + 1, x => x % 2 * 2 ^ n + brevR n (x / 2)
def clzR (w x : Nat) : Nat := w - bitLen x
/-- The condition of R367 by SUB. -/
def condR (cond w x y : Nat) : Bool :=
  let uns := cond ≥ 0x40
  let a := val uns w x
  let b := val uns w y
  match cond % 16 with
  | 0 => a = b
  | 1 => a ≠ b
  | 2 => a < b
  | 3 => a ≤ b
  | 4 => a > b
  | _ => a ≥ b
/-- LEA: b is extended from 32 bits, c is the shift (R424). -/
def leaR (uns wide : Bool) (a b c : Nat) : Nat :=
  let w := wOf wide
  let b' : Int := if wide && !uns then toS 32 b else (b : Int)
  wrapN w ((a : Int) + ((wrapN w b' * 2 ^ (c % (if wide then 64 else 32)) % 2 ^ w : Nat) : Int))
def shlR (w x n : Nat) : Nat := let n := n % 256; if n ≥ w then 0 else x * 2 ^ n % 2 ^ w
def shrR (w x n : Nat) : Nat := let n := n % 256; if n ≥ w then 0 else x / 2 ^ n
def sraR (w x n : Nat) : Nat :=
  let n := n % 256
  wrapN w (toS w x / ((2 ^ (min n w) : Nat) : Int))
/-- One byte of PERM's result (R432). -/
def permByte (set c k : Nat) : Nat :=
  let j := bits c (3 * k + 2) (3 * k)
  let m := bits c (17 + 2 * k) (16 + 2 * k)
  let y := bits set (8 * j + 7) (8 * j)
  match m with
  | 0 => y
  | 1 => 0
  | 2 => if bit1 y 7 then 0xFF else 0
  | _ => if bit1 set (32 * (j / 4) + 31) then 0xFF else 0
def permR (a b c : Nat) : Nat :=
  let set := a + b * 2 ^ 32
  permByte set c 0 + permByte set c 1 * 2 ^ 8 + permByte set c 2 * 2 ^ 16 + permByte set c 3 * 2 ^ 24

/-! ## Instructions -/

/-- Two sources and a destination of one width. -/
def int2 (o : Body) (f : Nat → Nat → Nat → Nat) (s : State) : Res :=
  let wd := wideOf o
  intOp o wd wd wd wd (fun a b _ _ => f (wOf wd) a b) s

def execAbs (o : Body) (s : State) : Out :=
  perform 0x20 o (intOp o (wideOf o) false false (wideOf o)
    (fun a _ _ _ => absR (o.md.toNat % 16) (satOf o) (wOf (wideOf o)) a)) s
def execAdd (o : Body) (s : State) : Out := perform 0x21 o (int2 o (addR (satOf o) (unsOf o))) s
def execAnd (o : Body) (s : State) : Out := perform 0x22 o (int2 o (fun _ a b => a &&& b)) s
def execBfe (o : Body) (s : State) : Out :=
  perform 0x23 o (intOp o false false false false (fun a b c _ => bfeR (unsOf o) a b c)) s
def execBfi (o : Body) (s : State) : Out :=
  perform 0x24 o (intOp o false false false false (fun a b c d => bfiR d a b c)) s
def execBrev (o : Body) (s : State) : Out := perform 0x25 o (int2 o (fun w a _ => brevR w a)) s
def execClz (o : Body) (s : State) : Out :=
  perform 0x26 o (intOp o (wideOf o) false false false (fun a _ _ _ => clzR (wOf (wideOf o)) a)) s
def execCmp (o : Body) (s : State) : Out :=
  perform 0x27 o (intOp o (wideOf o) (wideOf o) false false
    (fun a b _ _ => if condR (o.md &&& 0xEF#8).toNat (wOf (wideOf o)) a b then 1 else 0)) s
def execLea (o : Body) (s : State) : Out :=
  perform 0x28 o (intOp o (wideOf o) false false (wideOf o) (fun a b c _ => leaR (unsOf o) (wideOf o) a b c)) s
def execMad (o : Body) (s : State) : Out :=
  perform 0x29 o (intOp o (wideOf o) (wideOf o) (wideOf o) (wideOf o)
    (fun a b c _ => madR (satOf o) (unsOf o) (wOf (wideOf o)) a b c)) s
def execMax (o : Body) (s : State) : Out := perform 0x2A o (int2 o (maxR (unsOf o))) s
def execMin (o : Body) (s : State) : Out := perform 0x2B o (int2 o (minR (unsOf o))) s
def execMov (o : Body) (s : State) : Out := perform 0x2C o (int2 o (fun _ a _ => a)) s
def execMul (o : Body) (s : State) : Out := perform 0x2D o (int2 o (mulR (satOf o) (unsOf o))) s
def execMulh (o : Body) (s : State) : Out := perform 0x2E o (int2 o (mulhR (unsOf o))) s
def execNot (o : Body) (s : State) : Out := perform 0x2F o (int2 o (fun w a _ => 2 ^ w - 1 - a)) s
def execOr (o : Body) (s : State) : Out := perform 0x30 o (int2 o (fun _ a b => a ||| b)) s
def execPerm (o : Body) (s : State) : Out :=
  perform 0x31 o (intOp o false false false false (fun a b c _ => permR a b c)) s
def execPopc (o : Body) (s : State) : Out :=
  perform 0x32 o (intOp o (wideOf o) false false false (fun a _ _ _ => popc a (wOf (wideOf o)))) s
def execSel (o : Body) (s : State) : Out :=
  perform 0x33 o (intOp o (wideOf o) (wideOf o) false (wideOf o) (fun a b c _ => if c = 1 then a else b)) s
def execShl (o : Body) (s : State) : Out :=
  perform 0x34 o (intOp o (wideOf o) false false (wideOf o) (fun a b _ _ => shlR (wOf (wideOf o)) a b)) s
def execShr (o : Body) (s : State) : Out :=
  perform 0x35 o (intOp o (wideOf o) false false (wideOf o) (fun a b _ _ => shrR (wOf (wideOf o)) a b)) s
def execSra (o : Body) (s : State) : Out :=
  perform 0x36 o (intOp o (wideOf o) false false (wideOf o) (fun a b _ _ => sraR (wOf (wideOf o)) a b)) s
def execSub (o : Body) (s : State) : Out := perform 0x37 o (int2 o (subR (satOf o) (unsOf o))) s
def execXor (o : Body) (s : State) : Out := perform 0x38 o (int2 o (fun _ a b => a ^^^ b)) s

end Sys2Proof.Machine
end

