-- ==== Sys2Proof/Machine/LaneOps.lean ====
section
/-!
DEFINITION. The instructions that read across lanes: SIPHON, LRED, SCAN, BALLOT, VERDICT, RDFL (R116 to
R118, R376, R425, R441, R445, R450, R462), and the index registers' SETX, LDX, STX and INCX (R79, R414,
R423, R448, R449).
-/

namespace Sys2Proof.Machine

/-! ## SIPHON (R450) -/

def siphonK (o : Body) (s : State) : Res :=
  let g := s.me
  let srcs := (lanesOf (s.actMask o)).map (fun l => (l, siphonFrom o.md (g.opn o.b l) l))
  let gated (x : Nat) : Bool := (g.lane x).st = .gone
  let any := srcs.any (fun p => match p.2 with | some x => gated x | none => false)
  let vals := srcs.map (fun p => (p.1, match p.2 with
    | some x => if gated x then 0 else bv 64 (g.vreg o.a.num x).toNat
    | none => 0))
  .ok (s.modMe (fun g =>
    let g := g.wrAll false o.dst vals
    if any then { g with fpflags := g.fpflags ||| 0x20 } else g))
def execSiphon (o : Body) (s : State) : Out := perform 0x60 o (siphonK o) s

/-! ## LRED and SCAN (R116 to R118, R425, R445) -/

/-- One step of the operation, with flags. -/
def lredOp (md : Nat) (rm : Rm) (ftz : Bool) (x y : Nat) : Nat × FFlags :=
  match md with
  | 0x00 => ((x + y) % 2 ^ 32, 0)
  | 0x01 => (x &&& y, 0)
  | 0x02 => (x ||| y, 0)
  | 0x03 => (x ^^^ y, 0)
  | 0x04 => (maxMin32 true x y, 0)
  | 0x44 => (max x y, 0)
  | 0x05 => (maxMin32 false x y, 0)
  | 0x45 => (min x y, 0)
  | 0x08 => addF fp32 rm ftz x y
  | 0x09 => minMaxNum fp32 ftz true x y
  | _ => minMaxNum fp32 ftz false x y

/-- The identity of R116. -/
def lredId (md : Nat) : Nat :=
  match md with
  | 0x01 => 0xFFFFFFFF
  | 0x04 => 0x80000000
  | 0x05 => 0x7FFFFFFF
  | 0x45 => 0xFFFFFFFF
  | 0x09 => 0xFF800000
  | 0x0A => 0x7F800000
  | _ => 0

/-- The step on values that may be absent, gathering flags. A value that meets only absent ones passes as it is, without
FTZ, canonical NaN or NV (DESIGN CHOICE, log 94: R116 says op(absent, y) = y, and R97 to R101 say nothing of it). -/
def absentOp (f : Nat → Nat → Nat × FFlags) (x y : Option Nat) : Option Nat × FFlags :=
  match x, y with
  | none, y => (y, 0)
  | x, none => (x, 0)
  | some a, some b => let r := f a b; (some r.1, r.2)

/-- R117 on a list of 2^n values: each level pairs neighbours. -/
def foldPairs (f : Nat → Nat → Nat × FFlags) : List (Option Nat) → List (Option Nat) × FFlags
  | x :: y :: r =>
    let h := absentOp f x y
    let t := foldPairs f r
    (h.1 :: t.1, h.2 ||| t.2)
  | l => (l, 0)
def foldTree (f : Nat → Nat → Nat × FFlags) : Nat → List (Option Nat) → Option Nat × FFlags
  | 0, l => (l.headD none, 0)
  | n + 1, l => let h := foldPairs f l; let t := foldTree f n h.1; (t.1, h.2 ||| t.2)

/-- R118's steps from distance 2^k on. -/
def scanSteps (f : Nat → Nat → Nat × FFlags) : Nat → Nat → List (Option Nat) → List (Option Nat) × FFlags
  | 0, _, l => (l, 0)
  | n + 1, d, l =>
    let r := l.zipIdx.map (fun p => if p.2 < d then (p.1, (0 : FFlags)) else absentOp f (l.getD (p.2 - d) none) p.1)
    let t := scanSteps f n (2 * d) (r.map (·.1))
    (t.1, r.foldl (fun a p => a ||| p.2) 0 ||| t.2)

def laneVals (o : Body) (s : State) : List (Option Nat) :=
  let m := s.actMask o
  lanes64.map (fun l => if m.getLsbD l then some (s.me.opn o.a l) else none)

def lredK (o : Body) (s : State) : Res :=
  let g := s.me
  let md := o.md.toNat
  let (r, fl) := foldTree (lredOp md g.rm g.ftz) 6 (laneVals o s)
  let v := r.getD (lredId md)
  let ls := lanesOf (s.actMask o)
  fpCommit (ls.map (fun l => (l, fl)))
    (fun g => g.wrAll false o.dst ((actLanes o (s.actMask o)).map (fun l => (l, bv 64 v)))) s
def execLred (o : Body) (s : State) : Out := perform 0x61 o (lredK o) s

def scanK (o : Body) (s : State) : Res :=
  let g := s.me
  let md := o.md.toNat % 128
  let (w, fl) := scanSteps (lredOp md g.rm g.ftz) 6 1 (laneVals o s)
  let res (l : Nat) : Option Nat :=
    if o.md.getLsbD 7 then (if l = 0 then none else w.getD (l - 1) none) else w.getD l none
  let ls := lanesOf (s.actMask o)
  fpCommit (ls.map (fun l => (l, fl)))
    (fun g => g.wrAll false o.dst (ls.map (fun l => (l, bv 64 ((res l).getD (lredId md)))))) s
def execScan (o : Body) (s : State) : Out := perform 0x62 o (scanK o) s

/-! ## BALLOT, VERDICT, RDFL (R376, R441, R462) -/

/-- The active lanes whose predicate holds. -/
def ones (o : Body) (s : State) : Mask := maskOf (fun l => s.me.preg o.a.num l) &&& s.actMask o

def execBallot (o : Body) (s : State) : Out :=
  perform 0x63 o (fun s =>
    let m : DWord := if o.md = 0#8 then ones o s else 0
    .ok (laneOp o true (fun _ _ => m) s)) s

def execVerdict (o : Body) (s : State) : Out :=
  perform 0x64 o (fun s =>
    let m := s.actMask o
    let k := ones o s
    let r : Bool := match o.md.toNat with
      | 0 => k ≠ 0
      | 1 => k = m
      | 2 => k = 0 || k = m
      | _ => k = 0
    .ok (laneOp o false (fun _ _ => if r then 1 else 0) s)) s

def execRdfl (o : Body) (s : State) : Out :=
  perform 0x65 o (fun s => .ok (laneOp o false (fun g l => g.opv false o.a l) s)) s

/-! ## Index registers (R78, R79, R414, R423, R448, R449) -/

/-- R79 for every lane of a mask: the fault, naming the lanes that fail the reported check. -/
def xCheck (g : Group) (wide : Bool) (n : Nat) (m : Mask) : Option TrapInfo :=
  let bad1 := (lanesOf m).filter (fun l => xBad1 wide (g.xreg n l))
  let bad2 := (lanesOf m).filter (fun l => xBad2 g.budget wide (g.xreg n l))
  let info (c : BitVec 8) (ls : List Nat) : TrapInfo :=
    { code := c, lane := ls.headD 0xFF, fail := ls.foldl (fun m l => m ||| laneBit l) 0 }
  if bad1 ≠ [] then some (info cXRANGE bad1)
  else if bad2 ≠ [] then some (info cREGRANGE bad2)
  else none

/-- Reads or writes through V[Xn]: the checks of R79 for the active lanes, then the effect. -/
def viaX (o : Body) (x : Opd) (eff : State → State) (s : State) : Res :=
  let g := s.me
  let wide := decide (o.md = 1#8)
  let m := s.actMask o
  match xCheck g wide x.num m with
  | some t => .trap t s
  | none => .ok (eff s)

def execLdx (o : Body) (s : State) : Out :=
  perform 0x15 o (fun s =>
    let wide := decide (o.md = 1#8)
    viaX o o.a (laneOp o wide (fun g l =>
      let r := xReg wide (g.xreg o.a.num l)
      if wide then g.vpair r l else (g.vreg r l).zeroExtend 64)) s) s

def execStx (o : Body) (s : State) : Out :=
  perform 0x16 o (fun s =>
    let wide := decide (o.md = 1#8)
    viaX o o.dst (fun s =>
      let g := s.me
      let vals := (lanesOf (s.actMask o)).map (fun l => (l, xReg wide (g.xreg o.dst.num l), g.opv wide o.a l))
      s.modMe (fun g => vals.foldl (fun g p => g.wr wide (.v (bv 8 p.2.1)) p.1 p.2.2) g)) s) s

/-- SETX's new value (R448). -/
def setxVal (md : Nat) (x v : Word) : Word :=
  match md with
  | 0 => v
  | 1 => xMake v.toNat (xLen x) (xBase x)
  | _ => xMake 0 (xLen v) (xBase v)

def execSetx (o : Body) (s : State) : Out :=
  perform 0x14 o (fun s => .ok (laneOp o false (fun g l =>
    (setxVal o.md.toNat (g.xreg o.dst.num l) ((g.opv false o.a l).setWidth 32)).zeroExtend 64) s)) s

/-- INCX's new value (R414). -/
def incxVal (md : Nat) (x v : Word) : Word :=
  let inc := toS 16 v.toNat
  let i : Int := xIndex x
  if md = 1 then
    if xLen x = 0 then x else xMake ((i + inc) % (xLen x : Int)).toNat (xLen x) (xBase x)
  else xMake (wrapN 16 (i + inc)) (xLen x) (xBase x)

def execIncx (o : Body) (s : State) : Out :=
  perform 0x17 o (fun s => .ok (laneOp o false (fun g l =>
    (incxVal o.md.toNat (g.xreg o.dst.num l) ((g.opv false o.a l).setWidth 32)).zeroExtend 64) s)) s

end Sys2Proof.Machine
end

