-- ==== Sys2Proof/Machine/Dispatch.lean ====
section
/-!
DEFINITION. One arm per instruction: a direct call of its meaning.
-/

namespace Sys2Proof.Machine

def exec (i : Instr) (s : State) : Host.Outcome State Fault Refusal :=
  match i with
  | .moduleReset => Sys2Proof.Machine.execModuleReset s
  | .verify => Sys2Proof.Machine.execVerify s
  | .supervisor trained good => Sys2Proof.Machine.execSupervisor trained good s
  | .bootScrub => Sys2Proof.Machine.execBootScrub s
  | .fabric ports => Sys2Proof.Machine.execFabric ports s
  | .load v => Sys2Proof.Machine.execLoad v s
  | .stagingWindowWrite off v => Sys2Proof.Machine.execStagingWindowWrite off v s
  | .versionCounterRaise v signed => Sys2Proof.Machine.execVersionCounterRaise v signed s
  | .thermalThrottle die mhz junction => Sys2Proof.Machine.execThermalThrottle die mhz junction s
  | .thermalTrip die junction => Sys2Proof.Machine.execThermalTrip die junction s
  | .powerEnvelopeThrottle die mhz watts => Sys2Proof.Machine.execPowerEnvelopeThrottle die mhz watts s
  | .frequencyChange die mhz => Sys2Proof.Machine.execFrequencyChange die mhz s
  | .kick vd q tail => Sys2Proof.Machine.execKick vd q tail s
  | .launch vd q => Sys2Proof.Machine.execLaunch vd q s
  | .fenceCommand vd q => Sys2Proof.Machine.execFenceCommand vd q s
  | .teamPlacement part => Sys2Proof.Machine.execTeamPlacement part s
  | .coresidentPlacement part => Sys2Proof.Machine.execCoresidentPlacement part s
  | .skipLimit grid => Sys2Proof.Machine.execSkipLimit grid s
  | .generationClear ctx gen => Sys2Proof.Machine.execGenerationClear ctx gen s
  | .groupEnd g => Sys2Proof.Machine.execGroupEnd g s
  | .teamEnd tm => Sys2Proof.Machine.execTeamEnd tm s
  | .gridEnd grid => Sys2Proof.Machine.execGridEnd grid s
  | .formationPoint g => Sys2Proof.Machine.execFormationPoint g s
  | .drowsy g => Sys2Proof.Machine.execDrowsy g s
  | .tallocRequest g v => Sys2Proof.Machine.execTallocRequest g v s
  | .tallocBlockingRequest g v => Sys2Proof.Machine.execTallocBlockingRequest g v s
  | .tallocRelease g v => Sys2Proof.Machine.execTallocRelease g v s
  | .tallocGrant cluster => Sys2Proof.Machine.execTallocGrant cluster s
  | .tallocAgeLimit cluster => Sys2Proof.Machine.execTallocAgeLimit cluster s
  | .fill core line => Sys2Proof.Machine.execFill core line s
  | .partitionStageFault g => Sys2Proof.Machine.execPartitionStageFault g s
  | .deferredFaultDelivery g => Sys2Proof.Machine.execDeferredFaultDelivery g s
  | .transientAbort g => Sys2Proof.Machine.execTransientAbort g s
  | .regionStopLimit g => Sys2Proof.Machine.execRegionStopLimit g s
  | .copyCompletion core n => Sys2Proof.Machine.execCopyCompletion core n s
  | .arrivedTilePush inst rank => Sys2Proof.Machine.execArrivedTilePush inst rank s
  | .staging tm => Sys2Proof.Machine.execStaging tm s
  | .admission cluster => Sys2Proof.Machine.execAdmission cluster s
  | .matrixCompletion cluster mismatches row col => Sys2Proof.Machine.execMatrixCompletion cluster mismatches row col s
  | .slotRotation => Sys2Proof.Machine.execSlotRotation s
  | .registerWrite g idx v => Sys2Proof.Machine.execRegisterWrite g idx v s
  | .timerctl g v => Sys2Proof.Machine.execTimerctl g v s
  | .cntsel g n v => Sys2Proof.Machine.execCntsel g n v s
  | .gtimeRead off => Sys2Proof.Machine.execGtimeRead off s
  | .stopDrain ctx => Sys2Proof.Machine.execStopDrain ctx s
  | .stopCapture ctx => Sys2Proof.Machine.execStopCapture ctx s
  | .resume ctx => Sys2Proof.Machine.execResume ctx s
  | .kill ctx => Sys2Proof.Machine.execKill ctx s
  | .stopAcknowledgement ctx engine => Sys2Proof.Machine.execStopAcknowledgement ctx engine s
  | .drainmax ctx => Sys2Proof.Machine.execDrainmax ctx s
  | .saveImage ctx => Sys2Proof.Machine.execSaveImage ctx s
  | .stopReport ctx => Sys2Proof.Machine.execStopReport ctx s
  | .release ctx => Sys2Proof.Machine.execRelease ctx s
  | .singleStep ctx => Sys2Proof.Machine.execSingleStep ctx s
  | .stepTimeout ctx => Sys2Proof.Machine.execStepTimeout ctx s
  | .rstop ctx => Sys2Proof.Machine.execRstop ctx s
  | .softError unit idx => Sys2Proof.Machine.execSoftError unit idx s
  | .uncorrectableError unit idx => Sys2Proof.Machine.execUncorrectableError unit idx s
  | .clearing part kind idx => Sys2Proof.Machine.execClearing part kind idx s
  | .clusterRetire cluster => Sys2Proof.Machine.execClusterRetire cluster s
  | .timerExpiry g => Sys2Proof.Machine.execTimerExpiry g s
  | .sleepEnd g => Sys2Proof.Machine.execSleepEnd g s
  | .waitfTimeout g => Sys2Proof.Machine.execWaitfTimeout g s
  | .qpopTimeout g => Sys2Proof.Machine.execQpopTimeout g s
  | .promiseExpiry g => Sys2Proof.Machine.execPromiseExpiry g s
  | .watchdog g => Sys2Proof.Machine.execWatchdog g s
  | .residencyNotice ctx gid rank resident => Sys2Proof.Machine.execResidencyNotice ctx gid rank resident s
  | .noticeTimeout ctx member => Sys2Proof.Machine.execNoticeTimeout ctx member s
  | .departureNotice ctx gid rank => Sys2Proof.Machine.execDepartureNotice ctx gid rank s
  | .write fl => Sys2Proof.Machine.execWrite fl s
  | .read fl => Sys2Proof.Machine.execRead fl s
  | .reply fl => Sys2Proof.Machine.execReply fl s
  | .ack fl => Sys2Proof.Machine.execAck fl s
  | .contrib fl => Sys2Proof.Machine.execContrib fl s
  | .result fl => Sys2Proof.Machine.execResult fl s
  | .slotRequest ctx gid => Sys2Proof.Machine.execSlotRequest ctx gid s
  | .slotDecision => Sys2Proof.Machine.execSlotDecision s
  | .nak port => Sys2Proof.Machine.execNak port s
  | .hostWrite ctx addr data => Sys2Proof.Machine.execHostWrite ctx addr data s
  | .activate part => Sys2Proof.Machine.execActivate part s
  | .refresh part => Sys2Proof.Machine.execRefresh part s
  | .reset part => Sys2Proof.Machine.execReset part s
  | .deactivate part => Sys2Proof.Machine.execDeactivate part s
  | .generateMem slot => Sys2Proof.Machine.execGenerateMem slot s
  | .importReport slot key tag => Sys2Proof.Machine.execImportReport slot key tag s
  | .keyslotBind slot ctx => Sys2Proof.Machine.execKeyslotBind slot ctx s
  | .vdBind vd ctx => Sys2Proof.Machine.execVdBind vd ctx s
  | .vdUnbind vd => Sys2Proof.Machine.execVdUnbind vd s
  | .weirWindow => Sys2Proof.Machine.execWeirWindow s
  | .sluicePage part => Sys2Proof.Machine.execSluicePage part s
  | .energyMeterWindow part units => Sys2Proof.Machine.execEnergyMeterWindow part units s
  | .attestationReport ctx nonce => Sys2Proof.Machine.execAttestationReport ctx nonce s
  | .sample core => Sys2Proof.Machine.execSample core s
  | .sync core => Sys2Proof.Machine.execSync core s
  | .clause n wait => Sys2Proof.Machine.execClause n wait s
  | .nop o => Sys2Proof.Machine.execNop o s
  | .bra o => Sys2Proof.Machine.execBra o s
  | .brx o => Sys2Proof.Machine.execBrx o s
  | .call o => Sys2Proof.Machine.execCall o s
  | .ret o => Sys2Proof.Machine.execRet o s
  | .exit o => Sys2Proof.Machine.execExit o s
  | .joinset o => Sys2Proof.Machine.execJoinset o s
  | .join o => Sys2Proof.Machine.execJoin o s
  | .yield o => Sys2Proof.Machine.execYield o s
  | .sleep o => Sys2Proof.Machine.execSleep o s
  | .trap o => Sys2Proof.Machine.execTrap o s
  | .bkpt o => Sys2Proof.Machine.execBkpt o s
  | .eret o => Sys2Proof.Machine.execEret o s
  | .bar o => Sys2Proof.Machine.execBar o s
  | .fence o => Sys2Proof.Machine.execFence o s
  | .qfence o => Sys2Proof.Machine.execQfence o s
  | .waitf o => Sys2Proof.Machine.execWaitf o s
  | .setx o => Sys2Proof.Machine.execSetx o s
  | .ldx o => Sys2Proof.Machine.execLdx o s
  | .stx o => Sys2Proof.Machine.execStx o s
  | .incx o => Sys2Proof.Machine.execIncx o s
  | .abs o => Sys2Proof.Machine.execAbs o s
  | .add o => Sys2Proof.Machine.execAdd o s
  | .and o => Sys2Proof.Machine.execAnd o s
  | .bfe o => Sys2Proof.Machine.execBfe o s
  | .bfi o => Sys2Proof.Machine.execBfi o s
  | .brev o => Sys2Proof.Machine.execBrev o s
  | .clz o => Sys2Proof.Machine.execClz o s
  | .cmp o => Sys2Proof.Machine.execCmp o s
  | .lea o => Sys2Proof.Machine.execLea o s
  | .mad o => Sys2Proof.Machine.execMad o s
  | .max o => Sys2Proof.Machine.execMax o s
  | .min o => Sys2Proof.Machine.execMin o s
  | .mov o => Sys2Proof.Machine.execMov o s
  | .mul o => Sys2Proof.Machine.execMul o s
  | .mulh o => Sys2Proof.Machine.execMulh o s
  | .not o => Sys2Proof.Machine.execNot o s
  | .or o => Sys2Proof.Machine.execOr o s
  | .perm o => Sys2Proof.Machine.execPerm o s
  | .popc o => Sys2Proof.Machine.execPopc o s
  | .sel o => Sys2Proof.Machine.execSel o s
  | .shl o => Sys2Proof.Machine.execShl o s
  | .shr o => Sys2Proof.Machine.execShr o s
  | .sra o => Sys2Proof.Machine.execSra o s
  | .sub o => Sys2Proof.Machine.execSub o s
  | .xor o => Sys2Proof.Machine.execXor o s
  | .fadd o => Sys2Proof.Machine.execFadd o s
  | .fsub o => Sys2Proof.Machine.execFsub o s
  | .fmul o => Sys2Proof.Machine.execFmul o s
  | .ffma o => Sys2Proof.Machine.execFfma o s
  | .fmin o => Sys2Proof.Machine.execFmin o s
  | .fmax o => Sys2Proof.Machine.execFmax o s
  | .fcmp o => Sys2Proof.Machine.execFcmp o s
  | .fclass o => Sys2Proof.Machine.execFclass o s
  | .frnd o => Sys2Proof.Machine.execFrnd o s
  | .frcp o => Sys2Proof.Machine.execFrcp o s
  | .frsq o => Sys2Proof.Machine.execFrsq o s
  | .fsqrt o => Sys2Proof.Machine.execFsqrt o s
  | .fexp2 o => Sys2Proof.Machine.execFexp2 o s
  | .flog2 o => Sys2Proof.Machine.execFlog2 o s
  | .fsin o => Sys2Proof.Machine.execFsin o s
  | .fcos o => Sys2Proof.Machine.execFcos o s
  | .hwadd o => Sys2Proof.Machine.execHwadd o s
  | .hwmul o => Sys2Proof.Machine.execHwmul o s
  | .hwfma o => Sys2Proof.Machine.execHwfma o s
  | .dot2 o => Sys2Proof.Machine.execDot2 o s
  | .dot4 o => Sys2Proof.Machine.execDot4 o s
  | .cvt o => Sys2Proof.Machine.execCvt o s
  | .bnpack o => Sys2Proof.Machine.execBnpack o s
  | .bnunpk o => Sys2Proof.Machine.execBnunpk o s
  | .cbdec o => Sys2Proof.Machine.execCbdec o s
  | .siphon o => Sys2Proof.Machine.execSiphon o s
  | .lred o => Sys2Proof.Machine.execLred o s
  | .scan o => Sys2Proof.Machine.execScan o s
  | .ballot o => Sys2Proof.Machine.execBallot o s
  | .verdict o => Sys2Proof.Machine.execVerdict o s
  | .rdfl o => Sys2Proof.Machine.execRdfl o s
  | .ld o => Sys2Proof.Machine.execLd o s
  | .st o => Sys2Proof.Machine.execSt o s
  | .lds o => Sys2Proof.Machine.execLds o s
  | .sts o => Sys2Proof.Machine.execSts o s
  | .atom o => Sys2Proof.Machine.execAtom o s
  | .cas o => Sys2Proof.Machine.execCas o s
  | .red o => Sys2Proof.Machine.execRed o s
  | .pref o => Sys2Proof.Machine.execPref o s
  | .cflush o => Sys2Proof.Machine.execCflush o s
  | .xenter o => Sys2Proof.Machine.execXenter o s
  | .xcommit o => Sys2Proof.Machine.execXcommit o s
  | .xquit o => Sys2Proof.Machine.execXquit o s
  | .xprobe o => Sys2Proof.Machine.execXprobe o s
  | .tcopy o => Sys2Proof.Machine.execTcopy o s
  | .qpop o => Sys2Proof.Machine.execQpop o s
  | .qpush o => Sys2Proof.Machine.execQpush o s
  | .waitp o => Sys2Proof.Machine.execWaitp o s
  | .collset o => Sys2Proof.Machine.execCollset o s
  | .tcfg o => Sys2Proof.Machine.execTcfg o s
  | .tzero o => Sys2Proof.Machine.execTzero o s
  | .mma o => Sys2Proof.Machine.execMma o s
  | .mmas o => Sys2Proof.Machine.execMmas o s
  | .tdrain o => Sys2Proof.Machine.execTdrain o s
  | .tld o => Sys2Proof.Machine.execTld o s
  | .tst o => Sys2Proof.Machine.execTst o s
  | .twr o => Sys2Proof.Machine.execTwr o s
  | .trd o => Sys2Proof.Machine.execTrd o s
  | .sinit o => Sys2Proof.Machine.execSinit o s
  | .sqadd o => Sys2Proof.Machine.execSqadd o s
  | .shadd o => Sys2Proof.Machine.execShadd o s
  | .sdadd o => Sys2Proof.Machine.execSdadd o s
  | .smerge o => Sys2Proof.Machine.execSmerge o s
  | .sqry o => Sys2Proof.Machine.execSqry o s
  | .shtop o => Sys2Proof.Machine.execShtop o s
  | .sdest o => Sys2Proof.Machine.execSdest o s
  | .qclamp o => Sys2Proof.Machine.execQclamp o s
  | .rdvt o => Sys2Proof.Machine.execRdvt o s
  | .armt o => Sys2Proof.Machine.execArmt o s
  | .rdcnt o => Sys2Proof.Machine.execRdcnt o s
  | .mfs o => Sys2Proof.Machine.execMfs o s
  | .mts o => Sys2Proof.Machine.execMts o s
  | .ebook o => Sys2Proof.Machine.execEbook o s
  | .tmark o => Sys2Proof.Machine.execTmark o s
  | .kzero o => Sys2Proof.Machine.execKzero o s
  | .scrub o => Sys2Proof.Machine.execScrub o s
  | .pasgn o => Sys2Proof.Machine.execPasgn o s
  | .pfree o => Sys2Proof.Machine.execPfree o s
  | .powerLoss flashing => Sys2Proof.Machine.execPowerLoss flashing s
  | .supervisorFaultResolution g mapped => Sys2Proof.Machine.execSupervisorFaultResolution g mapped s
  | .homeSliceArrival core n => Sys2Proof.Machine.execHomeSliceArrival core n s
  | .copyDeferredFault core n => Sys2Proof.Machine.execCopyDeferredFault core n s
  | .matrixEntryPerformed tm => Sys2Proof.Machine.execMatrixEntryPerformed tm s

end Sys2Proof.Machine
end

