-- ==== Sys2Proof/Machine/Policy.lean ====
section
/-!
DEFINITION. What the next step does: the turn the agenda names, else the default schedule, which takes the
events that are due and the agents that can issue by turns; what happens at an instant of time (R248, R262 to
R265, R269, R270, R293, R338), and after every step (R268, R338, R339); and the supervisor's set-up acts.
-/

namespace Sys2Proof.Machine

/-! ## Which bundle issues (R59, R60, R88, R301) -/

/-- Whether an agent's next instruction finds no room, or waits for what is before it: its bundle stands where it is. -/
def wouldHold (s : State) (a : Nat) : Bool :=
  match nextOf a s with
  | .instr i t => match exec i t with
    | .next u => decide ((u.grp a).bundle.held ≠ .no)
    | _ => false
  | _ => false

/-- An agent's bundle is ready to issue an instruction: no deferred fault and no drowsy register comes before it. -/
def readyNow (s : State) (a : Nat) : Bool := bundleReady s a && !deliversFirst s a && !isDrowsy s a && !wouldHold s a

/-- The agents whose bundles go before an agent's on its pipelines or its sequencer. -/
def ahead (s : State) (a : Nat) : List Nat :=
  ((s.groups.map (·.1)).filter (fun b => rivals s a b && goesBefore s a b)).filter (readyNow s)

/-- No rival that goes before an agent stands at an earlier clk, and the clk in which the agent can issue has room for it after
those that go before it in that clk. -/
def inClk (s : State) (a : Nat) : Bool :=
  let c := clkAt s a
  let l := ahead s a
  let p := pipeOf s a
  l.all (fun b => decide (clkAt s b = c)) && decide (l.length + (if p.clk = c then p.issued else 0) < widthOf s a)

/-- An MTS of a group to a register that its team or context shares, or to TALLOC (R86, R88). -/
def sharedMts (s : State) (a : Nat) : Bool :=
  match nextOf a s with
  | .instr (.mts o) _ => decide (o.sysIndex = 0x050 ∨ o.sysIndex = 0x051 ∨ o.sysIndex = 0x072 ∨ (0x090 ≤ o.sysIndex ∧ o.sysIndex ≤ 0x097) ∨ o.sysIndex = 0x0A0 ∨ o.sysIndex = 0x0A1)
  | _ => false

def isEbook (s : State) (a : Nat) : Bool := match nextOf a s with | .instr (.ebook _) _ => true | _ => false

/-- The clk of two agents' cores are the same: of one die, or of dies whose clocks run alike. -/
def sameClk (s : State) (a b : Nat) : Bool :=
  let d := s.clusterNo a / 20
  let e := s.clusterNo b / 20
  decide (clkAt s a = clkAt s b) && (decide (d = e) || (decide (dieMhz s d = dieMhz s e) && decide (s.clks.at d = s.clks.at e)))

/-- Of two agents that issue in the same clk the second acts first: their MTS to registers of one context go by GROUPID (R88),
their EBOOKs of one partition by their grids' submission (R301). -/
def waitsFor (s : State) (a b : Nat) : Bool :=
  let c := s.ctxNo a
  let d := s.ctxNo b
  let first := (decide (c = d) && decide ((s.grp b).gid < (s.grp a).gid) && sharedMts s a && sharedMts s b)
    || (decide ((s.ctx c).part = (s.ctx d).part) && decide ((s.gridOf b).submitted < (s.gridOf a).submitted) && isEbook s a && isEbook s b)
  decide (a ≠ 0) && decide (b ≠ 0) && sameClk s a b && first && readyNow s b && inClk s b

/-- The agent does not issue yet: its clk belongs to rivals that go before it, or another that acts first in that clk has not
issued. -/
def outranked (s : State) (a : Nat) : Bool :=
  decide ((s.grp a).role ≠ .headwater) && (!inClk s a || (s.groups.map (·.1)).any (waitsFor s a))

/-! ## Time -/

/-- The clk that the ready bundle of an agent has waited, or the oldest of its runs (R58, R59), those of the last span that it
has not used among them; 0 where it may not issue. -/
def oldest (s : State) (a : Nat) : Nat :=
  let g := s.grp a
  if g.role = .headwater ∨ mayIssue s a = false then 0
  else max g.bundle.waited ((lanesOf g.ready).foldl (fun n l => max n (g.lane l).age) 0) + clkLeft s a g

/-- A ready bundle has waited as long as a run may: it issues before time goes on (R73). -/
def presses (s : State) (a : Nat) : Bool := decide (256 ≤ oldest s a) && bundleReady s a && !wouldHold s a
def pressing (s : State) : Bool := s.groups.any (fun p => presses s p.1)

/-- What an agent's clock brings about at an instant: its timer, the ends of its waits, its watchdog, and the limit of a
region that a stop waits for. -/
def tickAgent (a : Nat) (s : State) : State :=
  let g := s.grp a
  let m := g.lanesWith (fun x => match x with
    | .sleep 0 => true | .waitf _ (some 0) => true | .qpop _ (some 0) => true | .waitp .. => true | _ => false)
  let s := if g.timer.mode = 0 then s else timerEval a s
  let s := if m = 0 then s else
    next (execPromiseExpiry a) (next (execQpopTimeout a) (next (execWaitfTimeout a) (next (execSleepEnd a) s)))
  let s := if g.watch = 0 then s else next (execWatchdog a) s
  if g.region.isNone then s else next (execRegionStopLimit a) s
where
  next (f : State → Out) (s : State) : State := match f s with | .next t => t | _ => s

/-- What a context's clock brings about: the ends of DRAINMAX, of a debug step's wait, of a notice's. -/
def tickCtx (c : Nat) (s : State) : State :=
  let s := tickAgent.next (execStepTimeout c) (tickAgent.next (execDrainmax c) s)
  (s.ctx c).noticeAcks.foldl (fun s p => tickAgent.next (execNoticeTimeout c (64 * p.1 + p.2)) s) s

/-- `n` gt pass (R271), and what is due at the instant reached happens. Slot requests leave before time goes on, so that
all of a stamp are there when it is their turn (R316). -/
def passTo (n : Nat) (s : State) : State :=
  let s := s.insts.foldl (fun s p => if asksSlot p.2 then requestSlot p.1 s else s) s
  let s := decideSlots (passGt n s)
  let s := (List.range 4).foldl (fun s d => slotTo s d (s.clkOf d / 512)) s
  let s := (s.groups.map (·.1)).foldl (fun s a => tickAgent a s) s
  let s : State := (s.ctxs.map (·.1)).foldl (fun s c => tickCtx c s) s
  if s.weir = [] ∧ s.hostWrites = [] then { s with weirWin := max s.weirWin (s.gtime / 10000) } else tickAgent.next execWeirWindow s

/-- gt until an agent's timer, wait, promise or watchdog is due, as far as its clock runs; 0 for what does not come. -/
def agentDue (s : State) (a : Nat) (g : Group) : List Nat :=
  if clockRuns s a = false ∨ g.role = .absent then []
  else
    let lane (x : LaneSt) : Nat := match x with
      | .sleep k => k
      | .waitf _ (some k) | .qpop _ (some k) => if dilates s a x then k else 0
      | .waitp p _ => if promisePast s a p then 0 else (p - (s.clockOf a).extractLsb' 0 32).toNat
      | _ => 0
    let watch := if g.timer.wd = 0 ∨ allWatched g = false then 0 else watchLimit g - g.watch
    let timer := if g.timer.mode = 0 then 0 else g.timer.dl.toNat - (s.clockOf a).toNat
    let die := s.coreNo a / 40
    let region := match g.region, (s.ctx (s.ctxNo a)).stop with
      | some _, .capture .. => s.gtFor die ((s.ctx (s.ctxNo a)).stopClks.at die + 4096)
      | _, _ => 0
    let run := if g.role = .headwater ∨ readyLanes s a g = 0 then 0 else s.gtFor die (s.clkOf die + max 1 (256 - oldest s a))
    timer :: watch :: region :: run :: g.lanes.map (fun p => lane p.2.st)

/-- gt until something of a context is due in real time. -/
def ctxDue (s : State) (c : Nat) (x : Context) : List Nat :=
  let notice := if x.noticeAcks = [] then [] else [x.noticeAt + 100000 - s.gtime]
  let drain := match x.stop with | .drain t => [t + s.desc c 0x58 8 - s.gtime] | _ => []
  (if x.stepping then [x.stepAt + 65536 - s.gtime] else []) ++ notice ++ drain

/-- gt until a SYNC record or a sample of a core is due (R331, R335), and until a TALLOC request of a cluster has waited as
long as one does alone (R66). -/
def coreDue (s : State) (k : Nat) (c : Core) : List Nat :=
  c.synced.map (fun e => if e.2 = 0 ∨ (coreCtxs s k).contains e.1 = false then 0 else s.gtFor (k / 40) (s.coreClk k + max 1 (65537 - e.2)))
    ++ (coreCtxs s k).map (fun x =>
      let n := samplePeriodOf s x
      if n = 0 then 0 else s.gtFor (k / 40) ((s.coreClk k / n + 1) * n))
def clusterDue (s : State) (cl : Nat) (x : Cluster) : List Nat :=
  x.waits.map (fun w => if w.aged then 0 else s.gtFor (cl / 20) (w.since + 65536))

/-- `n` gt, or as many as pass until something is due in time: it happens at its own instant. -/
def untilDue (n : Nat) (s : State) : Nat :=
  let weir := if s.weir = [] ∧ s.hostWrites = [] then 0 else (s.weirWin + 1) * 10000 - s.gtime
  let slots := s.slotReqs.map (fun r => r.stamp + 500 - s.gtime)
    ++ (s.insts.filter (fun p => asksSlot p.2)).map (fun p => p.2.stamp + 500 - s.gtime)
  let l := weir :: slots ++ (s.groups.flatMap (fun p => agentDue s p.1 p.2) ++ s.ctxs.flatMap (fun p => ctxDue s p.1 p.2)
    ++ s.cores.flatMap (fun p => coreDue s p.1 p.2) ++ s.clusters.flatMap (fun p => clusterDue s p.1 p.2))
  l.foldl (fun m k => if k = 0 then m else min m k) n

/-- What is due of the cores and clusters when the clk that passed last are over: samples, SYNC records, the age limit. -/
def endSpan (s : State) : State :=
  let s := s.cores.foldl (fun s p => tickAgent.next (execSync p.1) (tickAgent.next (execSample p.1) s)) s
  s.clusters.foldl (fun s p => tickAgent.next (execTallocAgeLimit p.1) s) s

/-- Time passes by the pace, 1 gt where it is empty (DESIGN CHOICE, log 5), and not while a ready run has waited as long as it
may; what is left of the pace when something is due passes before the next turn. -/
def passTime (s : State) : State :=
  let n := match s.pace with | n :: _ => n | [] => 1
  let k := if pressing s then 0 else if n ≤ 1 then n else untilDue n s
  let s : State := { s with
    pace := (if k < n then [n - k] else []) ++ s.pace.tail, tick := s.tick + 1, cur := { s.cur with core := 0 } }
  if k = 0 then s else passTo k (endSpan s)

/-! ## Set-up by the supervisor -/

/-- A set-up act of the supervisor (R250, R257, R297, R308, R311, R321). -/
def applySetup (u : Setup) (s : State) : State :=
  match u with
  | .context c p d =>
    if s.boot.stage ≠ .ready ∨ c ≥ 4096 ∨ (s.part p).st ≠ .active ∨ ((s.ctx c).st ≠ .free ∧ (s.ctx c).st ≠ .lost) then s
    else
      let s := { s with xlat := s.xlat.filter (fun e => decide (e.2.1 ≠ c)) }
      (s.modCtx c (fun _ => { part := p, desc := d, hasDesc := true, st := .running, vrun := true, voff := s.gtime })).setDesc c 0x04 4 1
  | .rings v q r cr n vec =>
    if q ≥ 64 ∨ (List.range 13).any (fun k => decide (n = 2 ^ (k + 4))) = false then s
    else
      let s := s.modVQ v q (fun _ => { ring := r, cring := cr, size := n, vector := vec })
      match (s.vdev v).owner with
      | some p => if (s.vdev v).bound.isSome then resetQueue v p q s else s
      | none => s
  | .group c gid ms => s.modCtx c (fun x => { x with colls := x.colls.put gid { members := ms, rank := ms.idxOf (s.boot.moduleNo, c) } })
  | .moduleNo n => if s.boot.stage = .fabric ∧ n < 1024 then { s with boot := { s.boot with moduleNo := n } } else s
  | .route m p => if s.boot.stage = .fabric then { s with boot := { s.boot with routes := s.boot.routes.put m (p + 1) } } else s
  | .wire p m => { s with boot := { s.boot with wires := s.boot.wires.put p (m + 1) } }
  | .firmware a => updateFirmware a s
  | .importBlock k key tag => s.modKey k (fun x => { x with block := some (key, tag) })
  | .atsInvalidate v page => { s with atc := s.atc.filter (fun e => e ≠ (v, page)) }
  | .pageOut v page => { s with atc := s.atc.filter (fun e => e ≠ (v, page)), hostAbsent := (v, page) :: s.hostAbsent }
  | .pageIn v page =>
    { s with hostAbsent := s.hostAbsent.filter (fun e => e ≠ (v, page)),
             hostWaits := s.hostWaits.filter (fun e => !(decide (e.1 = v) && decide (e.2.1 = page))) }
  | .kickPage c page v => s.modCtx c (fun x => { x with windows := x.windows.put page (44 * 2 ^ 58 + 4096 * v + 1) })
  | .guestPage c page v iova => s.modCtx c (fun x => { x with windows := x.windows.put page (hostKey v (iova / 4096 * 4096) + 1) })
  | .read c a n => (outsideRead c a.toNat n s).2
  | .section_ c bs => s.modCtx c (fun x => { x with digests := x.digests ++ [Config.sha3 bs] })

/-! ## The default schedule -/

/-- The event that a flit in the inbox is, and the state in which it happens. -/
def flitEvent (s : State) (f : Flit) : State × Instr :=
  let t := taken f s
  let gid := infoGid f.info
  let rank := infoRank f.info
  if f.typ = 1 then (s, .write f) else if f.typ = 2 then (s, .read f) else if f.typ = 3 then (s, .reply f)
  else if f.typ = 4 then (s, .ack f) else if f.typ = 5 then (s, .contrib f) else if f.typ = 6 then (s, .result f)
  else if f.typ = 7 then
    (if infoCode f.info = 4 then (s, .slotDecision)
     else if infoCode f.info = 3 then (t, .departureNotice f.ctx gid rank)
     else (t, .residencyNotice f.ctx gid rank (decide (infoCode f.info = 2))))
  else ({ t with discarded := t.discarded + 1 }, .slotDecision)

/-- The internal events that may be due of one thing of each kind. -/
def coreEvents (k : Nat) (c : Core) : List Instr :=
  let arrival : List Instr := if c.queue.isEmpty then [] else [.homeSliceArrival k 0]
  let copies : List Instr := (List.range c.eddy.length).map (fun i => .copyCompletion k i)
  let clk : List Instr := [.clearing 0 6 k, .sync k, .sample k]
  [arrival, copies, clk].flatten

def instEvents (i : Nat) (x : Inst) : List Instr :=
  let req : List Instr := if x.waiting then [.slotRequest x.ctx x.gid] else []
  let push : List Instr := x.arrivals.map (fun a => .arrivedTilePush i a.1)
  [req, push].flatten

def teamEvents (tm : Nat) (t : Team) : List Instr :=
  if t.mqueue.isEmpty then [.teamEnd tm]
  else [.matrixEntryPerformed tm, .staging tm, .admission (t.core / 2), .matrixCompletion (t.core / 2) 0 0 0, .teamEnd tm]

def groupEvents (a : Nat) (g : Group) : List Instr :=
  let due : List Instr := if g.faults.isEmpty then [] else [.deferredFaultDelivery a]
  let ends : List Instr := [.regionStopLimit a, .groupEnd a]
  let rel : List Instr := (lanesOf g.live).filterMap (fun l => match (g.lane l).st with
    | .tallocRel v => some (.tallocRelease a v)
    | _ => none)
  [due, ends, rel].flatten

def ctxEvents (c : Nat) (x : Context) : List Instr :=
  let acks : List Instr := (List.range 5).map (fun e => .stopAcknowledgement c e)
  let image : List Instr := [.saveImage c, .stopReport c, .release c]
  let gens : List Instr := x.clearing.map (fun g => .generationClear c g.toNat)
  [acks, image, gens].flatten

def clusterEvents (c : Nat) : List Instr := [.tallocAgeLimit c, .tallocGrant c, .clusterRetire c]

def partEvents (p : Nat) (x : Partition) : List Instr :=
  let clear : List Instr := x.clearing.map (fun e => .clearing p e.1 e.2.1)
  let page : List Instr := if x.jobs.isEmpty then [] else [.sluicePage p]
  let reset : List Instr := if x.st = .resetting then [.reset p] else []
  [clear, page, reset, [.coresidentPlacement p, .teamPlacement p]].flatten

def gridEvents (g : Nat) : List Instr := [.gridEnd g, .skipLimit g]

def queueEvents (v : Nat) (d : VDev) : List Instr :=
  d.queues.flatMap (fun (q : Nat × VQueue) => ([.fenceCommand v q.1, .launch v q.1] : List Instr))

/-- The internal events that may be due. -/
def events (s : State) : List Instr :=
  [[.verify, .bootScrub, .slotDecision], s.tagErrors.map (fun i => .uncorrectableError 1 i),
    s.insts.flatMap (fun (p : Nat × Inst) => instEvents p.1 p.2),
    s.cores.flatMap (fun (p : Nat × Core) => coreEvents p.1 p.2),
    s.teams.flatMap (fun (p : Nat × Team) => teamEvents p.1 p.2),
    s.groups.flatMap (fun (p : Nat × Group) => groupEvents p.1 p.2),
    s.ctxs.flatMap (fun (p : Nat × Context) => ctxEvents p.1 p.2),
    s.clusters.flatMap (fun (p : Nat × Cluster) => clusterEvents p.1),
    s.parts.flatMap (fun (p : Nat × Partition) => partEvents p.1 p.2),
    s.grids.flatMap (fun (p : Nat × Grid) => gridEvents p.1),
    s.vdevs.flatMap (fun (p : Nat × VDev) => queueEvents p.1 p.2)].flatten

/-- A turn of the default schedule and the state in which it is taken. -/
def turns (s : State) : List (State × Turn) :=
  ((s.inbox.filter (fun f => !behindFlit s f)).map (fun f => let e := flitEvent s f; (e.1, .event e.2)))
    ++ (events s).map (fun i => (s, .event i)) ++ s.groups.map (fun p => (s, .issue p.1))

/-- Whether a turn does something: an agent that can issue, or an event that changes the state. -/
def turnDue (s : State) (t : State × Turn) : Bool :=
  match t.2 with
  | .issue a => canIssue t.1 a && !outranked t.1 a
  | .event i => match exec i t.1 with | .next u => decide (u ≠ s) | _ => true
  | _ => true

/-- The turn taken when the agenda is empty: the first that does something, by rotation. -/
def defaultTurn (s : State) : Option (State × Turn) :=
  let l := turns s
  let k := s.tick % max 1 l.length
  (l.drop k ++ l.take k).find? (turnDue s)

def nextTurn (s : State) : Option Turn × State :=
  match s.agenda with
  | t :: r => (some t, { s with agenda := r })
  | [] => match defaultTurn s with
    | some (s, t) => (some t, s)
    | none => (none, s)

/-! ## After every step -/

/-- A context whose stop an instruction or event requested tells its members (R268). -/
def notify (c : Nat) (s : State) : State :=
  let x := s.ctx c
  if x.st = .stopping && decide (x.stop ≠ .none) && !x.noticed then tellHalted c s else s

/-- After every step: waiting instructions that have completed are counted (R332), a stop tells its members, a counted stop
falls due. -/
def settleStep (s : State) : State :=
  let s := (s.groups.filter (fun p => !p.2.owed.isEmpty)).foldl (fun s p => retireOwed p.1 s) s
  (s.ctxs.map (·.1)).foldl (fun s c => rstop c (notify c s)) s

/-- After an agent's turn: the one instruction of a debug step has issued (R338). A bundle that was held back, or
waits for the supervisor, has not. -/
def afterIssue (a : Nat) (s u : State) : State :=
  let c := s.ctxNo a
  if a = 0 ∨ (s.ctx c).stepping = false ∨ deliversFirst s a = true ∨ canIssue s a = false then u
  else if (u.grp a).bundle.held ≠ .no ∨ (u.grp a).bundle.wake ≠ 0 ∨ outranked s a = true ∨ (u.grp a).lanesWith (fun x => x = .pfault) ≠ 0 then u
  else stepOver c u

/-- The check of a frame holds (R308, R310). -/
def checked (b : List Byte) : Bool := decide (b.length = 256) && decide (ofLe (b.drop 248) = (Config.crc64 (b.take 248)).toNat)
/-- The replay sequence, the acknowledged sequence and the NAK of a frame. -/
def linkOf (b : List Byte) : Nat := ofLe ((b.drop 240).take 4)

/-- Frames that carry a flit as the next ones of a port. -/
def carries (fl : Flit) (got : BitVec 12) (frames : List (List Byte)) : Bool :=
  decide (frames.length = flitFrames fl) && frames.zipIdx.all (fun p =>
    decide (p.1.take 240 = (flitWire fl {} false p.2).take 240) && decide (linkOf p.1 % 4096 = (got + bv 12 p.2).toNat))

/-- What a frame says of the frames sent on its port: those before the sequence it acknowledges are not replayed any more, and
a NAK is a failed check of the next (R308, R310). -/
def acknowledged (p : Nat) (b : List Byte) (s : State) : State :=
  let l := s.links.at p
  let n := (bv 12 (bits (linkOf b) 27 16) - (l.sent - bv 12 l.out.length)).toNat
  let s : State := if n = 0 ∨ l.out.length < n then s
    else { s with links := s.links.put p { l with out := l.out.drop n }, replays := s.replays.put p 0 }
  if (linkOf b).testBit 28 then (match execNak p s with | .next t => t | _ => s) else s

/-- A flit comes in from a port as so many frames (R308 to R310): one whose check fails is not taken, and the port's next flits
carry a NAK; one that is not the next is a replay of what has been taken. -/
def receive (fl : Flit) (frames : List (List Byte)) (s : State) : State :=
  match portOf s fl.src with
  | none => { s with inbox := s.inbox ++ [fl] }
  | some p =>
    if frames.all checked = false then { s with links := s.links.put p { s.links.at p with nak := true } }
    else
      let s := frames.foldl (fun s b => acknowledged p b s) s
      let l := s.links.at p
      let s : State := { s with links := s.links.put p { l with nak := false } }
      if carries fl l.got frames then
        { s with inbox := s.inbox ++ [fl], links := s.links.put p { l with nak := false, got := l.got + bv 12 (flitFrames fl) } }
      else s

/-! ## A word placed for the next step -/

/-- Who issues an instruction: Headwater what only it may (R84, R359, R438), a steer thread the matrix engine's
(R47), a group everything else. -/
def issuerOf (w1 w2 : Word) : Nat :=
  let n := w1.toNat / 4 % 256
  let idx := w2.toNat % 4096
  if 0xC0 ≤ n ∧ n ≤ 0xC3 then 0
  else if (n = 0xB3 ∨ n = 0xB4) ∧ 0x800 ≤ idx then 0
  else if 0x90 ≤ n ∧ n ≤ 0x96 then 2
  else 1

/-- Page tables that map the first GiB of context and partition onto itself (R143, R144), at 0x1000. -/
def identityTables (s : State) : State :=
  ((s.wrLe (hbmKey 0 0x1000) 8 0x2001).wrLe (hbmKey 0 0x2000) 8 0x3001).wrLe (hbmKey 0 0x3000) 8 0x1E1

/-- A table word placed where the next step fetches, for the agent that may issue it: context 1 of partition 0 runs
grid 1, whose team 1 stands on core 0 with a group of one live lane and a steer thread. -/
def placeWord (n : Nat) (s : State) : State :=
  let bs := leBytes 12 n
  let a := issuerOf (bv 32 n) (bv 32 (n / 2 ^ 32))
  let lane : Lane := { st := .ready, pc := 0x10000 }
  if a = 0 then
    { (s.wrN (hwKey 0x10000) bs).modGrp 0 (fun g => { g with lanes := [(0, lane)], bundle := {} }) with agenda := [.issue 0] }
  else
    let s := identityTables (s.wrN (hbmKey 0 0x10000) bs)
    let s := (s.wrLe (hbmKey 0 0x8008) 8 0x1000).wrLe (hbmKey 0 0x8010) 8 0x1000
    let s := s.modPart 0 (fun x => { x with st := .active, clusters := [0], slices := [0, 1], channels := [0, 1, 2, 3] })
    let s := s.modCtx 1 (fun x => { x with part := 0, desc := 0x8000, hasDesc := true, st := .running, vrun := true, voff := s.gtime })
    let s := s.modGrid 1 (fun x => { x with st := .placing, ctx := 1, dimX := 1, dimY := 1, dimZ := 1, next := 1 })
    let s := s.modTeam 1 (fun x => { x with live := true, grid := 1, groups := [1], steer := some 2, bars := 16, tmask := 0xFFFF, amask := 0xFF })
    let s := s.modGrp 1 (fun x => { x with role := .produce, team := 1, budget := 256, lanes := [(0, lane)] })
    let s := s.modGrp 2 (fun x => { x with role := .steer, gid := 16, team := 1, lanes := [(0, lane)] })
    { s with agenda := [.issue a] }

end Sys2Proof.Machine
end

