-- ==== Sys2Proof/Machine/Step.lean ====
section
/-!
DEFINITION. The step: time passes, and the next turn is taken. An issue delivers a deferred fault that is due,
or fetches and decodes the agent's next instruction and executes it; a word that does not decode raises UNDEF.
-/

namespace Sys2Proof.Machine

/-- What an issue finds: the instruction runs, or the exception of its fetch or decoding is taken. -/
def runNext (n : Next) : Host.Outcome State Fault Refusal :=
  match n with
  | .instr i s => exec i s
  | .undef s => .next (undefined s)
  | .fault t s => .next (fetchFault t s)
  | .wait s => .next (fetchWaits s)

/-- Agent `a` issues its next instruction where no rival goes before it (R59, R60); a deferred fault that is due
comes first (R238, R242), and drowsy registers wake first (R91). -/
def issueStep (a : Nat) (s : State) : Host.Outcome State Fault Refusal :=
  if canIssue s a = false then .next s
  else if deliversFirst s a then .next (deliver a s)
  else if isDrowsy s a then .next (wakeUp a s)
  else if outranked s a then .next s
  else runNext (nextOf a s)

def takeTurn (t : Turn) (s : State) : Host.Outcome State Fault Refusal :=
  match t with
  | .issue a => match issueStep a s with
    | .next u => .next (if a = 0 then sameCounts s u else afterIssue a s u)
    | r => r
  | .event i => if (encode i).isEmpty then exec i s else .fault .agendaNotEvent
  | .zero p w => .next (sameCounts s (zeroWord p w s))
  | .move c i n => .next (runCopy false c i n s)
  | .arrive fl frames => .next (receive fl frames s)
  | .setup u => .next (applySetup u s)

/-- One step of the module. -/
def step (s : State) : Host.Outcome State Fault Refusal :=
  match nextTurn (passTime s) with
  | (some t, s) => match takeTurn t s with
    | .next u => .next (settleStep u)
    | r => r
  | (none, s) => .next s

/-- The state in which the next step runs the instruction of a table word: a team placed on core 0 with the
group, the steer thread or Headwater at the word's first byte, and the turn its. -/
def State.withFetchWord (s : State) (nbits w : Nat) : State := placeWord (w % 2 ^ nbits) s

end Sys2Proof.Machine
end

