-- ==== Sys2Proof/Safety.lean ====
section
/-!
DEFINITION. What counts as a safe run, and the terms claims use: when an instruction issues, what it writes,
what it leaves as it was, and the invariants of the state.
-/

namespace Sys2Proof.Safety

open Sys2Proof.Machine

/-- Memory holds its one canonical form. -/
abbrev MemWf (s : State) : Prop := Tbl.wf s.mem = true

/-- A step goes on to a next state. -/
def Goes (s : State) : Prop := ∃ t, step s = .next t

/-! ## When an instruction issues -/

/-- The participants of the issuer's open atomic region (R163). -/
def regionParts (s : State) : Mask := match s.me.region with | some r => r.parts | none => 0

/-- The instruction of an opcode issues and keeps an open region: its issuer may run it (R47, R84, R85, R302,
R359), it names only registers the group has (R46, R75), its flag is clear (R80), no register it names is still to
be written (R420, R435), and it is not one that aborts the region its lanes are in (R165). -/
def issues (opc : BitVec 8) (o : Body) (s : State) : Bool :=
  decide (issuerFault s opc o = none) && !outOfRange s opc o && !flagBusy s o && !waitsOperand s opc o
    && !(abortsRegion opc && decide (s.actMask o &&& regionParts s ≠ 0))

/-! ## Registers -/

/-- The low `w` bits of a source in a lane (R345 to R347, R351). -/
def src (w : Nat) (g : Group) (o : Opd) (l : Nat) : BitVec w := (g.opv (decide (w = 64)) o l).setWidth w

/-- Destination `d` holds a value in lane `l`: a register, a pair if `wide` (R351); a predicate takes bit 0, and a
write of P0 is discarded (R77). -/
def holds (g : Group) (wide : Bool) (d : Opd) (l : Nat) (x : DWord) : Prop :=
  match d with
  | .v n => g.vreg n.toNat l = x.extractLsb' 0 32 ∧ (wide = true → g.vreg (n.toNat + 1) l = x.extractLsb' 32 32)
  | .s n => g.sreg n.toNat = x.extractLsb' 0 32 ∧ (wide = true → g.sreg (n.toNat + 1) = x.extractLsb' 32 32)
  | .p n => g.preg n.toNat l = (decide (n = 0) || x.getLsbD 0)
  | .x n => g.xreg n.toNat l = x.extractLsb' 0 32
  | _ => True

/-- The registers a destination names, by class: whether V[n], S[n], P[n] or X[n] in lane `l` is one that a write
of `d` in the lanes `ls` reaches. -/
def hitsV (wide : Bool) (d : Opd) (ls : List Nat) (n l : Nat) : Bool :=
  match d with
  | .v m => (decide (n = m.toNat) || (wide && decide (n = m.toNat + 1))) && ls.contains l
  | _ => false
def hitsS (wide : Bool) (d : Opd) (ls : List Nat) (n : Nat) : Bool :=
  match d with
  | .s m => (decide (n = m.toNat) || (wide && decide (n = m.toNat + 1))) && !ls.isEmpty
  | _ => false
def hitsP (d : Opd) (ls : List Nat) (n l : Nat) : Bool :=
  match d with | .p m => decide (n = m.toNat) && ls.contains l | _ => false
def hitsX (d : Opd) (ls : List Nat) (n l : Nat) : Bool :=
  match d with | .x m => decide (n = m.toNat) && ls.contains l | _ => false

/-- Every register but the destination keeps its value. -/
structure OnlyDst (wide : Bool) (d : Opd) (ls : List Nat) (g h : Group) : Prop where
  v : ∀ n l, l < 64 → hitsV wide d ls n l = false → h.vreg n l = g.vreg n l
  s : ∀ n, hitsS wide d ls n = false → h.sreg n = g.sreg n
  p : ∀ n l, hitsP d ls n l = false → h.preg n l = g.preg n l
  x : ∀ n l, l < 64 → hitsX d ls n l = false → h.xreg n l = g.xreg n l

/-- No V, S, P or X register changes. -/
abbrev SameRegs (g h : Group) : Prop := OnlyDst false .none [] g h

/-- A group's other registers and records: join barriers, flags, FPMODE, the trap registers, the timer, XSTAT, the
region, the race clocks, the shadows, what is still to be written, the deferred faults, and the instructions that wait or have
still to be counted. -/
structure SameRest (g h : Group) : Prop where
  ids : h.role = g.role ∧ h.gid = g.gid ∧ h.team = g.team ∧ h.slot = g.slot ∧ h.budget = g.budget
    ∧ h.privBase = g.privBase
  ended : h.ended = g.ended ∧ h.stopped = g.stopped
  join : h.j = g.j
  flags : h.flags = g.flags
  fpmode : h.fpmode = g.fpmode
  trap : h.trap = g.trap
  timer : h.timer = g.timer
  region : h.region = g.region ∧ h.xstat = g.xstat
  race : h.race = g.race
  shadows : h.mfs = g.mfs ∧ h.mts = g.mts
  board : h.board = g.board
  faults : h.faults = g.faults
  waits : h.under = g.under ∧ h.owed = g.owed

/-- The lanes of a mask stand at their PCs of `pcOf`, every other lane's PC is as it was, and no lane's status
changes. -/
def GoesTo (m : Mask) (pcOf : Nat → DWord) (g h : Group) : Prop :=
  ∀ l, (h.lane l).st = (g.lane l).st
    ∧ (h.lane l).pc = if l < 64 ∧ m.getLsbD l = true then pcOf l else (g.lane l).pc

/-! ## The rest of the machine -/

/-- A context without the counts that every instruction advances, and a core without the clk it takes of the pipelines or
the steer sequencer (R59, R60, R329, R332). -/
def uncounted (x : Context) : Context := { x with retired := 0, counters := [] }
def untimed (x : Core) : Core := { x with pipe := {}, seq := {} }

/-- The state outside the groups, the counts of retirement and the pipelines: every byte of memory, L2 and its records,
teams, grids, partitions, keys, virtual devices, instances, the engines' queues, the caches and the clocks. -/
structure SameMachine (s t : State) : Prop where
  mem : t.mem = s.mem
  l2 : t.l2 = s.l2
  teams : t.teams = s.teams
  grids : t.grids = s.grids
  ctxs : ∀ c, uncounted (t.ctx c) = uncounted (s.ctx c)
  cores : ∀ k, untimed (t.core k) = untimed (s.core k)
  clusters : t.clusters = s.clusters
  parts : t.parts = s.parts
  keys : t.keys = s.keys
  vdevs : t.vdevs = s.vdevs
  insts : t.insts = s.insts
  slots : t.slots = s.slots ∧ t.slotReqs = s.slotReqs ∧ t.slotNo = s.slotNo
  weir : t.weir = s.weir ∧ t.weirWin = s.weirWin ∧ t.hostWrites = s.hostWrites ∧ t.atc = s.atc
  caches : t.xlat = s.xlat ∧ t.raced = s.raced ∧ t.tagErrors = s.tagErrors
  boot : t.boot = s.boot
  regs : t.regs = s.regs
  time : t.gtime = s.gtime ∧ t.clks = s.clks ∧ t.passed = s.passed
  fabric : t.sent = s.sent ∧ t.inbox = s.inbox ∧ t.buffered = s.buffered ∧ t.early = s.early
    ∧ t.discarded = s.discarded ∧ t.replays = s.replays ∧ t.links = s.links
  reports : t.msix = s.msix ∧ t.reports = s.reports ∧ t.softErrors = s.softErrors ∧ t.outcome = s.outcome
  hosts : t.hostAbsent = s.hostAbsent ∧ t.hostWaits = s.hostWaits ∧ t.stamped = s.stamped
  cur : t.cur = s.cur
  fresh : t.fresh = s.fresh

/-- The groups other than the issuer's. -/
def SameOthers (s t : State) : Prop := ∀ a, a ≠ s.cur.agent → t.grp a = s.grp a

/-- The retirement counts (R303, R332): Headwater's, or the context's. -/
def Retired (s t : State) : Prop :=
  if s.me.role = .headwater then t.retiredHw = s.retiredHw + 1
  else t.retiredHw = s.retiredHw ∧ (t.ctx s.myCtxNo).retired = s.myCtx.retired + 1

/-- No instruction is counted: one waits (R332). -/
def Unretired (s t : State) : Prop := t.retiredHw = s.retiredHw ∧ ∀ c, (t.ctx c).retired = (s.ctx c).retired

/-- An instruction retires (R55, R332), its lanes go to `pcOf`, and nothing changes but the issuer's V, S, P and X
registers and FPFLAGS and what `fixG` and `fixS` put back: they restore, in the group and in the machine, the parts
that the instruction's own effect writes. -/
structure Retires (pcOf : Nat → DWord) (fixG : Group → Group) (fixS : State → State) (s t : State) : Prop where
  lanes : GoesTo s.cur.act pcOf s.me t.me
  rest : SameRest s.me (fixG t.me)
  others : SameOthers s t
  machine : SameMachine s (fixS t)
  retired : Retired s t

/-- An instruction completes: it retires, its lanes stand at the next instruction, and nothing changes but the
issuer's registers. -/
abbrev Completes (o : Body) (s t : State) : Prop := Retires (fun _ => nextPc s.cur.pc o.len) id id s t

/-- An instruction completes, and its one effect is a value written to its destination, in each lane it acts in
(R349). -/
structure Writes (o : Body) (wide : Bool) (f : Nat → DWord) (s t : State) : Prop
    extends Retires (fun _ => nextPc s.cur.pc o.len) id id s t where
  dst : ∀ l ∈ actLanes o (s.actMask o), holds t.me wide o.dst l (f l)
  only : OnlyDst wide o.dst (actLanes o (s.actMask o)) s.me t.me
  fpflags : t.me.fpflags = s.me.fpflags

/-- The lanes of a mask wait at the instruction, and go on at the next (R55). -/
def Waiting (m : Mask) (st : LaneSt) (nx : DWord) (s t : State) : Prop :=
  ∀ l ∈ lanesOf m, (t.me.lane l).st = st ∧ (t.me.lane l).pc = s.cur.pc ∧ (t.me.lane l).nx = nx

/-! ## Exceptions -/

/-- A trap can be taken (R237, R240, R244): the group has a handler and is in no trap, no atomic region is open, and
its trap area is writable. -/
def canTrap (s : State) : Bool :=
  hasHandler s.me && s.me.region.isNone
    && (match trapArea s s.cur.agent s.cur.pc with | .at_ .. => true | _ => false)

/-- The key of the trap area's first byte. -/
def areaKey (s : State) : Nat := match trapArea s s.cur.agent s.cur.pc with | .at_ _ k _ _ => k | _ => 0

/-- A precise exception has been taken (R237 to R240): TRAPCAUSE and TRAPPC say what and where, the lanes of ACTMASK
stand at TRAPBASE, every other live lane is held, the fault record's PC and CAUSE stand in the trap area, and no
register changes. -/
structure Trapped (code : BitVec 8) (tpc : DWord) (s t : State) : Prop where
  cause : t.me.trap.code = code ∧ t.me.trap.inTrap = true ∧ t.me.trap.deferred = false
  pc : t.me.trap.pc = tpc
  base : t.me.trap.base = s.me.trap.base
  lanes : t.me.trap.lanes = s.cur.act ∧ t.me.trap.held = s.me.live &&& ~~~ s.cur.act
  goes : ∀ l ∈ lanesOf s.cur.act, (t.me.lane l).st = .ready ∧ (t.me.lane l).pc = s.me.trap.base
  recPc : t.rdN (areaKey s) 8 = leBytes 8 s.cur.pc.toNat
  recCode : t.rdN (areaKey s + 8) 1 = leBytes 1 code.toNat
  regs : SameRegs s.me t.me
  fpflags : t.me.fpflags = s.me.fpflags

end Sys2Proof.Safety
end

