-- ==== Sys2Proof/Safety/Values.lean ====
section
/-!
DEFINITION. The results that the spec's rules give, written on bit vectors and integers from the rules' own
formulas: what claims compare the meanings with.
-/

namespace Sys2Proof.Safety

open Sys2Proof.Machine

/-! ## Integer and logic instructions (R95, R351, R367 to R370, R379, R380, R385, R393, R394, R424, R432, R447) -/

/-- The width W of the modifier byte selects (R351). -/
def width (o : Body) : Nat := if o.md.getLsbD 4 then 64 else 32
def wide (o : Body) : Bool := o.md.getLsbD 4
def sat (o : Body) : Bool := o.md.getLsbD 7
def uns (o : Body) : Bool := o.md.getLsbD 6

/-- A word as U reads it: unsigned, or two's complement (R95). -/
def num (u : Bool) (x : BitVec w) : Int := if u then (x.toNat : Int) else x.toInt

/-- The exact result wrapped to `w` bits, or clamped to the destination's range in the .SAT forms (R95). -/
def fit (s u : Bool) (w : Nat) (r : Int) : BitVec w :=
  BitVec.ofInt w (if s = false then r
    else if u then Max.max 0 (Min.min r (2 ^ w - 1))
    else Max.max (-(2 ^ (w - 1))) (Min.min r (2 ^ (w - 1) - 1)))

/-- Sources a, b and c of an instruction in a lane, at the width of the instruction. -/
def A (o : Body) (g : Group) (l : Nat) : BitVec (width o) := src (width o) g o.a l
def B (o : Body) (g : Group) (l : Nat) : BitVec (width o) := src (width o) g o.b l
def C (o : Body) (g : Group) (l : Nat) : BitVec (width o) := src (width o) g o.c l
/-- A source of 32 bits whatever the width. -/
def a32 (o : Body) (g : Group) (l : Nat) : Word := src 32 g o.a l
def b32 (o : Body) (g : Group) (l : Nat) : Word := src 32 g o.b l
def c32 (o : Body) (g : Group) (l : Nat) : Word := src 32 g o.c l

/-- ABS by its SUB field (R368). -/
def absV (sub : BitVec 4) (s : Bool) (x : BitVec w) : BitVec w :=
  if sub = 1 then x &&& BitVec.ofNat w 0x7FFFFFFF
  else if sub = 2 then x &&& BitVec.ofNat w 0x7FFF7FFF
  else if x.toInt < 0 then fit s false w (0 - x.toInt) else x

/-- A shift amount: the low 8 bits of b (R447). -/
def shamt (b : Word) : Nat := b.toNat % 256
def shlV (x : BitVec w) (n : Nat) : BitVec w := if n ≥ w then 0 else x <<< n
def shrV (x : BitVec w) (n : Nat) : BitVec w := if n ≥ w then 0 else x >>> n
def sraV (x : BitVec w) (n : Nat) : BitVec w :=
  if n ≥ w then (if x.msb then BitVec.allOnes w else 0) else x.sshiftRight n

/-- BFE: offset and width from the low 8 bits of b and c (R379). -/
def bfeV (u : Bool) (x b c : Word) : Word :=
  let off := shamt b
  let wid := shamt c
  if wid = 0 ∨ off ≥ 32 then 0
  else
    let n := Min.min wid (32 - off)
    if u then (x >>> off) &&& BitVec.ofNat 32 (2 ^ n - 1) else ((x >>> off) <<< (32 - n)).sshiftRight (32 - n)

/-- BFI: the low bits of x into the old value y (R380). -/
def bfiV (y x b c : Word) : Word :=
  let off := shamt b
  let wid := shamt c
  if wid = 0 ∨ off ≥ 32 then y
  else
    let mask : Word := BitVec.ofNat 32 (2 ^ Min.min wid (32 - off) - 1) <<< off
    (y &&& ~~~ mask) ||| ((x <<< off) &&& mask)

/-- CMP's condition (R367). -/
def condV (sub : BitVec 4) (u : Bool) (x y : BitVec w) : Bool :=
  let a := num u x
  let b := num u y
  if sub = 0 then a = b else if sub = 1 then a ≠ b else if sub = 2 then a < b else if sub = 3 then a ≤ b
  else if sub = 4 then a > b else a ≥ b

/-- LEA's b' and s (R424). -/
def leaB (o : Body) (b : Word) : BitVec (width o) := if uns o then b.setWidth (width o) else b.signExtend (width o)
def leaS (o : Body) (c : Word) : Nat := c.toNat % (if wide o then 64 else 32)

/-- PERM's byte k (R432). -/
def permV (a b c : Word) (k : Nat) : BitVec 8 :=
  let s : DWord := b ++ a
  let j := (c.extractLsb' (3 * k) 3).toNat
  let m := c.extractLsb' (16 + 2 * k) 2
  let y := s.extractLsb' (8 * j) 8
  if m = 0 then y else if m = 1 then 0 else if m = 2 then (if y.msb then 0xFF else 0)
  else (if s.getLsbD (32 * (j / 4) + 31) then 0xFF else 0)

/-- An instruction whose one effect is a value written to its destination: it completes from every state in which
it issues. -/
def Gives (i : Body → Instr) (opc : BitVec 8) (pair : Body → Bool) (val : Body → Group → Nat → DWord) : Prop :=
  ∀ (o : Body) (s : State), (i o).wf = true → issues opc o s = true →
    ∃ t, exec (i o) s = .next t ∧ Writes o (pair o) (val o s.me) s t

/-! ## Floating-point instructions (R98 to R106) -/

/-- The lanes an instruction acts in (R349). -/
def acts (o : Body) (s : State) : List Nat := actLanes o (s.actMask o)

/-- The flags of all lanes together (R101). -/
def allFlags (ls : List Nat) (fl : Nat → FFlags) : FFlags := ls.foldl (fun x l => x ||| fl l) 0

/-- A floating-point instruction without a trapped exception: the value of each lane is written, and the lanes'
flags are ORed into FPFLAGS (R101). `val` gives the value and the flags of a lane. -/
structure WritesFp (o : Body) (wide : Bool) (val : Nat → DWord × FFlags) (ls : List Nat) (s t : State) : Prop
    extends Retires (fun _ => nextPc s.cur.pc o.len) id id s t where
  dst : ∀ l ∈ acts o s, holds t.me wide o.dst l (val l).1
  only : OnlyDst wide o.dst (acts o s) s.me t.me
  fpflags : t.me.fpflags = s.me.fpflags ||| (allFlags ls (fun l => (val l).2)).zeroExtend 32

/-- A floating-point instruction completes from every state in which it issues and no lane raises a trapped
exception. -/
def GivesFp (i : Body → Instr) (opc : BitVec 8) (pair : Bool) (val : Body → State → Nat → DWord × FFlags) : Prop :=
  ∀ (o : Body) (s : State), (i o).wf = true → issues opc o s = true →
    (∀ l ∈ acts o s, (val o s l).2 &&& s.me.traps = 0) →
      ∃ t, exec (i o) s = .next t ∧ WritesFp o pair (val o s) (acts o s) s t

/-- A trapped exception in any lane takes FPE, and no register or flag is written (R101). -/
def TrapsFp (i : Body → Instr) (opc : BitVec 8) (val : Body → State → Nat → DWord × FFlags) : Prop :=
  ∀ (o : Body) (s : State), (i o).wf = true → issues opc o s = true → canTrap s = true →
    (∃ l ∈ acts o s, (val o s l).2 &&& s.me.traps ≠ 0) →
      ∃ t, exec (i o) s = .next t ∧ Trapped cFPE s.cur.pc s t

/-- A lane's value and flags under the group's rounding mode and FTZ, of the 32-bit sources a, b and c. -/
def fp (f : Body → Rm → Bool → Nat → Nat → Nat → Nat × FFlags) (o : Body) (s : State) (l : Nat) : DWord × FFlags :=
  let r := f o s.me.rm s.me.ftz (a32 o s.me l).toNat (b32 o s.me l).toNat (c32 o s.me l).toNat
  (BitVec.ofNat 64 r.1, r.2)

/-- The rational number a finite value is. -/
def toRat : FVal → Rat
  | .fin neg m e => (if neg then -1 else 1) * (m : Rat) * (2 : Rat) ^ e
  | _ => 0
/-- The value of an FP32 encoding. -/
def f32 (x : Nat) : FVal := unpack fp32 false x
def isFinite : FVal → Bool
  | .fin .. => true
  | _ => false

/-! ## Lane operations and index registers (R79, R116 to R118, R376, R414, R423, R448 to R450, R462) -/

/-- An instruction whose one effect is a value written to its destination, the value depending on every lane. -/
def GivesAt (i : Body → Instr) (opc : BitVec 8) (pair : Body → Bool) (val : Body → State → Nat → DWord) : Prop :=
  ∀ (o : Body) (s : State), (i o).wf = true → issues opc o s = true →
    ∃ t, exec (i o) s = .next t ∧ Writes o (pair o) (val o s) s t

/-- The lane SIPHON reads, `none` where its entry gives 0: FROM, BACK, AHEAD or MIRROR by MOD[17:16]; past the ends
CLAMP stays at the lane itself, FILL0 gives 0, and the plain forms wrap round (R450). -/
def siphonLane (md : BitVec 8) (n l : Nat) : Option Nat :=
  let n := n % 64
  let t : Int := if md.extractLsb' 0 2 = 1#2 then (l : Int) - n else (l : Int) + n
  if md.extractLsb' 0 2 = 0#2 then some n
  else if md.extractLsb' 0 2 = 3#2 then some (l ^^^ n)
  else if 0 ≤ t ∧ t < 64 then some t.toNat
  else if md.getLsbD 2 then some l else if md.getLsbD 3 then none else some (t % 64).toNat

/-- Whether SIPHON reads a gated lane (R92, R450). -/
def readsGated (o : Body) (s : State) (l : Nat) : Bool :=
  match siphonLane o.md (b32 o s.me l).toNat l with
  | some x => decide ((s.me.lane x).st = .gone)
  | none => false

/-- The active lanes in which source predicate a holds. -/
def trueLanes (o : Body) (s : State) : Mask := maskOf (fun l => s.me.preg o.a.num l) &&& s.actMask o

/-- The checks of R79 on the X register of a lane, of a pair access if `wide`. -/
def windowOk (g : Group) (wide : Bool) (n l : Nat) : Prop :=
  let x := g.xreg n l
  xIndex x < xLen x ∧ (wide = true → xBase x % 2 = 0) ∧ xReg wide x + (if wide then 1 else 0) < Min.min 256 g.budget

/-- V[Xn] of a lane (R79): the register BASE + INDEX, or the pair BASE + 2 INDEX. -/
def windowReg (g : Group) (wide : Bool) (n l : Nat) : Nat :=
  let x := g.xreg n l
  (x.extractLsb' 0 8).toNat + (if wide then 2 else 1) * (x.extractLsb' 16 16).toNat

/-! ## Control flow (R56 to R63, R356, R384, R386, R387, R415, R416, R444) -/

/-- The return and branch targets of R358: the next instruction, and the literal, sign-extended, from the branch. -/
def relTarget (o : Body) (pc : DWord) : DWord := match o.a with | .lit w => pc + w.signExtend 64 | _ => pc

/-- BRA's condition on S[c]: none, .Z, .NZ (R384). -/
def taken (o : Body) (g : Group) : Bool :=
  if o.md = 0 then true else if o.md = 1 then decide (g.sreg o.c.num = 0) else decide (g.sreg o.c.num ≠ 0)

/-- A group without its join barriers, bundle or flags changed: what a statement lets the instruction write. -/
def fixJ (j : Tbl JBar) (g : Group) : Group := { g with j := j }
def fixFlags (f : BitVec 12) (g : Group) : Group := { g with flags := f }
def fixBoard (b : List Pend) (g : Group) : Group := { g with board := b }
def fixTrap (x : TrapRegs) (g : Group) : Group := { g with trap := x }
def fixTimer (x : Timer) (f : BitVec 12) (g : Group) : Group := { g with timer := x, flags := f }
def fixRegion (r : Option Region) (x : Word) (g : Group) : Group := { g with region := r, xstat := x }

/-- Every lane of the bundle is ready. -/
def allReady (s : State) : Bool := decide (s.cur.act ≠ 0) && decide (s.cur.act &&& ~~~ s.me.ready = 0)

/-- A group whose newest entry of instructions that have still to be counted is left out. -/
def fixUnder (l : List (Mask × Nat)) (g : Group) : Group := { g with under := l }

/-- Lanes begin a wait and the rest of the bundle goes on; nothing else changes, and nothing is counted until they go on
(R55, R332). -/
structure Waits (o : Body) (m : Mask) (st : LaneSt) (s t : State) : Prop where
  wait : Waiting m st (nextPc s.cur.pc o.len) s t
  go : ∀ l ∈ lanesOf s.cur.act, m.getLsbD l = false →
    (t.me.lane l).st = (s.me.lane l).st ∧ (t.me.lane l).pc = nextPc s.cur.pc o.len
  outside : ∀ l, s.cur.act.getLsbD l = false →
    (t.me.lane l).st = (s.me.lane l).st ∧ (t.me.lane l).pc = (s.me.lane l).pc
  regs : SameRegs s.me t.me
  rest : SameRest s.me (fixUnder s.me.under t.me)
  under : t.me.under = (m, (lanesOf (s.actMask o)).length) :: s.me.under
  others : SameOthers s t
  machine : SameMachine s t
  retired : Unretired s t

end Sys2Proof.Safety
end

