-- ==== Sys2Proof/Safety/Memory.lean ====
section
/-!
DEFINITION. What claims say of memory accesses: which addresses an access may use, where it goes, the requests
a plain access leaves, and what memory holds afterwards.
-/

namespace Sys2Proof.Safety

open Sys2Proof.Machine

/-- Memory as it was but for the bytes stored from a key on. -/
def Stored (k : Nat) (bs : List Byte) (s t : State) : Prop :=
  ∀ i, t.rd i = if k ≤ i ∧ i < k + bs.length then bs.getD (i - k) 0 else s.rd i

/-- What fixes give back: the race clock a release advances, the memory a store changes. -/
def fixRace (r : RaceClk) (g : Group) : Group := { g with race := r }
def fixMem (m : Tbl Byte) (t : State) : State := { t with mem := m }

/-- The value a load of a size code makes of the bytes read (R418): sign-extended for .S8 and .S16. -/
def loadV (sz v : Nat) : DWord :=
  if sz = 3 then ((BitVec.ofNat 8 v).signExtend 32).setWidth 64
  else if sz = 5 then ((BitVec.ofNat 16 v).signExtend 32).setWidth 64 else BitVec.ofNat 64 v

/-! ## Atomic operations (R373) -/

/-- The new value of an atomic operation on an old value and an operand, of the type's width. -/
def atomV (op ty x y : Nat) : Nat :=
  if ty = 4 ∧ op = 0 then addRne fp32 x y
  else if ty = 4 ∧ op = 4 then (minMaxNum fp32 false true x y).1
  else if ty = 4 ∧ op = 5 then (minMaxNum fp32 false false x y).1
  else
    let w := 8 * tySize ty
    let a := BitVec.ofNat w x
    let b := BitVec.ofNat w y
    let less : Bool := if ty % 2 = 0 then a.slt b else a.ult b
    let more : Bool := if ty % 2 = 0 then b.slt a else b.ult a
    (if op = 0 then a + b else if op = 1 then a &&& b else if op = 2 then a ||| b else if op = 3 then a ^^^ b
      else if op = 4 then (if less then b else a) else if op = 5 then (if more then b else a) else b).toNat

/-! ## Headwater's accesses (R303) -/

/-- A lane's access lies in Headwater memory, aligned. -/
def HwAt (n : Nat) (va : DWord) : Prop := va.toNat + n ≤ Config.hwBytes ∧ va.toNat % n = 0

/-- `n` bytes of Headwater memory as a number. -/
def hwVal (s : State) (va : DWord) (n : Nat) : Nat := ofLe ((List.range n).map (fun i => s.view 0 (hwKey va.toNat + i)))

/-! ## Plain accesses of a group (R123, R131, R143, R144, R151) -/

/-- An access a group may make: aligned, in sign-extended form, translated to a frame of its partition, and not race-checked. -/
structure Reaches (s : State) (n : Need) (x : Acc) : Prop where
  aligned : x.va.toNat % x.n = 0
  form : canonical x.va = true
  window : windowAt s s.myCtxNo x.va = none
  page : ∃ t, translate s s.myCtxNo n x.va = .ok t ∧ s.raceOn s.myCtxNo t.rc = false

/-- The access as translated: its first byte's key and the page's attributes. -/
def placed (s : State) (n : Need) (x : Acc) : Acc :=
  match translate s s.myCtxNo n x.va with
  | .ok t => { x with pa := t.key, conf := t.conf, rc := t.rc, cp := t.cp }
  | _ => x

/-- A byte of a page-table entry through which an access goes: its A and D bits may be set (R144). -/
def isEntry (s : State) (n : Need) (xs : List Acc) (b : Nat) : Prop :=
  ∃ x ∈ xs, ∃ t, translate s s.myCtxNo n x.va = .ok t ∧
    (t.l1.key ≤ b ∧ b < t.l1.key + 8 ∨ t.l2.key ≤ b ∧ b < t.l2.key + 8)

/-- Memory is as it was but for the A and D bits of the entries used. -/
def MemBut (n : Need) (xs : List Acc) (s t : State) : Prop := ∀ b, ¬ isEntry s n xs b → t.rd b = s.rd b

/-- The accesses of LD and ST: one a lane, or for .PRIV one for each word (R124, R418, R419, R452). -/
def laneAccs (o : Body) (s : State) (st : Bool) : List Acc :=
  (accLanes st o (s.actMask o)).flatMap (fun l =>
    let v : DWord := if st then s.me.opv (decide (sizeSel o = 1 ∨ sizeSel o = 7)) o.dst l else 0
    let w := privWord s.me o l
    if sizeSel o < 6 then [{ lane := l, va := ea s.me o l, n := sizeBytes (sizeSel o), data := v }]
    else if sizeSel o = 6 then [{ lane := l, va := privAddr s.me w l, data := v }]
    else [{ lane := l, va := privAddr s.me w l, data := (v.extractLsb' 0 32).setWidth 64 },
          { lane := l, va := privAddr s.me (w + 1) l, sh := 32, data := (v.extractLsb' 32 32).setWidth 64 }])

/-- The .PRIV checks of R124 and R453 pass in every lane. -/
def privOk (o : Body) (s : State) (st : Bool) : Prop :=
  isPriv o = true → s.myGrid.priv ≠ 0 ∧ canonical s.me.privBase = true ∧ ∀ l ∈ accLanes st o (s.actMask o),
    0 ≤ privWord s.me o l ∧ privWord s.me o l < s.myGrid.pwords ∧ (sizeSel o = 7 → privWord s.me o l % 2 = 0)

/-- The accesses of ATOM, CAS and RED (R374, R388, R442). -/
def rmwList (o : Body) (s : State) (cas : Bool) : List Acc :=
  (actLanes o (s.actMask o)).map (fun l =>
    { lane := l, va := s.me.opv true o.a l, n := tySize o.cc.toNat, data := s.me.opv (decide (tySize o.cc.toNat = 8)) o.b l,
      cmp := if cas then s.me.opv (decide (tySize o.cc.toNat = 8)) o.dst l else 0 })

/-- The flags after an instruction with a flag that is pending now (R80, R354). -/
def flagSet (f : BitVec 4) (g h : Group) : Prop :=
  h.flags = if f.toNat < 12 then g.flags ||| (1#12 <<< f.toNat) else g.flags

/-- The requests of an instruction stand behind the core's older ones: one a line, in ascending line address, with
every access in the request of its line (R131, R151). -/
structure Requests (kind : ReqKind) (n : Need) (xs : List Acc) (s t : State) : Prop where
  queue : ∃ new : List Req, (t.core (s.coreNo s.cur.agent)).queue = (s.core (s.coreNo s.cur.agent)).queue ++ new ∧
    (new.map (·.line)).Pairwise (· < ·) ∧
    (∀ q ∈ new, q.kind = kind ∧ q.agent = s.cur.agent ∧ ∀ y ∈ q.accs, lineOf y.pa = q.line) ∧
    (∀ x ∈ xs, ∃ q ∈ new, ∃ y ∈ q.accs, y.pa = (placed s n x).pa ∧ y.lane = x.lane ∧ y.va = x.va ∧ y.n = x.n ∧ y.data = x.data
      ∧ y.cmp = x.cmp ∧ y.sh = x.sh) ∧
    (∀ q ∈ new, ∀ y ∈ q.accs, ∃ x ∈ xs, y.pa = (placed s n x).pa ∧ y.lane = x.lane ∧ y.va = x.va ∧ y.data = x.data)

/-- The accesses of an instruction to one line, as translated. -/
def lineAccs (s : State) (n : Need) (xs : List Acc) (line : Nat) : List Acc :=
  (xs.map (placed s n)).filter (fun x => decide (lineOf x.pa = line))

/-- How a RED's accesses to the line of one of them go (R134). -/
def wayOfRed (o : Body) (s : State) (n : Need) (xs : List Acc) (x : Acc) : RedWay :=
  redWay s (s.coreNo s.cur.agent) s.cur.agent (sizeSel o) o.cc.toNat (lineOf (placed s n x).pa)
    (lineAccs s n xs (lineOf (placed s n x).pa))

/-- A plain instruction has issued: its lanes go on, memory is as it was but for A and D bits. -/
structure Posted (o : Body) (n : Need) (xs : List Acc) (s t : State) : Prop where
  lanes : GoesTo s.cur.act (fun _ => nextPc s.cur.pc o.len) s.me t.me
  fpflags : t.me.fpflags = s.me.fpflags
  others : SameOthers s t
  mem : MemBut n xs s t
  retired : Retired s t

/-- A destination is to be written later in a lane (R420). -/
def pendsIn (g : Group) (d : Opd) (l : Nat) : Prop :=
  ∃ p ∈ g.board, p.scalar = d.scl ∧ p.reg = d.num ∧ p.lanes.getLsbD l = true

/-- An access waits for a fill of its line, or stands in a request of its own (R132). -/
def Loads (s t : State) (x : Acc) : Prop :=
  let c := t.core (s.coreNo s.cur.agent)
  let y := placed s { r := true } x
  (∃ q ∈ c.queue, q.kind = .load ∧ q.agent = s.cur.agent ∧ y ∈ q.accs) ∨
  (∃ w ∈ c.waiters, w.req.kind = .load ∧ w.req.agent = s.cur.agent ∧ y ∈ w.req.accs ∧
    ∃ f ∈ c.queue, f.kind = .fill ∧ f.id = w.fill ∧ f.line = lineOf y.pa)

/-- What a load of a lane puts together from its accesses. -/
def laneVal (xs : List Acc) (read : Acc → Nat) (l : Nat) : Nat :=
  (xs.filter (fun x => x.lane = l)).foldl (fun v x => v + read x * 2 ^ x.sh) 0

/-- No atomic region is open, no partial is held on the line, and the line is encrypted as the access asks (R134,
R167, R232, R294). -/
def quiet (s : State) (conf line : Nat) : Bool :=
  s.openRegions.isEmpty && (s.l2line line).merge.isNone && !(s.cores.any (fun p => p.2.sums.any (fun q => q.lines.contains line)))
    && decide ((s.l2line line).conf = conf)

/-- The byte at a place after accesses have stored in their order (R151): the last that covers it gives it. -/
def overlay (xs : List Acc) (b : Nat) (v : Byte) : Byte :=
  xs.foldl (fun v x => if x.pa ≤ b ∧ b < x.pa + x.n then x.data.extractLsb' (8 * (b - x.pa)) 8 else v) v

/-- L2 holds a line, or has room in its set for `n` lines more: bringing it, on a page that is not race-checked, makes
no line leave (R9, R138, R185). -/
def roomFor (s : State) (n : Nat) (rc : Bool) (line : Nat) : Bool :=
  (s.l2line line).present ||
    (!rc && decide (((l2SetOf s line).filter (fun p => p.1 ≠ line)).length + n ≤ Config.l2Ways))

/-- The number at a place of memory. -/
def memVal (s : State) (x : Acc) : Nat := ofLe (s.rdN x.pa x.n)

/-- Read-modify-writes in their order on bytes of memory: each access's old value, and the bytes at the end; `new` gives what an access
writes, if it writes (R374, R388, R442). -/
def rmwRun (new : Acc → Nat → Option Nat) : List Acc → (Nat → Byte) → List (Acc × Nat) × (Nat → Byte)
  | [], m => ([], m)
  | x :: r, m =>
    let old := ofLe ((List.range x.n).map (fun i => m (x.pa + i)))
    let m' : Nat → Byte := match new x old with
      | some v => fun b => if x.pa ≤ b ∧ b < x.pa + x.n then (leBytes x.n v).getD (b - x.pa) 0 else m b
      | none => m
    let q := rmwRun new r m'
    ((x, old) :: q.1, q.2)

/-- An access lies in its line, in a frame, on a quiet line. -/
def onLine (s : State) (line : Nat) (x : Acc) : Prop :=
  lineOf x.pa = line ∧ x.pa % 128 + x.n ≤ 128 ∧ x.n ≤ 8 ∧ isFrame x.pa = true ∧ quiet s x.conf line = true

/-! ## Atomic regions (R163 to R170) -/

/-- A byte as the region has it: the one its youngest store holds, else `v` (R164). -/
def heldVal (r : Region) (b : Nat) (v : Byte) : Byte :=
  match r.held.find? (fun h => h.1 = b) with
  | some h => h.2.1
  | none => v

/-- An open region has aborted (R169, R170): its stores are discarded, XSTAT says why, and its participants that have not
exited stand at the abort target. -/
structure Aborted (a : Nat) (r : Region) (xstat : Word) (s t : State) : Prop where
  closed : (t.grp a).region = none
  xstat : (t.grp a).xstat = xstat
  mem : t.mem = s.mem
  goes : ∀ l ∈ lanesOf (r.parts &&& (s.grp a).live), ((t.grp a).lane l).st = .ready ∧ ((t.grp a).lane l).pc = r.target
  regs : SameRegs (s.grp a) (t.grp a)

/-- An access of a participant can be performed: only this region is open, no partial is on its line, which is encrypted as
the access asks and has room in L2, and its bytes are no page-table entry's. -/
def regionReady (s : State) (n : Need) (r : Region) (xs : List Acc) : Prop :=
  xs ≠ [] ∧ s.openRegions = [(s.cur.agent, r)] ∧ r.lines + xs.length ≤ 8 ∧ (s.core (s.coreNo s.cur.agent)).queue = [] ∧
    ∀ x ∈ xs, r.parts.getLsbD x.lane = true ∧ Reaches s n x ∧
      onLine { s with groups := [] } (lineOf (placed s n x).pa) (placed s n x) ∧
      roomFor s xs.length (placed s n x).rc (lineOf (placed s n x).pa) = true ∧
      ∀ i, i < x.n → ¬ isEntry s n xs ((placed s n x).pa + i)

/-! ## Scratchpad (R126, R419, R422, R453) -/

/-- The lanes and offsets of LDS and STS, and the checks of every lane. -/
def scrLanes (o : Body) (s : State) (st : Bool) : List Nat := accLanes st { o with md := 0 } (s.actMask o)
def scrOk (o : Body) (s : State) (l : Nat) : Prop :=
  scrOffset s.me o l % (scrBytes o : Int) = 0 ∧ 0 ≤ scrOffset s.me o l ∧
    scrOffset s.me o l + scrBytes o ≤ s.myTeam.scratchSize
/-- The number at an offset of the team's share. -/
def scrVal (s : State) (off : Int) (n : Nat) : Nat := ofLe (s.myTeam.scratchBytes off.toNat n)

end Sys2Proof.Safety
end

