-- ==== Sys2Proof/Safety/Summary.lean ====
section
/-!
DEFINITION. What claims say of the summary instructions (R216 to R233): where a summary stands, when an
instruction on it can be performed, and what it leaves.
-/

namespace Sys2Proof.Safety

open Sys2Proof.Machine

/-- The half-lines of a summary in global memory, translated; Headwater's are not. -/
def halves (s : State) (o : Body) (x : Opd) (n : Need) (size : Nat) : List Acc :=
  (List.range (size / 64)).map (fun i =>
    let y : Acc := { va := sAddr s o x + BitVec.ofNat 64 (64 * i), n := 64 }
    if s.isHw then { y with pa := hwKey y.va.toNat } else placed s n y)

/-- A summary's bytes in `t`, at the places `s` gives it. -/
def summAt (s : State) (o : Body) (x : Opd) (n : Need) (size : Nat) (t : State) : List Byte :=
  if isScr o then (t.team s.me.team).scratchBytes (sAddr s o x).toNat size
  else (halves s o x n size).flatMap (fun y => t.rdN y.pa 64)

/-- No two half-lines overlap. -/
def apart (ys : List Acc) : Prop := ys.Pairwise (fun y z => y.pa + 64 ≤ z.pa ∨ z.pa + 64 ≤ y.pa)

/-- A summary can be read, or read and written: it is aligned, and lies in the share, in Headwater memory, or on pages
that are reached and not race-checked, its lines being quiet with room in L2 and no part of it a page-table entry in use; `all` names
the half-lines of every summary of the instruction. -/
def summReady (s : State) (o : Body) (x : Opd) (n : Need) (size : Nat) (all : List Acc) : Prop :=
  (sAddr s o x).toNat % 128 = 0 ∧
  (isScr o = true → (sAddr s o x).toNat + size ≤ s.myTeam.scratchSize) ∧
  (isScr o = false → s.isHw = true → (sAddr s o x).toNat + size ≤ Config.hwBytes ∧
    ∀ y ∈ halves s o x n size, (s.l2line (lineOf y.pa)).conf = 0) ∧
  (isScr o = false → s.isHw = false → (s.core (s.coreNo s.cur.agent)).queue = [] ∧ apart (halves s o x n size) ∧
    ∀ y ∈ halves s o x n size, Reaches s n y ∧ isFrame y.pa = true ∧ quiet s y.conf (lineOf y.pa) = true ∧
      roomFor s all.length y.rc (lineOf y.pa) = true ∧ ∀ i, i < 64 → ¬ isEntry s n all (y.pa + i))

/-- Everything but the summary, the entries used and the destination is as it was. -/
structure SummRest (o : Body) (n : Need) (all written : List Acc) (s t : State) : Prop where
  lanes : GoesTo s.cur.act (fun _ => nextPc s.cur.pc o.len) s.me t.me
  rest : SameRest s.me t.me
  fpflags : t.me.fpflags = s.me.fpflags
  others : SameOthers s t
  retired : Retired s t
  mem : ∀ b, ¬ isEntry s n all b → (∀ y ∈ written, ¬ (y.pa ≤ b ∧ b < y.pa + 64)) → t.rd b = s.rd b

def needRw : Need := { r := true, w := true }

/-- An instruction replaces a summary of a kind in place (R219, R222, R226, R228): by `f` of what stood there. `hdr` says
whether its header is checked (R218). -/
def Updates (i : Body → Instr) (opc : BitVec 8) (kind : Body → Nat) (hdr : Bool) (f : Body → State → Summ → Summ) : Prop :=
  ∀ (o : Body) (s : State), (i o).wf = true → issues opc o s = true → s.actMask o ≠ 0 →
    let n := summSize (kind o)
    let hs := halves s o o.a needRw n
    let was := summAt s o o.a needRw n s
    summReady s o o.a needRw n hs → (hdr = true → headerOk (kind o) was = true) →
    ∃ t, exec (i o) s = .next t ∧ SameRegs s.me t.me ∧
      summAt s o o.a needRw n t = (f o s (summOf was)).bytes ∧
      SummRest o needRw hs (if isScr o then [] else hs) s t ∧
      ∀ b, (isScr o = false ∨ b < (sAddr s o o.a).toNat ∨ (sAddr s o o.a).toNat + n ≤ b) →
        t.myTeam.scratch.at b = s.myTeam.scratch.at b

/-- A query writes its destination from a summary of a kind and leaves the summary unchanged. -/
def Queries (i : Body → Instr) (opc : BitVec 8) (x : Body → Opd) (kind : Nat) (wide : Bool)
    (val : Body → Group → Summ → Nat → DWord) : Prop :=
  ∀ (o : Body) (s : State), (i o).wf = true → issues opc o s = true → s.actMask o ≠ 0 →
    let n : Need := { r := true }
    let size := summSize kind
    let hs := halves s o (x o) n size
    let was := summAt s o (x o) n size s
    summReady s o (x o) n size hs → headerOk kind was = true →
    ∃ t, exec (i o) s = .next t ∧ OnlyDst wide o.dst (acts o s) s.me t.me ∧ SummRest o n hs [] s t ∧
      ∀ l ∈ acts o s, holds t.me wide o.dst l (val o s.me (summOf was) l)

/-- The values of the active lanes, ascending. -/
def laneVals (o : Body) (s : State) : List Nat := (lanesOf (s.actMask o)).map (fun l => (b32 o s.me l).toNat)

/-- The weight of the items a sketch holds: 2^i each at level i (R221). -/
def sketchWeight (x : Summ) : Nat := x.levels.zipIdx.foldl (fun a p => a + p.1.length * 2 ^ p.2) 0

end Sys2Proof.Safety
end

