-- ==== Sys2Proof/Safety/Engines.lean ====
section
/-!
DEFINITION. What claims say of the engines' queues, the matrix engine, the collectives and the status registers.
-/

namespace Sys2Proof.Safety

open Sys2Proof.Machine

/-- An instruction has left an operation to an engine: its lanes go on, its flag is pending, memory is unchanged. -/
structure Queued (o : Body) (s t : State) : Prop where
  lanes : GoesTo s.cur.act (fun _ => nextPc s.cur.pc o.len) s.me t.me
  flags : flagSet o.fset s.me t.me
  fpflags : t.me.fpflags = s.me.fpflags
  mem : t.mem = s.mem
  retired : Retired s t

/-- The eight words of a shape record in S[a] to S[a+7] (R139). -/
def shapeWords (o : Body) (s : State) : List Word := (List.range 8).map (fun i => s.me.sreg (o.a.num + i))

/-- Whether a TCOPY is a step of the team's ALLREDUCE instance (R315). -/
def isStepOf (s : State) (x : Shp) : Bool :=
  (curInst s s.me.team).any (fun p => decide (p.2.kind = 1) && decide (x.op ≠ 0))

/-- The promise of R142: VCLK, the latency of the path, and the bytes ahead and its own over the path's rate. -/
def promiseV (s : State) (x : Shp) : Word :=
  let a := s.cur.agent
  let far := sideTier s a x.sscr x.src || (!x.remote && sideTier s a x.dscr x.dst)
  let latency := if x.remote then 4000 else if far then 2500 else 1500
  let rate := if x.remote || far then 8 else 32
  let bytes := x.count * x.unitBytes + (if isStepOf s x then 0 else ((s.core (s.coreNo a)).eddy.map Copy.left).sum)
  BitVec.ofNat 32 ((s.vclk s.myCtxNo).toNat + latency + (bytes + rate - 1) / rate)

/-! ## Collectives (R312, R313) -/

/-- The two words of a COLLSET's operand. -/
def coll0 (o : Body) (s : State) : Word := (s.me.opv true o.a 0).extractLsb' 0 32
def coll1 (o : Body) (s : State) : Word := (s.me.opv true o.a 0).extractLsb' 32 32
def collGid (o : Body) (s : State) : Nat := ((coll1 o s).extractLsb' 16 8).toNat
def collGroup (o : Body) (s : State) : CollGroup := collOf s s.myCtxNo (collGid o s)
def isMember (o : Body) (s : State) : Bool := (collGroup o s).members.contains (s.boot.moduleNo, s.myCtxNo)
/-- BADARG as the issuing module judges it (R313). -/
def badArg (o : Body) (s : State) : Bool :=
  let w := coll1 o s
  let alg := w.extractLsb' 14 2
  let kind := w.extractLsb' 8 4
  let op := w.extractLsb' 4 4
  decide (w.extractLsb' 24 8 ≠ 0) || decide (w.extractLsb' 12 2 ≠ 0) || decide (w.extractLsb' 0 4 ≠ 0) || decide (alg = 3)
    || decide (1 < kind) || decide (0xB < op) || (decide (kind = 0) && decide (op ≠ 0)) || (decide (kind = 1) && decide (op = 0))
    || (decide (alg = 0) && decide ((collGroup o s).members.length > 16))
def seqFits (o : Body) (s : State) : Bool := decide ((coll0 o s).extractLsb' 0 16 = (collGroup o s).nextSeq)

/-! ## Matrix queue (R192, R454) -/

/-- A matrix instruction joins its team's queue, when the queue has room, its operands pass their check, and, if it
accesses memory, its core's earlier accesses are performed. -/
def Enqueues (i : Body → Instr) (opc : BitVec 8) (memory : Bool) (ok : Body → State → Prop) (e : Body → State → MEntry) : Prop :=
  ∀ (o : Body) (s : State), (i o).wf = true → issues opc o s = true → s.actMask o ≠ 0 →
    (ok o s → s.myTeam.mqueue.length < Config.matrixEntries →
      (memory = true → (s.core (s.coreNo s.cur.agent)).queue = []) →
      ∃ t, exec (i o) s = .next t ∧ Queued o s t ∧ SameRegs s.me t.me ∧
        t.myTeam.mqueue = s.myTeam.mqueue ++ [{ e o s with
          id := s.fresh, agent := s.cur.agent, oppc := s.cur.pc, opc := opc, flag := o.fset, race := s.me.race }]) ∧
    (ok o s → s.myTeam.mqueue.length ≥ Config.matrixEntries → exec (i o) s = .next (holdBundle s))

def recordsAligned (o : Body) (s : State) : Prop :=
  (s.me.opv true o.a 0).toNat % 64 = 0 ∧ (s.me.opv true o.b 0).toNat % 64 = 0
def rowsAligned (o : Body) (s : State) : Prop :=
  (s.me.opv true o.a 0).toNat % 16 = 0 ∧ (b32 o s.me 0).toNat % 16 = 0

/-- A shape word TCFG accepts (R39, R455). -/
def shapeWordOk (w : Word) : Prop :=
  let f := (w.extractLsb' 28 4).toNat
  let rows := (w.extractLsb' 20 8).toNat
  let cols := (w.extractLsb' 8 12).toNat
  1 ≤ f ∧ f ≤ 11 ∧ 1 ≤ rows ∧ rows ≤ 64 ∧ 1 ≤ cols ∧ cols ≤ rowElems f ∧ w.extractLsb' 0 8 = 0

/-- The row a lane of TRD and TWR reaches, and the byte of the tile (R193). -/
def rowOf (row0 l : Nat) : Nat := row0 + l / 32
def byteOf (row0 l : Nat) : Nat := 128 * row0 + 4 * l

/-! ## Status registers (R84 to R90) -/

/-- The low halves of the 64-bit registers (R86). -/
def lowHalf (idx : Nat) : Bool := [0x010, 0x012, 0x018, 0x030, 0x034, 0x036, 0x040, 0x080, 0x80A, 0x80C, 0x80E].contains idx
/-- A half of a 64-bit register. -/
def isHalf (idx : Nat) : Bool := lowHalf idx || (decide (idx % 2 = 1) && lowHalf (idx - 1))

/-- MTS of a register writes `v`: it completes, no V, S, P or X register and no byte of memory changes, and `eff` holds. -/
def MtsGives (idx : Nat) (pre : State → Prop) (eff : Word → State → State → Prop) : Prop :=
  ∀ (o : Body) (s : State), (Instr.mts o).wf = true → issues 0xB4 o s = true → s.actMask o ≠ 0 → o.sysIndex = idx → pre s →
    ∃ t, exec (.mts o) s = .next t ∧ SameRegs s.me t.me ∧ t.mem = s.mem ∧ Retired s t ∧
      GoesTo s.cur.act (fun _ => nextPc s.cur.pc o.len) s.me t.me ∧ eff (a32 o s.me 0) s t

/-- Headwater's instruction completes and changes no byte of memory and no register but its destination. -/
structure HwDone (o : Body) (s t : State) : Prop where
  lanes : GoesTo s.cur.act (fun _ => nextPc s.cur.pc o.len) s.me t.me
  only : OnlyDst false o.dst (acts o s) s.me t.me
  retired : Retired s t

end Sys2Proof.Safety
end

