-- ==== Sys2Proof/Safety/Events.lean ====
section
/-!
DEFINITION. What claims say of the operations and events that have no encoding: what a completion leaves in host
memory, which shares a meter counts, and when the lanes of a wait go on.
-/

namespace Sys2Proof.Safety

open Sys2Proof.Machine

/-- No budget of Weir limits host traffic, no page of a host is absent, and nothing waits on the host (R292, R293, R320). -/
def hostOpen (s : State) : Prop :=
  (∀ k, (s.weir.at k).unbudget = 0) ∧ s.hostWrites = [] ∧ s.hostAbsent = [] ∧ s.hostWaits = []

/-- A completion of a queue has been written (R323, R324): TAG and STATUS in its entry, WRITTEN, and the signal. -/
structure Completion (vd q : Nat) (tag : Word) (status : Nat) (s t : State) : Prop where
  entry : t.rdN (hostKey vd ((s.vq vd q).cring.toNat + 16 + 16 * ((s.vq vd q).written % (s.vq vd q).size))) 5
    = leBytes 4 tag.toNat ++ leBytes 1 status
  written : t.rdN (hostKey vd ((s.vq vd q).cring.toNat + 4)) 4 = leBytes 4 ((s.vq vd q).written + 1)
  count : (t.vq vd q).written = (s.vq vd q).written + 1
  signal : (vd, (s.vq vd q).vector) ∈ t.msix

/-- The command's tag (R321). -/
def tagOf (w : List Byte) : Word := BitVec.ofNat 32 (fieldOf w 4 4)
/-- The dimensions of a LAUNCH command. -/
def dimsOf (w : List Byte) : Nat × Nat × Nat := (fieldOf w 0x18 4, fieldOf w 0x1C 2, fieldOf w 0x1E 2)

/-- A grid's number of teams. -/
def gridTotal (x : Grid) : Nat := x.dimX * x.dimY * x.dimZ

/-- The lanes of which `w` holds go on at the instruction after their wait, and no other lane changes (R55). -/
def Wakes (a : Nat) (w : LaneSt → Bool) (s t : State) : Prop :=
  ∀ l, l < 64 →
    ((t.grp a).lane l).st = (if w ((s.grp a).lane l).st then .ready else ((s.grp a).lane l).st) ∧
    ((t.grp a).lane l).pc = (if w ((s.grp a).lane l).st then ((s.grp a).lane l).nx else ((s.grp a).lane l).pc)

/-- Only one agent's group changes, and no byte of memory. -/
def OnlyGroup (a : Nat) (s t : State) : Prop :=
  (∀ b, b ≠ a → t.grp b = s.grp b) ∧ t.mem = s.mem ∧ t.l2 = s.l2 ∧ t.teams = s.teams ∧ t.ctxs = s.ctxs ∧ t.cores = s.cores

/-- An agent's trap area can be written for a trap of lanes at a PC, and a handler takes it (R237, R240, R244). -/
def canTrapAt (s : State) (a : Nat) (pc : DWord) : Bool :=
  hasHandler (s.grp a) && (match trapArea s a pc with | .at_ .. => true | _ => false) && !areaBusy s a

/-- The events that are the arrival of a flit (R309). -/
def flitEvents : List (Flit → Instr) := [.write, .read, .reply, .ack, .contrib, .result]

/-- Lanes of an agent have entered a trap (R237, R238). -/
structure Entered (a : Nat) (m : Mask) (code : BitVec 8) (deferred : Bool) (tpc : DWord) (s t : State) : Prop where
  cause : (t.grp a).trap.code = code ∧ (t.grp a).trap.inTrap = true ∧ (t.grp a).trap.deferred = deferred
  pc : (t.grp a).trap.pc = tpc
  lanes : (t.grp a).trap.lanes = m
  goes : ∀ l ∈ lanesOf m, ((t.grp a).lane l).st = .ready ∧ ((t.grp a).lane l).pc = (s.grp a).trap.base

/-- A context stops (R247): its state, mode and the instant of the request. -/
def Stopping (c : Nat) (stop : StopSt) (t : State) : Prop := (t.ctx c).st = .stopping ∧ (t.ctx c).stop = stop

/-- A context is lost, and its virtual time stands (R256). -/
def Lost (c : Nat) (t : State) : Prop := (t.ctx c).st = .lost ∧ (t.ctx c).vrun = false

/-- The energy shares that a partition's meter counts: those of its grids that used a unit in the window (R299). -/
def counted (s : State) (p : Nat) (shares : List (Nat × Nat)) : List (Nat × Nat) :=
  shares.filter (fun x => inWindow s p x.1)

/-- Every lane of a group that has not exited waits in a blocking request, at a JOIN or at a BAR, and none is held (R67). -/
def tallocStuck (g : Group) : Prop :=
  g.live &&& g.trap.held = 0 ∧
    ∀ l ∈ lanesOf g.live, match (g.lane l).st with | .talloc _ => True | .join _ => True | .bar _ => True | _ => False

/-- An engine operation's entry is in no queue of a core, and its flag is not pending (R142). -/
def CopyGone (k : Nat) (c : Copy) (t : State) : Prop :=
  (∀ e ∈ (t.core k).eddy, e.id ≠ c.id) ∧ (t.grp c.agent).pending c.flag = false
/-- A matrix operation's entry has left its team's queue, and its flag is not pending (R192). -/
def EntryGone (tm : Nat) (e : MEntry) (t : State) : Prop :=
  (∀ x ∈ (t.team tm).mqueue, x.id ≠ e.id) ∧ (t.grp e.agent).pending e.flag = false

/-- The elements of a copy whose two sides are offsets of its team's share (R139, R140). -/
def srcAt (x : Shp) (i : Nat) : Nat := (x.addr true i).toNat
def dstAt (x : Shp) (i : Nat) : Nat := (x.addr false i).toNat

/-- FP32 words of a side of SMX3 (R121, R141). -/
def fpWords (n : Nat) (bs : List Byte) : List Nat := (List.range n).map (fun k => fieldOf bs (4 * k) 4)

/-- The next `n` elements of a local copy from element `i` on, one after the other: each is read, and it takes the place of the
destination's, or under an operator the fold of both does; none of the accesses faults or waits (R120, R139 to R141). -/
def movedElems (c : Copy) : Nat → Nat → State → Option State
  | 0, _, s => some s
  | n + 1, i, s =>
    let x := c.shp
    match sideRead c false x.sscr (x.addr true i) x.esz s with
    | .ok bs u =>
      match (if x.op = 0 then sideWrite c false x.dscr (x.addr false i) bs u
        else sideUpdate c false x.dscr (x.addr false i) x.esz (fun old => leBytes x.esz (foldElems x.op [ofLe old, ofLe bs])) u) with
      | .ok _ w => movedElems c n (i + 1) w
      | _ => none
    | _ => none

end Sys2Proof.Safety
end

