-- ==== Sys2Proof/Certificates/Slice0/Obligations.lean ====
section
/-!
DEFINITION. The statements for the provers. Each docstring names the rules of the spec it formalises. An
instruction's result statements are its completion statements too: they conclude that `exec` answers a next state.
-/

open Sys2Proof Sys2Proof.Machine Sys2Proof.Safety

/-! ## Encoding -/

/-- R340 to R344: an instruction with an encoding is decoded from its own words, with every operand, and the words
after it are left. -/
def Obligations.DecodeOfEncode : Prop :=
  ∀ (i : Instr) (r : List Word), i.wf = true → decode (encode i ++ r) = some (i, r)

/-- R340 to R344, R353, R359: only well-formed instructions are decoded, and only from their own words: no bit of a
word is ignored. -/
def Obligations.EncodeOfDecode : Prop :=
  ∀ (w1 w2 w3 : Word) (i : Instr), decodeWords w1 w2 w3 = some i →
    i.wf = true ∧ encode i = [w1, w2, w3].take (wordsOf w1)

/-! ## Integer and logic instructions -/

/-- R95, R351, R368, R369, R424, R447: ABS, ADD, LEA, MAD, MAX, MIN, MUL, MULH and SUB write the exact result, wrapped,
or clamped with .SAT, to the destination of each lane they act in; nothing else changes but the counts. -/
def Obligations.IntegerArithmetic : Prop :=
  Gives .abs 0x20 wide (fun o g l => (absV (o.md.extractLsb' 0 4) (sat o) (A o g l)).setWidth 64) ∧
  Gives .add 0x21 wide (fun o g l =>
    (fit (sat o) (uns o) (width o) (num (uns o) (A o g l) + num (uns o) (B o g l))).setWidth 64) ∧
  Gives .lea 0x28 wide (fun o g l => (A o g l + leaB o (b32 o g l) <<< leaS o (c32 o g l)).setWidth 64) ∧
  Gives .mad 0x29 wide (fun o g l =>
    (fit (sat o) (uns o) (width o) (num (uns o) (A o g l) * num (uns o) (B o g l) + num (uns o) (C o g l))).setWidth 64) ∧
  Gives .max 0x2A wide (fun o g l =>
    (if num (uns o) (A o g l) < num (uns o) (B o g l) then B o g l else A o g l).setWidth 64) ∧
  Gives .min 0x2B wide (fun o g l =>
    (if num (uns o) (B o g l) < num (uns o) (A o g l) then B o g l else A o g l).setWidth 64) ∧
  Gives .mul 0x2D wide (fun o g l =>
    (fit (sat o) (uns o) (width o) (num (uns o) (A o g l) * num (uns o) (B o g l))).setWidth 64) ∧
  Gives .mulh 0x2E wide (fun o g l =>
    (BitVec.ofInt (width o) (num (uns o) (A o g l) * num (uns o) (B o g l) / 2 ^ width o)).setWidth 64) ∧
  Gives .sub 0x37 wide (fun o g l =>
    (fit (sat o) (uns o) (width o) (num (uns o) (A o g l) - num (uns o) (B o g l))).setWidth 64)

/-- R367, R370, R379, R380, R385, R393, R394, R424, R432, R447: AND, OR, XOR, NOT, MOV, SEL, the shifts, BREV, BFE, BFI, PERM, CMP, CLZ
and POPC write their results, and nothing else changes but the counts. -/
def Obligations.IntegerLogic : Prop :=
  (Gives .and 0x22 wide (fun o g l => (A o g l &&& B o g l).setWidth 64) ∧
  Gives .or 0x30 wide (fun o g l => (A o g l ||| B o g l).setWidth 64) ∧
  Gives .xor 0x38 wide (fun o g l => (A o g l ^^^ B o g l).setWidth 64) ∧
  Gives .not 0x2F wide (fun o g l => (~~~ A o g l).setWidth 64) ∧
  Gives .mov 0x2C wide (fun o g l => (A o g l).setWidth 64) ∧
  Gives .sel 0x33 wide (fun o g l => (if g.preg o.c.num l then A o g l else B o g l).setWidth 64) ∧
  Gives .shl 0x34 wide (fun o g l => (shlV (A o g l) (shamt (b32 o g l))).setWidth 64) ∧
  Gives .shr 0x35 wide (fun o g l => (shrV (A o g l) (shamt (b32 o g l))).setWidth 64) ∧
  Gives .sra 0x36 wide (fun o g l => (sraV (A o g l) (shamt (b32 o g l))).setWidth 64) ∧
  Gives .brev 0x25 wide (fun o g l => (A o g l).reverse.setWidth 64) ∧
  Gives .bfe 0x23 (fun _ => false) (fun o g l => (bfeV (uns o) (a32 o g l) (b32 o g l) (c32 o g l)).setWidth 64) ∧
  Gives .bfi 0x24 (fun _ => false) (fun o g l =>
    (bfiV (src 32 g o.dst l) (a32 o g l) (b32 o g l) (c32 o g l)).setWidth 64) ∧
  Gives .perm 0x31 (fun _ => false) (fun o g l =>
    let p := permV (a32 o g l) (b32 o g l) (c32 o g l)
    (p 3 ++ p 2 ++ p 1 ++ p 0).setWidth 64)) ∧
  (Gives .cmp 0x27 (fun _ => false) (fun o g l =>
    if condV (o.md.extractLsb' 0 4) (uns o) (A o g l) (B o g l) then 1 else 0) ∧
  Gives .clz 0x26 (fun _ => false) (fun o g l => (A o g l).clz.setWidth 64) ∧
  Gives .popc 0x32 (fun _ => false) (fun o g l => (A o g l).cpop.setWidth 64))

/-! ## Floating point -/

/-- R98 to R103, R406 to R409, R412: FADD, FSUB, FMUL, FFMA, FMIN, FMAX, FCMP, FCLASS and FRND round the exact result once under
the group's mode; FRCP, FRSQ, FSQRT, FEXP2, FLOG2, FSIN and FCOS round their function's value to nearest even; each writes it and
ORs every lane's flags into FPFLAGS. An exception that FPMODE traps takes FPE, and no lane's register and no flag is written. -/
def Obligations.FloatArithmetic : Prop :=
  (GivesFp .fadd 0x40 false (fp (fun _ rm z a b _ => roundV fp32 rm z (sumV rm [unpack fp32 z a, unpack fp32 z b]))) ∧
  GivesFp .fsub 0x41 false (fp (fun _ rm z a b _ =>
    roundV fp32 rm z (sumV rm [unpack fp32 z a, (unpack fp32 z b).negate]))) ∧
  GivesFp .fmul 0x42 false (fp (fun _ rm z a b _ => roundV fp32 rm z (mulV (unpack fp32 z a) (unpack fp32 z b)))) ∧
  GivesFp .ffma 0x43 false (fp (fun _ rm z a b c =>
    roundV fp32 rm z (sumV rm [mulV (unpack fp32 z a) (unpack fp32 z b), unpack fp32 z c]))) ∧
  GivesFp .fmin 0x44 false (fp (fun _ _ z a b _ => minMaxNum fp32 z false a b)) ∧
  GivesFp .fmax 0x45 false (fp (fun _ _ z a b _ => minMaxNum fp32 z true a b)) ∧
  GivesFp .fcmp 0x46 false (fp (fun o _ z a b _ => fcmpR (o.md.extractLsb' 0 4).toNat z a b)) ∧
  GivesFp .fclass 0x47 false (fp (fun _ _ _ a _ _ => (classR a, 0))) ∧
  GivesFp .frnd 0x48 false (fp (fun o rm z a _ _ =>
    frndR (if o.md.extractLsb' 0 4 = 4 then rm.toNat else (o.md.extractLsb' 0 4).toNat) z a))) ∧
  (GivesFp .frcp 0x49 false (fp (fun _ _ z a _ _ => funF 0x49 z a)) ∧
  GivesFp .frsq 0x4A false (fp (fun _ _ z a _ _ => funF 0x4A z a)) ∧
  GivesFp .fsqrt 0x4B false (fp (fun _ _ z a _ _ => funF 0x4B z a)) ∧
  GivesFp .fexp2 0x4C false (fp (fun _ _ z a _ _ => funF 0x4C z a)) ∧
  GivesFp .flog2 0x4D false (fp (fun _ _ z a _ _ => funF 0x4D z a)) ∧
  GivesFp .fsin 0x4E false (fp (fun _ _ z a _ _ => funF 0x4E z a)) ∧
  GivesFp .fcos 0x4F false (fp (fun _ _ z a _ _ => funF 0x4F z a))) ∧
  (TrapsFp .fadd 0x40 (fp (fun _ rm z a b _ => roundV fp32 rm z (sumV rm [unpack fp32 z a, unpack fp32 z b]))) ∧
  TrapsFp .fsub 0x41 (fp (fun _ rm z a b _ => roundV fp32 rm z (sumV rm [unpack fp32 z a, (unpack fp32 z b).negate]))) ∧
  TrapsFp .fmul 0x42 (fp (fun _ rm z a b _ => roundV fp32 rm z (mulV (unpack fp32 z a) (unpack fp32 z b)))) ∧
  TrapsFp .ffma 0x43 (fp (fun _ rm z a b c =>
    roundV fp32 rm z (sumV rm [mulV (unpack fp32 z a) (unpack fp32 z b), unpack fp32 z c]))) ∧
  TrapsFp .fmin 0x44 (fp (fun _ _ z a b _ => minMaxNum fp32 z false a b)) ∧
  TrapsFp .fmax 0x45 (fp (fun _ _ z a b _ => minMaxNum fp32 z true a b)) ∧
  TrapsFp .fcmp 0x46 (fp (fun o _ z a b _ => fcmpR (o.md.extractLsb' 0 4).toNat z a b)) ∧
  TrapsFp .frcp 0x49 (fp (fun _ _ z a _ _ => funF 0x49 z a)) ∧ TrapsFp .frsq 0x4A (fp (fun _ _ z a _ _ => funF 0x4A z a)) ∧
  TrapsFp .fsqrt 0x4B (fp (fun _ _ z a _ _ => funF 0x4B z a)) ∧ TrapsFp .fexp2 0x4C (fp (fun _ _ z a _ _ => funF 0x4C z a)) ∧
  TrapsFp .flog2 0x4D (fp (fun _ _ z a _ _ => funF 0x4D z a)))

/-- R104 to R110, R119, R382, R383, R390, R396 to R399, R413: the packed instructions act on both elements, the dot products round their
exact sum once, CVT converts, BNUNPK and CBDEC write one element; BNPACK encodes each run of 16 lanes with an active lane as one
block, inactive lanes as +0, and writes each active lane its code and the block's exponent and micro-exponents. -/
def Obligations.PackedAndConversions : Prop :=
  (GivesFp .hwadd 0x50 false (fp (fun o rm z a b c =>
    packed (o.md.getLsbD 0) (fun x y _ => addF (halfFmt o) rm z x y) a b c)) ∧
  GivesFp .hwmul 0x51 false (fp (fun o rm z a b c =>
    packed (o.md.getLsbD 0) (fun x y _ => mulF (halfFmt o) rm z x y) a b c)) ∧
  GivesFp .hwfma 0x52 false (fp (fun o rm z a b c =>
    packed (o.md.getLsbD 0) (fun x y w => fmaF (halfFmt o) rm z x y w) a b c)) ∧
  GivesFp .dot2 0x53 false (fp (fun o rm z a b c => dot2R (halfFmt o) rm z a b c)) ∧
  GivesFp .dot4 0x54 false (fp (fun o rm z a b c =>
    if o.md = 0x70#8 then dot4F e4m3 rm z a b c else if o.md = 0x80#8 then dot4F e5m2 rm z a b c
    else (dot4I (o.md.getLsbD 0) a b c, 0))) ∧
  GivesFp .cvt 0x55 false (fp (fun o rm z a _ _ =>
    cvtR (o.md.extractLsb' 4 4).toNat (o.md.extractLsb' 0 4).toNat (o.cc.getLsbD 1) (o.cc.getLsbD 2) (o.cc.getLsbD 0) rm z a)) ∧
  GivesFp .bnunpk 0x57 false (fun o s l =>
    let x := s.me.opv true o.a l
    let r := bnDecode (isBn4 o) s.me.rm s.me.ftz l (x.extractLsb' 0 32).toNat (x.extractLsb' 32 32).toNat
    (BitVec.ofNat 64 r.1, r.2)) ∧
  GivesFp .cbdec 0x58 false (fun o s l =>
    (BitVec.ofNat 64 (cbdecR (o.md.extractLsb' 4 4 = 6#4) (codebook s.me o.b)
      ((a32 o s.me l).extractLsb' (4 * (o.md.extractLsb' 0 4).toNat) 4).toNat), 0))) ∧
  (GivesFp .bnpack 0x56 true (fun o s l =>
    let b := l / 16
    let r := bnEncode (isBn4 o) ((List.range 16).map (fun i =>
      if (s.actMask o).getLsbD (16 * b + i) then unpack fp32 s.me.ftz (a32 o s.me (16 * b + i)).toNat else .fin false 0 0))
    let shared := r.1 + r.2.2.1.zipIdx.foldl (fun a p => a + p.1 * 2 ^ (8 + p.2)) 0
    (BitVec.ofNat 32 shared ++ BitVec.ofInt 32 (r.2.1.getD (l % 16) 0), r.2.2.2)))

/-! ## Lane operations and index registers -/

/-- R97, R98, R100: the exact sum and product of finite FP32 values, and a finite value rounds to itself without a flag; an operand that
is not a number gives the canonical NaN, and a signalling one raises NV, in FADD, FSUB, FMUL and FFMA under every mode. -/
def Obligations.FloatResults : Prop :=
  ((∀ (rm : Rm) (x y : Nat), isFinite (f32 x) = true → isFinite (f32 y) = true →
    toRat (sumV rm [f32 x, f32 y]) = toRat (f32 x) + toRat (f32 y)) ∧
  (∀ x y : Nat, isFinite (f32 x) = true → isFinite (f32 y) = true →
    toRat (mulV (f32 x) (f32 y)) = toRat (f32 x) * toRat (f32 y)) ∧
  (∀ (rm : Rm) (x : Nat), x < 2 ^ 32 → isFinite (f32 x) = true → roundV fp32 rm false (f32 x) = (x, 0))) ∧
  (∀ (rm : Rm) (z : Bool) (x y w : Nat),
    ((f32 x).isNan = true ∨ (f32 y).isNan = true →
      (addF fp32 rm z x y).1 = 0x7FC00000 ∧ (subF fp32 rm z x y).1 = 0x7FC00000 ∧ (mulF fp32 rm z x y).1 = 0x7FC00000) ∧
    ((f32 x).isSig = true ∨ (f32 y).isSig = true →
      (addF fp32 rm z x y).2 = fNV ∧ (subF fp32 rm z x y).2 = fNV ∧ (mulF fp32 rm z x y).2 = fNV) ∧
    ((f32 x).isNan = true ∨ (f32 y).isNan = true ∨ (f32 w).isNan = true → (fmaF fp32 rm z x y w).1 = 0x7FC00000))

/-- R92, R363, R376, R441, R450, R462: BALLOT, VERDICT and RDFL; SIPHON writes each active lane the value that its source lane held
before, 0 for a gated lane or a filled end, and a gated source lane sets FPFLAGS.GATED. -/
def Obligations.LaneExchange : Prop :=
  (GivesAt .ballot 0x63 (fun _ => true) (fun o s _ => if o.md = 0 then trueLanes o s else 0) ∧
  GivesAt .verdict 0x64 (fun _ => false) (fun o s _ =>
    let m := s.actMask o
    let k := trueLanes o s
    let r : Bool := if o.md = 0 then decide (k ≠ 0) else if o.md = 1 then decide (k = m)
      else if o.md = 2 then decide (k = 0 ∨ k = m) else decide (k = 0)
    if r then 1 else 0) ∧
  GivesAt .rdfl 0x65 (fun _ => false) (fun o s l => (s.me.vreg o.a.num l).zeroExtend 64)) ∧
  (∀ (o : Body) (s : State), (Instr.siphon o).wf = true → issues 0x60 o s = true →
    ∃ t, exec (.siphon o) s = .next t ∧ Completes o s t ∧
      (∀ l ∈ lanesOf (s.actMask o), t.me.vreg o.dst.num l =
        match siphonLane o.md (b32 o s.me l).toNat l with
        | some x => if (s.me.lane x).st = .gone then 0 else s.me.vreg o.a.num x
        | none => 0) ∧
      OnlyDst false o.dst (lanesOf (s.actMask o)) s.me t.me ∧
      t.me.fpflags = s.me.fpflags ||| (if ∃ l ∈ lanesOf (s.actMask o), readsGated o s l = true then 0x20 else 0))

/-- R116 to R118, R425, R445: LRED reduces over the active lanes by halving pairs, SCAN by doubling distances, with the
identity where a result has no lane, and both commit the flags of every step. -/
def Obligations.LaneReductions : Prop :=
  GivesFp .lred 0x61 false (fun o s _ =>
    let r := foldTree (lredOp o.md.toNat s.me.rm s.me.ftz) 6
      (lanes64.map (fun l => if (s.actMask o).getLsbD l then some (a32 o s.me l).toNat else none))
    (BitVec.ofNat 64 (r.1.getD (lredId o.md.toNat)), r.2)) ∧
  GivesFp .scan 0x62 false (fun o s l =>
    let md := (o.md.extractLsb' 0 7).toNat
    let r := scanSteps (lredOp md s.me.rm s.me.ftz) 6 1
      (lanes64.map (fun l => if (s.actMask o).getLsbD l then some (a32 o s.me l).toNat else none))
    let v := if o.md.getLsbD 7 then (if l = 0 then none else r.1.getD (l - 1) none) else r.1.getD l none
    (BitVec.ofNat 64 (v.getD (lredId md)), r.2))

/-- R78, R414, R448: SETX and INCX write INDEX, LEN and BASE of X[d] in each active lane; INCX.MOD stays in the window; any other
MOD is undefined; on the steer thread both are PRIV. -/
def Obligations.IndexRegisters : Prop :=
  Gives .setx 0x14 (fun _ => false) (fun o g l =>
    let x := g.xreg o.dst.num l
    let v := a32 o g l
    let r : Word := if o.md = 0 then v else if o.md = 1 then v.extractLsb' 0 16 ++ x.extractLsb' 0 16
      else (0 : BitVec 16) ++ v.extractLsb' 0 16
    r.setWidth 64) ∧
  Gives .incx 0x17 (fun _ => false) (fun o g l =>
    let x := g.xreg o.dst.num l
    let i := (x.extractLsb' 16 16).toNat
    let n := (x.extractLsb' 8 8).toNat
    let d := ((a32 o g l).extractLsb' 0 16).toInt
    let i' : BitVec 16 := if o.md = 1 then (if n = 0 then BitVec.ofNat 16 i else BitVec.ofInt 16 (((i : Int) + d) % (n : Int)))
      else BitVec.ofInt 16 ((i : Int) + d)
    (i' ++ x.extractLsb' 0 16).setWidth 64) ∧
  (∀ w1 w2 w3 : Word, w1.extractLsb' 0 2 = 1#2 ∨ w1.extractLsb' 0 2 = 2#2 →
    (w1.extractLsb' 2 8 = 0x14#8 ∧ 2 < (w2.extractLsb' 16 8).toNat) ∨ (w1.extractLsb' 2 8 = 0x17#8 ∧ 1 < (w2.extractLsb' 16 8).toNat) →
    decodeWords w1 w2 w3 = none) ∧
  (∀ (o : Body) (s : State) (i : Body → Instr), i = .setx ∨ i = .incx → (i o).wf = true → s.me.role = .steer → canTrap s = true →
    ∃ t, exec (i o) s = .next t ∧ Trapped cPRIV s.cur.pc s t)

/-- R79, R423, R449: where the checks of R79 pass in every active lane, and no register they name or select is still to be written,
LDX reads V[Xa] and STX writes V[Xd], each lane its own register; otherwise both take XRANGE, if a lane fails
the first check, and else REGRANGE, and no register changes. -/
def Obligations.WindowAccess : Prop :=
  (∀ (o : Body) (s : State), (Instr.ldx o).wf = true → issues 0x15 o s = true →
    (∀ l ∈ lanesOf (s.actMask o), windowOk s.me (decide (o.md = 1)) o.a.num l) →
    ∃ t, exec (.ldx o) s = .next t ∧ Writes o (decide (o.md = 1)) (fun l =>
      let r := windowReg s.me (decide (o.md = 1)) o.a.num l
      if o.md = 1 then s.me.vreg (r + 1) l ++ s.me.vreg r l else (s.me.vreg r l).zeroExtend 64) s t) ∧
  (∀ (o : Body) (s : State), (Instr.stx o).wf = true → issues 0x16 o s = true →
    (∀ l ∈ lanesOf (s.actMask o), windowOk s.me (decide (o.md = 1)) o.dst.num l) →
    ∃ t, exec (.stx o) s = .next t ∧ Completes o s t ∧
      (∀ n l, l < 64 → t.me.vreg n l =
        if (s.actMask o).getLsbD l = true ∧ n = windowReg s.me (decide (o.md = 1)) o.dst.num l then
          (s.me.opv (decide (o.md = 1)) o.a l).extractLsb' 0 32
        else if (s.actMask o).getLsbD l = true ∧ o.md = 1 ∧ n = windowReg s.me true o.dst.num l + 1 then
          (s.me.opv true o.a l).extractLsb' 32 32
        else s.me.vreg n l) ∧
      (∀ n, t.me.sreg n = s.me.sreg n) ∧ (∀ n l, t.me.preg n l = s.me.preg n l) ∧
      (∀ n l, l < 64 → t.me.xreg n l = s.me.xreg n l) ∧ t.me.fpflags = s.me.fpflags) ∧
  (∀ (o : Body) (s : State) (i : Body → Instr) (opc : BitVec 8) (x : Opd), (i = .ldx ∧ opc = 0x15 ∧ x = o.a) ∨
      (i = .stx ∧ opc = 0x16 ∧ x = o.dst) → (i o).wf = true → issues opc o s = true → canTrap s = true →
    let first := fun l => let w := s.me.xreg x.num l
      xIndex w < xLen w ∧ (o.md = 1 → xBase w % 2 = 0)
    ((∃ l ∈ lanesOf (s.actMask o), ¬ first l) → ∃ t, exec (i o) s = .next t ∧ Trapped cXRANGE s.cur.pc s t) ∧
    ((∀ l ∈ lanesOf (s.actMask o), first l) →
      (∃ l ∈ lanesOf (s.actMask o), ¬ windowOk s.me (decide (o.md = 1)) x.num l) →
      ∃ t, exec (i o) s = .next t ∧ Trapped cREGRANGE s.cur.pc s t))

/-! ## Control flow -/

/-- R358, R384, R386, R387, R430, R444: NOP, BRA, BRX, RET and CALL move each lane to its next instruction or its target;
CALL writes the return address; a misaligned target of BRX or RET takes ALIGN. -/
def Obligations.Branches : Prop :=
  Gives .nop 0x01 (fun _ => false) (fun _ _ _ => 0) ∧
  (∀ (o : Body) (s : State), (Instr.bra o).wf = true → issues 0x02 o s = true →
    ∃ t, exec (.bra o) s = .next t ∧ SameRegs s.me t.me ∧ t.me.fpflags = s.me.fpflags ∧
      Retires (fun l => if (s.actMask o).getLsbD l && taken o s.me then relTarget o s.cur.pc else nextPc s.cur.pc o.len)
        id id s t) ∧
  (∀ (o : Body) (s : State) (i : Body → Instr) (n : BitVec 8), (i, n) = (.brx, 0x03#8) ∨ (i, n) = (.ret, 0x05#8) →
    (i o).wf = true → issues n o s = true →
    ((∀ l ∈ lanesOf (s.actMask o), (s.me.opv true o.a l).extractLsb' 0 2 = 0#2) →
      ∃ t, exec (i o) s = .next t ∧ SameRegs s.me t.me ∧ t.me.fpflags = s.me.fpflags ∧
        Retires (fun l => if (s.actMask o).getLsbD l then s.me.opv true o.a l else nextPc s.cur.pc o.len) id id s t) ∧
    ((∃ l ∈ lanesOf (s.actMask o), (s.me.opv true o.a l).extractLsb' 0 2 ≠ 0#2) → canTrap s = true →
      ∃ t, exec (i o) s = .next t ∧ Trapped cALIGN s.cur.pc s t)) ∧
  (∀ (o : Body) (s : State), (Instr.call o).wf = true → issues 0x04 o s = true →
    ∃ t, exec (.call o) s = .next t ∧ t.me.fpflags = s.me.fpflags ∧
      (∀ l ∈ acts o s, holds t.me true o.dst l (nextPc s.cur.pc o.len)) ∧ OnlyDst true o.dst (acts o s) s.me t.me ∧
      Retires (fun l => if (s.actMask o).getLsbD l then relTarget o s.cur.pc else nextPc s.cur.pc o.len) id id s t)

/-- R57, R356, R466: a CLAUSE header whose flags are clear starts a clause of n + 1 instructions for its bundle; one with a
pending flag does not issue; a header within a clause takes UNDEF; YIELD makes a formation point due that chooses the
yielding lanes last. -/
def Obligations.ClauseAndYield : Prop :=
  (∀ (n : BitVec 4) (w : BitVec 12) (s : State), issues 0x00 {} s = true → s.me.bundle.clause = 0 →
    s.me.flags &&& w = 0 →
    ∃ t, exec (.clause n w) s = .next t ∧ Completes {} s t ∧ SameRegs s.me t.me ∧ t.me.fpflags = s.me.fpflags ∧
      (allReady s = true → t.me.bundle.clause = n.toNat + 1)) ∧
  (∀ (n : BitVec 4) (w : BitVec 12) (s : State), issues 0x00 {} s = true → s.me.bundle.clause = 0 →
    s.me.flags &&& w ≠ 0 → exec (.clause n w) s = .next (holdBundle s)) ∧
  (∀ (n : BitVec 4) (w : BitVec 12) (s : State), issues 0x00 {} s = true → s.me.bundle.clause ≠ 0 → canTrap s = true →
    ∃ t, exec (.clause n w) s = .next t ∧ Trapped cUNDEF s.cur.pc s t) ∧
  (∀ (o : Body) (s : State), (Instr.yield o).wf = true → issues 0x09 o s = true →
    ∃ t, exec (.yield o) s = .next t ∧ Completes o s t ∧ SameRegs s.me t.me ∧ t.me.fpflags = s.me.fpflags ∧
      (s.actMask o ≠ 0 → t.me.bundle.due = true ∧ t.me.bundle.last = s.cur.act))

/-- R61, R62, R81, R332, R350, R415, R416: JOINSET names the participants and the join PC of J[n], and lanes that wait there go on at
its old join PC; with no active lane it changes nothing. JOIN makes participants wait until every participant that has not exited has
arrived, and then all go on at the join PC and J[n] is empty; a lane that is no participant goes on. A JOIN that leaves lanes waiting is
counted when they have gone on (log 23). -/
def Obligations.JoinBarriers : Prop :=
  (∀ (o : Body) (s : State), (Instr.joinset o).wf = true → issues 0x07 o s = true →
    let b := s.me.j.at o.dst.num
    let sets := fun (t : State) =>
      t.me.j.at o.dst.num = { parts := s.actMask o, waiting := 0, pc := relTarget o s.cur.pc } ∧
      ∀ n, n ≠ o.dst.num → t.me.j.at n = s.me.j.at n
    (s.actMask o = 0 → ∃ t, exec (.joinset o) s = .next t ∧ Completes o s t ∧ SameRegs s.me t.me ∧ t.me.fpflags = s.me.fpflags) ∧
    (s.actMask o ≠ 0 → b.waiting = 0 →
      ∃ t, exec (.joinset o) s = .next t ∧ SameRegs s.me t.me ∧ t.me.fpflags = s.me.fpflags ∧ sets t ∧
        Retires (fun _ => nextPc s.cur.pc o.len) (fixJ s.me.j) id s t) ∧
    (s.actMask o ≠ 0 →
      ∃ t, exec (.joinset o) s = .next t ∧ SameRegs s.me t.me ∧ t.me.fpflags = s.me.fpflags ∧ sets t ∧ Retired s t ∧
        SameOthers s t ∧ SameMachine s t ∧ t.me.owed = (s.me.finish b.waiting).owed ∧
        (∀ l ∈ lanesOf (b.waiting &&& s.me.live), (t.me.lane l).st = .ready ∧ (t.me.lane l).pc = b.pc) ∧
        ∀ l ∈ lanesOf s.cur.act, b.waiting.getLsbD l = false → (t.me.lane l).pc = nextPc s.cur.pc o.len)) ∧
  (∀ (o : Body) (s : State), (Instr.join o).wf = true → issues 0x08 o s = true → allReady s = true →
    let b := s.me.j.at o.a.num
    let m := s.cur.act &&& b.parts
    (m = 0 → ∃ t, exec (.join o) s = .next t ∧ Completes o s t ∧ SameRegs s.me t.me) ∧
    (m ≠ 0 → b.parts &&& s.me.live &&& ~~~ (b.waiting ||| m) ≠ 0 →
      ∃ t, exec (.join o) s = .next t ∧ Waiting m (.join o.a.num) (nextPc s.cur.pc o.len) s t ∧
        t.me.j.at o.a.num = { b with waiting := b.waiting ||| m } ∧ SameRegs s.me t.me ∧ t.mem = s.mem ∧ Unretired s t ∧
        t.me.under = (m, (lanesOf (s.actMask o)).length) :: s.me.under ∧
        ∀ l ∈ lanesOf s.cur.act, m.getLsbD l = false →
          (t.me.lane l).st = .ready ∧ (t.me.lane l).pc = nextPc s.cur.pc o.len) ∧
    (m ≠ 0 → b.parts &&& s.me.live &&& ~~~ (b.waiting ||| m) = 0 →
      ∃ t, exec (.join o) s = .next t ∧ t.me.j.at o.a.num = {} ∧ SameRegs s.me t.me ∧ t.mem = s.mem ∧ Retired s t ∧
        t.me.owed = (s.me.finish (b.waiting ||| m)).owed ∧
        ∀ l ∈ lanesOf ((b.waiting ||| m) &&& s.me.live), (t.me.lane l).st = .ready ∧ (t.me.lane l).pc = b.pc))

/-- R82, R156, R332, R333, R378: while a group of the team that has not ended is still to arrive, the lanes at BAR wait, and the BAR is
counted when they have gone on (log 23); when the last group's last lane arrives, the phase flips, every arrival is forgotten, the
core's L1 is empty, and the lanes go on. -/
def Obligations.NamedBarriers : Prop :=
  ∀ (o : Body) (s : State), (Instr.bar o).wf = true → issues 0x10 o s = true → allReady s = true →
    coreQuiet s (s.coreNo s.cur.agent) = true →
    let a := s.cur.agent
    let b := s.myTeam.bar.at o.a.num
    ((∃ g ∈ s.liveGroups s.me.team, g ≠ a ∧ b.arrived.any (fun p => p.1 = g) = false) →
      ∃ t, exec (.bar o) s = .next t ∧ Waiting s.cur.act (.bar o.a.num) (nextPc s.cur.pc o.len) s t ∧
        SameRegs s.me t.me ∧ (t.myTeam.bar.at o.a.num).phase = b.phase ∧ Unretired s t ∧
        t.me.under = (s.cur.act, (lanesOf (s.actMask o)).length) :: s.me.under ∧
        (s.me.live &&& ~~~ s.cur.act = 0 → (t.myTeam.bar.at o.a.num).arrived.any (fun p => p.1 = a) = true)) ∧
    (a ∈ s.liveGroups s.me.team → s.me.live &&& ~~~ s.cur.act = 0 → b.arrived.any (fun p => p.1 = a) = false →
      (∀ g ∈ s.liveGroups s.me.team, g ≠ a → b.arrived.any (fun p => p.1 = g) = true) →
      ∃ t, exec (.bar o) s = .next t ∧ t.myTeam.bar.at o.a.num = { arrived := [], phase := !b.phase } ∧
        (t.core (s.coreNo a)).l1 = [] ∧ SameRegs s.me t.me ∧ Retired s t ∧
        ∀ l ∈ lanesOf s.cur.act, (t.me.lane l).st = .ready ∧ (t.me.lane l).pc = nextPc s.cur.pc o.len)

/-- R69, R70, R92, R404: EXIT ends the active lanes: they are gone and their registers read zero; when no lane is left the
group has ended. Where lanes wait at a named barrier, an EXIT that completes their arrival waits for the core's accesses (R70, R156). -/
def Obligations.Exits : Prop :=
  ∀ (o : Body) (s : State), (Instr.exit o).wf = true → issues 0x06 o s = true → s.actMask o ≠ 0 →
    ((∃ l ∈ lanesOf s.me.live, ∃ n, (s.me.lane l).st = .bar n) → coreQuiet s (s.coreNo s.cur.agent) = true) →
    ∃ t, exec (.exit o) s = .next t ∧
      (∀ l ∈ lanesOf (s.actMask o), (t.me.lane l).st = .gone ∧ (∀ n, t.me.vreg n l = 0) ∧ (∀ n, t.me.xreg n l = 0) ∧
        (∀ n, n < 8 → n ≠ 0 → t.me.preg n l = false)) ∧
      (s.me.live &&& ~~~ s.actMask o = 0 → t.me.ended = true)

/-- R237 to R240, R243, R332, R381, R403, R460: TRAP takes TRAPI with TRAPPC at the next instruction, and BKPT takes BKPT with TRAPPC at itself,
where DBGSET does not claim it. When every trap lane that has not exited is at ERET, the trap lanes go on at TRAPPC, the held lanes
are held no more, and the group is in no trap; until then lanes at ERET wait, and it is counted when they have gone on (log 23); ERET
outside a trap takes PRIV. -/
def Obligations.TrapInstructions : Prop :=
  ((∀ (o : Body) (s : State), (Instr.trap o).wf = true → issues 0x0B o s = true → s.actMask o ≠ 0 → canTrap s = true →
    ∃ t, exec (.trap o) s = .next t ∧ Trapped cTRAPI (nextPc s.cur.pc o.len) s t) ∧
  (∀ (o : Body) (s : State), (Instr.bkpt o).wf = true → issues 0x0C o s = true → s.actMask o ≠ 0 → canTrap s = true →
    (s.isHw || !s.myCtx.dbgset.getLsbD 2) = true →
    ∃ t, exec (.bkpt o) s = .next t ∧ Trapped cBKPT s.cur.pc s t) ∧
  (∀ (o : Body) (s : State), (Instr.bkpt o).wf = true → issues 0x0C o s = true → s.actMask o ≠ 0 → s.me.region = none →
    s.isHw = false → s.myCtx.dbgset.getLsbD 2 = true →
    (s.myCtx.st = .running ∧ s.myCtx.stop = .none) ∨ (s.myCtx.st = .stopping ∧ ∃ n, s.myCtx.stop = .drain n) →
    ∃ t, exec (.bkpt o) s = .next t ∧ (t.ctx s.myCtxNo).st = .stopping ∧
      (t.ctx s.myCtxNo).stop = .capture s.gtime false ∧ SameRest s.me t.me ∧ SameRegs s.me t.me ∧
      ∀ l ∈ lanesOf s.cur.act, (t.me.lane l).pc = s.cur.pc)) ∧
  ((∀ (o : Body) (s : State), (Instr.eret o).wf = true → issues 0x0D o s = true → allReady s = true →
    s.me.trap.inTrap = true → s.me.trap.op = 0 → s.me.trap.pc.extractLsb' 0 2 = 0#2 →
    s.me.trap.lanes &&& s.me.live ≠ 0 →
    s.me.trap.lanes &&& s.me.live &&& ~~~ (s.cur.act ||| s.me.lanesWith (fun x => x = .eret)) = 0 →
    ∃ t, exec (.eret o) s = .next t ∧ t.me.trap.inTrap = false ∧ t.me.trap.held = 0 ∧ t.me.trap.lanes = 0 ∧
      t.me.trap.base = s.me.trap.base ∧ t.me.trap.pc = s.me.trap.pc ∧ SameRegs s.me t.me ∧ t.mem = s.mem ∧ Retired s t ∧
      (∀ l ∈ lanesOf (s.me.trap.lanes &&& s.me.live), (t.me.lane l).st = .ready ∧ (t.me.lane l).pc = s.me.trap.pc)) ∧
  (∀ (o : Body) (s : State), (Instr.eret o).wf = true → issues 0x0D o s = true → allReady s = true → s.me.trap.inTrap = true →
    s.me.trap.lanes &&& s.me.live &&& ~~~ (s.cur.act ||| s.me.lanesWith (fun x => x = .eret)) ≠ 0 →
    ∃ t, exec (.eret o) s = .next t ∧ Waits o s.cur.act .eret s t) ∧
  (∀ (o : Body) (s : State), (Instr.eret o).wf = true → issues 0x0D o s = true → s.me.trap.inTrap = false →
    canTrap s = true → ∃ t, exec (.eret o) s = .next t ∧ Trapped cPRIV s.cur.pc s t))

/-- R332, R451, R463, R464: SLEEP waits its count of vt, WAITF waits while its flag is pending, with or without a limit, WAITP waits
while a copy it covers is incomplete; each goes on at once where there is nothing to wait for; one that
waits is counted when its lanes have gone on (log 23); a WAITP past its promise takes PROMISE with TRAPPC at the next instruction. -/
def Obligations.WaitInstructions : Prop :=
  (∀ (o : Body) (s : State), (Instr.sleep o).wf = true → issues 0x0A o s = true →
    let n := (s.me.opv false o.a 0).toNat
    (n = 0 ∨ s.actMask o = 0 → ∃ t, exec (.sleep o) s = .next t ∧ Completes o s t ∧ SameRegs s.me t.me) ∧
    (n ≠ 0 → s.actMask o ≠ 0 → allReady s = true →
      ∃ t, exec (.sleep o) s = .next t ∧ Waits o (s.actMask o) (.sleep n) s t)) ∧
  (∀ (o : Body) (s : State), (Instr.waitf o).wf = true → issues 0x13 o s = true →
    let n := (s.me.opv false o.b 0).toNat
    let idle := !s.me.flags.getLsbD o.a.num || (decide (o.md = 1) && decide (n = 0))
    (idle = true ∨ s.actMask o = 0 → ∃ t, exec (.waitf o) s = .next t ∧ Completes o s t ∧ SameRegs s.me t.me) ∧
    (idle = false → s.actMask o ≠ 0 → allReady s = true →
      ∃ t, exec (.waitf o) s = .next t ∧ Waits o (s.actMask o) (.waitf o.a.num (if o.md = 1 then some n else none)) s t)) ∧
  (∀ (o : Body) (s : State), (Instr.waitp o).wf = true → issues 0x83 o s = true → s.actMask o ≠ 0 →
    let p := a32 o s.me 0
    let ahead := covered s s.cur.agent p s.fresh
    (ahead = [] → ∃ t, exec (.waitp o) s = .next t ∧ Completes o s t ∧ SameRegs s.me t.me) ∧
    (ahead ≠ [] → promisePast s s.cur.agent p = false → allReady s = true →
      ∃ t, exec (.waitp o) s = .next t ∧ Waits o (s.actMask o) (.waitp p s.fresh) s t) ∧
    (ahead ≠ [] → promisePast s s.cur.agent p = true → canTrap s = true →
      ∃ t, exec (.waitp o) s = .next t ∧ Trapped cPROMISE (nextPc s.cur.pc o.len) s t))

/-! ## Order -/

/-- R156, R410, R411: a FENCE of TEAM scope or wider completes when every earlier access of its core is performed, at SYSTEM
scope with the group's writes to peers acknowledged, and leaves the core's L1 empty; one of GROUP scope completes when the group's
loads and read-modify-writes have their values; until then it does not issue; on Headwater, and with no active lane, it orders
nothing. -/
def Obligations.Fences : Prop :=
  ∀ (o : Body) (s : State), (Instr.fence o).wf = true → issues 0x11 o s = true →
    let a := s.cur.agent
    let k := s.coreNo a
    ((s.actMask o = 0 ∨ s.isHw = true ∨ (scopeSel o = 0 ∧ groupQuiet s a = true)) →
      ∃ t, exec (.fence o) s = .next t ∧ Completes o s t ∧ SameRegs s.me t.me) ∧
    (s.actMask o ≠ 0 → s.isHw = false → scopeSel o ≠ 0 → (s.core k).queue = [] → (scopeSel o = 5 → peersQuiet s a = true) →
      ∃ t, exec (.fence o) s = .next t ∧ (t.core k).l1 = [] ∧ t.mem = s.mem ∧ SameRegs s.me t.me ∧ Retired s t ∧
        GoesTo s.cur.act (fun _ => nextPc s.cur.pc o.len) s.me t.me) ∧
    (s.actMask o ≠ 0 → s.isHw = false →
      (scopeSel o = 0 ∧ groupQuiet s a = false) ∨ (scopeSel o ≠ 0 ∧ (s.core k).queue ≠ []) ∨
        (scopeSel o = 5 ∧ peersQuiet s a = false) →
      exec (.fence o) s = .next (holdBundle s))

/-! ## Memory -/

/-- R303, R418, R419, R420, R453: on Headwater, LD reads and ST writes the addressed bytes of Headwater memory at once, and no
other byte changes. -/
def Obligations.HeadwaterAccess : Prop :=
  (∀ (o : Body) (s : State), (Instr.ld o).wf = true → issues 0x70 o s = true → s.isHw = true → s.me.region = none →
    isPriv o = false → (∀ l ∈ acts o s, HwAt (sizeBytes (sizeSel o)) (ea s.me o l)) →
    ∃ t, exec (.ld o) s = .next t ∧ Writes o (decide (sizeSel o = 1)) (fun l =>
      loadV (sizeSel o) (hwVal s (ea s.me o l) (sizeBytes (sizeSel o)))) s t) ∧
  (∀ (o : Body) (s : State), (Instr.st o).wf = true → issues 0x71 o s = true → s.isHw = true → s.me.region = none →
    isPriv o = false → (∀ l ∈ accLanes true o (s.actMask o), HwAt (sizeBytes (sizeSel o)) (ea s.me o l)) →
    ∃ t, exec (.st o) s = .next t ∧ SameRegs s.me t.me ∧ t.me.fpflags = s.me.fpflags ∧
      Retires (fun _ => nextPc s.cur.pc o.len) (fixRace s.me.race) (fixMem s.mem) s t ∧
      (accLanes true o (s.actMask o) = [] → t.mem = s.mem) ∧
      (∀ l ∈ accLanes true o (s.actMask o), Stored (hwKey (ea s.me o l).toNat)
        (leBytes (sizeBytes (sizeSel o)) (s.me.opv (decide (sizeSel o = 1)) o.dst l).toNat) s t))

/-- R303, R373, R374, R388, R442: on Headwater, ATOM and RED replace the addressed word by the operation's result, CAS stores
its value where it finds the expected one, and ATOM and CAS write the old word to the destination. -/
def Obligations.HeadwaterAtomics : Prop :=
  ∀ (o : Body) (s : State), s.isHw = true → s.me.region = none →
    let n := tySize o.cc.toNat
    let w := decide (n = 8)
    let old := fun l => hwVal s (s.me.opv true o.a l) n
    let done := fun (t : State) => t.me.fpflags = s.me.fpflags ∧ (acts o s = [] → t.mem = s.mem) ∧
      Retires (fun _ => nextPc s.cur.pc o.len) (fixRace s.me.race) (fixMem s.mem) s t
    let gets := fun (t : State) => OnlyDst w o.dst (acts o s) s.me t.me ∧
      ∀ l ∈ acts o s, holds t.me w o.dst l (BitVec.ofNat 64 (old l))
    let puts := fun (t : State) => ∀ l ∈ acts o s, Stored (hwKey (s.me.opv true o.a l).toNat)
      (leBytes n (atomV (sizeSel o) o.cc.toNat (old l) (s.me.opv w o.b l).toNat)) s t
    (∀ l ∈ acts o s, HwAt n (s.me.opv true o.a l)) →
    ((Instr.atom o).wf = true → issues 0x74 o s = true → ∃ t, exec (.atom o) s = .next t ∧ done t ∧ gets t ∧ puts t) ∧
    ((Instr.red o).wf = true → issues 0x76 o s = true →
      ∃ t, exec (.red o) s = .next t ∧ done t ∧ SameRegs s.me t.me ∧ puts t) ∧
    ((Instr.cas o).wf = true → issues 0x75 o s = true → ∃ t, exec (.cas o) s = .next t ∧ done t ∧ gets t ∧
      ∀ l ∈ acts o s,
        (BitVec.ofNat 64 (old l) = s.me.opv w o.dst l →
          Stored (hwKey (s.me.opv true o.a l).toNat) (leBytes n (s.me.opv w o.b l).toNat) s t) ∧
        (BitVec.ofNat 64 (old l) ≠ s.me.opv w o.dst l → ∀ k, t.rd k = s.rd k))

/-- R123, R131, R134, R144, R151, R354, R388, R442, R443, R453: in a group a plain ST, ATOM, CAS or RED that reaches its addresses issues,
leaves its accesses to the home slices as one request a line, sets its flag, and changes no register and no byte of memory but A and
D bits of the entries it went through. An integer RED without a flag, on pages that are not race-checked, joins its core's partials
instead, which R134 and R443 allow and log 12 chooses: each word is in the partial of its line, or, where the core's entries for
partials were full, in one that has been pushed out; a RED of another operation than its line's partial goes to the slice, and one that
would overtake an earlier access of its group to the same bytes does not issue yet (R153). -/
def Obligations.PlainStores : Prop :=
  ((∀ (o : Body) (s : State), (Instr.st o).wf = true → issues 0x71 o s = true → s.isHw = false → s.me.region = none →
    orderSel o = 0 → privOk o s true → (∀ x ∈ laneAccs o s true, Reaches s { w := true } x) →
    ∃ t, exec (.st o) s = .next t ∧ Posted o { w := true } (laneAccs o s true) s t ∧ SameRegs s.me t.me ∧
      Requests .store { w := true } (laneAccs o s true) s t ∧ (laneAccs o s true ≠ [] → flagSet o.fset s.me t.me)) ∧
  (∀ (o : Body) (s : State) (i : Body → Instr) (n : BitVec 8) (cas : Bool),
    (i, n, cas) = (.atom, 0x74#8, false) ∨ (i, n, cas) = (.cas, 0x75#8, true) →
    (i o).wf = true → issues n o s = true → s.isHw = false → s.me.region = none → orderSel o = 0 →
    (∀ x ∈ rmwList o s cas, Reaches s { r := true, w := true } x) →
    ∃ t, exec (i o) s = .next t ∧ Posted o { r := true, w := true } (rmwList o s cas) s t ∧ SameRegs s.me t.me ∧
      Requests (if cas then .cas else .atom) { r := true, w := true } (rmwList o s cas) s t ∧
      (∀ l ∈ acts o s, pendsIn t.me o.dst l) ∧ (acts o s ≠ [] → flagSet o.fset s.me t.me)) ∧
  (∀ (o : Body) (s : State), (Instr.red o).wf = true → issues 0x76 o s = true → s.isHw = false → s.me.region = none →
    orderSel o = 0 → (o.cc = 4 ∨ o.fset ≠ 15) →
    (∀ x ∈ rmwList o s false, Reaches s { r := true, w := true } x) →
    ∃ t, exec (.red o) s = .next t ∧ Posted o { r := true, w := true } (rmwList o s false) s t ∧ SameRegs s.me t.me ∧
      Requests .red { r := true, w := true } (rmwList o s false) s t ∧ (acts o s ≠ [] → flagSet o.fset s.me t.me))) ∧
  (∀ (o : Body) (s : State), (Instr.red o).wf = true → issues 0x76 o s = true → s.isHw = false → s.me.region = none →
    orderSel o = 0 → o.cc ≠ 4 → o.fset = 15 →
    let xs := rmwList o s false
    let n : Need := { r := true, w := true }
    let k := s.coreNo s.cur.agent
    (∀ x ∈ xs, Reaches s n x ∧ (placed s n x).rc = false ∧ isFrame (placed s n x).pa = true) →
    let held := fun (t : State) (x : Acc) => ∃ p ∈ (t.core k).partials, p.line = lineOf (placed s n x).pa ∧ p.op = sizeSel o ∧
      p.ty = o.cc.toNat ∧ p.words.any (fun w => w.1 = (placed s n x).pa) = true
    let sent := fun (t : State) (kind : ReqKind) (x : Acc) => ∃ q ∈ (t.core k).queue, q.kind = kind ∧ q.line = lineOf (placed s n x).pa ∧
      q.op = sizeSel o ∧ q.ty = o.cc.toNat ∧ q.accs.any (fun y => y.pa = (placed s n x).pa) = true
    ((∀ x ∈ xs, wayOfRed o s n xs x ≠ .hold) →
      ∃ t, exec (.red o) s = .next t ∧ Posted o n xs s t ∧ SameRegs s.me t.me ∧ t.me.flags = s.me.flags ∧
        (∀ x ∈ xs, (wayOfRed o s n xs x = .join → held t x ∨ sent t .part x) ∧
          (wayOfRed o s n xs x = .send → sent t .red x)) ∧
        ((∀ x ∈ xs, wayOfRed o s n xs x = .join) → partialLines (s.core k) + xs.length ≤ Config.partialLines →
          ∀ x ∈ xs, held t x) ∧
        (partialLines (s.core k) ≤ Config.partialLines → (∀ q ∈ (s.core k).sums, q.lines ≠ []) →
          partialLines (t.core k) ≤ Config.partialLines)) ∧
    ((∃ x ∈ xs, wayOfRed o s n xs x = .hold) → exec (.red o) s = .next (holdBundle s)))

/-- R131, R132, R136, R418, R420: a plain LD in a group whose lines all stand in the core's L1 writes its destination from them
at once; one whose lines do not stand there leaves its destination pending, its flag set, and each access at a fill of its
line or in a request of its own. -/
def Obligations.PlainLoads : Prop :=
  ∀ (o : Body) (s : State), (Instr.ld o).wf = true → issues 0x70 o s = true → s.isHw = false → s.me.region = none →
    orderSel o = 0 → privOk o s false →
    let xs := laneAccs o s false
    let n : Need := { r := true }
    let k := s.coreNo s.cur.agent
    let w := decide (sizeSel o = 1 ∨ sizeSel o = 7)
    (∀ x ∈ xs, Reaches s n x) → fillsInFlight s k + xs.length ≤ Config.missEntries →
    ((∀ x ∈ xs, (placed s n x).cp = 0 ∧ inL1 s k (lineOf (placed s n x).pa) = true) →
      ∃ t, exec (.ld o) s = .next t ∧ Posted o n xs s t ∧ t.me.flags = s.me.flags ∧ OnlyDst w o.dst (acts o s) s.me t.me ∧
        ∀ l ∈ acts o s, holds t.me w o.dst l
          (loadV (sizeSel o) (laneVal xs (fun x => l1Read s k (placed s n x).pa x.n) l))) ∧
    (xs ≠ [] → (∀ x ∈ xs, inL1 s k (lineOf (placed s n x).pa) = false) →
      ∃ t, exec (.ld o) s = .next t ∧ Posted o n xs s t ∧ SameRegs s.me t.me ∧ flagSet o.fset s.me t.me ∧
        (∀ l ∈ acts o s, pendsIn t.me o.dst l) ∧ ∀ x ∈ xs, Loads s t x)

/-- R132, R151, R373, R374, R388: a request that no older one of its core to the same slice precedes is performed when it
arrives, where its line is in L2 or has room there: a store puts its bytes where it goes and nowhere else, a load brings
the value, a read-modify-write replaces the word and brings the old one; and a fill brings its waiting load the value. -/
def Obligations.SliceArrival : Prop :=
  (∀ (k n : Nat) (s : State), takeReq s k n = none → exec (.homeSliceArrival k n) s = .next s) ∧
  (∀ (k n : Nat) (s : State) (q : Req), takeReq s k n = some q → q.kind = .store → roomFor s 1 q.rc q.line = true →
    (∀ x ∈ q.accs, onLine s q.line x) →
    ∃ t, exec (.homeSliceArrival k n) s = .next t ∧ (t.core k).queue = (s.core k).queue.eraseIdx n ∧
      ∀ b, t.rd b = overlay q.accs b (s.rd b)) ∧
  (∀ (k n : Nat) (s : State) (q : Req) (x : Acc), takeReq s k n = some q → q.accs = [x] → onLine s q.line x →
    roomFor s 1 q.rc q.line = true → (q.dst.scl = true ∨ ((s.grp q.agent).lane x.lane).st ≠ .gone) →
    (q.wide = true → x.n = 8) →
    (q.kind = .load → ∃ t, exec (.homeSliceArrival k n) s = .next t ∧ t.mem = s.mem ∧
      holds (t.grp q.agent) q.wide q.dst x.lane (BitVec.ofNat 64 (extVal q.ext (memVal s x)))) ∧
    (q.kind = .atom → x.n = tySize q.ty → ∃ t, exec (.homeSliceArrival k n) s = .next t ∧
      Stored x.pa (leBytes x.n (atomV q.op q.ty (memVal s x) (x.data.toNat % 2 ^ (8 * x.n)))) s t ∧
      holds (t.grp q.agent) q.wide q.dst x.lane (BitVec.ofNat 64 (extVal q.ext (memVal s x)))) ∧
    (q.kind = .cas → ∃ t, exec (.homeSliceArrival k n) s = .next t ∧
      (if memVal s x = x.cmp.toNat % 2 ^ (8 * x.n) then Stored x.pa (leBytes x.n x.data.toNat) s t else ∀ b, t.rd b = s.rd b) ∧
      holds (t.grp q.agent) q.wide q.dst x.lane (BitVec.ofNat 64 (extVal q.ext (memVal s x)))) ∧
    (q.kind = .red → x.n = tySize q.ty → ∃ t, exec (.homeSliceArrival k n) s = .next t ∧
      Stored x.pa (leBytes x.n (atomV q.op q.ty (memVal s x) (x.data.toNat % 2 ^ (8 * x.n)))) s t)) ∧
  (∀ (k line n : Nat) (s : State) (q : Req) (w : Waiter) (x : Acc),
    (s.core k).queue.findIdx? (fun q => q.kind = .fill && decide (q.line = line)) = some n → takeReq s k n = some q →
    (s.core k).waiters.filter (fun w => w.fill = q.id) = [w] → w.req.accs = [x] → onLine s line { x with conf := q.conf } →
    (∀ r ∈ (s.core k).queue, r.kind = .store → r.line ≠ line) → (w.req.wide = true → x.n = 8) →
    roomFor s 1 q.rc line = true → (w.req.dst.scl = true ∨ ((s.grp w.req.agent).lane x.lane).st ≠ .gone) →
    ∃ t, exec (.fill k line) s = .next t ∧ t.mem = s.mem ∧
      holds (t.grp w.req.agent) w.req.wide w.req.dst x.lane (BitVec.ofNat 64 (extVal w.req.ext (memVal s x))) ∧
      (t.core k).waiters = (s.core k).waiters.filter (fun w => w.fill ≠ q.id))

/-- R152, R156, R159, R178, R373, R374, R388, R442: with no earlier access of the core under way, its lines in L2 or with room there, and
no check to fail, ST.REL stores, LD.ACQ reads, and an ordered ATOM, CAS or RED does both for its active lanes in ascending order; a release advances the race clock,
and an acquire of TEAM scope or wider leaves the core's L1 empty. That they are performed at once, before the next instruction, is
the model's choice (log 10). -/
def Obligations.OrderedAccesses : Prop :=
  ∀ (o : Body) (s : State), s.isHw = false → s.me.region = none → orderSel o ≠ 0 →
    (s.core (s.coreNo s.cur.agent)).queue = [] → releaseReady s s.cur.agent (scopeSel o) = true →
    s.myCtx.scopectl.getLsbD 0 = false →
    let ready := fun (n : Need) (xs : List Acc) => xs ≠ [] ∧ ∀ x ∈ xs, Reaches s n x ∧
      onLine s (lineOf (placed s n x).pa) (placed s n x) ∧
      roomFor s xs.length (placed s n x).rc (lineOf (placed s n x).pa) = true ∧
      ∀ i, i < x.n → ¬ isEntry s n xs ((placed s n x).pa + i)
    ((Instr.st o).wf = true → issues 0x71 o s = true → isPriv o = false →
      let xs := laneAccs o s true
      ready { w := true } xs →
      ∃ t, exec (.st o) s = .next t ∧ SameRegs s.me t.me ∧ GoesTo s.cur.act (fun _ => nextPc s.cur.pc o.len) s.me t.me ∧
        Retired s t ∧ t.me.race = s.me.race.tickUp ∧
        ∀ b, ¬ isEntry s { w := true } xs b → t.rd b = overlay (xs.map (placed s { w := true })) b (s.rd b)) ∧
    ((Instr.ld o).wf = true → issues 0x70 o s = true → isPriv o = false →
      let xs := laneAccs o s false
      let n : Need := { r := true }
      ready n xs →
      ∃ t, exec (.ld o) s = .next t ∧ Posted o n xs s t ∧ OnlyDst (decide (sizeSel o = 1)) o.dst (acts o s) s.me t.me ∧
        (scopeSel o ≠ 0 → (t.core (s.coreNo s.cur.agent)).l1 = []) ∧
        ∀ l ∈ acts o s, holds t.me (decide (sizeSel o = 1)) o.dst l
          (loadV (sizeSel o) (laneVal xs (fun x => memVal s (placed s n x)) l))) ∧
    (∀ (i : Body → Instr) (opc : BitVec 8) (cas writes : Bool),
      (i, opc, cas, writes) = (.atom, 0x74#8, false, true) ∨ (i, opc, cas, writes) = (.cas, 0x75#8, true, true) ∨
      (i, opc, cas, writes) = (.red, 0x76#8, false, false) →
      (i o).wf = true → issues opc o s = true →
      let n : Need := { r := true, w := true }
      let xs := rmwList o s cas
      let wide := decide (tySize o.cc.toNat = 8)
      let new := fun (x : Acc) (old : Nat) =>
        let w := 2 ^ (8 * x.n)
        if cas then (if old = x.cmp.toNat % w then some (x.data.toNat % w) else none)
        else some (atomV (sizeSel o) o.cc.toNat old (x.data.toNat % w))
      let run := rmwRun new (xs.map (placed s n)) s.rd
      ready n xs →
      ∃ t, exec (i o) s = .next t ∧ GoesTo s.cur.act (fun _ => nextPc s.cur.pc o.len) s.me t.me ∧ Retired s t ∧
        t.me.race = (if (orderSel o).testBit 1 then s.me.race.tickUp else s.me.race) ∧
        ((orderSel o).testBit 0 = true → scopeSel o ≠ 0 → (t.core (s.coreNo s.cur.agent)).l1 = []) ∧
        (if writes then OnlyDst wide o.dst (acts o s) s.me t.me ∧
            ∀ p ∈ run.1, holds t.me wide o.dst p.1.lane (BitVec.ofNat 64 p.2)
          else SameRegs s.me t.me) ∧
        ∀ b, ¬ isEntry s n xs b → t.rd b = run.2 b)

/-- R125, R126, R145, R146, R453: an access that is not aligned takes ALIGN; accesses that no mapping of the context's own stage
reaches take PAGE, and .PRIV accesses outside the private area take ACCESS; none of them is performed. -/
def Obligations.AccessFaults : Prop :=
  ∀ (o : Body) (s : State) (i : Body → Instr) (n : BitVec 8) (xs : List Acc) (need : Need),
    (i, n, xs, need) = (.ld, 0x70#8, laneAccs o s false, { r := true }) ∨
    (i, n, xs, need) = (.st, 0x71#8, laneAccs o s true, { w := true }) ∨
    (i, n, xs, need) = (.atom, 0x74#8, rmwList o s false, { r := true, w := true }) ∨
    (i, n, xs, need) = (.cas, 0x75#8, rmwList o s true, { r := true, w := true }) ∨
    (i, n, xs, need) = (.red, 0x76#8, rmwList o s false, { r := true, w := true }) →
    (i o).wf = true → issues n o s = true → canTrap s = true →
    ((n.toNat ≤ 0x71 → isPriv o = false) → (∃ x ∈ xs, x.va.toNat % x.n ≠ 0) →
      ∃ t, exec (i o) s = .next t ∧ Trapped cALIGN s.cur.pc s t) ∧
    (s.isHw = false → (n.toNat ≤ 0x71 → isPriv o = false) → xs ≠ [] →
      (∀ x ∈ xs, x.va.toNat % x.n = 0 ∧ canonical x.va = true ∧ windowAt s s.myCtxNo x.va = none ∧
        translate s s.myCtxNo need x.va = .own cPAGE) →
      (s.core (s.coreNo s.cur.agent)).queue = [] →
      ∃ t, exec (i o) s = .next t ∧ Trapped cPAGE s.cur.pc s t) ∧
    (n.toNat ≤ 0x71 → sizeSel o = 6 → s.isHw = false → xs ≠ [] → (s.core (s.coreNo s.cur.agent)).queue = [] →
      (∀ l ∈ accLanes (decide (n = 0x71)) o (s.actMask o), s.myGrid.priv = 0 ∨ privWord s.me o l < 0 ∨
        privWord s.me o l ≥ s.myGrid.pwords) →
      ∃ t, exec (i o) s = .next t ∧ Trapped cACCESS s.cur.pc s t)

/-- R126, R419, R422, R453: where every lane's offset is aligned and within the team's share, LDS reads its bytes, a quad into
four registers, and STS stores them, the highest lane's where lanes overlap; a misaligned lane takes ALIGN, one outside the
share ACCESS, and then nothing is performed. -/
def Obligations.Scratchpad : Prop :=
  (∀ (o : Body) (s : State), (Instr.lds o).wf = true → issues 0x72 o s = true →
    (∀ l ∈ scrLanes o s false, scrOk o s l) →
    ∃ t, exec (.lds o) s = .next t ∧ Completes o s t ∧ t.me.fpflags = s.me.fpflags ∧
      (sizeSel o ≠ 6 → OnlyDst (decide (sizeSel o = 1)) o.dst (scrLanes o s false) s.me t.me ∧
        ∀ l ∈ scrLanes o s false, holds t.me (decide (sizeSel o = 1)) o.dst l
          (loadV (sizeSel o) (scrVal s (scrOffset s.me o l) (scrBytes o)))) ∧
      (sizeSel o = 6 → ∀ l ∈ scrLanes o s false, ∀ j, j < 4 →
        (if o.dst.scl then t.me.sreg (o.dst.num + j) else t.me.vreg (o.dst.num + j) l)
          = BitVec.ofNat 32 (scrVal s (scrOffset s.me o l + 4 * j) 4))) ∧
  (∀ (o : Body) (s : State), (Instr.sts o).wf = true → issues 0x73 o s = true →
    (∀ l ∈ scrLanes o s true, scrOk o s l) →
    ∃ t, exec (.sts o) s = .next t ∧ SameRegs s.me t.me ∧ t.me.fpflags = s.me.fpflags ∧
      Retires (fun _ => nextPc s.cur.pc o.len) id (fun t => ({ t with teams := s.teams } : State)) s t ∧
      (∀ tm, tm ≠ s.me.team → t.team tm = s.team tm) ∧
      ({ t.myTeam with scratch := [] } : Team) = { s.myTeam with scratch := [] } ∧
      ∀ b, t.myTeam.scratch.at b = (scrLanes o s true).foldl (fun v l =>
        let off := (scrOffset s.me o l).toNat
        if off ≤ b ∧ b < off + scrBytes o then
          if sizeSel o = 6 then
            (if o.dst.scl then s.me.sreg (o.dst.num + (b - off) / 4) else s.me.vreg (o.dst.num + (b - off) / 4) l).extractLsb'
              (8 * ((b - off) % 4)) 8
          else (s.me.opv (decide (sizeSel o = 1)) o.dst l).extractLsb' (8 * (b - off)) 8
        else v) (s.myTeam.scratch.at b)) ∧
  (∀ (o : Body) (s : State) (i : Body → Instr) (n : BitVec 8) (st : Bool),
    (i, n, st) = (.lds, 0x72#8, false) ∨ (i, n, st) = (.sts, 0x73#8, true) →
    (i o).wf = true → issues n o s = true → canTrap s = true →
    ((∃ l ∈ scrLanes o s st, scrOffset s.me o l % (scrBytes o : Int) ≠ 0) →
      ∃ t, exec (i o) s = .next t ∧ Trapped cALIGN s.cur.pc s t) ∧
    ((∀ l ∈ scrLanes o s st, scrOffset s.me o l % (scrBytes o : Int) = 0) → (∃ l ∈ scrLanes o s st, ¬ scrOk o s l) →
      ∃ t, exec (i o) s = .next t ∧ Trapped cACCESS s.cur.pc s t))

/-- R391, R392, R433: PREF changes no register, no flag and no byte of memory and takes no fault; CFLUSH that reaches its
addresses drops the named lines from the core's L1, sends them to their slices and sets its flag. That both leave the A bits of the
entries they go through as they are is the model's choice (log 92). -/
def Obligations.PrefetchAndFlush : Prop :=
  (∀ (o : Body) (s : State), (Instr.pref o).wf = true → issues 0x77 o s = true →
    ∃ t, exec (.pref o) s = .next t ∧ SameRegs s.me t.me ∧ SameRest s.me t.me ∧ t.mem = s.mem ∧ Retired s t ∧
      GoesTo s.cur.act (fun _ => nextPc s.cur.pc o.len) s.me t.me) ∧
  (∀ (o : Body) (s : State), (Instr.cflush o).wf = true → issues 0x78 o s = true → s.isHw = false → s.actMask o ≠ 0 →
    let ls := accLanes true { o with md := 0 } (s.actMask o)
    let x := fun l => ({ lane := l, va := ea s.me { o with c := .none } l, n := 1 } : Acc)
    (∀ l ∈ ls, canonical (x l).va = true ∧ windowAt s s.myCtxNo (x l).va = none ∧ ∃ t, translate s s.myCtxNo { r := true } (x l).va = .ok t ∧ isFrame t.key = true) →
    ∃ t, exec (.cflush o) s = .next t ∧ SameRegs s.me t.me ∧ t.mem = s.mem ∧ Retired s t ∧ flagSet o.fset s.me t.me ∧
      GoesTo s.cur.act (fun _ => nextPc s.cur.pc o.len) s.me t.me ∧
      ∀ l ∈ ls, inL1 t (s.coreNo s.cur.agent) (lineOf (placed s { r := true } (x l)).pa) = false ∧
        ∃ q ∈ (t.core (s.coreNo s.cur.agent)).queue, q.kind = .cflush ∧ q.line = lineOf (placed s { r := true } (x l)).pa ∧
          q.op = o.md.toNat) ∧
  (∀ (o : Body) (s : State), (Instr.cflush o).wf = true → issues 0x78 o s = true → s.isHw = true →
    (∀ l ∈ accLanes true { o with md := 0 } (s.actMask o), HwAt 1 (ea s.me { o with c := .none } l)) →
    ∃ t, exec (.cflush o) s = .next t ∧ Completes o s t ∧ SameRegs s.me t.me)

/-! ## Atomic regions -/

/-- R163, R165, R168 to R171, R465: XENTER opens a region for the bundle's lanes and aborts an open one; XCOMMIT waits for the
other participants, and when all have arrived makes every held byte visible, closes the region and empties the L1; XQUIT
aborts with its code; XPROBE says whether a region is open; outside a region XCOMMIT and XQUIT take NOREGION. -/
def Obligations.RegionControl : Prop :=
  (∀ (o : Body) (s : State), (Instr.xenter o).wf = true → issues 0x7C o s = true →
    (s.me.region = none → ∃ t, exec (.xenter o) s = .next t ∧ SameRegs s.me t.me ∧ t.me.fpflags = s.me.fpflags ∧
      Retires (fun _ => nextPc s.cur.pc o.len) (fixRegion none s.me.xstat) id s t ∧ t.me.xstat = 0x8000 ∧
      t.me.region = some { parts := s.cur.act, target := relTarget o s.cur.pc }) ∧
    (∀ r, s.me.region = some r →
      ∃ t, exec (.xenter o) s = .next t ∧ Aborted s.cur.agent r (xstatOf 0 4 r.lines 2) s t)) ∧
  (∀ (o : Body) (s : State) (r : Region), (Instr.xcommit o).wf = true → issues 0x7D o s = true → allReady s = true →
    s.me.region = some r → s.cur.act &&& r.parts ≠ 0 →
    let here := (s.cur.act &&& r.parts) ||| s.me.lanesWith (fun x => x = .xcommit)
    (r.parts &&& s.me.live &&& ~~~ here ≠ 0 →
      ∃ t, exec (.xcommit o) s = .next t ∧ Waiting (s.cur.act &&& r.parts) .xcommit (nextPc s.cur.pc o.len) s t ∧
        t.me.region = some r ∧ t.mem = s.mem ∧ SameRegs s.me t.me) ∧
    (r.parts &&& s.me.live &&& ~~~ here = 0 → (s.isHw = true ∨ (s.core (s.coreNo s.cur.agent)).queue = []) →
      s.openRegions = [(s.cur.agent, r)] →
      (∀ h ∈ r.held, quiet { s with groups := [] } h.2.2 (lineOf h.1) = true) →
      ∃ t, exec (.xcommit o) s = .next t ∧ t.me.region = none ∧ t.me.xstat = xstatOf 0 0 r.lines 0 ∧ SameRegs s.me t.me ∧
        (∀ b, t.rd b = heldVal r b (s.rd b)) ∧ (s.isHw = false → (t.core (s.coreNo s.cur.agent)).l1 = []) ∧
        ∀ l ∈ lanesOf (s.cur.act &&& r.parts), (t.me.lane l).st = .ready ∧ (t.me.lane l).pc = nextPc s.cur.pc o.len)) ∧
  (∀ (o : Body) (s : State) (r : Region), (Instr.xquit o).wf = true → issues 0x7E o s = true → s.me.region = some r →
    s.actMask o &&& r.parts ≠ 0 → ∃ t, exec (.xquit o) s = .next t ∧ Retired s t ∧
      Aborted s.cur.agent r (xstatOf (s.me.opv false o.a 0).toNat 3 r.lines 0) s t) ∧
  Gives .xprobe 0x7F (fun _ => false) (fun o g _ =>
    match g.region with | none => 0 | some r => if o.dst.scl then BitVec.ofNat 64 (1 + r.lines) else 1) ∧
  (∀ (o : Body) (s : State) (i : Body → Instr) (n : BitVec 8), (i, n) = (.xcommit, 0x7D#8) ∨ (i, n) = (.xquit, 0x7E#8) →
    (i o).wf = true → issues n o s = true → s.actMask o ≠ 0 → canTrap s = true →
    ∃ t, exec (i o) s = .next t ∧ Trapped cNOREGION s.cur.pc s t)

/-- R164, R166: a participant's ST is held by the region and changes no byte of memory but A and D bits; its LD reads the
region's own held bytes first; both leave the region open. -/
def Obligations.RegionAccesses : Prop :=
  ∀ (o : Body) (s : State) (r : Region), s.isHw = false → s.me.region = some r → isPriv o = false →
    ((Instr.st o).wf = true → issues 0x71 o s = true →
      let xs := laneAccs o s true
      let n : Need := { w := true }
      regionReady s n r xs →
      ∃ t r', exec (.st o) s = .next t ∧ Posted o n xs s t ∧ SameRegs s.me t.me ∧ t.me.region = some r' ∧
        r'.parts = r.parts ∧ r'.target = r.target ∧
        ∀ b v, heldVal r' b v = overlay (xs.map (placed s n)) b (heldVal r b v)) ∧
    ((Instr.ld o).wf = true → issues 0x70 o s = true →
      let xs := laneAccs o s false
      let n : Need := { r := true }
      regionReady s n r xs →
      ∃ t r', exec (.ld o) s = .next t ∧ Posted o n xs s t ∧ t.me.region = some r' ∧ r'.held = r.held ∧
        OnlyDst (decide (sizeSel o = 1)) o.dst (acts o s) s.me t.me ∧
        ∀ l ∈ acts o s, holds t.me (decide (sizeSel o = 1)) o.dst l (loadV (sizeSel o) (laneVal xs (fun x =>
          let k := (placed s n x).pa
          ofLe ((List.range x.n).map (fun i => heldVal r (k + i) (s.rd (k + i))))) l)))

/-- R165, R169, R172: TRANSIENT_ABORT, and REGION_STOP_LIMIT once 4,096 clk of the group's die have passed since a capture-mode request, abort
the group's open region; without one, or before then, nothing changes. -/
def Obligations.RegionEvents : Prop :=
  ∀ (a : Nat) (s : State),
    ((s.grp a).region = none → exec (.transientAbort a) s = .next s ∧ exec (.regionStopLimit a) s = .next s) ∧
    (∀ r, (s.grp a).region = some r →
      (∃ t, exec (.transientAbort a) s = .next t ∧ Aborted a r (xstatOf 0 5 r.lines 0) s t) ∧
      (∀ at_ k, (s.ctx (s.ctxNo a)).stop = .capture at_ k →
        let due := (s.ctx (s.ctxNo a)).stopClks.at (s.clusterNo a / 20) + 4096
        (due ≤ s.clkOf (s.clusterNo a / 20) →
          ∃ t, exec (.regionStopLimit a) s = .next t ∧ Aborted a r (xstatOf 0 5 r.lines 0) s t) ∧
        (s.clkOf (s.clusterNo a / 20) < due → exec (.regionStopLimit a) s = .next s)))

/-! ## Summaries -/

/-- R219, R222, R226, R228: SINIT writes an empty summary; SQADD, SHADD and SDADD absorb the active lanes' values; nothing but
the summary changes. -/
def Obligations.SummaryUpdates : Prop :=
  Updates .sinit 0xA0 sinitKind false (fun o s _ => summInit (sinitKind o) (b32 o s.me 0).toNat) ∧
  Updates .sqadd 0xA1 (fun _ => 1) true (fun o s x => sqAdd x (laneVals o s)) ∧
  Updates .shadd 0xA2 (fun _ => 2) true (fun o s x => shAdd x (laneVals o s)) ∧
  Updates .sdadd 0xA3 (fun _ => 3) true (fun o s x => sdAdd x (laneVals o s))

/-- R224, R225, R227, R229: SQRY, SHTOP, SDEST and QCLAMP write what the summary gives, and leave it unchanged. -/
def Obligations.SummaryQueries : Prop :=
  Queries .sqry 0xA5 (·.a) 1 false (fun o g x l => BitVec.ofNat 64 (sqQuery x (b32 o g l).toNat)) ∧
  Queries .shtop 0xA6 (·.a) 2 true (fun o g x l =>
    let r := shTop x (b32 o g l).toNat
    BitVec.ofNat 32 r.2 ++ BitVec.ofNat 32 r.1) ∧
  Queries .sdest 0xA7 (·.a) 3 true (fun _ _ x _ => BitVec.ofNat 64 (sdEst x)) ∧
  Queries .qclamp 0xA8 (·.b) 1 false (fun o g x l =>
    let qs := g.opv true o.c 0
    let lo := sqQuery x (qs.extractLsb' 0 32).toNat
    let hi := sqQuery x (qs.extractLsb' 32 32).toNat
    let v := (a32 o g l).toNat
    BitVec.ofNat 64 (if (f32 v).isNan then 0x7FC00000
      else (minMaxNum fp32 false false (minMaxNum fp32 false true v lo).1 hi).1))

/-- R216, R218, R230, R232: SMERGE merges the source into a destination of the same kind, both read before either is written; SMERGE.RED
starts a partial of the destination in the core and changes no byte of memory but A and D bits. For every summary instruction, an
address that is no multiple of 128 takes ALIGN, in the scratchpad a header that fails its check takes ACCESS, and with no active lane
there is no access and no check. -/
def Obligations.SummaryMerge : Prop :=
  (∀ (o : Body) (s : State), (Instr.smerge o).wf = true → issues 0xA4 o s = true → s.actMask o ≠ 0 →
    ∀ kind, (kind = 1 ∨ kind = 2 ∨ kind = 3) →
    let size := summSize kind
    let da := halves s o o.a needRw size
    let sb := halves s o o.b { r := true } size
    let dst := summAt s o o.a needRw size s
    let src := summAt s o o.b { r := true } size s
    summReady s o o.a needRw size (da ++ sb) → summReady s o o.b { r := true } size (da ++ sb) →
    headerOk kind dst = true → headerOk kind src = true →
    (s.isHw = false → isScr o = false → ∀ y ∈ da ++ sb, ∀ i, i < 64 →
      ¬ isEntry s needRw (da ++ sb) (y.pa + i) ∧ ¬ isEntry s { r := true } (da ++ sb) (y.pa + i)) →
    (o.md ≠ 1 ∨ s.isHw = true →
      ∃ t, exec (.smerge o) s = .next t ∧ SameRegs s.me t.me ∧ SameRest s.me t.me ∧ Retired s t ∧
        GoesTo s.cur.act (fun _ => nextPc s.cur.pc o.len) s.me t.me ∧
        summAt s o o.a needRw size t = (smerge (summOf dst) (summOf src)).bytes) ∧
    (o.md = 1 → s.isHw = false →
      ∃ t, exec (.smerge o) s = .next t ∧ SameRegs s.me t.me ∧ SameRest s.me t.me ∧ Retired s t ∧
        GoesTo s.cur.act (fun _ => nextPc s.cur.pc o.len) s.me t.me ∧
        (∀ b, ¬ isEntry s needRw (da ++ sb) b → ¬ isEntry s { r := true } (da ++ sb) b → t.rd b = s.rd b) ∧
        ∃ p ∈ (t.core (s.coreNo s.cur.agent)).sums, (∀ y ∈ da, lineOf y.pa ∈ p.lines) ∧
          p.bytes = (smerge (summInit kind 0x2545F491) (summOf src)).bytes)) ∧
  (∀ (o : Body) (s : State) (i : Body → Instr) (n : BitVec 8) (x : Opd) (kind : Nat),
    (i, n, x, kind) = (.sinit, 0xA0#8, o.a, 0) ∨ (i, n, x, kind) = (.sqadd, 0xA1#8, o.a, 1) ∨
    (i, n, x, kind) = (.shadd, 0xA2#8, o.a, 2) ∨ (i, n, x, kind) = (.sdadd, 0xA3#8, o.a, 3) ∨
    (i, n, x, kind) = (.smerge, 0xA4#8, o.a, 0) ∨ (i, n, x, kind) = (.sqry, 0xA5#8, o.a, 1) ∨
    (i, n, x, kind) = (.shtop, 0xA6#8, o.a, 2) ∨ (i, n, x, kind) = (.sdest, 0xA7#8, o.a, 3) ∨
    (i, n, x, kind) = (.qclamp, 0xA8#8, o.b, 1) →
    (i o).wf = true → issues n o s = true →
    (s.actMask o = 0 → ∃ t, exec (i o) s = .next t ∧ Completes o s t ∧ SameRegs s.me t.me) ∧
    (s.actMask o ≠ 0 → canTrap s = true → (sAddr s o x).toNat % 128 ≠ 0 →
      ∃ t, exec (i o) s = .next t ∧ Trapped cALIGN s.cur.pc s t) ∧
    (s.actMask o ≠ 0 → canTrap s = true → kind ≠ 0 → isScr o = true → (sAddr s o x).toNat % 128 = 0 →
      (sAddr s o x).toNat + summSize kind ≤ s.myTeam.scratchSize →
      headerOk kind (s.myTeam.scratchBytes (sAddr s o x).toNat (summSize kind)) = false →
      ∃ t, exec (i o) s = .next t ∧ Trapped cACCESS s.cur.pc s t))

/-- R217, R222, R223, R226, R227, R230: absorbing values counts every value that is not a NaN; while FLAGS.SAT is 0 the weights of the
stored items sum to COUNT, and merging adds the weights. SHTOP's entry of a rank is a nonempty entry that exactly so many entries
precede, by count descending and then key ascending; from the number of nonempty entries on it is 0. -/
def Obligations.SummaryLaws : Prop :=
  (∀ (x : Summ) (vs : List Nat), (∀ v ∈ vs, v < 2 ^ 32) → x.levels.length = 16 → x.sat = false → x.kind = 1 →
    sketchWeight x = x.count → x.count + vs.length < 2 ^ 64 →
    (sqAdd x vs).count = x.count + (vs.filter (fun v => !(f32 v).isNan)).length ∧ (sqAdd x vs).levels.length = 16 ∧
    ((sqAdd x vs).sat = false → sketchWeight (sqAdd x vs) = (sqAdd x vs).count) ∧
    ∀ y : Summ, y.levels.length = 16 → y.kind = 1 → y.sat = false → sketchWeight y = y.count → x.count + y.count < 2 ^ 64 →
      (smerge x y).sat = false → sketchWeight (smerge x y) = (smerge x y).count) ∧
  (∀ (x : Summ) (r : Nat), (x.hh.filter (fun p => p.2 ≠ 0)).Nodup →
    let live := x.hh.filter (fun p => p.2 ≠ 0)
    (live.length ≤ r → shTop x r = (0, 0)) ∧
    (r < live.length → shTop x r ∈ live ∧
      (live.filter (fun p => decide (p.2 > (shTop x r).2 ∨ (p.2 = (shTop x r).2 ∧ p.1 < (shTop x r).1)))).length = r))

/-! ## Engines -/

/-- R139, R140, R142, R438, R458: TCOPY queues a copy with its shape record and writes its promise; a record that fails R140
takes ACCESS and starts nothing, as on Headwater; a full queue holds it. QFENCE queues an entry that waits for every earlier entry of
the queues it names; that a full queue holds it too is the model's choice (log 42). -/
def Obligations.EngineQueues : Prop :=
  (∀ (o : Body) (s : State), (Instr.tcopy o).wf = true → issues 0x80 o s = true → s.actMask o ≠ 0 → s.isHw = false →
    let k := s.coreNo s.cur.agent
    let x := shpOf (shapeWords o s)
    let bad := shapeBad x ((curInst s s.me.team).map (·.2))
    (64 ≤ (s.core k).eddy.length → exec (.tcopy o) s = .next (holdBundle s)) ∧
    ((s.core k).eddy.length < 64 → bad = true → canTrap s = true →
      ∃ t, exec (.tcopy o) s = .next t ∧ Trapped cACCESS s.cur.pc s t ∧ (t.core k).eddy = (s.core k).eddy) ∧
    ((s.core k).eddy.length < 64 → bad = false → (s.core k).queue = [] →
      ∃ t c, exec (.tcopy o) s = .next t ∧ Queued o s t ∧ (t.core k).eddy = (s.core k).eddy ++ [c] ∧
        c.shape = shapeWords o s ∧ c.agent = s.cur.agent ∧ c.oppc = s.cur.pc ∧ c.unit = 0 ∧ c.flag = o.fset ∧
        c.fence = false ∧ c.promise = promiseV s x ∧ holds t.me false o.dst 0 ((promiseV s x).zeroExtend 64) ∧
        OnlyDst false o.dst (acts o s) s.me t.me)) ∧
  (∀ (o : Body) (s : State), (Instr.tcopy o).wf = true → issues 0x80 o s = true → s.actMask o ≠ 0 → s.isHw = true →
    canTrap s = true → ∃ t, exec (.tcopy o) s = .next t ∧ Trapped cACCESS s.cur.pc s t) ∧
  (∀ (o : Body) (s : State), (Instr.qfence o).wf = true → issues 0x12 o s = true → s.actMask o ≠ 0 → s.isHw = false →
    let k := s.coreNo s.cur.agent
    let q := (o.md.extractLsb' 0 2).toNat
    let all := fun (ws : List Nat) =>
      (o.md.getLsbD 4 = true → ∀ c ∈ (s.core k).eddy, c.team = s.me.team → c.q = 0 → c.id ∈ ws) ∧
      (o.md.getLsbD 5 = true → ∀ e ∈ s.myTeam.mqueue, e.performed = false → e.id ∈ ws) ∧
      (o.md.getLsbD 6 = true → ∀ c ∈ (s.core k).eddy, c.team = s.me.team →
        c.inst ≠ 0 → c.inst = s.myTeam.inst → c.id ∈ ws)
    (q ≠ 1 → (q = 2 → (curInst s s.me.team).isSome = true) → (s.core k).eddy.length < 64 →
      ∃ t c, exec (.qfence o) s = .next t ∧ Completes o { s with fresh := t.fresh, cores := t.cores } t ∧ SameRegs s.me t.me ∧
        (t.core k).eddy = (s.core k).eddy ++ [c] ∧ c.fence = true ∧ c.q = q ∧ (q = 2 → c.inst = s.myTeam.inst) ∧ all c.waits) ∧
    (q = 1 → s.myTeam.steer ≠ none → s.myTeam.mqueue.length < 32 →
      ∃ t e, exec (.qfence o) s = .next t ∧ Completes o { s with fresh := t.fresh, teams := t.teams } t ∧ SameRegs s.me t.me ∧
        t.myTeam.mqueue = s.myTeam.mqueue ++ [e] ∧ e.fence = true ∧ all e.waits) ∧
    (q ≠ 1 → (q = 2 → (curInst s s.me.team).isSome = true) → 64 ≤ (s.core k).eddy.length →
      exec (.qfence o) s = .next (holdBundle s)) ∧
    (q = 1 → s.myTeam.steer ≠ none → 32 ≤ s.myTeam.mqueue.length → exec (.qfence o) s = .next (holdBundle s)) ∧
    ((q = 1 ∧ s.myTeam.steer = none) ∨ (q = 2 ∧ (curInst s s.me.team).isNone = true) → canTrap s = true →
      ∃ t, exec (.qfence o) s = .next t ∧ Trapped cACCESS s.cur.pc s t)) ∧
  (∀ (o : Body) (s : State), (Instr.qfence o).wf = true → issues 0x12 o s = true → s.actMask o ≠ 0 → s.isHw = true →
    (o.md.extractLsb' 0 2 = 3#2 → ∃ t j, exec (.qfence o) s = .next t ∧ SameRegs s.me t.me ∧ Retired s t ∧ t.mem = s.mem ∧
      (t.part s.regs.scrubctl.toNat).jobs = (s.part s.regs.scrubctl.toNat).jobs ++ [j] ∧ j.fence = true) ∧
    (o.md.extractLsb' 0 2 ≠ 3#2 → canTrap s = true → ∃ t, exec (.qfence o) s = .next t ∧ Trapped cACCESS s.cur.pc s t))

/-- R312, R313, R316: COLLSET returns NOGROUP, BADARG and BADSEQ in that order, opening nothing; a ring or tree instance opens at
once, becomes the team's current instance and advances NEXTSEQ; a Confluence instance waits for the slot decision. -/
def Obligations.CollectiveOpen : Prop :=
  ∀ (o : Body) (s : State), (Instr.collset o).wf = true → issues 0x84 o s = true → s.actMask o ≠ 0 →
    let code := fun (n : Nat) => ∃ t, exec (.collset o) s = .next t ∧ Writes o false (fun _ => BitVec.ofNat 64 n) s t
    let ring := (coll1 o s).extractLsb' 14 2 ≠ 0#2
    let ok := isMember o s = true ∧ badArg o s = false ∧ seqFits o s = true
    (s.isHw = true → code 2) ∧
    (s.isHw = false → isMember o s = false → code 2) ∧
    (s.isHw = false → isMember o s = true → badArg o s = true → code 4) ∧
    (s.isHw = false → isMember o s = true → badArg o s = false → seqFits o s = false → code 3) ∧
    (s.isHw = false → ok → ring → s.myTeam.inst ≠ s.fresh →
      ∃ t, exec (.collset o) s = .next t ∧ holds t.me false o.dst 0 0 ∧ t.myTeam.inst = s.fresh ∧ (t.inst s.fresh).live = true ∧
        (t.inst s.fresh).seq = (coll0 o s).extractLsb' 0 16 ∧ (t.inst s.fresh).members = (collGroup o s).members ∧
        (collOf t s.myCtxNo (collGid o s)).nextSeq = (collGroup o s).nextSeq + 1 ∧ t.mem = s.mem) ∧
    (s.isHw = false → ok → ¬ ring → (s.early.all (fun f => decide (f.typ ≠ 7)) = true) →
      (collGroup o s).departed.contains 0 = false →
      ∃ t, exec (.collset o) s = .next t ∧ Queued o s t ∧ SameRegs s.me t.me ∧ pendsIn t.me o.dst 0 ∧
        (t.inst s.fresh).waiting = true ∧ (t.inst s.fresh).live = false ∧ (t.inst s.fresh).stamp = s.gtime ∧
        (collOf t s.myCtxNo (collGid o s)).nextSeq = (collGroup o s).nextSeq)

/-- R318, R319, R332, R439: QPOP takes the oldest entry of the current EXCHANGE instance's queue, writes 0xFFFF_FFFF from an empty one
without a wait, and waits otherwise, to be counted when it has its entry or its time has run out (log 23); QPUSH adds an entry or hands
it to the QPOP that has waited longest; without such an instance both take ACCESS, and so does a QPUSH of 0xFFFF_FFFF. That QPUSH's
release leaves the race clock as it is is the model's choice (log 46, read from R178). -/
def Obligations.ArrivedTiles : Prop :=
  (∀ (o : Body) (s : State), (Instr.qpop o).wf = true → issues 0x81 o s = true → s.actMask o ≠ 0 →
    let n := (a32 o s.me 0).toNat
    (exchange s = none → canTrap s = true → ∃ t, exec (.qpop o) s = .next t ∧ Trapped cACCESS s.cur.pc s t) ∧
    (∀ i x, exchange s = some (i, x) →
      (∀ y ys, x.tiles = y :: ys → ∃ t, exec (.qpop o) s = .next t ∧ holds t.me false o.dst 0 (y.zeroExtend 64) ∧
        OnlyDst false o.dst (acts o s) s.me t.me ∧ (t.inst i).tiles = ys ∧ (t.core (s.coreNo s.cur.agent)).l1 = [] ∧
        t.mem = s.mem ∧ Retired s t ∧ GoesTo s.cur.act (fun _ => nextPc s.cur.pc o.len) s.me t.me) ∧
      (x.tiles = [] → n = 0 → ∃ t, exec (.qpop o) s = .next t ∧ Writes o false (fun _ => 0xFFFFFFFF) s t) ∧
      (x.tiles = [] → n ≠ 0 → ∃ t id, exec (.qpop o) s = .next t ∧
        Waiting (s.actMask o) (.qpop o.dst.num (if n = 0xFFFFFFFF then none else some n)) (nextPc s.cur.pc o.len) s t ∧
        SameRegs s.me t.me ∧ pendsIn t.me o.dst 0 ∧ t.mem = s.mem ∧ Unretired s t ∧
        (t.inst i).qwait = x.qwait ++ [(s.cur.agent, s.actMask o, o.dst.num, id)]))) ∧
  (∀ (o : Body) (s : State), (Instr.qpush o).wf = true → issues 0x82 o s = true → s.actMask o ≠ 0 →
    let w := a32 o s.me 0
    (exchange s = none ∨ w = 0xFFFFFFFF → canTrap s = true →
      ∃ t, exec (.qpush o) s = .next t ∧ Trapped cACCESS s.cur.pc s t) ∧
    (∀ i x, exchange s = some (i, x) → w ≠ 0xFFFFFFFF →
      (Config.tileQueue ≤ x.tiles.length → exec (.qpush o) s = .next (holdBundle s)) ∧
      (x.tiles.length < Config.tileQueue → (s.core (s.coreNo s.cur.agent)).queue = [] → x.qwait = [] →
        ∃ t, exec (.qpush o) s = .next t ∧ Completes o { s with insts := t.insts } t ∧ SameRegs s.me t.me ∧
          (t.inst i).tiles = x.tiles ++ [w]) ∧
      (∀ b m d e r, x.tiles = [] → (s.core (s.coreNo s.cur.agent)).queue = [] → x.qwait = (b, m, d, e) :: r →
        (∃ l ∈ lanesOf m, ∃ left, ((s.grp b).lane l).st = .qpop d left) →
        ∃ t, exec (.qpush o) s = .next t ∧ (t.grp b).sreg d = w ∧ (t.inst i).tiles = [] ∧ (t.inst i).qwait = r ∧
          Retired s t ∧ t.me.race = s.me.race ∧ ∀ l ∈ lanesOf m, ∀ left, ((s.grp b).lane l).st = .qpop d left → ((t.grp b).lane l).st = .ready)))

/-- R192, R193, R428, R454 to R457, R461: TCFG, TZERO, MMA, MMAS, TDRAIN, TLD and TST enter the team's matrix queue behind its older entries
and set their flag; a full queue holds them; a shape word R455 does not allow takes ACCESS, and an address that is not aligned ALIGN.
TWR stores each active lane's word in the tile and TRD reads it, lane l at row r + l / 32, byte 4 (l mod 32); where a lane's row is
beyond 63 the instruction takes XRANGE, and no byte changes. -/
def Obligations.MatrixIssue : Prop :=
  (Enqueues .tcfg 0x90 false (fun o s => shapeWordOk (a32 o s.me 0)) (fun o s => { t := o.dst.num, rc := a32 o s.me 0 }) ∧
  Enqueues .tzero 0x91 false (fun _ _ => True) (fun o _ => { d := o.dst.num }) ∧
  Enqueues .mma 0x92 true recordsAligned (fun o s =>
    { md := o.md, d := o.dst.num, ra := s.me.opv true o.a 0, rb := s.me.opv true o.b 0, rc := c32 o s.me 0 }) ∧
  Enqueues .mmas 0x93 true recordsAligned (fun o s =>
    { md := o.md, d := o.dst.num, ra := s.me.opv true o.a 0, rb := s.me.opv true o.b 0, rc := c32 o s.me 0 }) ∧
  Enqueues .tdrain 0x94 false (fun _ _ => True) (fun o _ => { md := o.md, t := o.dst.num, d := o.a.num }) ∧
  Enqueues .tld 0x95 true rowsAligned (fun o s => { t := o.dst.num, ra := s.me.opv true o.a 0, rc := b32 o s.me 0 }) ∧
  Enqueues .tst 0x96 true rowsAligned (fun o s => { t := o.dst.num, ra := s.me.opv true o.a 0, rc := b32 o s.me 0 }) ∧
  (∀ (o : Body) (s : State) (i : Body → Instr) (n code : BitVec 8) (ok : Body → State → Prop),
    (i, n, code, ok) = (.tcfg, 0x90#8, cACCESS, fun o s => shapeWordOk (a32 o s.me 0)) ∨
    (i, n, code, ok) = (.mma, 0x92#8, cALIGN, recordsAligned) ∨ (i, n, code, ok) = (.mmas, 0x93#8, cALIGN, recordsAligned) ∨
    (i, n, code, ok) = (.tld, 0x95#8, cALIGN, rowsAligned) ∨ (i, n, code, ok) = (.tst, 0x96#8, cALIGN, rowsAligned) →
    (i o).wf = true → issues n o s = true → s.actMask o ≠ 0 → ¬ ok o s → canTrap s = true →
    ∃ t, exec (i o) s = .next t ∧ Trapped code s.cur.pc s t)) ∧
  ((∀ (o : Body) (s : State), (Instr.twr o).wf = true → issues 0x97 o s = true →
    let row0 := (a32 o s.me 0).toNat
    (∀ l ∈ lanesOf (s.actMask o), rowOf row0 l ≤ 63) →
    ∃ t, exec (.twr o) s = .next t ∧ SameRegs s.me t.me ∧ t.me.fpflags = s.me.fpflags ∧
      Retires (fun _ => nextPc s.cur.pc o.len) id (fun t => ({ t with teams := s.teams } : State)) s t ∧
      (∀ tm, tm ≠ s.me.team → t.team tm = s.team tm) ∧ ({ t.myTeam with tiles := [] } : Team) = { s.myTeam with tiles := [] } ∧
      ∀ n b, n < 16 → b < 8192 → t.myTeam.tile n b =
        if n = o.c.num ∧ 128 * row0 ≤ b ∧ b < 128 * row0 + 256 ∧ (s.actMask o).getLsbD ((b - 128 * row0) / 4) = true then
          (s.me.vreg o.b.num ((b - 128 * row0) / 4)).extractLsb' (8 * (b % 4)) 8
        else s.myTeam.tile n b) ∧
  (∀ (o : Body) (s : State), (Instr.trd o).wf = true → issues 0x98 o s = true →
    let row0 := (b32 o s.me 0).toNat
    (∀ l ∈ lanesOf (s.actMask o), rowOf row0 l ≤ 63) →
    ∃ t, exec (.trd o) s = .next t ∧ Writes o false (fun l =>
      BitVec.ofNat 64 (ofLe ((List.range 4).map (fun i => s.myTeam.tile o.a.num (byteOf row0 l + i))))) s t) ∧
  (∀ (o : Body) (s : State) (i : Body → Instr) (n : BitVec 8) (row0 : Nat),
    (i, n, row0) = (.twr, 0x97#8, (a32 o s.me 0).toNat) ∨ (i, n, row0) = (.trd, 0x98#8, (b32 o s.me 0).toNat) →
    (i o).wf = true → issues n o s = true → canTrap s = true →
    (∃ l ∈ lanesOf (s.actMask o), rowOf row0 l > 63) →
    ∃ t, exec (i o) s = .next t ∧ Trapped cXRANGE s.cur.pc s t ∧ t.myTeam.tiles = s.myTeam.tiles))

/-! ## Time, energy and status registers -/

/-- R257, R261 to R263, R301, R302, R329, R371, R402, R440, R459: RDVT and RDCNT read the clock and a counter; ARMT arms the timer with its
deadline, mode and flag, and one whose deadline has passed expires at once; EBOOK books energy that the account holds and
takes ENERGY otherwise; TMARK writes a trace record where marks are on, and nothing otherwise. -/
def Obligations.TimeAndEnergy : Prop :=
  GivesAt .rdvt 0xB0 (fun _ => true) (fun _ s _ =>
    if s.isHw then BitVec.ofNat 64 s.gtime else if s.myCtx.vrun then BitVec.ofNat 64 (s.gtime - s.myCtx.voff) else s.myCtx.vfrozen) ∧
  GivesAt .rdcnt 0xB2 (fun _ => true) (fun o s l =>
    if s.cur.agent = 0 then 0 else s.myCtx.counters.at ((a32 o s.me l).toNat % 8)) ∧
  (∀ (o : Body) (s : State), (Instr.armt o).wf = true → issues 0xB1 o s = true → s.actMask o ≠ 0 →
    let dl := s.me.opv true o.a ((lanesOf (s.actMask o)).headD 0)
    let due := decide (dl ≤ s.clockOf s.cur.agent) && (decide (s.cur.agent = 0) || s.myCtx.vrun)
    (due = false → ∃ t, exec (.armt o) s = .next t ∧ SameRegs s.me t.me ∧ t.mem = s.mem ∧ Retired s t ∧ t.me.timer.dl = dl ∧
      t.me.timer.mode = (if o.md = 1 then 2 else 1) ∧ t.me.timer.flag = (if o.fset.toNat < 12 then o.fset else 0xF) ∧
      t.me.timer.wd = s.me.timer.wd ∧ t.me.timer.fired = s.me.timer.fired ∧ (o.fset.toNat < 12 → t.me.pending o.fset = true)) ∧
    (due = true → ∃ t, exec (.armt o) s = .next t ∧ SameRegs s.me t.me ∧ t.mem = s.mem ∧ Retired s t ∧ t.me.timer.dl = dl ∧
      t.me.timer.fired = true ∧ t.me.timer.mode = 0 ∧ t.me.pending o.fset = false ∧
      (o.md = 1 → ∃ d ∈ t.me.faults, d.code = cTIMER))) ∧
  (∀ (o : Body) (s : State), (Instr.ebook o).wf = true → issues 0xB5 o s = true →
    let n := (a32 o s.me 0).toNat
    let p := s.partNo s.cur.agent
    (s.actMask o = 0 ∨ s.isHw = true → ∃ t, exec (.ebook o) s = .next t ∧ Completes o s t ∧ SameRegs s.me t.me) ∧
    (s.actMask o ≠ 0 → s.isHw = false → (n : Int) ≤ (s.part p).eacct →
      ∃ t, exec (.ebook o) s = .next t ∧ SameRegs s.me t.me ∧ (t.part p).eacct = (s.part p).eacct - n ∧
        t.myGrid.booking = s.myGrid.booking + n ∧ t.mem = s.mem ∧ Retired s t ∧
        GoesTo s.cur.act (fun _ => nextPc s.cur.pc o.len) s.me t.me) ∧
    (s.actMask o ≠ 0 → s.isHw = false → (s.part p).eacct < (n : Int) → canTrap s = true →
      ∃ t, exec (.ebook o) s = .next t ∧ Trapped cENERGY s.cur.pc s t ∧ (t.part p).eacct = (s.part p).eacct)) ∧
  (∀ (o : Body) (s : State), (Instr.tmark o).wf = true → issues 0xB6 o s = true →
    (s.actMask o = 0 ∨ s.isHw = true ∨ s.myCtx.trctl.getLsbD 2 = false →
      ∃ t, exec (.tmark o) s = .next t ∧ Completes o s t ∧ SameRegs s.me t.me) ∧
    (s.actMask o ≠ 0 → s.isHw = false → s.myCtx.trctl.getLsbD 2 = true →
      ∃ t, exec (.tmark o) s = .next t ∧ SameRegs s.me t.me ∧ Retired s t ∧
        (s.me.region = none → GoesTo s.cur.act (fun _ => nextPc s.cur.pc o.len) s.me t.me) ∧
        t.mem = (trace s.cur.agent 5 0 (a32 o s.me 0).toNat s.cur.pc.toNat s.myCtx.retired
          (s.modMe (fun g => g.setPcs s.cur.act (nextPc s.cur.pc o.len)))).mem))

/-- R6, R43, R85 to R90, R237, R262, R427, R426: MFS reads LANEID and every 32-bit register, and the halves of 64-bit ones as one value; MTS
writes FPMODE, FPFLAGS, CNTSEL, RACECTL, SCOPECTL, TRCTL and DBGCTL with their reserved and W1C bits; the low half of TRAPBASE and TRAPPC takes
effect with the high half's write; a register of tiles that the team does not hold takes REGRANGE. -/
def Obligations.StatusRegisters : Prop :=
  (∀ (o : Body) (s : State), (Instr.mfs o).wf = true → issues 0xB3 o s = true → noTile s o.sysIndex = false →
    (o.sysIndex = 1 → ∃ t, exec (.mfs o) s = .next t ∧
      Writes o false (fun l => if s.me.role.scalar then 0 else BitVec.ofNat 64 l) s t) ∧
    (o.sysIndex ≠ 1 → isHalf o.sysIndex = false →
      ∃ t, exec (.mfs o) s = .next t ∧ Writes o false (fun _ => (plainRead s s.cur.agent o.sysIndex).zeroExtend 64) s t) ∧
    (lowHalf o.sysIndex = true → s.actMask o ≠ 0 → ∃ t, exec (.mfs o) s = .next t ∧
      let v := wideRead s s.cur.agent o.sysIndex
      (∀ l ∈ acts o s, holds t.me false o.dst l ((v.extractLsb' 0 32).zeroExtend 64)) ∧
      OnlyDst false o.dst (acts o s) s.me t.me ∧ t.me.mfs = some (o.sysIndex, v.extractLsb' 32 32) ∧ t.mem = s.mem ∧ Retired s t) ∧
    (∀ i w, s.me.mfs = some (i, w) → lowHalf i = true → o.sysIndex = i + 1 → i % 2 = 0 → s.actMask o ≠ 0 →
      ∃ t, exec (.mfs o) s = .next t ∧ (∀ l ∈ acts o s, holds t.me false o.dst l (w.zeroExtend 64)) ∧
        OnlyDst false o.dst (acts o s) s.me t.me ∧ t.me.mfs = none ∧ t.mem = s.mem ∧ Retired s t)) ∧
  (∀ (o : Body) (s : State), (Instr.mfs o).wf = true → issues 0xB3 o s = true → noTile s o.sysIndex = true → canTrap s = true →
    ∃ t, exec (.mfs o) s = .next t ∧ Trapped cREGRANGE s.cur.pc s t) ∧
  MtsGives 0x020 (fun _ => True) (fun v _ t => t.me.fpmode = v &&& 0xFF) ∧
  MtsGives 0x021 (fun _ => True) (fun v _ t => t.me.fpflags = v &&& 0x3F) ∧
  MtsGives 0x030 (fun _ => True) (fun v s t => t.me.mts = some (0x030, v) ∧ t.me.trap = s.me.trap) ∧
  MtsGives 0x031 (fun s => ∃ lo, s.me.mts = some (0x030, lo)) (fun v s t => ∀ lo, s.me.mts = some (0x030, lo) →
    t.me.trap = { s.me.trap with base := v ++ lo } ∧ t.me.mts = none) ∧
  MtsGives 0x035 (fun s => ∃ lo, s.me.mts = some (0x034, lo)) (fun v s t => ∀ lo, s.me.mts = some (0x034, lo) →
    t.me.trap = { s.me.trap with pc := v ++ lo } ∧ t.me.mts = none) ∧
  MtsGives 0x050 (fun s => s.cur.agent ≠ 0) (fun v s t => (t.ctx s.myCtxNo).racectl = (s.myCtx.racectl &&& ~~~ v &&& 0xE0) ||| (v &&& 7)) ∧
  MtsGives 0x051 (fun s => s.cur.agent ≠ 0) (fun v s t => (t.ctx s.myCtxNo).scopectl = (s.myCtx.scopectl &&& ~~~ v &&& 2) ||| (v &&& 1)) ∧
  MtsGives 0x0A0 (fun s => s.cur.agent ≠ 0) (fun v s t => (t.ctx s.myCtxNo).trctl = v &&& 7) ∧
  MtsGives 0x0A1 (fun s => s.cur.agent ≠ 0) (fun v s t => (t.ctx s.myCtxNo).dbgctl = v &&& 0x1F) ∧
  (∀ n, n < 8 → MtsGives (0x090 + n) (fun s => s.cur.agent ≠ 0) (fun v s t => (t.ctx s.myCtxNo).cntsel.at n = v &&& 0xFFFF ∧
    (t.ctx s.myCtxNo).counters.at n = 0)) ∧
  MtsGives 0x802 (fun _ => True) (fun v s t => t.regs.scrubctl = if (v.extractLsb' 0 6).toNat < 40 then v.extractLsb' 0 6 else s.regs.scrubctl) ∧
  MtsGives 0x806 (fun _ => True) (fun v _ t => (v.extractLsb' 25 7).toNat < 80 →
    (t.cluster (v.extractLsb' 25 7).toNat).slots.at (v.extractLsb' 19 6).toNat = v &&& 0x40FFF) ∧
  (∀ idx, [0x000, 0x001, 0x002, 0x003, 0x014, 0x032, 0x060].contains idx = true → MtsGives idx (fun _ => True) (fun _ s t =>
    SameRest s.me t.me ∧ t.me.fpflags = s.me.fpflags))

/-- R277, R280, R283, R295, R296, R417, R431, R446: on Headwater KZERO zeroes a slot that no context or a FREE one is bound to, makes a
LOST one FREE first, and waits at one that runs, which it stops for a kill; SCRUB queues its job, or takes ACCESS; PASGN gives a free
resource to a partition and PFREE queues its clearing, in which a READY partition is SCRUBBING, each with its status. That PASGN gives STATE
before stage READY is the model's choice (log 113). -/
def Obligations.PrivilegedInstructions : Prop :=
  (∀ (o : Body) (s : State), (Instr.kzero o).wf = true → issues 0xC0 o s = true → s.isHw = true → s.actMask o ≠ 0 →
    let v := (a32 o s.me 0).toNat
    (64 ≤ v → canTrap s = true → ∃ t, exec (.kzero o) s = .next t ∧ Trapped cACCESS s.cur.pc s t) ∧
    (v < 64 → (∀ c, (s.key v).bound = some c → (s.ctx c).st = .free) →
      ∃ t, exec (.kzero o) s = .next t ∧ HwDone o s t ∧ (t.key v).mem = none ∧ (t.key v).report = none ∧ (t.key v).bound = none ∧
        (t.key v).owner = (s.key v).owner ∧ ∀ k, k ≠ v → t.key k = s.key k) ∧
    (s.cur.agent = 0 → s.cur.act = 1 → ∀ c, v < 64 → (s.key v).bound = some c →
      ((s.ctx c).st = .lost → ctxGrids s c = [] → ctxTeams s c = [] → confCores s c = false →
        ∃ t, exec (.kzero o) s = .next t ∧ Retired s t ∧ (t.ctx c).st = .free ∧ (t.key v).mem = none ∧ (t.key v).report = none ∧
          (t.key v).bound = none ∧ (t.me.lane 0).pc = nextPc s.cur.pc o.len) ∧
      ((s.ctx c).st = .running →
        ∃ t, exec (.kzero o) s = .next t ∧ Unretired s t ∧ Stopping c (.capture s.gtime true) t ∧ t.keys = s.keys ∧
          Waiting 1 (.kzero v) (nextPc s.cur.pc o.len) s t))) ∧
  (∀ (o : Body) (s : State), (Instr.scrub o).wf = true → issues 0xC1 o s = true → s.isHw = true → s.actMask o ≠ 0 →
    let w := fun i => s.me.sreg (o.a.num + i)
    let p := ((w 3).extractLsb' 0 6).toNat
    let base := (w 0).toNat + ((w 1).extractLsb' 0 25).toNat * 2 ^ 32
    let pages := ((w 2).extractLsb' 0 24).toNat
    let tier := (w 3).getLsbD 8
    let ks := ((w 3).extractLsb' 16 8).toNat
    let ok := (w 0).extractLsb' 0 16 = 0#16 ∧ (w 1).extractLsb' 25 7 = 0#7 ∧ (w 2).extractLsb' 24 8 = 0#8 ∧
      (w 3).extractLsb' 24 8 = 0#8 ∧ (w 3).extractLsb' 9 7 = 0#7 ∧ (w 3).extractLsb' 6 2 = 0#2 ∧ pages ≠ 0 ∧ p < 40 ∧
      (ks < 64 ∨ ks = 255) ∧ base + 65536 * pages ≤ (if tier then s.t2Size p else s.hbmSize p)
    (ok → (s.part p).jobs.length < 32 → ∃ t j, exec (.scrub o) s = .next t ∧ Queued o s t ∧ SameRegs s.me t.me ∧
      (t.part p).jobs = (s.part p).jobs ++ [j] ∧ j.base = base ∧ j.pages = pages ∧ j.tier = tier ∧ j.kslot = ks ∧
      j.flag = o.fset ∧ j.done = 0 ∧ j.fence = false) ∧
    (ok → 32 ≤ (s.part p).jobs.length → exec (.scrub o) s = .next (holdBundle s)) ∧
    (¬ ok → canTrap s = true → ∃ t, exec (.scrub o) s = .next t ∧ Trapped cACCESS s.cur.pc s t)) ∧
  (∀ (o : Body) (s : State) (kind p idx : Nat), s.isHw = true → s.actMask o ≠ 0 → resArg (a32 o s.me 0) = some (kind, p, idx) →
    let st := (s.part p).st
    ((Instr.pasgn o).wf = true → issues 0xC2 o s = true →
      (s.boot.stage = .ready → beingCleared s kind idx = false → (kind = 4 → slotScrubbed s idx = false) →
        (ownerOf s kind idx).isSome = false → (kind = 1 ∨ kind = 2 → st ≠ .active ∧ st ≠ .resetting) →
        ∃ t, exec (.pasgn o) s = .next t ∧ HwDone o s t ∧ holds t.me false o.dst 0 0 ∧ ownedBy t kind idx p = true) ∧
      (beingCleared s kind idx = true → ∃ t, exec (.pasgn o) s = .next t ∧ Writes o false (fun _ => 1) s t) ∧
      (beingCleared s kind idx = false → (kind = 4 → slotScrubbed s idx = false) → (ownerOf s kind idx).isSome = true →
        ∃ t, exec (.pasgn o) s = .next t ∧ Writes o false (fun _ => 2) s t) ∧
      (beingCleared s kind idx = false → (kind = 4 → slotScrubbed s idx = false) → (ownerOf s kind idx).isSome = false →
        s.boot.stage ≠ .ready ∨ ((kind = 1 ∨ kind = 2) ∧ (st = .active ∨ st = .resetting)) →
        ∃ t, exec (.pasgn o) s = .next t ∧ Writes o false (fun _ => 3) s t)) ∧
    ((Instr.pfree o).wf = true → issues 0xC3 o s = true →
      (ownedBy s kind idx p = false → ∃ t, exec (.pfree o) s = .next t ∧ Writes o false (fun _ => 3) s t) ∧
      (ownedBy s kind idx p = true → kind ≠ 1 → kind ≠ 2 → st = .ready → beingCleared s kind idx = false →
        (kind = 0 → clusterTeams s idx = []) → (kind = 4 → boundBusy s (s.key idx).bound = false) →
        (kind = 5 → boundBusy s (s.vdev idx).bound = false) →
        ∃ t, exec (.pfree o) s = .next t ∧ HwDone o s t ∧ holds t.me false o.dst 0 0 ∧ t.mem = s.mem ∧
          (t.part p).st = .scrubbing ∧ (kind, idx, true) ∈ (t.part p).clearing))) ∧
  (∀ (o : Body) (s : State) (i : Body → Instr) (n : BitVec 8), (i, n) = (.pasgn, 0xC2#8) ∨ (i, n) = (.pfree, 0xC3#8) →
    (i o).wf = true → issues n o s = true → s.isHw = true → s.actMask o ≠ 0 → resArg (a32 o s.me 0) = none →
    ∃ t, exec (i o) s = .next t ∧ Writes o false (fun _ => 4) s t)

/-! ## Issue -/

/-- R47, R84, R165, R302, R359, R420, R80, R46: an instruction that its issuer may not run takes PRIV or UNDEF, one that names a
register the group lacks REGRANGE; one that waits for a flag or a register does not issue; one that may not stand in an
atomic region aborts it. Privileged instructions are PRIV outside Headwater, the matrix engine's in a produce or
consume group. -/
def Obligations.IssueChecks : Prop :=
  (∀ (i : Instr) (opc : BitVec 8) (o : Body) (s : State), opcodeOf i = some (opc, o) → i.wf = true →
    (∀ c, issuerFault s opc o = some c → canTrap s = true → ∃ t, exec i s = .next t ∧ Trapped c s.cur.pc s t) ∧
    (issuerFault s opc o = none → outOfRange s opc o = true → canTrap s = true →
      ∃ t, exec i s = .next t ∧ Trapped cREGRANGE s.cur.pc s t) ∧
    (issuerFault s opc o = none → outOfRange s opc o = false → flagBusy s o = true ∨ waitsOperand s opc o = true →
      exec i s = .next (keepBundle .operand s)) ∧
    (∀ r, s.me.region = some r → issuerFault s opc o = none → outOfRange s opc o = false → flagBusy s o = false →
      waitsOperand s opc o = false → abortsRegion opc = true → s.actMask o &&& r.parts ≠ 0 →
      ∃ t, exec i s = .next t ∧ Aborted s.cur.agent r (xstatOf 0 4 r.lines 2) s t)) ∧
  (∀ (o : Body) (s : State) (i : Body → Instr), i = .kzero ∨ i = .scrub ∨ i = .pasgn ∨ i = .pfree → (i o).wf = true →
    s.isHw = false → canTrap s = true → ∃ t, exec (i o) s = .next t ∧ Trapped cPRIV s.cur.pc s t) ∧
  (∀ (o : Body) (s : State) (i : Body → Instr),
    i = .tcfg ∨ i = .tzero ∨ i = .mma ∨ i = .mmas ∨ i = .tdrain ∨ i = .tld ∨ i = .tst → (i o).wf = true →
    s.me.role = .produce ∨ s.me.role = .consume → canTrap s = true →
    ∃ t, exec (i o) s = .next t ∧ Trapped cPRIV s.cur.pc s t) ∧
  (∀ (o : Body) (s : State) (i : Body → Instr), i = .mfs ∨ i = .mts → (i o).wf = true → s.isHw = false →
    0x800 ≤ o.sysIndex → canTrap s = true → ∃ t, exec (i o) s = .next t ∧ Trapped cPRIV s.cur.pc s t)

/-- R56, R59, R60, R91, R238, R340, R359, R360: where the next turn is an issue of an agent that can issue, that no rival goes before
and that has no deferred fault due and no drowsy register, and the words at its PC decode, the step is `exec` of that instruction in the state in which its words were fetched, and then the end of the
turn; words that do not decode take UNDEF. On Headwater the words are those of its memory at the PC; elsewhere each is memory's at
the translated PC, or, where the code was changed after a core fetched it, a cached old one (R361: which one is open, log 115). -/
def Obligations.StepRunsDecoded : Prop :=
  ∀ (s : State) (a : Nat) (r : List Turn), (passTime s).agenda = .issue a :: r →
    let q : State := { passTime s with agenda := r }
    let p := prepare a q
    let fin := fun v => settleStep (if a = 0 then sameCounts q v else afterIssue a q v)
    canIssue q a = true → outranked q a = false → deliversFirst q a = false → isDrowsy q a = false →
    (∀ w1 w2 w3 u, fetch a p.cur.pc p = .words w1 w2 w3 u →
      (∀ i, decodeWords w1 w2 w3 = some i → step s = match exec i u with
        | .next v => .next (fin v)
        | x => x) ∧
      (decodeWords w1 w2 w3 = none → step s = .next (fin (undefined u)) ∧
        (canTrap u = true → Trapped cUNDEF u.cur.pc u (undefined u)))) ∧
    (∀ w1 w2 w3 i, (q.grp a).role = .headwater → p.cur.pc.toNat + 12 ≤ Config.hwBytes →
      w1 = BitVec.ofNat 32 (p.rdLe (hwKey p.cur.pc.toNat) 4) → w2 = BitVec.ofNat 32 (p.rdLe (hwKey (p.cur.pc.toNat + 4)) 4) →
      w3 = BitVec.ofNat 32 (p.rdLe (hwKey (p.cur.pc.toNat + 8)) 4) → decodeWords w1 w2 w3 = some i →
      step s = match exec i p with
        | .next v => .next (fin v)
        | x => x) ∧
    (∀ w1 w2 w3 u tr, (q.grp a).role ≠ .headwater → fetch a p.cur.pc p = .words w1 w2 w3 u →
      translate p (p.ctxNo a) { x := true } p.cur.pc = .ok tr →
      let line := tr.key / 128
      let now := (List.range 128).map (fun j => p.view tr.conf (128 * line + j))
      let word := fun l : List Byte => BitVec.ofNat 32 (ofLe ((l.drop (tr.key % 128)).take 4))
      w1 = word now ∨ ∃ e ∈ p.cores, ∃ old, (line, tr.conf, old) ∈ e.2.icache ∧ old ≠ now ∧ w1 = word old)

/-- Words written out from the spec's encodings decode to the instructions they stand for (R340 to R344, R355; the words
are the worked encodings of the instruction reference). -/
def Obligations.DecodedWords : Prop :=
  decodeTableWord 32 0x00000018 = some (.exit {}) ∧
  decodeTableWord 32 0x00000024 = some (.yield {}) ∧
  decodeTableWord 32 0x00080203 = some (.clause 1 4) ∧
  decodeTableWord 64 (0x018180DD + 0x8F000081 * 2 ^ 32) = some (.sub { len := .w2, dst := .v 6, a := .v 6, b := .imm 1 }) ∧
  decodeTableWord 64 (0x004080B5 + 0x8F00000A * 2 ^ 32) = some (.mul { len := .w2, dst := .v 2, a := .v 1, b := .s 10 }) ∧
  decodeTableWord 64 (0x01C0409D + 0x8F420008 * 2 ^ 32)
    = some (.cmp { len := .w2, dst := .p 1, a := .v 7, b := .s 8, md := 0x42 }) ∧
  decodeTableWord 64 (0x01C14181 + 0x0F000009 * 2 ^ 32) = some (.siphon { len := .w2, dst := .v 5, a := .v 7, b := .v 9 }) ∧
  decodeTableWord 32 0x8041018C = some (.ballot { dst := .s 4, a := .p 1 }) ∧
  decodeTableWord 64 (0xC00101C1 + 0x8F010080 * 2 ^ 32)
    = some (.ld { len := .w2, dst := .s 4, a := .s 0, b := .imm 0, md := 1 }) ∧
  decodeTableWord 64 (0xC20641C5 + 0x8F000080 * 2 ^ 32) = some (.st { len := .w2, dst := .s 25, a := .s 8, b := .imm 0 }) ∧
  decodeTableWord 32 0xC807C204 = some (.qpop { dst := .s 31, a := .s 32 }) ∧
  decodeTableWord 32 0x41C00208 = some (.qpush { a := .s 7 })

/-! ## Operations and events without an encoding: an event that is not due changes nothing -/

/-- R13 to R18, R467: a module reset starts in stage ROM and keeps flash and the fused counter; VERIFY checks the image and goes to
SUPERVISOR, with the code in Headwater memory, its lane at the entry and a staged image in flash, or to RECOVERY with a FAILCODE; SUPERVISOR
self-tests the clusters and fails on memory or on having none; BOOT_SCRUB leaves all of HBM4E and LPDDR6 zero; FABRIC ends in
READY; LOAD and window writes act in RECOVERY alone; no step lowers the version counter; THERMAL_TRIP loses every context; POWER_LOSS
starts again with an image that was being written invalid. The model's choices: the order in which failed checks are named (logs 83 and 117),
the stages in which a signed command is taken (log 118), a trip's launches and instances, which are gone (logs 71 and 119), and the four bytes
of flash that a power loss clears (log 71). -/
def Obligations.BootEvents : Prop :=
  (∀ s t : State, step s = .next t → s.boot.fused ≤ t.boot.fused) ∧
  (∀ s : State, ∃ t, exec .moduleReset s = .next t ∧ bootst t = 0x10000000 ∧ t.gtime = 0 ∧ t.boot.fused = s.boot.fused ∧
    (∀ a, a ≠ 0 → (t.grp a).role = .absent) ∧ (∀ p, (t.part p).st = .free) ∧
    ∀ i, i < 0x2000000 → t.rd (flashKey i) = s.rd (flashKey i)) ∧
  (∀ s : State, s.boot.stage = .rom → ∃ t, exec .verify s = .next t ∧ t.boot.stage = .verify ∧ t.mem = s.mem) ∧
  (∀ s : State, s.boot.stage = .verify →
    let k := if s.boot.staged then stageKey 0 else flashKey 0
    let h := headerOf (s.rdN k 256)
    (checkImage k s ≠ 0 → ∃ t, exec .verify s = .next t ∧ t.boot.stage = .recovery ∧ t.boot.failcode = checkImage k s ∧
      ((t.grp 0).lane 0).st = .rom ∧ t.mem = s.mem) ∧
    (checkImage k s = 0 → ∃ t, exec .verify s = .next t ∧ t.boot.stage = .supervisor ∧ t.boot.imgver = h.secver ∧
      ((t.grp 0).lane 0).st = .ready ∧ ((t.grp 0).lane 0).pc = h.entry ∧
      (∀ i, i < h.code → h.load + i < Config.hwBytes → t.rd (hwKey (h.load + i)) = s.rd (k + 256 + i)) ∧
      (s.boot.staged = true → ∀ i, i < 256 + h.code + 2420 → t.rd (flashKey i) = s.rd (stageKey i)))) ∧
  (∀ (s : State) (trained : Bool) (good : BitVec 80),
    (s.boot.stage ≠ .supervisor → exec (.supervisor trained good) s = .next s) ∧
    (s.boot.stage = .supervisor → trained = false ∨ good = 0 →
      ∃ t, exec (.supervisor trained good) s = .next t ∧ t.boot.stage = .recovery ∧
        t.boot.failcode = if trained then 6 else 4) ∧
    (s.boot.stage = .supervisor → trained = true → good ≠ 0 →
      ∃ t, exec (.supervisor trained good) s = .next t ∧ t.boot.stage = .scrub ∧
        t.boot.usable = ((List.range 80).filter (fun c => good.getLsbD c)).length ∧
        t.groups = s.groups ∧ t.mem = s.mem ∧
        ∀ c, c < 80 → (t.cluster c).unusable = !good.getLsbD c)) ∧
  (∀ s : State, (s.boot.stage ≠ .scrub → exec .bootScrub s = .next s) ∧
    (s.boot.stage = .scrub → ∃ t, exec .bootScrub s = .next t ∧ t.boot.stage = .fabric ∧
      ∀ b, t.rd b = if b < 40 * 2 ^ 58 then 0 else s.rd b)) ∧
  (∀ (s : State) (ports : BitVec 16), (s.boot.stage ≠ .fabric → exec (.fabric ports) s = .next s) ∧
    (s.boot.stage = .fabric → ∃ t, exec (.fabric ports) s = .next t ∧ t.boot.stage = .ready ∧ t.boot.ports = ports ∧
      t.slots = [] ∧ t.mem = s.mem)) ∧
  (∀ (s : State) (v : Word), (s.boot.stage = .recovery → v.getLsbD 0 = true →
      ∃ t, exec (.load v) s = .next t ∧ t.boot.stage = .verify ∧ t.boot.staged = true) ∧
    (s.boot.stage ≠ .recovery ∨ v.getLsbD 0 = false → exec (.load v) s = .next s)) ∧
  (∀ (s : State) (off : Nat) (v : Word), (s.boot.stage = .recovery → off + 4 ≤ 0x2000000 →
      ∃ t, exec (.stagingWindowWrite off v) s = .next t ∧ Stored (stageKey off) (leBytes 4 v.toNat) s t) ∧
    (s.boot.stage ≠ .recovery ∨ 0x2000000 < off + 4 → exec (.stagingWindowWrite off v) s = .next s)) ∧
  (∀ (s : State) (v : BitVec 16) (signed : Bool), (signed = true → supervising s = true → s.boot.fused < v →
      ∃ t, exec (.versionCounterRaise v signed) s = .next t ∧ t.boot.fused = v ∧ t.mem = s.mem) ∧
    (signed = false ∨ supervising s = false ∨ v ≤ s.boot.fused → exec (.versionCounterRaise v signed) s = .next s)) ∧
  (∀ (s : State) (die junction : Nat), (junction < 115 → exec (.thermalTrip die junction) s = .next s) ∧
    (115 ≤ junction → ∃ t, exec (.thermalTrip die junction) s = .next t ∧ t.boot.stage = .tripped ∧ t.teams = [] ∧
      t.grids = [] ∧ (∀ a, a ≠ 0 → (t.grp a).role = .absent) ∧
      ∀ c, (s.ctx c).hasDesc = true → (s.ctx c).st ≠ .free → Lost c t)) ∧
  (∀ (s : State) (flashing : Bool), ∃ t, exec (.powerLoss flashing) s = .next t ∧ bootst t = 0x10000000 ∧
    t.boot.fused = s.boot.fused ∧ (∀ b, b < 40 * 2 ^ 58 → t.rd b = 0) ∧
    ∀ i, i < 0x2000000 → t.rd (flashKey i) = if flashing = true ∧ i < 4 then 0 else s.rd (flashKey i))

/-- R10 to R13, R196, R271, R293, R299: at 105 °C a die's clock is lowered and does not rise before 100 °C; above 2,800 W it is lowered;
a frequency change sets it; no other die's clock changes. A die's matrix engines' slot advances when 512 clk of the die have passed; a read of GTIME's low word
captures the high word for the next; Weir's window takes a budget off each count; a meter window adds its energy to its grids and to
EMETER. -/
def Obligations.ClockEvents : Prop :=
  (∀ (s : State) (die mhz junction : Nat),
    (junction < 100 → ∃ t, exec (.thermalThrottle die mhz junction) s = .next t ∧ t.boot.hot.at die = 0 ∧
      ∀ d, dieMhz t d = dieMhz s d) ∧
    (die < 4 → 0 < mhz → mhz < dieMhz s die → 105 ≤ junction →
      ∃ t, exec (.thermalThrottle die mhz junction) s = .next t ∧ t.boot.hot.at die = 1 ∧ dieMhz t die = mhz ∧
        ∀ d, d ≠ die → dieMhz t d = dieMhz s d) ∧
    (100 ≤ junction → junction < 105 → s.boot.hot.at die ≠ 1 → exec (.thermalThrottle die mhz junction) s = .next s)) ∧
  (∀ (s : State) (die mhz watts : Nat),
    (watts ≤ 2800 → ∃ t, exec (.powerEnvelopeThrottle die mhz watts) s = .next t ∧ ∀ d, dieMhz t d = dieMhz s d) ∧
    (2800 < watts → die < 4 → 0 < mhz → mhz < dieMhz s die →
      ∃ t, exec (.powerEnvelopeThrottle die mhz watts) s = .next t ∧ dieMhz t die = mhz ∧
        ∀ d, d ≠ die → dieMhz t d = dieMhz s d)) ∧
  (∀ (s : State) (die mhz : Nat), die < 4 → 0 < mhz → mhz ≤ 3300 →
    (s.boot.hot.at die = 1 → dieMhz s die ≤ mhz → exec (.frequencyChange die mhz) s = .next s) ∧
    (s.boot.hot.at die ≠ 1 ∨ mhz < dieMhz s die → ∃ t, exec (.frequencyChange die mhz) s = .next t ∧ dieMhz t die = mhz ∧
      ∀ d, d ≠ die → dieMhz t d = dieMhz s d)) ∧
  (∀ s : State, ∃ t, exec .slotRotation s = .next t ∧ t.mem = s.mem ∧ t.clks = s.clks ∧ ∀ d, d < 4 →
    t.slotNo.at d = if (s.slotNo.at d + 1) * 512 ≤ s.clkOf d then s.slotNo.at d + 1 else s.slotNo.at d) ∧
  (∀ s : State, (∃ t, exec (.gtimeRead 0) s = .next t ∧ t.outcome.at 0 = bootst s) ∧
    ∃ t, exec (.gtimeRead 0x10) s = .next t ∧ t.outcome.at 0 = BitVec.ofNat 32 s.gtime ∧
      ∀ n, ∃ u, exec (.gtimeRead 0x14) { t with gtime := n } = .next u ∧ u.outcome.at 0 = BitVec.ofNat 32 (s.gtime / 2 ^ 32)) ∧
  (∀ s : State, (s.gtime < (s.weirWin + 1) * 10000 → exec .weirWindow s = .next s) ∧
    ((s.weirWin + 1) * 10000 ≤ s.gtime → s.hostWrites = [] → ∃ t, exec .weirWindow s = .next t ∧ t.weirWin = s.weirWin + 1 ∧
      ∀ k, (t.weir.at k).unbudget = (s.weir.at k).unbudget ∧ (t.weir.at k).count =
        if (s.weir.at k).unbudget = 0 then 0 else (s.weir.at k).count - (~~~ (s.weir.at k).unbudget).toNat)) ∧
  (∀ (s : State) (p : Nat) (units : List (Nat × List (Nat × Nat))),
    (s.gtime < ((s.part p).ewin + 1) * 10000 → exec (.energyMeterWindow p units) s = .next s) ∧
    (((s.part p).ewin + 1) * 10000 ≤ s.gtime → let shares := windowShares units
      let took := fun g => (((counted s p shares).filter (fun x => x.1 = g)).map (·.2)).sum
      let late := (((counted s p shares).filter (fun x => gridOpen s x.1 = false)).map (·.2)).sum
      ∃ t, exec (.energyMeterWindow p units) s = .next t ∧
      (t.part p).emeter = (s.part p).emeter + ((counted s p shares).map (·.2)).sum ∧
      (t.part p).eacct = (s.part p).eacct - (late : Int) ∧
      ∀ g, (t.grid g).measured = (s.grid g).measured + if gridOpen s g then took g else 0))

/-- R52, R180, R289, R291, R321 to R324: a kick, of a guest or of a program's store to a mapped kick page, latches its tail, and reaches the queue of a running context or sets its pending bit, but
is discarded where no context is bound or the partition resets; LAUNCH
reads a command, once its page is translated, and completes it BADDESC or TOOLARGE, or makes a grid that waits for placement, and no core then holds the
partition's code in its instruction cache (R361); FENCE completes when no earlier
launch of its queue is open, and waits otherwise; a grid skipped for 1,000,000 gt holds back others; clearing a generation empties the
metadata that carries it. -/
def Obligations.HostCommands : Prop :=
  (∀ (vd q : Nat) (tail : Word) (s : State),
    (64 ≤ q ∨ s.boot.stage ≠ .ready → exec (.kick vd q tail) s = .next s) ∧
    (q < 64 → s.boot.stage = .ready → ∃ t, exec (.kick vd q tail) s = .next t ∧
      (t.vdev vd).kicks.at q = tail ∧ t.mem = s.mem ∧ (t.vdev vd).bound = (s.vdev vd).bound ∧
      ((s.vdev vd).bound = none → t.vq vd q = s.vq vd q ∧ (t.vdev vd).pending = (s.vdev vd).pending) ∧
      ∀ c, (s.vdev vd).bound = some c →
        ((s.part (s.ctx c).part).st = .resetting → t.vq vd q = s.vq vd q ∧ (t.vdev vd).pending = (s.vdev vd).pending) ∧
        ((s.part (s.ctx c).part).st ≠ .resetting →
          ((s.ctx c).st = .running → (t.vq vd q).tail = tail.toNat ∧ (t.vdev vd).pending = (s.vdev vd).pending) ∧
          ((s.ctx c).st ≠ .running → t.vq vd q = s.vq vd q ∧
            (t.vdev vd).pending = (s.vdev vd).pending ||| (1#64 <<< q))))) ∧
  (∀ (k n vd q : Nat) (s : State) (r : Req) (x : Acc), takeReq s k n = some r → r.kind = .store → r.accs = [x] → r.line = lineOf x.pa → q < 64 →
    vd < 2 ^ 40 → x.pa = 44 * 2 ^ 58 + 4096 * vd + 64 * q → x.n = 4 → ∃ t, exec (.homeSliceArrival k n) s = .next t ∧
      (t.vdev vd).kicks.at q = x.data.extractLsb' 0 32 ∧ t.mem = s.mem ∧
      ∀ c, (s.vdev vd).bound = some c → (s.part (s.ctx c).part).st ≠ .resetting →
        ((s.ctx c).st = .running → (t.vq vd q).tail = (x.data.extractLsb' 0 32).toNat) ∧
        ((s.ctx c).st ≠ .running → (t.vdev vd).pending = (s.vdev vd).pending ||| (1#64 <<< q))) ∧
  (∀ (vd q : Nat) (s : State), nextCommand s vd q = none →
    exec (.launch vd q) s = .next (askCommand vd q s) ∧ exec (.fenceCommand vd q) s = .next (askCommand vd q s)) ∧
  (∀ (vd q : Nat) (s : State) (c : Nat) (w : List Byte), nextCommand s vd q = some (c, w) →
    let op := fieldOf w 0 1
    let p := (s.ctx c).part
    (op = 2 → exec (.launch vd q) s = .next s) ∧ (op ≠ 2 → exec (.fenceCommand vd q) s = .next s) ∧
    (op ≠ 2 → op ≠ 1 ∨ commandBad w = true → hostOpen s → ∃ t, exec (.launch vd q) s = .next t ∧
      (t.vq vd q).read = ((s.vq vd q).read + 1) % 2 ^ 32 ∧ t.grids = s.grids ∧ Completion vd q (tagOf w) 2 s t) ∧
    (op = 1 → commandBad w = false → ∀ d u, readKdesc c (BitVec.ofNat 64 (fieldOf w 8 8)) false s = some (some d, u) →
      let k := kernelOf d
      let x := dimsOf w
      let room := couldHold s p k (if k.coresident then x.1 * x.2.1 * x.2.2 else 1)
      (descBad d = true ∨ room = false → hostOpen s → ∃ t, exec (.launch vd q) s = .next t ∧ t.grids = s.grids ∧
        Completion vd q (tagOf w) (if descBad d then 2 else 1) s t) ∧
      (descBad d = false → room = true → ∃ t, exec (.launch vd q) s = .next t ∧
        (t.vq vd q).read = ((s.vq vd q).read + 1) % 2 ^ 32 ∧ (∀ g, g ≠ s.fresh → t.grid g = s.grid g) ∧
        (let y := t.grid s.fresh
         y.st = .held ∧ y.ctx = c ∧ y.part = p ∧ y.vd = vd ∧ y.queue = q ∧ y.tag = tagOf w ∧ y.kernel = k ∧
         (y.dimX, y.dimY, y.dimZ) = x ∧ y.prio = fieldOf w 1 1 ∧ y.param.toNat = fieldOf w 0x10 8 ∧ y.estimate = fieldOf w 0x20 8 ∧
         y.gen = (s.ctx c).gen ∧ y.next = 0 ∧ y.booked = false) ∧
        ∀ j, ∀ e ∈ (t.core j).icache, partOfKey (128 * e.1) ≠ p)) ∧
    (op = 2 → hostOpen s → (s.vq vd q).fences = [] →
      ((∀ e ∈ s.grids, e.2.vd = vd → e.2.queue = q → gridOpen s e.1 = false) →
        ∃ t, exec (.fenceCommand vd q) s = .next t ∧ (t.vq vd q).fences = [] ∧ Completion vd q (tagOf w) 0 s t) ∧
      ((∃ e ∈ s.grids, e.2.vd = vd ∧ e.2.queue = q ∧ gridOpen s e.1 = true) →
        ∃ t gs, exec (.fenceCommand vd q) s = .next t ∧ (t.vq vd q).fences = [(tagOf w, gs)] ∧
          (t.vq vd q).written = (s.vq vd q).written ∧
          ∀ e ∈ s.grids, e.2.vd = vd → e.2.queue = q → gridOpen s e.1 = true → e.1 ∈ gs))) ∧
  (∀ (g : Nat) (s : State),
    ((∀ a, (s.grid g).skippedAt = some a → s.gtime < a + 1000000) → exec (.skipLimit g) s = .next s) ∧
    (∀ a, (s.grid g).skippedAt = some a → a + 1000000 ≤ s.gtime → ∃ t, exec (.skipLimit g) s = .next t ∧
      t.grid g = { s.grid g with blocksOthers := true } ∧ ∀ h, h ≠ g → t.grid h = s.grid h)) ∧
  (∀ (c gen : Nat) (s : State), gen < 16 →
    ((s.ctx c).clearing.contains (BitVec.ofNat 4 gen) = false → exec (.generationClear c gen) s = .next s) ∧
    ((s.ctx c).clearing.contains (BitVec.ofNat 4 gen) = true → ∃ t, exec (.generationClear c gen) s = .next t ∧
      (t.ctx c).clearing.contains (BitVec.ofNat 4 gen) = false ∧
      ((s.ctx c).racectl.getLsbD 2 = false → ∀ l, partOfKey (128 * l) = (s.ctx c).part →
        (t.l2line l).race0 = (if mdGen (s.l2line l).race0 = BitVec.ofNat 4 gen then 0 else (s.l2line l).race0) ∧
        (t.l2line l).race1 = (if mdGen (s.l2line l).race1 = BitVec.ofNat 4 gen then 0 else (s.l2line l).race1))))

/-- R48 to R51, R53, R70 to R72, R300, R322: the core a team takes fits it and, of the partition's cores that do, has the fewest resident
teams and then the lowest number; the next team of a booked grid starts there with its groups at their roles' entries and S0 and
S1 the parameter; a co-resident grid is placed whole or not at all; an ended group with nothing under way gives back its slot; a
team whose groups have ended and whose operations are complete leaves; the last team's end completes the launch DONE. -/
def Obligations.Placement : Prop :=
  (∀ (s : State) (c p core share : Nat) (k : Kernel), chooseCore s c p k = some (core, share) →
    core ∈ partCores s p ∧ fits s c core k = some share ∧
    ∀ m ∈ partCores s p, fits s c m k ≠ none → (coreTeams s core).length < (coreTeams s m).length ∨
      ((coreTeams s core).length = (coreTeams s m).length ∧ core ≤ m)) ∧
  (∀ (s : State) (p g : Nat), (s.part p).st = .active → waitingGrids s p = [g] → (s.grid g).booked = true →
    let x := s.grid g
    let k := x.kernel
    (∀ core share, k.coresident = false → chooseCore s x.ctx x.part k = some (core, share) →
      ∃ t, exec (.teamPlacement p) s = .next t ∧ (t.grid g).next = x.next + 1 ∧ (t.core core).share = share ∧
        (let y := t.team s.fresh
         y.live = true ∧ y.grid = g ∧ y.core = core ∧ y.index = x.next ∧ y.bars = k.bars ∧ y.scratchSize = k.scratchBytes ∧
         y.groups = (List.range k.groups).map (fun i => s.fresh + 1 + i) ∧
         y.steer = if k.steer then some (s.fresh + 1 + k.groups) else none) ∧
        (∀ i, i < k.groups →
          let y := t.grp (s.fresh + 1 + i)
          let first := decide (i < k.pcount)
          y.role = (if first then .produce else .consume) ∧ y.gid = i ∧ y.team = s.fresh ∧
          y.budget = (if first then k.pregs else k.cregs) ∧ y.privBase = privBaseOf x x.next i ∧
          y.sreg 0 = x.param.extractLsb' 0 32 ∧ y.sreg 1 = x.param.extractLsb' 32 32 ∧ (∀ n, 1 < n → y.sreg n = 0) ∧
          ∀ l, l < 64 → (y.lane l).st = .ready ∧ (y.lane l).pc = (if first then k.pEntry else k.cEntry)) ∧
        (k.steer = true → (t.grp (s.fresh + 1 + k.groups)).role = .steer ∧
          ((t.grp (s.fresh + 1 + k.groups)).lane 0).pc = k.sEntry)) ∧
    (k.coresident = true →
      (∀ u, placeTeams g (gridTotal x) s = some u → ∃ t, exec (.coresidentPlacement p) s = .next t ∧
        (t.grid g).next = x.next + gridTotal x ∧ t.teams = u.teams) ∧
      (placeTeams g (gridTotal x) s = none → ∃ t, exec (.coresidentPlacement p) s = .next t ∧ t.teams = s.teams ∧
        t.groups = s.groups))) ∧
  (∀ (s : State) (a : Nat),
    (a = 0 ∨ (s.grp a).role = .absent ∨ (s.grp a).ended = false → exec (.groupEnd a) s = .next s) ∧
    (a ≠ 0 → (s.grp a).role ≠ .absent → (s.grp a).ended = true →
      (∀ e ∈ (s.core (s.coreNo a)).eddy, e.agent = a → e.stopped = false) →
      (∀ e ∈ (s.team (s.grp a).team).mqueue, e.agent = a → e.stopped = false) →
      let opens := s.insts.any (fun p => p.2.waiting && decide (p.2.agent = a))
      ((s.grp a).flags ≠ 0 ∨ hasRequests s a = true ∨ opens = true → exec (.groupEnd a) s = .next s) ∧
      ((s.grp a).flags = 0 → hasRequests s a = false → opens = false → ∃ t, exec (.groupEnd a) s = .next t ∧ (t.grp a).role = .absent ∧
        (t.grp a).budget = 0 ∧ ∀ b, b ≠ a → t.grp b = s.grp b))) ∧
  (∀ (s : State) (tm : Nat), let x := s.team tm
    (x.live = false ∨ (∃ a ∈ x.agents, (s.grp a).role ≠ .absent) → exec (.teamEnd tm) s = .next s) ∧
    (x.live = true → (∀ a ∈ x.agents, (s.grp a).role = .absent ∧ (s.grp a).team = tm) → x.mqueue = [] →
      (∀ e ∈ (s.core x.core).eddy, e.team ≠ tm ∧ e.agent ∉ x.agents) →
      let opens := s.insts.any (fun p => p.2.waiting && decide (p.2.team = tm))
      (opens = true → exec (.teamEnd tm) s = .next s) ∧
      (opens = false → (∀ w ∈ (s.cluster (x.core / 2)).waits, (s.grp w.agent).role ≠ .headwater) →
        ∃ t, exec (.teamEnd tm) s = .next t ∧ (t.team tm).live = false ∧
          (t.grid x.grid).endedTeams = (s.grid x.grid).endedTeams + 1))) ∧
  (∀ (s : State) (g : Nat), let x := s.grid g
    (gridOpen s g = false → exec (.gridEnd g) s = .next s) ∧
    (gridOpen s g = true → x.faulted = false → x.next ≠ gridTotal x ∨ x.endedTeams ≠ x.next → exec (.gridEnd g) s = .next s) ∧
    (gridOpen s g = true → x.faulted = false → x.next = gridTotal x → x.endedTeams = x.next → hostOpen s →
      (s.vq x.vd x.queue).size ≠ 0 → (s.vq x.vd x.queue).fences = [] →
      ∃ t, exec (.gridEnd g) s = .next t ∧ (t.grid g).st = .absent ∧ Completion x.vd x.queue x.tag 0 s t ∧
        ((∀ e ∈ s.grids, e.1 = g) → (t.part x.part).eacct = (s.part x.part).eacct + x.booking - x.measured)) ∧
    (gridOpen s g = true → x.faulted = true → (∀ e ∈ gridTeams s g, ∀ a ∈ e.2.agents, hasRequests s a = false) →
      (∀ k ∈ s.cores, ∀ e ∈ k.2.eddy, (s.team e.team).grid ≠ g) →
      ∃ t, exec (.gridEnd g) s = .next t ∧ (t.grid g).st = .absent))

/-- R55 to R58, R91, R88 to R90, R262, R329: a formation point makes one run of ready lanes current, every ready lane at its PC and no
other, at the lowest PC where no lane has waited 256 clk and none has yielded; a write of FPMODE, FPFLAGS, TIMERCTL or CNTSEL takes effect
in its agent or context. The model's choices: DROWSY changes nothing (log 68), and a register written from outside takes effect as the
agent's MTS does (log 75). -/
def Obligations.GroupEvents : Prop :=
  (∀ (s : State) (a : Nat), let g := (toClk a s).grp a
    (canIssue s a = false ∨ formsNow g = false → exec (.formationPoint a) s = .next s) ∧
    (canIssue s a = true → formsNow g = true → ∃ t, exec (.formationPoint a) s = .next t ∧
      (let b := (t.grp a).bundle
       b.lanes ≠ 0 ∧ b.lanes &&& ~~~ g.ready = 0 ∧ b.since = g.bundle.since % 4 ∧ b.clause = 0 ∧ b.due = false ∧
       (∀ l ∈ lanesOf b.lanes, ∀ m ∈ lanesOf g.ready, b.lanes.getLsbD m = decide ((g.lane m).pc = (g.lane l).pc)) ∧
       (g.bundle.last = 0 → (∀ m ∈ lanesOf g.ready, (g.lane m).age < 256) →
         ∀ l ∈ lanesOf b.lanes, ∀ m ∈ lanesOf g.ready, (g.lane l).pc ≤ (g.lane m).pc)) ∧
      SameRegs g (t.grp a) ∧ SameRest g (t.grp a) ∧ OnlyGroup a s t ∧
      ∀ l, ((t.grp a).lane l).st = (g.lane l).st ∧ ((t.grp a).lane l).pc = (g.lane l).pc)) ∧
  (∀ (s : State) (a : Nat), exec (.drowsy a) s = .next s) ∧
  (∀ (s : State) (a idx : Nat) (v : Word),
    ((s.grp a).role = .absent ∨ (0x800 ≤ idx ∧ a ≠ 0) → exec (.registerWrite a idx v) s = .next s) ∧
    ((s.grp a).role ≠ .absent →
      (idx = 0x020 → ∃ t, exec (.registerWrite a idx v) s = .next t ∧ t.grp a = { s.grp a with fpmode := v &&& 0xFF } ∧
        OnlyGroup a s t) ∧
      (idx = 0x021 → ∃ t, exec (.registerWrite a idx v) s = .next t ∧ t.grp a = { s.grp a with fpflags := v &&& 0x3F } ∧
        OnlyGroup a s t))) ∧
  (∀ (s : State) (a : Nat) (v : Word), ∃ t, exec (.timerctl a v) s = .next t ∧ OnlyGroup a s t ∧
    (t.grp a).timer.wd = v.extractLsb' 16 5 ∧ (t.grp a).timer.dl = (s.grp a).timer.dl ∧
    (v.extractLsb' 0 2 = 0#2 → (t.grp a).timer.mode = 0) ∧
    (v.extractLsb' 0 2 = 1#2 ∨ v.extractLsb' 0 2 = 2#2 → s.clockOf a < (s.grp a).timer.dl →
      (t.grp a).timer.mode = v.extractLsb' 0 2 ∧ (t.grp a).timer.flag = 0xF ∧
      (t.grp a).timer.fired = ((s.grp a).timer.fired && !v.getLsbD 2))) ∧
  (∀ (s : State) (a n : Nat) (v : Word),
    (a = 0 ∨ (s.grp a).role = .absent ∨ 8 ≤ n → exec (.cntsel a n v) s = .next s) ∧
    (a ≠ 0 → (s.grp a).role ≠ .absent → n < 8 → ∃ t, exec (.cntsel a n v) s = .next t ∧
      (t.ctx (s.ctxNo a)).cntsel.at n = v &&& 0xFFFF ∧ (t.ctx (s.ctxNo a)).counters.at n = 0 ∧
      (t.ctx (s.ctxNo a)).cntFrom.at n = s.gtime + 1 ∧
      (∀ m, m ≠ n → (t.ctx (s.ctxNo a)).counters.at m = (s.ctx (s.ctxNo a)).counters.at m) ∧ t.groups = s.groups ∧
      t.mem = s.mem))

/-- R262 to R264, R269, R270, R319, R463, R464: an armed timer whose deadline has passed fires, clears its flag, is disarmed, and takes
TIMER or ends sleeps; lanes whose SLEEP, WAITF or QPOP has run out go on, a QPOP with 0xFFFF_FFFF; a WAITP past its promise takes
PROMISE, not before its own loads of its trap area have come back (the model's choice, log 29); a group that has waited its watchdog's
limit has WATCHDOG due. -/
def Obligations.TimeOuts : Prop :=
  (∀ (s : State) (a : Nat), let x := (s.grp a).timer
    (x.mode = 0 ∨ s.clockOf a < x.dl ∨ clockRuns s a = false → exec (.timerExpiry a) s = .next s) ∧
    (x.mode ≠ 0 → x.dl ≤ s.clockOf a → clockRuns s a = true → ∃ t, exec (.timerExpiry a) s = .next t ∧ OnlyGroup a s t ∧
      (t.grp a).timer = { x with fired := true, mode := 0, flag := 0xF } ∧ (t.grp a).pending x.flag = false ∧
      (x.mode = 2 → ∃ d ∈ (t.grp a).faults, d.code = cTIMER) ∧
      (x.mode ≠ 2 → (t.grp a).faults = (s.grp a).faults ∧ ∀ l k, l < 64 → ((s.grp a).lane l).st = .sleep k →
        ((t.grp a).lane l).st = .ready ∧ ((t.grp a).lane l).pc = ((s.grp a).lane l).nx))) ∧
  (∀ (s : State) (a : Nat), ∃ t, exec (.sleepEnd a) s = .next t ∧ Wakes a (fun y => y = .sleep 0) s t ∧ OnlyGroup a s t) ∧
  (∀ (s : State) (a : Nat), ∃ t, exec (.waitfTimeout a) s = .next t ∧
    Wakes a (fun y => match y with | .waitf _ (some 0) => true | _ => false) s t ∧ OnlyGroup a s t) ∧
  (∀ (s : State) (a : Nat),
    ((∀ p ∈ s.insts, ∀ w ∈ p.2.qwait, w.1 ≠ a) → exec (.qpopTimeout a) s = .next s) ∧
    (let here := fun (w : Nat × Mask × Nat × Nat) => w.2.1 &&& (s.grp a).lanesWith (fun y => y = .qpop w.2.2.1 (some 0))
     let out := fun (w : Nat × Mask × Nat × Nat) => decide (w.1 = a) && decide (here w ≠ 0)
     (s.insts.map (·.1)).Nodup → (∀ p ∈ s.insts, p.2.qwait.Nodup) →
     (∀ p ∈ s.insts, ∀ q ∈ s.insts, ∀ w ∈ p.2.qwait, ∀ v ∈ q.2.qwait, w.1 = a → v.1 = a → w.2.2.1 = v.2.2.1 → p.1 = q.1 ∧ w = v) →
     ∃ t, exec (.qpopTimeout a) s = .next t ∧ t.mem = s.mem ∧ ∀ p ∈ s.insts,
       (t.inst p.1).qwait = p.2.qwait.filter (fun w => !out w) ∧
       ∀ w ∈ p.2.qwait, out w = true → (t.grp a).sreg w.2.2.1 = 0xFFFFFFFF ∧
         ∀ l ∈ lanesOf (here w), ((t.grp a).lane l).st = .ready ∧ ((t.grp a).lane l).pc = ((s.grp a).lane l).nx)) ∧
  (∀ (s : State) (a : Nat), let m := lowestRun (s.grp a) (promiseDue s a)
    (m = 0 ∨ clockRuns s a = false ∨ areaBusy s a = true → exec (.promiseExpiry a) s = .next s) ∧
    (∀ l, (lanesOf m).head? = some l → clockRuns s a = true → canTrapAt s a ((s.grp a).lane l).pc = true →
      ∃ t, exec (.promiseExpiry a) s = .next t ∧ Entered a m cPROMISE false ((s.grp a).lane l).nx s t)) ∧
  (∀ (s : State) (a : Nat), let g := s.grp a
    (a = 0 ∨ g.timer.wd = 0 ∨ g.watch < 2 ^ (g.timer.wd.toNat + 10) ∨ allWatched g = false →
      exec (.watchdog a) s = .next s) ∧
    (a ≠ 0 → g.timer.wd ≠ 0 → 2 ^ (g.timer.wd.toNat + 10) ≤ g.watch → allWatched g = true →
      ∃ t, exec (.watchdog a) s = .next t ∧ OnlyGroup a s t ∧ (t.grp a).watch = 0 ∧ ∃ d ∈ (t.grp a).faults, d.code = cWATCHDOG))

/-- R55, R145, R238, R242, R270: of the due faults that find lanes the one taken is the first in the order of R242; it is taken by the
bundle that would issue next, or, where no run is ready, by the lowest run of the lanes whose wait it may interrupt, which go to
TRAPBASE, and is due no more; an access or fetch that faults at the partition's stage leaves its lanes waiting, and
they go on when the supervisor has mapped the page, or take ACCESS at their lowest PC when it has not. The model's choices: a delivery
waits for the agent's own loads of its trap area (log 29), and that the group remembers the PC whose mapping was denied (log 25). -/
def Obligations.FaultEvents : Prop :=
  (∀ (l : List Deferred) (d : Deferred), firstDue l = some d → d ∈ l ∧ ∀ e ∈ l, deferredKey d ≤ deferredKey e) ∧
  (∀ (s : State) (a : Nat), let g := s.grp a
    (g.role = .absent ∨ g.stopped = true ∨ ctxLets s a = false ∨ g.faults = [] ∨ g.trap.inTrap = true ∨ areaBusy s a = true →
      exec (.deferredFaultDelivery a) s = .next s) ∧
    (g.role ≠ .absent → g.stopped = false → ctxLets s a = true →
      let on := fun (d : Deferred) => if readyLanes s a g ≠ 0 then nextBundle s a
        else lowestRun g (g.lanesWith (if d.code = cWATCHDOG then watchWait else softWait))
      ∀ d, firstDue (g.faults.filter (fun e => decide (on e ≠ 0))) = some d →
      let m := on d
      ∀ l, (lanesOf m).head? = some l → canTrapAt s a (g.lane l).pc = true →
        ∃ t, exec (.deferredFaultDelivery a) s = .next t ∧ Entered a m d.code true (g.lane l).pc s t ∧ d ∉ (t.grp a).faults)) ∧
  (∀ (s : State) (a : Nat),
    (a = 0 ∨ canIssue s a = false → exec (.partitionStageFault a) s = .next s) ∧
    (a ≠ 0 → canIssue s a = true →
      (∀ u, nextOf a s = .wait u → ∃ t, exec (.partitionStageFault a) s = .next t ∧ t.mem = u.mem ∧
        ∀ l ∈ lanesOf u.cur.act, ((t.grp u.cur.agent).lane l).st = .pfault ∧
          ((t.grp u.cur.agent).lane l).pc = ((u.grp u.cur.agent).lane l).pc) ∧
      (∀ i u, nextOf a s = .instr i u →
        let v := accessOf i u
        let waits := (v.grp a).lanesWith (fun x => x = .pfault) &&& (s.grp a).ready
        exec (.partitionStageFault a) s = .next (if waits = 0 then s else v)))) ∧
  (∀ (s : State) (a : Nat), a ≠ 0 → (s.grp a).role ≠ .absent →
    let m := (s.grp a).lanesWith (fun x => x = .pfault)
    (∃ t, exec (.supervisorFaultResolution a true) s = .next t ∧ OnlyGroup a s t ∧
      ∀ l, l < 64 → ((t.grp a).lane l).pc = ((s.grp a).lane l).pc ∧ ((t.grp a).lane l).st =
        (if ((s.grp a).lane l).st = .pfault then .ready else ((s.grp a).lane l).st)) ∧
    (∀ l, (lanesOf (lowestRun (s.grp a) m)).head? = some l →
      ∃ t, exec (.supervisorFaultResolution a false) s = .next t ∧ OnlyGroup a s t ∧
        (t.grp a).deny = some ((s.grp a).lane l).pc ∧ ((t.grp a).lane l).st = .ready))

/-- R64 to R67, R83, R195: a request for nothing or for what the team holds is INVALID; one that fits is granted, its tile registers
holding zero; one that does not is refused, or waits if it blocks, and, the youngest of those that wait, takes REFUSED when every team of
the cluster that holds anything waits and no request fits; a release gives its entries back once no queued operation uses them; entries given back are granted to a request that
waits and fits; a request that has waited 65,536 clk is marked. The model's choices: the three events act for the bundle that the agent
would issue next as its MTS, of two words (R427), does (log 51), one that blocks holds the whole bundle (log 121), and those of one team
stand in the order in which they came (log 120). -/
def Obligations.TileAllocation : Prop :=
  (∀ (s : State) (a : Nat) (v : Word), a ≠ 0 → (s.grp a).role ≠ .absent → (s.grp a).bundle.lanes ≠ 0 →
    (s.grp a).bundle.lanes &&& ~~~ (s.grp a).ready = 0 →
    let tm := (s.grp a).team
    let cl := (s.team tm).core / 2
    let m := (s.grp a).bundle.lanes
    (s.cluster cl).waits = [] → ∀ l, (lanesOf m).head? = some l →
    let pc := ((s.grp a).lane l).pc
    let goes := fun (t : State) => ∀ k ∈ lanesOf m, ((t.grp a).lane k).st = .ready ∧ ((t.grp a).lane k).pc = pc + 8
    let stays := fun (t : State) (st : LaneSt) => ∀ k ∈ lanesOf m, ((t.grp a).lane k).st = st ∧ ((t.grp a).lane k).pc = pc ∧
      ((t.grp a).lane k).nx = pc + 8
    let granted := fun (t : State) => (t.team tm).tmask = (s.team tm).tmask ||| taT v ∧
      (t.team tm).amask = (s.team tm).amask ||| taA v ∧ (t.team tm).tstatus = 1 ∧
      ∀ n b, n < 16 → b < 8192 → (taT v).getLsbD n = true → (t.team tm).tile n b = 0
    let held := fun (t : State) (st : BitVec 2) => (t.team tm).tmask = (s.team tm).tmask ∧
      (t.team tm).amask = (s.team tm).amask ∧ (t.team tm).tstatus = st
    (∀ i, (i = .tallocRequest a v ∧ taFree v = false ∧ taBlock v = false) ∨
        (i = .tallocBlockingRequest a v ∧ taFree v = false ∧ taBlock v = true) →
      (requestBad (s.team tm) v = true → ∃ t, exec i s = .next t ∧ held t 3 ∧ goes t) ∧
      (requestBad (s.team tm) v = false → requestFits s cl v = true → ∃ t, exec i s = .next t ∧ granted t ∧ goes t)) ∧
    (taFree v = false → requestBad (s.team tm) v = false → requestFits s cl v = false →
      (taBlock v = false → ∃ t, exec (.tallocRequest a v) s = .next t ∧ held t 2 ∧ goes t) ∧
      (taBlock v = true → (∃ e ∈ clusterTeams s cl, (e.2.tmask ≠ 0 ∨ e.2.amask ≠ 0) ∧ a ∉ e.2.agents) →
        ∃ t w, exec (.tallocBlockingRequest a v) s = .next t ∧ stays t (.talloc v) ∧ (t.cluster cl).waits = [w] ∧
          w.agent = a ∧ w.request = v ∧ w.since = s.clkOf (cl / 20))) ∧
    (taFree v = true → (s.grp a).lanesWith (fun y => y = .tallocRel v) = 0 →
      let own := taA v &&& ~~~ (s.team tm).amask = 0 ∧ taT v &&& ~~~ (s.team tm).tmask = 0
      (¬ own → ∃ t, exec (.tallocRelease a v) s = .next t ∧ held t 3 ∧ goes t) ∧
      (own → releaseWaits s tm v = true → ∃ t, exec (.tallocRelease a v) s = .next t ∧ stays t (.tallocRel v) ∧
        (t.team tm).tmask = (s.team tm).tmask) ∧
      (own → releaseWaits s tm v = false → ∃ t, exec (.tallocRelease a v) s = .next t ∧ goes t ∧
        (t.team tm).tmask = (s.team tm).tmask &&& ~~~ taT v ∧ (t.team tm).amask = (s.team tm).amask &&& ~~~ taA v ∧
        (t.team tm).tstatus = 1))) ∧
  (∀ (s : State) (a : Nat) (v : Word), a ≠ 0 → (s.grp a).role ≠ .absent → (s.grp a).bundle.lanes ≠ 0 →
    (s.grp a).bundle.lanes &&& ~~~ (s.grp a).ready = 0 → taFree v = false → taBlock v = true →
    let tm := (s.grp a).team
    let cl := (s.team tm).core / 2
    let m := (s.grp a).bundle.lanes
    let ws := (s.cluster cl).waits
    let holds := fun (x : Team) => x.tmask ≠ 0 ∨ x.amask ≠ 0
    requestBad (s.team tm) v = false → requestFits s cl v = false → (∀ w ∈ ws, requestFits s cl w.request = false) →
    (s.grp a).live &&& ~~~ m = 0 → (s.grp a).live &&& (s.grp a).trap.held = 0 →
    (∀ e ∈ clusterTeams s cl, holds e.2 → (∀ b ∈ e.2.agents, b ≠ a → tallocStuck (s.grp b)) ∧
      (a ∈ e.2.agents ∨ ∃ w ∈ ws, w.agent ∈ e.2.agents)) →
    (∃ e ∈ clusterTeams s cl, holds e.2 ∧ a ∈ e.2.agents) →
    (∀ w ∈ ws, w.id < s.fresh ∧ ((s.gridOf w.agent).submitted < (s.gridOf a).submitted ∨
      ((s.gridOf w.agent).submitted = (s.gridOf a).submitted ∧ (s.teamOf w.agent).index ≤ (s.teamOf a).index))) →
    ∀ l, (lanesOf m).head? = some l → canTrapAt s a ((s.grp a).lane l).pc = true →
    ∃ t, exec (.tallocBlockingRequest a v) s = .next t ∧ Entered a m cREFUSED false ((s.grp a).lane l).pc s t ∧
      (t.team tm).tmask = (s.team tm).tmask ∧ (t.team tm).amask = (s.team tm).amask ∧ (t.team tm).tstatus = 2 ∧
      (t.cluster cl).waits = ws) ∧
  (∀ (s : State) (a : Nat) (v : Word), taFree v = true → (s.grp a).lanesWith (fun y => y = .tallocRel v) ≠ 0 →
    let tm := (s.grp a).team
    taA v &&& ~~~ (s.team tm).amask = 0 → taT v &&& ~~~ (s.team tm).tmask = 0 →
    (releaseWaits s tm v = true → exec (.tallocRelease a v) s = .next s) ∧
    (releaseWaits s tm v = false → (s.cluster ((s.team tm).core / 2)).waits = [] →
      ∃ t, exec (.tallocRelease a v) s = .next t ∧ (t.team tm).tmask = (s.team tm).tmask &&& ~~~ taT v ∧
        Wakes a (fun y => y = .tallocRel v) s t)) ∧
  (∀ (s : State) (cl : Nat),
    ((s.cluster cl).waits = [] → exec (.tallocGrant cl) s = .next s) ∧
    (∀ w, (s.cluster cl).waits = [w] → requestBad (s.team (s.grp w.agent).team) w.request = false →
      requestFits s cl w.request = true → ∃ t, exec (.tallocGrant cl) s = .next t ∧ (t.cluster cl).waits = [] ∧
        (t.team (s.grp w.agent).team).tmask = (s.team (s.grp w.agent).team).tmask ||| taT w.request ∧
        ∀ l ∈ lanesOf w.lanes, ((s.grp w.agent).lane l).st = .talloc w.request →
          ((t.grp w.agent).lane l).st = .ready ∧ ((t.grp w.agent).lane l).pc = ((s.grp w.agent).lane l).nx)) ∧
  (∀ (s : State) (cl : Nat), ∃ t, exec (.tallocAgeLimit cl) s = .next t ∧ t.teams = s.teams ∧ t.groups = s.groups ∧
    (t.cluster cl).waits = (s.cluster cl).waits.map (fun w =>
      if w.since + 65536 ≤ s.clkOf (cl / 20) then { w with aged := true } else w))

/-- R120, R121, R139 to R142, R162, R192 to R198, R207 to R210, R245, R318, R454 to R457: a copy moves every element, as it stood before,
from its source to its destination, over the destination or folded into it by its operator, each side scratchpad or memory, and leaves its
queue with its flag clear; one that faults stops at its element with a deferred fault;
a QFENCE entry leaves when nothing it waits for is left; the tile of a step whose writes are performed is pushed; the queue's next
MMA is staged, or, once it is the oldest, stops on what its reads met; the array takes a staged operation by the slot's context and by turns, accumulates
by R207 and clears the flag, or ends in RECORD or, at a second mismatch, MATRIXCHK; the other entries write their tile or
accumulator. -/
def Obligations.EngineEvents : Prop :=
  (∀ (s : State) (k i : Nat), (s.core k).eddy[i]? = none →
    exec (.copyCompletion k i) s = .next s ∧ exec (.copyDeferredFault k i) s = .next s) ∧
  (∀ (s : State) (k i : Nat) (c : Copy), (s.core k).eddy[i]? = some c →
    (c.stopped = true ∨ agentRuns s c.agent = false ∨ atTurn (s.core k).eddy i = false →
      exec (.copyCompletion k i) s = .next s) ∧
    (c.stopped = false → agentRuns s c.agent = true → atTurn (s.core k).eddy i = true →
      (c.fence = true → fenceOver s c.waits = false → exec (.copyCompletion k i) s = .next s) ∧
      (c.fence = true → fenceOver s c.waits = true → ∃ t, exec (.copyCompletion k i) s = .next t ∧ CopyGone k c t ∧
        t.mem = s.mem) ∧
      (c.fence = false → c.inst = 0 → c.moved = false → c.isStep = false → c.olds = [] →
        let x := c.shp
        let tm := s.team c.team
        let moved := fun (u : State) => ∃ t, exec (.copyCompletion k i) s = .next t ∧ CopyGone k c t ∧
          t.mem = u.mem ∧ t.l2 = u.l2 ∧ t.teams = u.teams
        let apart := ∀ j m, j < x.count → m < x.count → srcAt x j + x.esz ≤ dstAt x m ∨ dstAt x m + x.esz ≤ srcAt x j
        x.remote = false →
        (c.unit = 0 → x.op < 0xA → x.sscr ≠ x.dscr ∨ apart → ∀ u, movedElems c x.count 0 s = some u → moved u) ∧
        (c.unit = 0 → x.op = 0xB → ∀ bs old u w, sideRead c false x.sscr x.src (4 * x.count) s = .ok bs u →
          sideUpdate c false x.dscr x.dst (4 * x.count)
            (fun d => (smx3 (fpWords x.count d) (fpWords x.count bs)).flatMap (leBytes 4)) u = .ok old w → moved w) ∧
        (c.unit = 0 → x.op = 0xA → x.count = 1 → ∀ h bs old u v w, sideRead c false x.dscr x.dst 64 s = .ok h u →
          let kind := fieldOf h 0 1
          1 ≤ kind → kind ≤ 3 → headerOk kind h = true → sideRead c false x.sscr x.src (summSize kind) u = .ok bs v →
          headerOk kind bs = true →
          sideUpdate c false x.dscr x.dst (summSize kind) (fun d => (smerge (summOf d) (summOf bs)).bytes) v = .ok old w → moved w) ∧
        (x.op < 0xA → x.sscr = true → x.dscr = true →
        (c.unit = 0 →
          (∀ j, j < x.count → srcAt x j + x.esz ≤ (s.team c.team).scratchSize ∧ dstAt x j + x.esz ≤ (s.team c.team).scratchSize) →
          (∀ j m, j < x.count → m < x.count → j ≠ m → dstAt x j + x.esz ≤ dstAt x m ∨ dstAt x m + x.esz ≤ dstAt x j) →
          apart →
          ∃ t, exec (.copyCompletion k i) s = .next t ∧ CopyGone k c t ∧ t.mem = s.mem ∧
            (∀ j b, j < x.count → b < x.esz → (t.team c.team).scratch.at (dstAt x j + b) =
              if x.op = 0 then tm.scratch.at (srcAt x j + b)
              else (leBytes x.esz (foldElems x.op
                [ofLe (tm.scratchBytes (dstAt x j) x.esz), ofLe (tm.scratchBytes (srcAt x j) x.esz)])).getD b 0) ∧
            ∀ a, (∀ j, j < x.count → a < dstAt x j ∨ dstAt x j + x.esz ≤ a) →
              (t.team c.team).scratch.at a = (s.team c.team).scratch.at a) ∧
        (c.unit < x.count → (s.team c.team).scratchSize < srcAt x c.unit + x.esz →
          ∃ t e, exec (.copyDeferredFault k i) s = .next t ∧ (t.core k).eddy[i]? = some e ∧ e.stopped = true ∧ e.unit = c.unit ∧
            t.mem = s.mem ∧ t.teams = s.teams ∧ ((s.grp c.agent).ended = false →
              ∃ d ∈ (t.grp c.agent).faults, d.code = cACCESS ∧ d.op = c.id ∧ d.addr = x.addr true c.unit)))))) ∧
  (∀ (s : State) (i rank : Nat), let x := s.inst i
    ((∀ p ∈ x.arrivals, p.1 ≠ rank) ∨ (s.ctx x.ctx).vrun = false ∨ Config.tileQueue ≤ x.tiles.length →
      exec (.arrivedTilePush i rank) s = .next s) ∧
    (∀ p, x.arrivals.find? (fun q => q.1 = rank) = some p → (s.ctx x.ctx).vrun = true → x.tiles.length < Config.tileQueue →
      x.qwait = [] → ∃ t, exec (.arrivedTilePush i rank) s = .next t ∧ p ∉ (t.inst i).arrivals ∧ t.mem = s.mem ∧
        (t.inst i).tiles = x.tiles ++ [BitVec.ofNat 32 (rank * 2 ^ 24 + p.2 % 2 ^ 24)])) ∧
  (∀ (s : State) (tm : Nat),
    let next := nextToStage (s.cluster ((s.team tm).core / 2)).admitted (s.team tm).mqueue
    (next = none → exec (.staging tm) s = .next s) ∧
    (∀ e, next = some e →
      (agentRuns s e.agent = false → exec (.staging tm) s = .next s) ∧
      (agentRuns s e.agent = true →
        (∀ st u, stageEntry tm e false s = .ok st u → ∃ t, exec (.staging tm) s = .next t ∧ t.mem = u.mem ∧
          ∀ x ∈ (t.team tm).mqueue, x.id = e.id → x.staged = some st) ∧
        (∀ code addr l u, stageEntry tm e false s = .bad code addr l u →
          (((s.team tm).mqueue.headD {}).id ≠ e.id → exec (.staging tm) s = .next s) ∧
          (((s.team tm).mqueue.headD {}).id = e.id → ∃ t, exec (.staging tm) s = .next t ∧
            (∀ x ∈ (t.team tm).mqueue, x.id = e.id → x.stopped = true) ∧
            ∃ d ∈ (t.grp e.agent).faults, d.code = code ∧ d.op = e.id ∧ (code ≠ cMATRIXCHK → d.addr = addr)))))) ∧
  (∀ (s : State) (cl : Nat), let w := slotEntry s cl
    let own := fun (p : Nat × Team) => w.getLsbD 18 = true ∧ (s.grid p.2.grid).ctx = (w.extractLsb' 0 12).toNat
    let turn := fun (p : Nat × Team) => (p.2.steerSlot + 15 - (s.cluster cl).lastSteer) % 16
    ((s.cluster cl).admitted ≠ 0 ∨ admissible s cl = [] → exec (.admission cl) s = .next s) ∧
    ((s.cluster cl).admitted = 0 → admissible s cl ≠ [] → ∃ t, ∃ p ∈ admissible s cl, exec (.admission cl) s = .next t ∧
      (t.cluster cl).admitted = (p.2.mqueue.headD {}).id ∧ t.teams = s.teams ∧ t.mem = s.mem ∧
      ((∃ q ∈ admissible s cl, own q) → own p) ∧
      ∀ q ∈ admissible s cl, (own q ∨ ∀ r ∈ admissible s cl, ¬ own r) → turn p ≤ turn q)) ∧
  (∀ (s : State) (cl n row col : Nat),
    (admittedTeam s cl = none → ∃ t, exec (.matrixCompletion cl n row col) s = .next t ∧ (t.cluster cl).admitted = 0 ∧
      t.teams = s.teams) ∧
    (∀ tm e st, admittedTeam s cl = some (tm, e, st) →
      (agentRuns s e.agent = false → exec (.matrixCompletion cl n row col) s = .next s) ∧
      (agentRuns s e.agent = true →
        let on := fun i j => !e.h1 || !e.mtmask.getLsbD (microTile i j)
        (n < 2 → ∃ t, exec (.matrixCompletion cl n row col) s = .next t ∧ (t.cluster cl).admitted = 0 ∧ t.mem = s.mem ∧
          (t.team tm).accAll e.d
            = (accAfter st on e.kstep (st.k / 16) ((s.team tm).accAll e.d)).map (fun v => v % 2 ^ 48) ∧
          (t.grp e.agent).pending e.flag = false ∧
          (rgMask st = 0 → EntryGone tm e t ∧ (t.team tm).mstat = 0) ∧
          (rgMask st ≠ 0 → ∃ d ∈ (t.grp e.agent).faults, d.code = cRECORD ∧ d.op = e.id ∧ d.addr = 0)) ∧
        (2 ≤ n → ∃ t, exec (.matrixCompletion cl n row col) s = .next t ∧ (t.cluster cl).admitted = 0 ∧ t.mem = s.mem ∧
          (t.cluster cl).chks = (s.cluster cl).chks ++ [s.gtime] ∧
          (e.h1 = false → (t.team tm).accAll e.d = (s.team tm).accAll e.d) ∧
          (∀ x ∈ (t.team tm).mqueue, x.id = e.id → x.stopped = true) ∧
          ∃ d ∈ (t.grp e.agent).faults, d.code = cMATRIXCHK ∧ d.op = e.id ∧ d.addr = 0)))) ∧
  (∀ (s : State) (tm : Nat),
    ((s.team tm).mqueue = [] → exec (.matrixEntryPerformed tm) s = .next s) ∧
    (∀ e r, (s.team tm).mqueue = e :: r → e.stopped = false → e.performed = false → agentRuns s e.agent = true →
      (e.fence = true → fenceOver s e.waits = false → exec (.matrixEntryPerformed tm) s = .next s) ∧
      (e.fence = true → fenceOver s e.waits = true → ∃ t, exec (.matrixEntryPerformed tm) s = .next t ∧ EntryGone tm e t) ∧
      (e.fence = false →
        (e.opc = 0x90 → ∃ t, exec (.matrixEntryPerformed tm) s = .next t ∧ EntryGone tm e t ∧ t.mem = s.mem ∧
          (t.team tm).tshape.at e.t = e.rc ∧ (t.team tm).tiles = (s.team tm).tiles) ∧
        (e.opc = 0x91 → ∃ t, exec (.matrixEntryPerformed tm) s = .next t ∧ EntryGone tm e t ∧ t.mem = s.mem ∧
          ∀ n, n < 4096 → (t.team tm).acc e.d n = 0) ∧
        (e.opc = 0x94 → let d := drainTile e.md ((s.team tm).accAll e.d)
          ∃ t, exec (.matrixEntryPerformed tm) s = .next t ∧ EntryGone tm e t ∧ t.mem = s.mem ∧
            (t.team tm).tshape.at e.t = d.2 ∧ ∀ b, b < 8192 → (t.team tm).tile e.t b = d.1.getD b 0) ∧
        (e.opc = 0x95 ∨ e.opc = 0x96 → e.row < 64 →
          let own : Owner := { op := e.id, agent := e.agent, race := e.race, pc := e.oppc }
          let va := e.ra + BitVec.ofNat 64 e.row * e.rc.signExtend 64
          let res := if e.opc = 0x95 then engRead own false va 128 s
            else engWrite own false va ((s.team tm).tileRow e.t e.row) s
          (∀ code addr u, res = .bad code addr u → ∃ t, exec (.matrixEntryPerformed tm) s = .next t ∧
            (∀ x ∈ (t.team tm).mqueue, x.id = e.id → x.stopped = true ∧ x.row = e.row) ∧
            ∃ d ∈ (t.grp e.agent).faults, d.code = code ∧ d.op = e.id ∧ d.addr = addr) ∧
          (∀ bs u, res = .ok bs u → e.row = 63 → ∃ t, exec (.matrixEntryPerformed tm) s = .next t ∧ EntryGone tm e t ∧
            t.mem = u.mem ∧ (e.opc = 0x95 → bs.length = 128 → (t.team tm).tileRow e.t 63 = bs))))))

/-- R175, R245, R256, R267, R268, R308 to R310, R314 to R318, R326: a flit waits behind an earlier one of its sender and
channel; a peer's WRITE is performed and acknowledged, with the cause of its fault if it met one; READ is answered with the bytes;
the last ACK of a remote copy completes it or stops it at the element that failed; contributions are folded when the last has
come, and a result is written to every member's DST; fields that differ, as instances open or steps meet, make the instance mismatched; rank 0's slot request is
decided 500 gt after its stamp and every member is told; a flit whose check fails is not taken and asked for again, one that is not a
port's next is dropped, and a port goes down when a flit and its 16 replays have failed; notices set and clear residency bits, and a
departure ends what waits. The model's choices: the fields of INFO and of a payload (log 21), a READ that is answered with no bytes and a
REPLY that is dropped (log 44), the sequences of a link (log 129), and that a flit for a context that is FREE or LOST is discarded and
counted (log 57). -/
def Obligations.FabricEvents : Prop :=
  (∀ (s : State) (fl : Flit) (i : Flit → Instr), i ∈ flitEvents → behindFlit s fl = true →
    ∃ t, exec (i fl) s = .next t ∧ fl ∈ t.inbox ∧ t.mem = s.mem ∧ t.sent = s.sent ∧ t.ctxs = s.ctxs ∧ t.cores = s.cores) ∧
  (∀ (s : State) (fl : Flit), behindFlit s fl = false → (s.ctx fl.ctx).st = .free ∨ (s.ctx fl.ctx).st = .lost →
    ∃ t, exec (.write fl) s = .next t ∧ t.discarded = s.discarded + 1 ∧ t.mem = s.mem ∧ t.sent = s.sent) ∧
  (∀ (s : State) (fl : Flit) (frames : List (List Byte)) (p : Nat), portOf s fl.src = some p →
    (∀ b ∈ frames, (linkOf b).testBit 28 = false) →
    let t := receive fl frames s
    (frames.all checked = false → t.inbox = s.inbox ∧ (t.links.at p).nak = true ∧ (t.links.at p).got = (s.links.at p).got) ∧
    (frames.all checked = true → (t.links.at p).nak = false ∧
      (carries fl (s.links.at p).got frames = true → t.inbox = s.inbox ++ [fl] ∧
        (t.links.at p).got = (s.links.at p).got + BitVec.ofNat 12 (flitFrames fl)) ∧
      (carries fl (s.links.at p).got frames = false → t.inbox = s.inbox ∧ (t.links.at p).got = (s.links.at p).got))) ∧
  (∀ (s : State) (fl : Flit) (w : Option Nat), behindFlit s fl = false → wayOf s fl false = .now w →
    (∃ n ∈ mismatched s fl, (s.inst n).mismatch = true) →
    (∀ i, w = some i → (s.inst i).mismatch = true ∧ (s.inst i).tiles.length + (s.inst i).arrivals.length < Config.tileQueue) →
    ∃ t a, exec (.write fl) s = .next t ∧ t.mem = s.mem ∧ t.sent = s.sent ++ [a] ∧ a.typ = 4 ∧ a.dst = fl.src ∧ fieldOf a.data 1 1 = 0) ∧
  (∀ (s : State) (fl : Flit) (i : Nat), behindFlit s fl = false → wayOf s fl false = .now (some i) →
    (∀ n ∈ mismatched s fl, (s.inst n).mismatch = false) → fl.src ≠ s.boot.moduleNo →
    let x := s.inst i
    let key := (infoRank fl.info, infoStep fl.info)
    x.tiles.length + x.arrivals.length < Config.tileQueue → sub fl.data 13 3 = x.desc → fieldOf fl.data 12 1 = 7 →
    key ∉ x.pushed → key ∉ x.arrivals → ∀ u, peerWrite fl.ctx (BitVec.ofNat 64 (fieldOf fl.data 0 8)) (fl.data.drop 16) s = .ok u →
    ∃ t a, exec (.write fl) s = .next t ∧ t.mem = u.mem ∧ (t.inst i).arrivals = x.arrivals ++ [key] ∧ t.sent = s.sent ++ [a] ∧
      a.typ = 4 ∧ a.dst = fl.src ∧ fieldOf a.data 1 1 = 0) ∧
  (∀ (s : State) (fl : Flit), behindFlit s fl = false → wayOf s fl false = .now none →
    (∀ n ∈ mismatched s fl, (s.inst n).mismatch = false) →
    let va := BitVec.ofNat 64 (fieldOf fl.data 0 8)
    let bs := fl.data.drop 16
    (∀ u, peerWrite fl.ctx va bs s = .ok u → ∃ t a, exec (.write fl) s = .next t ∧ t.mem = u.mem ∧ t.sent = s.sent ++ [a] ∧
      a.typ = 4 ∧ a.dst = fl.src ∧ fieldOf a.data 1 1 = 0) ∧
    (∀ code addr, peerWrite fl.ctx va bs s = .error (some (code, addr)) →
      ∃ t a, exec (.write fl) s = .next t ∧ t.mem = s.mem ∧ t.sent = s.sent ++ [a] ∧ a.typ = 4 ∧ a.dst = fl.src ∧
        fieldOf a.data 1 1 = code.toNat) ∧
    (peerWrite fl.ctx va bs s = .error none → ∃ t, exec (.write fl) s = .next t ∧ t.mem = s.mem ∧ t.sent = s.sent ∧
      fl ∈ t.inbox)) ∧
  (∀ (s : State) (fl : Flit), behindFlit s fl = false → ∃ t a, exec (.read fl) s = .next t ∧ t.sent = s.sent ++ [a] ∧ a.typ = 3 ∧
    a.dst = fl.src ∧ a.info = fl.info ∧
    (let n := Min.min (fieldOf fl.data 0 4) 224
     0 < n → fl.info.toNat % 64 + n ≤ 64 →
      (canonical fl.info = false → a.data = [] ∧ t.mem = s.mem) ∧
      ∀ tr, canonical fl.info = true → translate s fl.ctx { r := true } fl.info = .ok tr →
        quiet s tr.conf (lineOf tr.key) = true →
        t.mem = s.mem ∧ a.data = (List.range n).map (fun k => s.view tr.conf (tr.key + k)))) ∧
  (∀ (s : State) (fl : Flit), behindFlit s fl = false → exec (.reply fl) s = .next { s with inbox := s.inbox.erase fl }) ∧
  (∀ (s : State) (fl : Flit), behindFlit s fl = false → infoCode fl.info = 9 → ∃ t, exec (.ack fl) s = .next t ∧ t.mem = s.mem ∧
    let p := (infoGid fl.info, infoRank fl.info)
    let x := s.ctx fl.ctx
    let y := t.ctx fl.ctx
    (p ∈ x.lateAcks → y.lateAcks = x.lateAcks.erase p ∧ y.noticeAcks = x.noticeAcks) ∧
    (p ∉ x.lateAcks → y.lateAcks = x.lateAcks ∧ y.noticeAcks = x.noticeAcks.filter (fun q => q ≠ p))) ∧
  (∀ (s : State) (fl : Flit), behindFlit s fl = false → infoCode fl.info = 10 →
    exec (.ack fl) s = .next { s with inbox := s.inbox.erase fl }) ∧
  (∀ (s : State) (fl : Flit) (i : Nat) (e : Copy), behindFlit s fl = false → infoCode fl.info ≠ 9 → infoCode fl.info ≠ 10 →
    wayOf s fl true = .now (some i) →
    let k := (s.team (s.inst i).team).core
    (s.core k).eddy = [e] → e.inst = i → e.step % 2 ^ 24 = infoStep fl.info → e.isStep = false →
    e.acks = [(infoRank fl.info, fieldOf fl.data 2 4)] → e.moved = true → e.fails = [] →
    let cause := BitVec.ofNat 8 (fieldOf fl.data 1 1)
    (cause = 0 → ∃ t, exec (.ack fl) s = .next t ∧ CopyGone k e t) ∧
    (cause ≠ 0 → ∃ t, exec (.ack fl) s = .next t ∧
      (∀ x ∈ (t.core k).eddy, x.id = e.id → x.stopped = true ∧ x.unit = fieldOf fl.data 2 4) ∧
      ((s.grp e.agent).ended = false → ∃ d ∈ (t.grp e.agent).faults, d.code = cause ∧ d.op = e.id ∧
        d.addr = BitVec.ofNat 64 (fieldOf fl.data 6 8)))) ∧
  (∀ (s : State) (fl : Flit) (i : Nat) (x : Slot), behindFlit s fl = false → s.slots = [(i, x)] → x.ctx = fl.ctx → x.gid = infoGid fl.info →
    x.seq = infoSeq fl.info → (s.ctx fl.ctx).st ≠ .free → (s.ctx fl.ctx).st ≠ .lost → (s.ctx fl.ctx).vrun = true →
    let r := infoRank fl.info
    let k := fieldOf fl.data 17 8
    let cs := x.contribs.put (64 * k + r) fl.data
    let ds := x.descs.put r fl.data
    let n := fieldOf fl.data 0 1
    let got := (List.range n).filterMap (fun m => if cs.at (64 * k + m) = [] then none else some (cs.at (64 * k + m)))
    let h := got.headD []
    let answer := fun (code step : Nat) (bs : List Byte) (t : State) => t.sent = s.sent ++ x.members.map (fun m =>
      ({ typ := 6, dst := m.1, src := s.boot.moduleNo, ctx := m.2, info := infoOf x.gid x.seq step 0 code, data := bs } : Flit))
    (infoCode fl.info = 1 → ∃ t, exec (.contrib fl) s = .next t ∧ t.mem = s.mem ∧
      if ∀ m, m < x.members.length → m = r ∨ m ∈ x.closed then t.slots = [] else r ∈ (t.slots.at i).closed) ∧
    let fails := fun (unit rank : Nat) (t : State) => answer 1 unit (leBytes 4 unit ++ leBytes 4 rank) t
    let differ := fun (y : Slot) => (∃ p ∈ y.descs, ∃ q ∈ y.descs, p.2 ≠ q.2) ∨
      (y.descs.at 0 ≠ [] ∧ y.refused = false ∧ ∃ p ∈ y.asking, p.2 ≠ y.descs.at 0)
    (∀ y, (infoCode fl.info = 2 ∧ y = { x with descs := ds, asking := x.asking.drop r }) ∨
        (infoCode fl.info = 3 ∧ y = { x with asking := x.asking.put r fl.data }) →
      ∃ t, exec (.contrib fl) s = .next t ∧ t.mem = s.mem ∧ t.slots.at i = y ∧
        (differ y → fails 0 0x7F t) ∧ (¬ differ y → t.sent = s.sent)) ∧
    (infoCode fl.info ≠ 1 → infoCode fl.info ≠ 2 → infoCode fl.info ≠ 3 →
      ((∃ d ∈ got, sub d 1 3 ≠ sub h 1 3) → ∃ t, exec (.contrib fl) s = .next t ∧ t.mem = s.mem ∧ fails 0 0x7F t) ∧
      ((∀ d ∈ got, sub d 1 3 = sub h 1 3) → (∃ d ∈ got, sub d 4 5 ≠ sub h 4 5) →
        ∃ t, exec (.contrib fl) s = .next t ∧ t.mem = s.mem ∧ fails k 0x7F t) ∧
      ((∀ d ∈ got, sub d 1 3 = sub h 1 3 ∧ sub d 4 5 = sub h 4 5) →
        (got.length < n → ∃ t, exec (.contrib fl) s = .next t ∧ t.mem = s.mem ∧ (t.slots.at i).contribs = cs ∧
          ((∀ m, m < n → cs.at (64 * k + m) = [] → reaches s (x.members.getD m (0, 0)).1 = true) → t.sent = s.sent) ∧
          ∀ m, m < n → cs.at (64 * k + m) = [] → reaches s (x.members.getD m (0, 0)).1 = false →
            (∀ j, j < m → cs.at (64 * k + j) = [] → reaches s (x.members.getD j (0, 0)).1 = true) → fails k m t) ∧
        (got.length = n →
          let f := foldContribs (bits (fieldOf h 3 1) 5 2) (fieldOf h 4 1) (x.merged.at k) (got.map (fun d => d.drop 25))
          let e := f.2.getD (0xFFFFFFFF, 0)
          ∃ t, exec (.contrib fl) s = .next t ∧ t.mem = s.mem ∧
            answer 0 k (leBytes 4 e.1 ++ leBytes 4 e.2 ++ sub (got.getD e.2 []) 9 8 ++ f.1) t)))) ∧
  (∀ (s : State) (fl : Flit) (w : Option Nat), behindFlit s fl = false → wayOf s fl true = .now w → infoCode fl.info = 1 →
    ∀ i ∈ mismatched s fl, let y := s.inst i
      y.live = true ∨ y.closed = true → y.mismatch = false → (s.ctx y.ctx).vrun = true → (s.grp y.agent).ended = false →
      ∃ t, exec (.result fl) s = .next t ∧ (t.inst i).mismatch = true ∧ ∃ d ∈ (t.grp y.agent).faults, d.code = cCOLL) ∧
  (∀ (s : State) (fl : Flit) (i : Nat), behindFlit s fl = false → wayOf s fl true = .early → infoCode fl.info = 1 →
    mismatched s fl = [i] → let y := s.inst i
      y.waiting = true → y.closing = false → y.mismatch = false → (s.team y.team).inst ≠ i → (s.grp y.agent).ended = false →
      ∃ t, exec (.result fl) s = .next t ∧ (t.inst i).live = true ∧ (t.inst i).mismatch = true ∧
        (t.grp y.agent).sreg y.dst = 0 ∧ ∃ d ∈ (t.grp y.agent).faults, d.code = cCOLL) ∧
  (∀ (s : State) (fl : Flit) (i : Nat), behindFlit s fl = false → wayOf s fl true = .now (some i) →
    let y := s.inst i
    let k := (s.team y.team).core
    (infoCode fl.info ≠ 1 → ∀ e, (s.core k).eddy = [e] → e.inst = i → e.step % 2 ^ 24 = infoStep fl.info → e.isStep = true →
      e.moved = true → e.stopped = false → e.runit = 0 →
      let x := e.shp
      x.dscr = true → x.op ≠ 0xA → fieldOf fl.data 0 4 = 0xFFFFFFFF → fl.data.length = 16 + x.count * x.esz →
      (∀ j, j < x.count → dstAt x j + x.esz ≤ (s.team e.team).scratchSize) →
      (∀ j m, j < x.count → m < x.count → j ≠ m → dstAt x j + x.esz ≤ dstAt x m ∨ dstAt x m + x.esz ≤ dstAt x j) →
      ∃ t, exec (.result fl) s = .next t ∧ CopyGone k e t ∧ t.mem = s.mem ∧
        ∀ j b, j < x.count → b < x.esz →
          (t.team e.team).scratch.at (dstAt x j + b) = fl.data.getD (16 + j * x.esz + b) 0)) ∧
  (∀ (s : State) (c gid : Nat),
    let found := s.insts.find? (fun p => asksSlot p.2 && decide (p.2.ctx = c) && decide (p.2.gid = gid))
    (found = none → exec (.slotRequest c gid) s = .next s) ∧
    (∀ i x, found = some (i, x) → s.inst i = x → ∃ t, exec (.slotRequest c gid) s = .next t ∧ t.mem = s.mem ∧ (t.inst i).requested = true ∧
      t.slotReqs = s.slotReqs ++ [{ stamp := x.stamp, part := (s.ctx c).part, ctx := c, gid := gid, seq := x.seq }])) ∧
  (∀ s : State, (∀ f ∈ s.inbox, f.typ = 7 → infoCode f.info ≠ 4) →
    ((∀ r ∈ s.slotReqs, s.gtime < r.stamp + 500) → exec .slotDecision s = .next s) ∧
    (∀ r, s.slotReqs = [r] → r.stamp + 500 ≤ s.gtime →
      let ms := (collOf s r.ctx r.gid).members
      let status := if ∃ m ∈ ms, oneHop s m.1 = false then 4
        else if (s.slots.filter (fun p => p.2.used && !p.2.ring)).length < Config.slots then 0 else 1
      ∃ t, exec .slotDecision s = .next t ∧ t.slotReqs = [] ∧
        (∀ m ∈ ms, ∃ f ∈ t.sent, f.typ = 7 ∧ f.dst = m.1 ∧ f.ctx = m.2 ∧ f.info = infoOf r.gid r.seq 0 0 4 ∧
          f.data = leBytes 1 status) ∧
        let y := t.slots.at ((findSlot s r.ctx r.gid r.seq).getD s.fresh)
        y.used = true ∧ y.ctx = r.ctx ∧ y.gid = r.gid ∧ y.seq = r.seq ∧ y.members = ms ∧
          y.ring = decide (status ≠ 0) ∧ y.refused = decide (status ≠ 0))) ∧
  (∀ (s : State) (port : Nat), ∃ t, exec (.nak port) s = .next t ∧ t.replays.at port = s.replays.at port + 1 ∧ t.mem = s.mem ∧
    (s.replays.at port < 16 → t.boot = s.boot) ∧
    (16 ≤ s.replays.at port → t.boot.ports = s.boot.ports &&& ~~~ (1#16 <<< port) ∧
      ∀ m, t.boot.routes.at m ≠ port + 1)) ∧
  (∀ (s : State) (c gid rank : Nat) (resident : Bool), ∃ t, exec (.residencyNotice c gid rank resident) s = .next t ∧
    t.mem = s.mem ∧
    (∀ r, r ∈ (collOf t c gid).halted ↔ if r = rank then resident = false else r ∈ (collOf s c gid).halted) ∧
    (let ms := (collOf s c gid).members
     ms ≠ [] → ∃ f, t.sent = s.sent ++ [f] ∧ f.typ = 4 ∧ f.dst = (ms.getD rank (0, 0)).1 ∧ f.ctx = (ms.getD rank (0, 0)).2 ∧
      infoCode f.info = if resident then 10 else 9)) ∧
  (∀ (s : State) (c gid rank : Nat), rank < 64 → let x := s.ctx c
    (x.stop = .none ∨ s.gtime < x.noticeAt + 100000 ∨ (gid, rank) ∉ x.noticeAcks →
      exec (.noticeTimeout c (64 * gid + rank)) s = .next s) ∧
    (x.stop ≠ .none → x.noticeAt + 100000 ≤ s.gtime → (gid, rank) ∈ x.noticeAcks →
      ∃ t, exec (.noticeTimeout c (64 * gid + rank)) s = .next t ∧
        (t.ctx c).unreached = x.unreached + 1 ∧ (t.ctx c).lateAcks = x.lateAcks ++ [(gid, rank)] ∧ t.mem = s.mem ∧
        ∀ p, p ∈ (t.ctx c).noticeAcks ↔ p ∈ x.noticeAcks ∧ p ≠ (gid, rank))) ∧
  (∀ (s : State) (c gid rank : Nat), ∃ t, exec (.departureNotice c gid rank) s = .next t ∧ t.mem = s.mem ∧
    rank ∈ (collOf t c gid).departed ∧ (∀ p ∈ t.slots, p.2.ctx = c → p.2.gid = gid → rank ∈ p.2.closed) ∧
    ∀ i x, s.insts = [(i, x)] → x.ctx = c → x.gid = gid → (s.ctx c).vrun = true → x.closing = false →
      (x.waiting = false → x.live = true → x.mismatch = false → (s.grp x.agent).ended = false →
        (t.inst i).mismatch = true ∧ ∃ d ∈ (t.grp x.agent).faults, d.code = cCOLL) ∧
      (x.waiting = true → rank = 0 → (s.team x.team).inst = 0 →
        (t.inst i).live = true ∧ (t.team x.team).inst = i ∧ (t.grp x.agent).sreg x.dst = 0))

/-- R246 to R254, R257 to R259, R267, R268, R331, R335, R338, R339: a command on a context that has none, or is FREE or LOST, is NOCTX,
and one that comes while it stops or resumes is BUSY; a stop is requested in drain or capture mode and members hear HALTED; each
engine acknowledges at its stop unit, and VCLK stops with the last; DRAINMAX turns a drain into a capture; the image is saved when it
fits, else the context goes on with SIZE; the report makes it STOPPED; a resume places every saved team or is NOROOM; VCLK goes on
from where it stopped; a kill frees it; the debug step and the counted stop request a capture, also where a drain is under way; a sample
and a SYNC record are written where they are due. The model's choices: what a resume takes from the image (log 59), what a resume of a
context that runs and a stop or a kill of one that is STOPPED do (log 61), and that a step's time-out ends it as its instruction
does (log 62). -/
def Obligations.StopEvents : Prop :=
  let told := fun (c code : Nat) (s t : State) => ∀ p ∈ (s.ctx c).colls, ∀ m ∈ p.2.members,
    ∃ f ∈ t.sent, f.typ = 7 ∧ f.dst = m.1 ∧ f.ctx = m.2 ∧ infoGid f.info = p.1 % 256 ∧ infoCode f.info = code
  (∀ (s : State) (c : Nat) (i : Instr), i = .stopDrain c ∨ i = .stopCapture c ∨ i = .resume c ∨ i = .kill c →
    let x := s.ctx c
    (x.hasDesc = false ∨ x.st = .free ∨ x.st = .lost → ∃ t, exec i s = .next t ∧ (t.ctx c).err = 3 ∧ (t.ctx c).st = x.st ∧
      (t.ctx c).stop = x.stop ∧ t.mem = s.mem) ∧
    (x.hasDesc = true →
      (x.st = .running →
        (i ≠ .resume c → ∃ t, exec i s = .next t ∧ (t.ctx c).err = 0 ∧ t.desc c 0x04 4 = 2 ∧ told c 1 s t ∧
          Stopping c (if i = .stopDrain c then .drain s.gtime else .capture s.gtime (decide (i = .kill c))) t) ∧
        (i = .resume c → ∃ t, exec i s = .next t ∧ (t.ctx c).st = .running ∧ t.mem = s.mem)) ∧
      (x.st = .stopping →
        (i = .stopCapture c → (∃ a, x.stop = .drain a) → x.vrun = true →
          ∃ t, exec i s = .next t ∧ Stopping c (.capture s.gtime false) t ∧ (t.ctx c).err = 0) ∧
        (i ≠ .stopCapture c ∨ (∃ a k, x.stop = .capture a k) ∨ x.vrun = false →
          ∃ t, exec i s = .next t ∧ Stopping c x.stop t ∧ (t.ctx c).err = 2 ∧ t.mem = s.mem)) ∧
      (x.st = .resuming → ∃ t, exec i s = .next t ∧ (t.ctx c).st = .resuming ∧ (t.ctx c).err = 2 ∧ t.mem = s.mem) ∧
      (x.st = .stopped →
        (i = .stopDrain c ∨ i = .stopCapture c → ∃ t, exec i s = .next t ∧ (t.ctx c).st = .stopped ∧ t.mem = s.mem) ∧
        (i = .kill c → x.part < 40 → s.isConf c = false → ctxGrids s c = [] → ctxTeams s c = [] →
          (∀ k, ((s.grp 0).lane 0).st ≠ .kzero k) → ∃ t, exec i s = .next t ∧ (t.ctx c).st = .free ∧
          (t.ctx c).vrun = false ∧ t.desc c 0x04 4 = 0) ∧
        (i = .resume c → (s.part x.part).st = .active → ∀ v, x.saved = some v →
          (v.teams = [] → ∃ t, exec i s = .next t ∧ (t.ctx c).st = .resuming ∧ (t.ctx c).err = 0 ∧ t.desc c 0x04 4 = 4) ∧
          (∀ tm z, savedTeams s c v = [(tm, z)] →
            let g := s.grid z.grid
            let gs := savedGroups s c v
            let need := savedNeed { v with groups := gs } g z
            (chooseCore s g.ctx g.part need = none →
              ∃ t, exec i s = .next t ∧ (t.ctx c).st = .stopped ∧ (t.ctx c).err = 4 ∧ t.mem = s.mem) ∧
            (∀ core share, chooseCore s g.ctx g.part need = some (core, share) →
              ∃ t, exec i s = .next t ∧ (t.ctx c).st = .resuming ∧ (t.ctx c).err = 0 ∧ (t.team tm).core = core ∧
                (s.isConf c = true → v.teams = [(tm, z)] ∧ gs = v.groups) ∧
                (t.team tm).scratch = z.scratch ∧ (t.team tm).tiles = z.tiles ∧ (t.team tm).accs = z.accs ∧
                ∀ a ∈ z.agents, t.grp a = { gs.at a with slot := (t.grp a).slot })))))) ∧
  (∀ (s : State) (c e : Nat), let x := s.ctx c
    (x.stop = .none ∨ x.vrun = false ∨ 4 < e ∨ e ∈ x.acks → exec (.stopAcknowledgement c e) s = .next s) ∧
    (∀ a, x.stop = .drain a → x.vrun = true → e ≤ 4 → e ∉ x.acks →
      (atStopUnit s c e = false → exec (.stopAcknowledgement c e) s = .next s) ∧
      (atStopUnit s c e = true →
        (x.acks.length < 4 → ∃ t, exec (.stopAcknowledgement c e) s = .next t ∧ (t.ctx c).acks = x.acks ++ [e] ∧
          (t.ctx c).vrun = true ∧ t.mem = s.mem) ∧
        (4 ≤ x.acks.length → ∃ t, exec (.stopAcknowledgement c e) s = .next t ∧ (t.ctx c).vrun = false ∧
          (t.ctx c).vfrozen = s.vclk c ∧ t.vclk c = s.vclk c ∧ t.desc c 0x60 8 = (s.vclk c).toNat)))) ∧
  (∀ (s : State) (c : Nat), let x := s.ctx c
    let m := s.desc c 0x58 8
    (∀ a, x.stop = .drain a →
      (m = 0 ∨ s.gtime < a + m ∨ x.vrun = false → exec (.drainmax c) s = .next s) ∧
      (m ≠ 0 → a + m ≤ s.gtime → x.vrun = true → ∃ t, exec (.drainmax c) s = .next t ∧
        (t.ctx c).stop = .capture s.gtime false ∧ (t.ctx c).st = x.st ∧ t.mem = s.mem)) ∧
    (x.st ≠ .stopping ∨ x.stop = .none ∨ x.vrun = true ∨ x.saved ≠ none → exec (.saveImage c) s = .next s) ∧
    (∀ (drain : Bool) (a : Nat), x.st = .stopping → x.stop = (if drain then .drain a else .capture a false) → x.vrun = false →
      x.saved = none →
      let n := imageSize s c drain
      (s.desc c 0x20 8 < n → ∃ t, exec (.saveImage c) s = .next t ∧ (t.ctx c).st = .running ∧ (t.ctx c).err = 1 ∧
        (t.ctx c).need = (n + 4095) / 4096 ∧ (t.ctx c).vrun = true ∧ (t.ctx c).stop = .none) ∧
      (n ≤ s.desc c 0x20 8 → (∀ cl, ∀ w ∈ (s.cluster cl).waits, (s.grp w.agent).role ≠ .headwater) → ∃ t v, exec (.saveImage c) s = .next t ∧ (t.ctx c).saved = some v ∧ v.size = n ∧
        v.teams = ctxTeams s c ∧ ∀ p ∈ ctxTeams s c, (t.team p.1).live = false)) ∧
    (x.st ≠ .stopping ∨ x.saved = none ∨ writesDone s c = false → exec (.stopReport c) s = .next s) ∧
    (x.st = .stopping → x.saved ≠ none → writesDone s c = true → ∃ t, exec (.stopReport c) s = .next t ∧
      (t.ctx c).st = .stopped ∧ (t.ctx c).stop = .none ∧ (t.ctx c).dirty = [] ∧ t.desc c 0x04 4 = 3) ∧
    (x.st ≠ .resuming → exec (.release c) s = .next s) ∧
    (x.st = .resuming → x.vfrozen.toNat ≤ s.gtime → ∃ t, exec (.release c) s = .next t ∧ (t.ctx c).st = .running ∧
      (t.ctx c).vrun = true ∧ t.vclk c = x.vfrozen ∧ (t.ctx c).stepping = x.dbgset.getLsbD 4 ∧ told c 2 s t) ∧
    (x.dbgset.getLsbD 4 = false → exec (.singleStep c) s = .next s) ∧
    (x.dbgset.getLsbD 4 = true → x.st = .resuming → ∃ t, exec (.singleStep c) s = .next t ∧ (t.ctx c).st = .running ∧
      (t.ctx c).stepping = true ∧ (t.ctx c).stepAt = s.gtime) ∧
    (x.stepping = false ∨ s.gtime < x.stepAt + 65536 → exec (.stepTimeout c) s = .next s) ∧
    (x.stepping = true → x.stepAt + 65536 ≤ s.gtime → ∃ t, exec (.stepTimeout c) s = .next t ∧ (t.ctx c).stepping = false ∧
      (t.ctx c).dbgset.getLsbD 4 = false ∧
      (x.st = .running ∨ (x.st = .stopping ∧ ∃ a, x.stop = .drain a) → Stopping c (.capture s.gtime false) t) ∧
      ∀ a, stepTarget s c = some a → x.dbgset.getLsbD 1 = false → ∃ d ∈ (t.grp a).faults, d.code = cSTEP) ∧
    (x.dbgset.getLsbD 3 = false ∨ x.vrun = false ∨ (x.st ≠ .running ∧ x.st ≠ .stopping) ∨ x.retired < x.rstop.toNat →
      exec (.rstop c) s = .next s) ∧
    (x.dbgset.getLsbD 3 = true → x.vrun = true → x.st = .running ∨ (x.st = .stopping ∧ ∃ a, x.stop = .drain a) →
      x.rstop.toNat ≤ x.retired → ∃ t, exec (.rstop c) s = .next t ∧
      Stopping c (.capture s.gtime false) t ∧ (t.ctx c).dbgset.getLsbD 3 = false)) ∧
  (∀ (s : State) (k : Nat),
    (∃ t, exec (.sample k) s = .next t ∧ (t.core k).sampled = s.coreClk k ∧
      (sampleAgents s k true = [] → sampleAgents s k false = [] → t.mem = s.mem) ∧
      ∀ a, sampleAgents s k true = [] → sampleAgents s k false = [a] → t.mem = (sampleRecord a s).mem) ∧
    ((∀ c ∈ coreCtxs s k, (s.core k).synced.at c ≤ 65536) → exec (.sync k) s = .next s) ∧
    (∀ c, coreCtxs s k = [c] → 65536 < (s.core k).synced.at c → ∃ t, exec (.sync k) s = .next t ∧
      (t.core k).synced.at c = (s.core k).synced.at c - 65536 ∧ t.mem = (syncRecord c k s).mem))

/-- R255, R256, R280, R282, R288, R296, R305: a soft error is counted and changes nothing else; an uncorrectable one resets the
partition that owns the unit, with its contexts LOST, and no other partition; one of Headwater's memory or the key store resets the
module; a partition that is resetting stays so, and one that is being scrubbed clears the unit again; the clearing of a resource leaves it empty, its entry goes, and what was freed is
owned no more; a core that ran a confidential context is cleared when no team is on it; a cluster that is due for retirement stops
its contexts, and those placed or resumed there since, then is unusable and leaves its owner's CLMASK. -/
def Obligations.ErrorEvents : Prop :=
  (∀ (s : State) (unit idx : Nat), ∃ t, exec (.softError unit idx) s = .next t ∧ t.mem = s.mem ∧ t.parts = s.parts ∧
    t.ctxs = s.ctxs ∧ t.softErrors.at (65536 * unit + idx) = s.softErrors.at (65536 * unit + idx) + 1) ∧
  (∀ (s : State) (unit idx : Nat),
    (4 ≤ unit → ∃ t, exec (.uncorrectableError unit idx) s = .next t ∧ bootst t = 0x10000000 ∧ t.boot.fused = s.boot.fused) ∧
    (unit < 4 → ownerOf s unit idx = none → ∃ t, exec (.uncorrectableError unit idx) s = .next t ∧ t.parts = s.parts ∧
      t.ctxs = s.ctxs ∧ t.mem = s.mem) ∧
    (∀ p, unit < 4 → ownerOf s unit idx = some p →
      ((s.part p).st = .resetting → ∃ t, exec (.uncorrectableError unit idx) s = .next t ∧ t.parts = s.parts ∧ t.ctxs = s.ctxs ∧
        t.mem = s.mem) ∧
      ((s.part p).st = .scrubbing → ∃ t, exec (.uncorrectableError unit idx) s = .next t ∧ t.ctxs = s.ctxs ∧ t.mem = s.mem ∧
        (t.part p).st = .scrubbing ∧
        (unit < 2 → beingCleared s unit idx = false → (unit, idx, false) ∈ (t.part p).clearing) ∧
        (unit = 2 → cleansTo false (s.part p).jobs 0 < s.hbmSize p → ∃ j, (t.part p).jobs = (s.part p).jobs ++ [j] ∧
          j.tier = false ∧ j.base = 0 ∧ j.pages = s.hbmSize p / 65536) ∧
        (unit = 3 → let lo := (s.part p).ranges.idxOf idx * Config.rangeBytes
          cleansTo true (s.part p).jobs lo < lo + Config.rangeBytes → ∃ j, (t.part p).jobs = (s.part p).jobs ++ [j] ∧
          j.tier = true ∧ j.base = lo ∧ j.pages = Config.rangeBytes / 65536)) ∧
      ((s.part p).st = .active → (∀ cl, ∀ w ∈ (s.cluster cl).waits, (s.grp w.agent).role ≠ .headwater) →
        ∃ t, exec (.uncorrectableError unit idx) s = .next t ∧ (t.part p).st = .resetting ∧
        (t.part p).paused = true ∧ (∀ q, q ≠ p → (t.part q).st = (s.part q).st) ∧
        ∀ c ∈ partCtxs s p, (s.ctx c).st ≠ .free → Lost c t))) ∧
  (∀ (s : State) (p kind idx : Nat), let x := s.part p
    let gone := fun (t : State) => ∀ e ∈ (t.part p).clearing, ¬ (e.1 = kind ∧ e.2.1 = idx)
    (kind ≠ 6 → kind = 2 ∨ kind = 3 ∨ (∀ e ∈ x.clearing, ¬ (e.1 = kind ∧ e.2.1 = idx)) →
      exec (.clearing p kind idx) s = .next s) ∧
    ((∃ own, (kind, idx, own) ∈ x.clearing) →
      (kind = 0 → ∃ t, exec (.clearing p kind idx) s = .next t ∧ gone t ∧
        (∀ k, k = 2 * idx ∨ k = 2 * idx + 1 →
          t.core k = { queue := (t.core k).queue, synced := (s.core k).synced, sampled := (s.core k).sampled } ∧
          ((s.core k).partials = [] → (s.core k).sums = [] → (t.core k).queue = (s.core k).queue)) ∧
        (t.cluster idx).waits = [] ∧ (t.cluster idx).admitted = 0 ∧
        ((kind, idx, true) ∈ x.clearing → idx ∉ (t.part p).clusters)) ∧
      (kind = 1 → ∃ t, exec (.clearing p kind idx) s = .next t ∧ gone t ∧
        (∀ l, partOfKey (128 * l) = p → x.slices[homeIndex x.slices.length (128 * l)]? = some idx →
          ∃ n m g, t.l2line l = { conf := n, ctr := m, tag := g }) ∧
        ((kind, idx, true) ∈ x.clearing → idx ∉ (t.part p).slices)) ∧
      (kind = 4 → ∃ t, exec (.clearing p kind idx) s = .next t ∧ gone t ∧ (t.key idx).mem = none ∧ (t.key idx).report = none ∧
        (t.key idx).bound = none ∧ ((kind, idx, true) ∈ x.clearing → (t.key idx).owner = none)) ∧
      (kind = 5 → ∃ t, exec (.clearing p kind idx) s = .next t ∧ gone t ∧ (t.vdev idx).bound = none ∧ (t.vdev idx).pending = 0 ∧
        (t.vdev idx).kicks = [] ∧ ((kind, idx, true) ∈ x.clearing → (t.vdev idx).owner = none)))) ∧
  (∀ (s : State) (p k : Nat),
    ((s.core k).ranConf = 0 ∨ coreTeams s k ≠ [] → exec (.clearing p 6 k) s = .next s) ∧
    ((s.core k).ranConf ≠ 0 → coreTeams s k = [] → ∃ t, exec (.clearing p 6 k) s = .next t ∧ (t.core k).ranConf = 0 ∧
      (t.core k).l1 = [] ∧ (t.core k).share = 0)) ∧
  (∀ (s : State) (cl : Nat), let x := s.cluster cl
    let here := clusterCtxs s cl
    (x.retiring = none → retireDue s cl = false → exec (.clusterRetire cl) s = .next s) ∧
    (x.retiring = none → retireDue s cl = true → ∃ t, exec (.clusterRetire cl) s = .next t ∧
      (t.cluster cl).retiring = some here ∧ ∀ c ∈ here, (s.ctx c).st = .running → Stopping c (.capture s.gtime false) t) ∧
    (∀ cs, x.retiring = some cs →
      ((∃ c ∈ here, c ∉ cs ∨ (s.ctx c).st = .running) → ∃ t, exec (.clusterRetire cl) s = .next t ∧
        (t.cluster cl).retiring = some (cs ++ here).eraseDups ∧ (t.cluster cl).unusable = x.unusable ∧
        ∀ c ∈ here, (s.ctx c).st = .running → Stopping c (.capture s.gtime false) t) ∧
      ((∀ c ∈ here, c ∈ cs ∧ (s.ctx c).st ≠ .running) →
        here ≠ [] ∨ (∃ c ∈ cs, (s.ctx c).st = .stopping ∨ (s.ctx c).st = .resuming) → exec (.clusterRetire cl) s = .next s) ∧
      (here = [] → (∀ c ∈ cs, (s.ctx c).st ≠ .stopping ∧ (s.ctx c).st ≠ .resuming) → ∃ t, exec (.clusterRetire cl) s = .next t ∧
        (t.cluster cl).unusable = true ∧ (t.cluster cl).retiring = none ∧ t.boot.usable = s.boot.usable - 1 ∧
        ∀ p, ownerOf s 0 cl = some p → cl ∉ (t.part p).clusters)))

/-- R175, R256, R267, R277 to R283, R285 to R287, R289, R290, R295, R297, R299, R305: a host write reaches the context's memory at
once; PARTCFG's commands change the partition's state, or leave it and say why in ERR; a key slot is filled and bound, and a device
bound and unbound, where their owner allows; Sluice zeroes what is left of a page at a time, clears the job's flag at the last, and ends the
ownership of what the job clears; an attestation report is made. The model's choices: ACTIVATE gives STATE before stage READY (log 113), a bind
keeps the kick words and the pending bitmap (log 109), and RESET ends the steps of a partition that is resetting (log 80). -/
def Obligations.PartitionEvents : Prop :=
  (∀ (s : State) (c : Nat) (va : DWord) (bs : List Byte), bs ≠ [] → va.toNat % 64 + bs.length ≤ 64 →
    (canonical va = false ∨ (∀ tr, translate s c { w := true } va ≠ .ok tr) → exec (.hostWrite c va bs) s = .next s) ∧
    (∀ tr, canonical va = true → translate s c { w := true } va = .ok tr →
      ∃ t, exec (.hostWrite c va bs) s = .next t ∧ t.rdN tr.key bs.length = bs)) ∧
  (∀ (s : State) (p : Nat), let x := s.part p
    let fails := fun (i : Instr) (e : Nat) => exec i s = .next (s.modPart p (fun y => { y with err := e }))
    let fields := fun (t : State) => (t.part p).grantCnt = s.rdLe (blockKey p + 0x4C) 4 ∧
      (t.part p).grantBase = BitVec.ofNat 64 (s.rdLe (blockKey p + 0x50) 8) ∧
      (t.part p).t2weight = Max.max 1 (s.rdLe (blockKey p + 0x4A) 2)
    (x.st = .resetting → fails (.activate p) 1 ∧ fails (.refresh p) 1 ∧ fails (.deactivate p) 1) ∧
    (x.st ≠ .resetting → x.st ≠ .ready ∨ s.boot.stage ≠ .ready → fails (.activate p) 4) ∧
    (x.st ≠ .resetting → x.st ≠ .active → fails (.refresh p) 4 ∧ fails (.reset p) 4 ∧ fails (.deactivate p) 4) ∧
    (x.st = .ready → s.boot.stage = .ready →
      (x.clusters.length < 1 ∨ x.slices.length < 2 ∨ x.channels.length < 4 → fails (.activate p) 2) ∧
      (1 ≤ x.clusters.length → 2 ≤ x.slices.length → 4 ≤ x.channels.length → ∃ t, exec (.activate p) s = .next t ∧
        (t.part p).st = .active ∧ (t.part p).err = 0 ∧ (t.part p).eacct = 0 ∧ fields t ∧ t.mem = s.mem)) ∧
    (x.st = .active →
      (∃ t, exec (.refresh p) s = .next t ∧ (t.part p).st = .active ∧ (t.part p).err = 0 ∧ fields t ∧
        t.rdLe (blockKey p + 0x58) 8 = 0 ∧
        (s.grids = [] → (t.part p).eacct = x.eacct + (s.rdLe (blockKey p + 0x58) 8 : Int))) ∧
      ((∀ cl, ∀ w ∈ (s.cluster cl).waits, (s.grp w.agent).role ≠ .headwater) →
        ∃ t, exec (.reset p) s = .next t ∧ (t.part p).st = .resetting ∧ (t.part p).err = 0 ∧ (t.part p).paused = true ∧
        (∀ q, q ≠ p → (t.part q).st = (s.part q).st) ∧ ∀ c ∈ partCtxs s p, (s.ctx c).st ≠ .free → Lost c t) ∧
      ((∃ c ∈ partCtxs s p, (s.ctx c).st ≠ .free) → fails (.deactivate p) 3) ∧
      ((∀ c ∈ partCtxs s p, (s.ctx c).st = .free) → ∃ t, exec (.deactivate p) s = .next t ∧ (t.part p).st = .scrubbing ∧
        (t.part p).err = 0 ∧ t.mem = s.mem ∧ (∀ c ∈ x.clusters, (0, c, false) ∈ (t.part p).clearing) ∧
        (∀ c ∈ x.slices, (1, c, false) ∈ (t.part p).clearing) ∧ (t.part p).jobs = x.jobs ++ wholeJobs s p 4096)) ∧
    (x.st = .resetting → ∃ t, exec (.reset p) s = .next t ∧ (t.part p).st = .scrubbing ∧
      (∀ c ∈ x.clusters, (0, c, false) ∈ (t.part p).clearing) ∧ ∀ c ∈ x.slices, (1, c, false) ∈ (t.part p).clearing)) ∧
  (∀ (s : State) (k : Nat), let x := s.key k
    (x.owner = none → exec (.generateMem k) s = .next s ∧ ∀ key tag, exec (.importReport k key tag) s = .next s) ∧
    (x.owner ≠ none →
      (∃ t, exec (.generateMem k) s = .next t ∧ t.key k = { x with mem := some (Config.entropyKey s.fresh) } ∧ t.mem = s.mem ∧
        ∀ j, j ≠ k → t.key j = s.key j) ∧
      ∀ key tag, (Config.gcmTagOk key tag = false → exec (.importReport k key tag) s = .next s) ∧
        (Config.gcmTagOk key tag = true → ∃ t, exec (.importReport k key tag) s = .next t ∧
          t.key k = { x with report := some key } ∧ ∀ j, j ≠ k → t.key j = s.key j)) ∧
    ∀ c, (x.mem ≠ none ∧ x.report ≠ none ∧ (s.ctx c).hasDesc = true ∧ x.owner = some (s.ctx c).part →
        ∃ t, exec (.keyslotBind k c) s = .next t ∧ t.key k = { x with bound := some c } ∧ ∀ j, j ≠ k → t.key j = s.key j) ∧
      (x.mem = none ∨ x.report = none ∨ (s.ctx c).hasDesc = false ∨ x.owner ≠ some (s.ctx c).part →
        exec (.keyslotBind k c) s = .next s)) ∧
  (∀ (s : State) (v : Nat),
    (∃ t, exec (.vdUnbind v) s = .next t ∧ t.vdev v = { s.vdev v with bound := none } ∧ (∀ e ∈ t.atc, e.1 ≠ v) ∧
      ∀ w, w ≠ v → t.vdev w = s.vdev w) ∧
    ∀ c, let good := (s.vdev v).owner = some (s.ctx c).part ∧ (s.part (s.ctx c).part).st = .active ∧ (s.ctx c).hasDesc = true
      (good → ∃ t, exec (.vdBind v c) s = .next t ∧ (t.vdev v).bound = some c ∧ (t.vdev v).owner = (s.vdev v).owner ∧
        (t.vdev v).kicks = (s.vdev v).kicks ∧ (t.vdev v).pending = (s.vdev v).pending ∧ (∀ w, w ≠ v → t.vdev w = s.vdev w) ∧
        ∀ q x, (s.vdev v).queues = [(q, x)] → (t.vdev v).queues = [(q, { ring := x.ring, cring := x.cring, size := x.size, vector := x.vector })] ∧
          (x.size ≠ 0 → (hostXlate (s.ctx c).part v x.cring.toNat 16 { s with atc := s.atc.filter (fun e => e.1 ≠ v) }).1 = true →
            s.hostWrites = [] → weirOpen s (s.ctx c).part 1 = true →
            ∀ i, i < 16 → t.rd (hostKey v x.cring.toNat + i) = 0)) ∧
      (¬ good → ∃ t, exec (.vdBind v c) s = .next t ∧ t.vdevs = s.vdevs ∧ t.regs.vdNone = true)) ∧
  (∀ (s : State) (p : Nat), let x := s.part p
    (x.paused = true ∨ x.jobs = [] → exec (.sluicePage p) s = .next s) ∧
    (∀ j r, x.paused = false → x.jobs = j :: r →
      (j.fence = true → ∃ t, exec (.sluicePage p) s = .next t ∧ (t.part p).jobs = r ∧ t.mem = s.mem) ∧
      (j.fence = false → p < 40 →
        let at_ := j.base + 65536 * j.done
        let k := if j.tier then t2Key p at_ else hbmKey p at_
        ∃ t, exec (.sluicePage p) s = .next t ∧
          ((∀ e ∈ x.clearing, e.1 ≠ 3) → j.done < j.pages → ∀ i, i < 65536 → i / 4 ∉ j.zeroed → t.rd (k + i) = 0) ∧
          (j.done + 1 < j.pages → (t.part p).jobs = { j with done := j.done + 1, zeroed := [] } :: r) ∧
          (j.pages ≤ j.done + 1 → (t.part p).lastDone = j.pages ∧ (∀ a, j.agent = some a → (t.grp a).pending j.flag = false) ∧
            ((∀ e ∈ x.clearing, e.1 ≠ 2 ∧ e.1 ≠ 3) → (t.part p).jobs = r) ∧
            ∀ e, j.clear = some e → (∀ y ∈ r, y.clear ≠ some e) → (e.1, e.2, true) ∈ x.clearing →
              (∀ own, (e.1, e.2, own) ∉ (t.part p).clearing) ∧ (e.1 = 2 → e.2 ∉ (t.part p).channels) ∧
              (e.1 = 3 → e.2 ∉ (t.part p).ranges))))) ∧
  (∀ (s : State) (c : Nat) (nonce : BitVec 256), ∃ t, exec (.attestationReport c nonce) s = .next t ∧ t.mem = s.mem ∧
    t.reports = s.reports ++ [reportBody c nonce s ++ Config.mldsaSign (Config.sha3 (reportBody c nonce s))])

/-! ## Reset and invariants -/

/-- R15, R16, R86, R271, R277, R302: after reset the stage is ROM, GTIME 0, every partition FREE, no context has a descriptor, only
Headwater is there, held in the boot ROM, no trap, region or flag is pending, and memory lists nothing. That a register of no
given reset value, and a byte of memory, read 0 is the model's choice (logs 1 and 2). -/
def Obligations.ResetState : Prop :=
  bootst State.reset = 0x10000000 ∧ State.reset.gtime = 0 ∧ (∀ p, (State.reset.part p).st = .free) ∧
  (∀ c, (State.reset.ctx c).hasDesc = false ∧ (State.reset.ctx c).st = .free) ∧
  (∀ a, a ≠ 0 → (State.reset.grp a).role = .absent) ∧ (State.reset.grp 0).role = .headwater ∧
  ((State.reset.grp 0).lane 0).st = .rom ∧ canIssue State.reset 0 = false ∧
  (State.reset.grp 0).fpmode = 0 ∧ (State.reset.grp 0).fpflags = 0 ∧ (State.reset.grp 0).flags = 0 ∧
  (State.reset.grp 0).trap = {} ∧ (State.reset.grp 0).region = none ∧
  (∀ v, (State.reset.weir.at v).unbudget = 0) ∧ (∀ k, State.reset.rd k = 0) ∧ MemWf State.reset

/-- The memory keeps its canonical form in every step that answers a next state, from every state. -/
def Obligations.MemoryStaysCanonical : Prop :=
  ∀ s s' : State, MemWf s → step s = .next s' → MemWf s'
end

