-- ==== Sys2Proof/Laws/Tbl.lean ====
section
/-!
SUPPORT. The laws of tables (`Tbl`): reading after a write, reading after a map or a filter, the canonical
form, and that equal readings of canonical tables are equal tables.
-/

namespace Sys2Proof

variable {α : Type} [Inhabited α]

@[simp] theorem Tbl.at_nil (k : Nat) : Tbl.at ([] : Tbl α) k = default := rfl

theorem Tbl.at_drop (t : Tbl α) (k n : Nat) : Tbl.at (Tbl.drop t k) n = if n = k then default else Tbl.at t n := by
  induction t with
  | nil => simp [Tbl.drop]
  | cons p t ih =>
    obtain ⟨b, x⟩ := p
    by_cases hb : b = k
    · subst hb
      by_cases hn : n = b
      · subst hn; simpa [Tbl.drop] using ih
      · simpa [Tbl.drop, hn, Tbl.at, Ne.symm hn] using ih
    · by_cases hn : b = n
      · subst hn; simp [Tbl.drop, hb, Tbl.at]
      · simp [Tbl.drop, hb, Tbl.at, hn, ih]

theorem Tbl.at_insert_other (t : Tbl α) {k n : Nat} (v : α) (h : n ≠ k) :
    Tbl.at (Tbl.insert t k v) n = Tbl.at t n := by
  induction t with
  | nil => simp [Tbl.insert, Tbl.at, Ne.symm h]
  | cons p t ih =>
    obtain ⟨b, x⟩ := p
    by_cases hk : k < b
    · simp [Tbl.insert, hk, Tbl.at, Ne.symm h]
    · simp [Tbl.insert, hk, Tbl.at, ih]

/-- A table without an entry for `k`. -/
def Tbl.lacks (t : Tbl α) (k : Nat) : Prop := ∀ p ∈ t, p.1 ≠ k

omit [Inhabited α] in
theorem Tbl.drop_lacks (t : Tbl α) (k : Nat) : Tbl.lacks (Tbl.drop t k) k := by
  induction t with
  | nil => simp [Tbl.drop, Tbl.lacks]
  | cons p t ih =>
    obtain ⟨b, x⟩ := p
    by_cases hb : b = k
    · simpa [Tbl.drop, hb] using ih
    · simpa [Tbl.drop, hb, Tbl.lacks] using ih

theorem Tbl.at_insert_same {t : Tbl α} {k : Nat} (h : Tbl.lacks t k) (v : α) : Tbl.at (Tbl.insert t k v) k = v := by
  induction t with
  | nil => simp [Tbl.insert, Tbl.at]
  | cons p t ih =>
    obtain ⟨b, x⟩ := p
    have hb : b ≠ k := h (b, x) (by simp)
    have ht : Tbl.lacks t k := fun q hq => h q (by simp [hq])
    by_cases hk : k < b
    · simp [Tbl.insert, hk, Tbl.at]
    · simp [Tbl.insert, hk, Tbl.at, hb, ih ht]

theorem Tbl.at_put [DecidableEq α] (t : Tbl α) (k n : Nat) (v : α) :
    Tbl.at (Tbl.put t k v) n = if n = k then v else Tbl.at t n := by
  by_cases hv : v = default
  · simp only [Tbl.put, hv, if_true, Tbl.at_drop]
  · simp only [Tbl.put, hv, if_false]
    by_cases hn : n = k
    · subst hn; simp [Tbl.at_insert_same (Tbl.drop_lacks t n)]
    · simp [Tbl.at_insert_other _ v hn, Tbl.at_drop, hn]

@[simp] theorem Tbl.at_put_same [DecidableEq α] (t : Tbl α) (k : Nat) (v : α) : Tbl.at (Tbl.put t k v) k = v := by
  simp [Tbl.at_put]

theorem Tbl.at_put_other [DecidableEq α] (t : Tbl α) {k n : Nat} (v : α) (h : n ≠ k) :
    Tbl.at (Tbl.put t k v) n = Tbl.at t n := by
  simp [Tbl.at_put, h]

/-- Whether a table lists a number. -/
def Tbl.lists (t : Tbl α) (k : Nat) : Bool := t.any (fun p => p.1 = k)

theorem Tbl.at_unlisted {t : Tbl α} {k : Nat} (h : Tbl.lists t k = false) : Tbl.at t k = default := by
  induction t with
  | nil => rfl
  | cons p t ih =>
    obtain ⟨b, x⟩ := p
    simp only [Tbl.lists, List.any_cons, Bool.or_eq_false_iff, decide_eq_false_iff_not] at h
    simp only [Tbl.at, h.1, if_false]
    exact ih h.2

/-- Reading a table whose values were mapped: the mapped value where the number is listed. -/
theorem Tbl.at_map (t : Tbl α) (f : Nat → α → α) (k : Nat) :
    Tbl.at (t.map (fun p => (p.1, f p.1 p.2))) k = if Tbl.lists t k then f k (Tbl.at t k) else default := by
  induction t with
  | nil => simp [Tbl.lists]
  | cons p t ih =>
    obtain ⟨b, x⟩ := p
    by_cases hb : b = k
    · subst hb; simp [Tbl.at, Tbl.lists]
    · have hl : Tbl.lists ((b, x) :: t) k = Tbl.lists t k := by simp [Tbl.lists, hb]
      simp only [List.map_cons, Tbl.at, hb, if_false, hl, ih]

theorem Tbl.at_filter (t : Tbl α) (f : Nat → Bool) (k : Nat) :
    Tbl.at (t.filter (fun p => f p.1)) k = if f k then Tbl.at t k else default := by
  induction t with
  | nil => simp
  | cons p t ih =>
    obtain ⟨b, x⟩ := p
    by_cases hf : f b = true
    · rw [List.filter_cons_of_pos (by simpa using hf)]
      by_cases hb : b = k
      · subst hb; simp [Tbl.at, hf]
      · simp only [Tbl.at, hb, if_false, ih]
    · rw [List.filter_cons_of_neg (by simpa using hf)]
      by_cases hb : b = k
      · subst hb; simp [ih, hf]
      · simp only [Tbl.at, hb, if_false, ih]

/-! ## The canonical form -/

variable [DecidableEq α]

theorem Tbl.wfFrom_cons (lo : Option Nat) (b : Nat) (x : α) (t : Tbl α) :
    Tbl.wfFrom lo ((b, x) :: t) = true ↔ (∀ l, lo = some l → l < b) ∧ x ≠ default ∧ Tbl.wfFrom (some b) t = true := by
  cases lo <;> simp [Tbl.wfFrom, and_assoc]

theorem Tbl.wfFrom_mono {lo lo' : Option Nat} {t : Tbl α} (h : Tbl.wfFrom lo t = true)
    (hl : ∀ l', lo' = some l' → ∀ p ∈ t, l' < p.1) : Tbl.wfFrom lo' t = true := by
  cases t with
  | nil => rfl
  | cons p t =>
    obtain ⟨b, x⟩ := p
    rw [Tbl.wfFrom_cons] at h ⊢
    exact ⟨fun l hl' => hl l hl' (b, x) (by simp), h.2⟩

/-- Every number of a table in canonical form lies above the bound. -/
theorem Tbl.wfFrom_lt {t : Tbl α} {l : Nat} (h : Tbl.wfFrom (some l) t = true) : ∀ p ∈ t, l < p.1 := by
  induction t generalizing l with
  | nil => simp
  | cons p t ih =>
    obtain ⟨b, x⟩ := p
    rw [Tbl.wfFrom_cons] at h
    intro q hq
    rcases List.mem_cons.1 hq with rfl | hq
    · exact h.1 l rfl
    · exact (h.1 l rfl).trans (ih h.2.2 q hq)

theorem Tbl.wfFrom_ne {t : Tbl α} {lo : Option Nat} (h : Tbl.wfFrom lo t = true) : ∀ p ∈ t, p.2 ≠ default := by
  induction t generalizing lo with
  | nil => simp
  | cons p t ih =>
    obtain ⟨b, x⟩ := p
    rw [Tbl.wfFrom_cons] at h
    intro q hq
    rcases List.mem_cons.1 hq with rfl | hq
    · exact h.2.1
    · exact ih h.2.2 q hq

theorem Tbl.wfFrom_weaken {t : Tbl α} {lo : Option Nat} (h : Tbl.wfFrom lo t = true) : Tbl.wf t = true :=
  Tbl.wfFrom_mono h (by simp)

theorem Tbl.wfFrom_filter {t : Tbl α} {lo : Option Nat} (f : Nat × α → Bool) (h : Tbl.wfFrom lo t = true) :
    Tbl.wfFrom lo (t.filter f) = true := by
  induction t generalizing lo with
  | nil => rfl
  | cons p t ih =>
    obtain ⟨b, x⟩ := p
    rw [Tbl.wfFrom_cons] at h
    by_cases hf : f (b, x) = true
    · rw [List.filter_cons_of_pos hf, Tbl.wfFrom_cons]
      exact ⟨h.1, h.2.1, ih h.2.2⟩
    · rw [List.filter_cons_of_neg hf]
      refine Tbl.wfFrom_mono (ih h.2.2) (fun l hl p hp => ?_)
      exact (h.1 l hl).trans (Tbl.wfFrom_lt h.2.2 p (List.mem_of_mem_filter hp))

theorem Tbl.wf_filter {t : Tbl α} (f : Nat × α → Bool) (h : Tbl.wf t = true) : Tbl.wf (t.filter f) = true :=
  Tbl.wfFrom_filter f h

theorem Tbl.wfFrom_append {t u : Tbl α} {lo : Option Nat} {m : Nat} (ht : Tbl.wfFrom lo t = true)
    (hu : Tbl.wf u = true) (hm : ∀ p ∈ t, p.1 < m) (hn : ∀ p ∈ u, m ≤ p.1)
    (hlo : ∀ l, lo = some l → l < m) : Tbl.wfFrom lo (t ++ u) = true := by
  induction t generalizing lo with
  | nil => exact Tbl.wfFrom_mono hu (fun l hl p hp => (hlo l hl).trans_le (hn p hp))
  | cons p t ih =>
    obtain ⟨b, x⟩ := p
    rw [Tbl.wfFrom_cons] at ht
    rw [List.cons_append, Tbl.wfFrom_cons]
    refine ⟨ht.1, ht.2.1, ih ht.2.2 (fun p hp => hm p (by simp [hp])) (fun l hl => ?_)⟩
    have := hm (b, x) (by simp)
    cases hl; exact this

theorem Tbl.wf_append {t u : Tbl α} {m : Nat} (ht : Tbl.wf t = true) (hu : Tbl.wf u = true)
    (hm : ∀ p ∈ t, p.1 < m) (hn : ∀ p ∈ u, m ≤ p.1) : Tbl.wf (t ++ u) = true :=
  Tbl.wfFrom_append ht hu hm hn (by simp)

omit [Inhabited α] [DecidableEq α] in
theorem Tbl.drop_eq_filter (t : Tbl α) (k : Nat) : Tbl.drop t k = t.filter (fun p => decide (p.1 ≠ k)) := by
  induction t with
  | nil => rfl
  | cons p t ih =>
    obtain ⟨b, x⟩ := p
    by_cases hb : b = k <;> simp [Tbl.drop, hb, ih]

theorem Tbl.wfFrom_insert {t : Tbl α} {k : Nat} {v : α} {lo : Option Nat} (h : Tbl.wfFrom lo t = true)
    (hk : Tbl.lacks t k) (hv : v ≠ default) (hlo : ∀ l, lo = some l → l < k) :
    Tbl.wfFrom lo (Tbl.insert t k v) = true := by
  induction t generalizing lo with
  | nil => rw [Tbl.insert, Tbl.wfFrom_cons]; exact ⟨hlo, hv, rfl⟩
  | cons p t ih =>
    obtain ⟨b, x⟩ := p
    rw [Tbl.wfFrom_cons] at h
    have hb : b ≠ k := hk (b, x) (by simp)
    by_cases hlt : k < b
    · simp only [Tbl.insert, hlt, if_true]
      rw [Tbl.wfFrom_cons, Tbl.wfFrom_cons]
      exact ⟨hlo, hv, fun l hl => by cases hl; exact hlt, h.2⟩
    · simp only [Tbl.insert, hlt, if_false]
      rw [Tbl.wfFrom_cons]
      refine ⟨h.1, h.2.1, ih h.2.2 (fun q hq => hk q (by simp [hq])) (fun l hl => ?_)⟩
      cases hl; omega

theorem Tbl.wf_put {t : Tbl α} (h : Tbl.wf t = true) (k : Nat) (v : α) : Tbl.wf (Tbl.put t k v) = true := by
  by_cases hv : v = default
  · simp only [Tbl.put, hv, if_true, Tbl.drop_eq_filter]; exact Tbl.wf_filter _ h
  · simp only [Tbl.put, hv, if_false]
    refine Tbl.wfFrom_insert ?_ (Tbl.drop_lacks t k) hv (by simp)
    rw [Tbl.drop_eq_filter]; exact Tbl.wf_filter _ h

/-- Canonical tables that read the same everywhere are the same table. -/
theorem Tbl.wfFrom_ext {t u : Tbl α} {lo : Option Nat} (ht : Tbl.wfFrom lo t = true) (hu : Tbl.wfFrom lo u = true)
    (h : ∀ k, Tbl.at t k = Tbl.at u k) : t = u := by
  have unl : ∀ {v : Tbl α} {l : Nat}, Tbl.wfFrom (some l) v = true → ∀ k ≤ l, Tbl.at v k = default := by
    intro v l hv k hk
    refine Tbl.at_unlisted ?_
    simp only [Tbl.lists, List.any_eq_false, decide_eq_true_eq]
    exact fun p hp hpk => by have := Tbl.wfFrom_lt hv p hp; omega
  induction t generalizing u lo with
  | nil =>
    cases u with
    | nil => rfl
    | cons q u =>
      obtain ⟨c, y⟩ := q
      have := h c
      rw [Tbl.wfFrom_cons] at hu
      simp [Tbl.at] at this
      exact absurd this.symm hu.2.1
  | cons p t ih =>
    obtain ⟨b, x⟩ := p
    rw [Tbl.wfFrom_cons] at ht
    cases u with
    | nil =>
      have := h b
      simp [Tbl.at] at this
      exact absurd this ht.2.1
    | cons q u =>
      obtain ⟨c, y⟩ := q
      rw [Tbl.wfFrom_cons] at hu
      have hbc : b = c := by
        rcases Nat.lt_trichotomy b c with hlt | heq | hgt
        · have hb := h b
          simp only [Tbl.at, if_true, show ¬ c = b by omega, if_false] at hb
          rw [unl hu.2.2 b (by omega)] at hb
          exact absurd hb ht.2.1
        · exact heq
        · have hc := h c
          simp only [Tbl.at, if_true, show ¬ b = c by omega, if_false] at hc
          rw [unl ht.2.2 c (by omega)] at hc
          exact absurd hc.symm hu.2.1
      subst hbc
      have hx := h b
      simp only [Tbl.at, if_true] at hx
      subst hx
      have := ih ht.2.2 hu.2.2 (fun k => by
        by_cases hk : k = b
        · subst hk; rw [unl ht.2.2 k le_rfl, unl hu.2.2 k le_rfl]
        · have hk' := h k
          simpa only [Tbl.at, Ne.symm hk, if_false] using hk')
      rw [this]

/-! ## Mapped values -/

theorem Machine.at_mapV (f : Nat → α → α) (t : Tbl α) (k : Nat) :
    Tbl.at (Machine.mapV f t) k = if Tbl.lists t k then f k (Tbl.at t k) else default := by
  induction t with
  | nil => simp [Machine.mapV, Tbl.lists]
  | cons p t ih =>
    obtain ⟨b, x⟩ := p
    simp only [Machine.mapV, List.foldr_cons] at ih ⊢
    rw [Tbl.at_put]
    by_cases hb : b = k
    · subst hb; simp [Tbl.at, Tbl.lists]
    · have hl : Tbl.lists ((b, x) :: t) k = Tbl.lists t k := by simp [Tbl.lists, hb]
      simp only [ih, hl, Tbl.at, hb, if_false, Ne.symm hb]

/-- Where `f` leaves the default as it is, every number is mapped. -/
theorem Machine.at_mapV_all (f : Nat → α → α) (hf : ∀ k, f k default = default) (t : Tbl α) (k : Nat) :
    Tbl.at (Machine.mapV f t) k = f k (Tbl.at t k) := by
  rw [Machine.at_mapV]
  by_cases h : Tbl.lists t k = true
  · simp [h]
  · rw [if_neg h, Tbl.at_unlisted (by simpa using h), hf]

theorem Machine.wf_mapV (f : Nat → α → α) (t : Tbl α) : Tbl.wf (Machine.mapV f t) = true := by
  induction t with
  | nil => rfl
  | cons p t ih => exact Tbl.wf_put ih p.1 _

end Sys2Proof
end

