-- ==== Sys2Proof/Laws/State.lean ====
section
/-!
SUPPORT. The laws of the state's updates: one lemma per field per update, and what an accessor reads after
an update of its own table.
-/

namespace Sys2Proof.Machine

/-! ## Updates of the state -/

section
variable (s : State) (n : Nat) (f : Group → Group)

@[simp] theorem State.modGrp_teams : (s.modGrp n f).teams = s.teams := rfl
@[simp] theorem State.modGrp_grids : (s.modGrp n f).grids = s.grids := rfl
@[simp] theorem State.modGrp_ctxs : (s.modGrp n f).ctxs = s.ctxs := rfl
@[simp] theorem State.modGrp_cores : (s.modGrp n f).cores = s.cores := rfl
@[simp] theorem State.modGrp_clusters : (s.modGrp n f).clusters = s.clusters := rfl
@[simp] theorem State.modGrp_parts : (s.modGrp n f).parts = s.parts := rfl
@[simp] theorem State.modGrp_keys : (s.modGrp n f).keys = s.keys := rfl
@[simp] theorem State.modGrp_vdevs : (s.modGrp n f).vdevs = s.vdevs := rfl
@[simp] theorem State.modGrp_insts : (s.modGrp n f).insts = s.insts := rfl
@[simp] theorem State.modGrp_slots : (s.modGrp n f).slots = s.slots := rfl
@[simp] theorem State.modGrp_slotReqs : (s.modGrp n f).slotReqs = s.slotReqs := rfl
@[simp] theorem State.modGrp_weir : (s.modGrp n f).weir = s.weir := rfl
@[simp] theorem State.modGrp_l2 : (s.modGrp n f).l2 = s.l2 := rfl
@[simp] theorem State.modGrp_mem : (s.modGrp n f).mem = s.mem := rfl
@[simp] theorem State.modGrp_xlat : (s.modGrp n f).xlat = s.xlat := rfl
@[simp] theorem State.modGrp_raced : (s.modGrp n f).raced = s.raced := rfl
@[simp] theorem State.modGrp_boot : (s.modGrp n f).boot = s.boot := rfl
@[simp] theorem State.modGrp_regs : (s.modGrp n f).regs = s.regs := rfl
@[simp] theorem State.modGrp_gtime : (s.modGrp n f).gtime = s.gtime := rfl
@[simp] theorem State.modGrp_retiredHw : (s.modGrp n f).retiredHw = s.retiredHw := rfl
@[simp] theorem State.modGrp_clks : (s.modGrp n f).clks = s.clks := rfl
@[simp] theorem State.modGrp_passed : (s.modGrp n f).passed = s.passed := rfl
@[simp] theorem State.modGrp_slotNo : (s.modGrp n f).slotNo = s.slotNo := rfl
@[simp] theorem State.modGrp_sent : (s.modGrp n f).sent = s.sent := rfl
@[simp] theorem State.modGrp_inbox : (s.modGrp n f).inbox = s.inbox := rfl
@[simp] theorem State.modGrp_buffered : (s.modGrp n f).buffered = s.buffered := rfl
@[simp] theorem State.modGrp_stamped : (s.modGrp n f).stamped = s.stamped := rfl
@[simp] theorem State.modGrp_early : (s.modGrp n f).early = s.early := rfl
@[simp] theorem State.modGrp_msix : (s.modGrp n f).msix = s.msix := rfl
@[simp] theorem State.modGrp_hostWrites : (s.modGrp n f).hostWrites = s.hostWrites := rfl
@[simp] theorem State.modGrp_weirWin : (s.modGrp n f).weirWin = s.weirWin := rfl
@[simp] theorem State.modGrp_atc : (s.modGrp n f).atc = s.atc := rfl
@[simp] theorem State.modGrp_hostAbsent : (s.modGrp n f).hostAbsent = s.hostAbsent := rfl
@[simp] theorem State.modGrp_hostWaits : (s.modGrp n f).hostWaits = s.hostWaits := rfl
@[simp] theorem State.modGrp_tagErrors : (s.modGrp n f).tagErrors = s.tagErrors := rfl
@[simp] theorem State.modGrp_discarded : (s.modGrp n f).discarded = s.discarded := rfl
@[simp] theorem State.modGrp_replays : (s.modGrp n f).replays = s.replays := rfl
@[simp] theorem State.modGrp_links : (s.modGrp n f).links = s.links := rfl
@[simp] theorem State.modGrp_softErrors : (s.modGrp n f).softErrors = s.softErrors := rfl
@[simp] theorem State.modGrp_reports : (s.modGrp n f).reports = s.reports := rfl
@[simp] theorem State.modGrp_outcome : (s.modGrp n f).outcome = s.outcome := rfl
@[simp] theorem State.modGrp_fresh : (s.modGrp n f).fresh = s.fresh := rfl
@[simp] theorem State.modGrp_cur : (s.modGrp n f).cur = s.cur := rfl
@[simp] theorem State.modGrp_agenda : (s.modGrp n f).agenda = s.agenda := rfl
@[simp] theorem State.modGrp_pace : (s.modGrp n f).pace = s.pace := rfl
@[simp] theorem State.modGrp_tick : (s.modGrp n f).tick = s.tick := rfl
theorem State.modGrp_grp (m : Nat) : (s.modGrp n f).grp m = if m = n then f (s.grp n) else s.grp m := Tbl.at_put ..
@[simp] theorem State.modGrp_grp_same : (s.modGrp n f).grp n = f (s.grp n) := Tbl.at_put_same ..
theorem State.modGrp_grp_other {m : Nat} (h : m ≠ n) : (s.modGrp n f).grp m = s.grp m := Tbl.at_put_other _ _ h
@[simp] theorem State.modGrp_team (m : Nat) : (s.modGrp n f).team m = s.team m := rfl
@[simp] theorem State.modGrp_grid (m : Nat) : (s.modGrp n f).grid m = s.grid m := rfl
@[simp] theorem State.modGrp_ctx (m : Nat) : (s.modGrp n f).ctx m = s.ctx m := rfl
@[simp] theorem State.modGrp_core (m : Nat) : (s.modGrp n f).core m = s.core m := rfl
@[simp] theorem State.modGrp_cluster (m : Nat) : (s.modGrp n f).cluster m = s.cluster m := rfl
@[simp] theorem State.modGrp_part (m : Nat) : (s.modGrp n f).part m = s.part m := rfl
@[simp] theorem State.modGrp_vdev (m : Nat) : (s.modGrp n f).vdev m = s.vdev m := rfl
@[simp] theorem State.modGrp_inst (m : Nat) : (s.modGrp n f).inst m = s.inst m := rfl
@[simp] theorem State.modGrp_l2line (m : Nat) : (s.modGrp n f).l2line m = s.l2line m := rfl
@[simp] theorem State.modGrp_key (m : Nat) : (s.modGrp n f).key m = s.key m := rfl
end

section
variable (s : State) (n : Nat) (f : Team → Team)

@[simp] theorem State.modTeam_groups : (s.modTeam n f).groups = s.groups := rfl
@[simp] theorem State.modTeam_grids : (s.modTeam n f).grids = s.grids := rfl
@[simp] theorem State.modTeam_ctxs : (s.modTeam n f).ctxs = s.ctxs := rfl
@[simp] theorem State.modTeam_cores : (s.modTeam n f).cores = s.cores := rfl
@[simp] theorem State.modTeam_clusters : (s.modTeam n f).clusters = s.clusters := rfl
@[simp] theorem State.modTeam_parts : (s.modTeam n f).parts = s.parts := rfl
@[simp] theorem State.modTeam_keys : (s.modTeam n f).keys = s.keys := rfl
@[simp] theorem State.modTeam_vdevs : (s.modTeam n f).vdevs = s.vdevs := rfl
@[simp] theorem State.modTeam_insts : (s.modTeam n f).insts = s.insts := rfl
@[simp] theorem State.modTeam_slots : (s.modTeam n f).slots = s.slots := rfl
@[simp] theorem State.modTeam_slotReqs : (s.modTeam n f).slotReqs = s.slotReqs := rfl
@[simp] theorem State.modTeam_weir : (s.modTeam n f).weir = s.weir := rfl
@[simp] theorem State.modTeam_l2 : (s.modTeam n f).l2 = s.l2 := rfl
@[simp] theorem State.modTeam_mem : (s.modTeam n f).mem = s.mem := rfl
@[simp] theorem State.modTeam_xlat : (s.modTeam n f).xlat = s.xlat := rfl
@[simp] theorem State.modTeam_raced : (s.modTeam n f).raced = s.raced := rfl
@[simp] theorem State.modTeam_boot : (s.modTeam n f).boot = s.boot := rfl
@[simp] theorem State.modTeam_regs : (s.modTeam n f).regs = s.regs := rfl
@[simp] theorem State.modTeam_gtime : (s.modTeam n f).gtime = s.gtime := rfl
@[simp] theorem State.modTeam_retiredHw : (s.modTeam n f).retiredHw = s.retiredHw := rfl
@[simp] theorem State.modTeam_clks : (s.modTeam n f).clks = s.clks := rfl
@[simp] theorem State.modTeam_passed : (s.modTeam n f).passed = s.passed := rfl
@[simp] theorem State.modTeam_slotNo : (s.modTeam n f).slotNo = s.slotNo := rfl
@[simp] theorem State.modTeam_sent : (s.modTeam n f).sent = s.sent := rfl
@[simp] theorem State.modTeam_inbox : (s.modTeam n f).inbox = s.inbox := rfl
@[simp] theorem State.modTeam_buffered : (s.modTeam n f).buffered = s.buffered := rfl
@[simp] theorem State.modTeam_stamped : (s.modTeam n f).stamped = s.stamped := rfl
@[simp] theorem State.modTeam_early : (s.modTeam n f).early = s.early := rfl
@[simp] theorem State.modTeam_msix : (s.modTeam n f).msix = s.msix := rfl
@[simp] theorem State.modTeam_hostWrites : (s.modTeam n f).hostWrites = s.hostWrites := rfl
@[simp] theorem State.modTeam_weirWin : (s.modTeam n f).weirWin = s.weirWin := rfl
@[simp] theorem State.modTeam_atc : (s.modTeam n f).atc = s.atc := rfl
@[simp] theorem State.modTeam_hostAbsent : (s.modTeam n f).hostAbsent = s.hostAbsent := rfl
@[simp] theorem State.modTeam_hostWaits : (s.modTeam n f).hostWaits = s.hostWaits := rfl
@[simp] theorem State.modTeam_tagErrors : (s.modTeam n f).tagErrors = s.tagErrors := rfl
@[simp] theorem State.modTeam_discarded : (s.modTeam n f).discarded = s.discarded := rfl
@[simp] theorem State.modTeam_replays : (s.modTeam n f).replays = s.replays := rfl
@[simp] theorem State.modTeam_links : (s.modTeam n f).links = s.links := rfl
@[simp] theorem State.modTeam_softErrors : (s.modTeam n f).softErrors = s.softErrors := rfl
@[simp] theorem State.modTeam_reports : (s.modTeam n f).reports = s.reports := rfl
@[simp] theorem State.modTeam_outcome : (s.modTeam n f).outcome = s.outcome := rfl
@[simp] theorem State.modTeam_fresh : (s.modTeam n f).fresh = s.fresh := rfl
@[simp] theorem State.modTeam_cur : (s.modTeam n f).cur = s.cur := rfl
@[simp] theorem State.modTeam_agenda : (s.modTeam n f).agenda = s.agenda := rfl
@[simp] theorem State.modTeam_pace : (s.modTeam n f).pace = s.pace := rfl
@[simp] theorem State.modTeam_tick : (s.modTeam n f).tick = s.tick := rfl
theorem State.modTeam_team (m : Nat) : (s.modTeam n f).team m = if m = n then f (s.team n) else s.team m := Tbl.at_put ..
@[simp] theorem State.modTeam_team_same : (s.modTeam n f).team n = f (s.team n) := Tbl.at_put_same ..
theorem State.modTeam_team_other {m : Nat} (h : m ≠ n) : (s.modTeam n f).team m = s.team m := Tbl.at_put_other _ _ h
@[simp] theorem State.modTeam_grp (m : Nat) : (s.modTeam n f).grp m = s.grp m := rfl
@[simp] theorem State.modTeam_grid (m : Nat) : (s.modTeam n f).grid m = s.grid m := rfl
@[simp] theorem State.modTeam_ctx (m : Nat) : (s.modTeam n f).ctx m = s.ctx m := rfl
@[simp] theorem State.modTeam_core (m : Nat) : (s.modTeam n f).core m = s.core m := rfl
@[simp] theorem State.modTeam_cluster (m : Nat) : (s.modTeam n f).cluster m = s.cluster m := rfl
@[simp] theorem State.modTeam_part (m : Nat) : (s.modTeam n f).part m = s.part m := rfl
@[simp] theorem State.modTeam_vdev (m : Nat) : (s.modTeam n f).vdev m = s.vdev m := rfl
@[simp] theorem State.modTeam_inst (m : Nat) : (s.modTeam n f).inst m = s.inst m := rfl
@[simp] theorem State.modTeam_l2line (m : Nat) : (s.modTeam n f).l2line m = s.l2line m := rfl
@[simp] theorem State.modTeam_key (m : Nat) : (s.modTeam n f).key m = s.key m := rfl
end

section
variable (s : State) (n : Nat) (f : Grid → Grid)

@[simp] theorem State.modGrid_groups : (s.modGrid n f).groups = s.groups := rfl
@[simp] theorem State.modGrid_teams : (s.modGrid n f).teams = s.teams := rfl
@[simp] theorem State.modGrid_ctxs : (s.modGrid n f).ctxs = s.ctxs := rfl
@[simp] theorem State.modGrid_cores : (s.modGrid n f).cores = s.cores := rfl
@[simp] theorem State.modGrid_clusters : (s.modGrid n f).clusters = s.clusters := rfl
@[simp] theorem State.modGrid_parts : (s.modGrid n f).parts = s.parts := rfl
@[simp] theorem State.modGrid_keys : (s.modGrid n f).keys = s.keys := rfl
@[simp] theorem State.modGrid_vdevs : (s.modGrid n f).vdevs = s.vdevs := rfl
@[simp] theorem State.modGrid_insts : (s.modGrid n f).insts = s.insts := rfl
@[simp] theorem State.modGrid_slots : (s.modGrid n f).slots = s.slots := rfl
@[simp] theorem State.modGrid_slotReqs : (s.modGrid n f).slotReqs = s.slotReqs := rfl
@[simp] theorem State.modGrid_weir : (s.modGrid n f).weir = s.weir := rfl
@[simp] theorem State.modGrid_l2 : (s.modGrid n f).l2 = s.l2 := rfl
@[simp] theorem State.modGrid_mem : (s.modGrid n f).mem = s.mem := rfl
@[simp] theorem State.modGrid_xlat : (s.modGrid n f).xlat = s.xlat := rfl
@[simp] theorem State.modGrid_raced : (s.modGrid n f).raced = s.raced := rfl
@[simp] theorem State.modGrid_boot : (s.modGrid n f).boot = s.boot := rfl
@[simp] theorem State.modGrid_regs : (s.modGrid n f).regs = s.regs := rfl
@[simp] theorem State.modGrid_gtime : (s.modGrid n f).gtime = s.gtime := rfl
@[simp] theorem State.modGrid_retiredHw : (s.modGrid n f).retiredHw = s.retiredHw := rfl
@[simp] theorem State.modGrid_clks : (s.modGrid n f).clks = s.clks := rfl
@[simp] theorem State.modGrid_passed : (s.modGrid n f).passed = s.passed := rfl
@[simp] theorem State.modGrid_slotNo : (s.modGrid n f).slotNo = s.slotNo := rfl
@[simp] theorem State.modGrid_sent : (s.modGrid n f).sent = s.sent := rfl
@[simp] theorem State.modGrid_inbox : (s.modGrid n f).inbox = s.inbox := rfl
@[simp] theorem State.modGrid_buffered : (s.modGrid n f).buffered = s.buffered := rfl
@[simp] theorem State.modGrid_stamped : (s.modGrid n f).stamped = s.stamped := rfl
@[simp] theorem State.modGrid_early : (s.modGrid n f).early = s.early := rfl
@[simp] theorem State.modGrid_msix : (s.modGrid n f).msix = s.msix := rfl
@[simp] theorem State.modGrid_hostWrites : (s.modGrid n f).hostWrites = s.hostWrites := rfl
@[simp] theorem State.modGrid_weirWin : (s.modGrid n f).weirWin = s.weirWin := rfl
@[simp] theorem State.modGrid_atc : (s.modGrid n f).atc = s.atc := rfl
@[simp] theorem State.modGrid_hostAbsent : (s.modGrid n f).hostAbsent = s.hostAbsent := rfl
@[simp] theorem State.modGrid_hostWaits : (s.modGrid n f).hostWaits = s.hostWaits := rfl
@[simp] theorem State.modGrid_tagErrors : (s.modGrid n f).tagErrors = s.tagErrors := rfl
@[simp] theorem State.modGrid_discarded : (s.modGrid n f).discarded = s.discarded := rfl
@[simp] theorem State.modGrid_replays : (s.modGrid n f).replays = s.replays := rfl
@[simp] theorem State.modGrid_links : (s.modGrid n f).links = s.links := rfl
@[simp] theorem State.modGrid_softErrors : (s.modGrid n f).softErrors = s.softErrors := rfl
@[simp] theorem State.modGrid_reports : (s.modGrid n f).reports = s.reports := rfl
@[simp] theorem State.modGrid_outcome : (s.modGrid n f).outcome = s.outcome := rfl
@[simp] theorem State.modGrid_fresh : (s.modGrid n f).fresh = s.fresh := rfl
@[simp] theorem State.modGrid_cur : (s.modGrid n f).cur = s.cur := rfl
@[simp] theorem State.modGrid_agenda : (s.modGrid n f).agenda = s.agenda := rfl
@[simp] theorem State.modGrid_pace : (s.modGrid n f).pace = s.pace := rfl
@[simp] theorem State.modGrid_tick : (s.modGrid n f).tick = s.tick := rfl
theorem State.modGrid_grid (m : Nat) : (s.modGrid n f).grid m = if m = n then f (s.grid n) else s.grid m := Tbl.at_put ..
@[simp] theorem State.modGrid_grid_same : (s.modGrid n f).grid n = f (s.grid n) := Tbl.at_put_same ..
theorem State.modGrid_grid_other {m : Nat} (h : m ≠ n) : (s.modGrid n f).grid m = s.grid m := Tbl.at_put_other _ _ h
@[simp] theorem State.modGrid_grp (m : Nat) : (s.modGrid n f).grp m = s.grp m := rfl
@[simp] theorem State.modGrid_team (m : Nat) : (s.modGrid n f).team m = s.team m := rfl
@[simp] theorem State.modGrid_ctx (m : Nat) : (s.modGrid n f).ctx m = s.ctx m := rfl
@[simp] theorem State.modGrid_core (m : Nat) : (s.modGrid n f).core m = s.core m := rfl
@[simp] theorem State.modGrid_cluster (m : Nat) : (s.modGrid n f).cluster m = s.cluster m := rfl
@[simp] theorem State.modGrid_part (m : Nat) : (s.modGrid n f).part m = s.part m := rfl
@[simp] theorem State.modGrid_vdev (m : Nat) : (s.modGrid n f).vdev m = s.vdev m := rfl
@[simp] theorem State.modGrid_inst (m : Nat) : (s.modGrid n f).inst m = s.inst m := rfl
@[simp] theorem State.modGrid_l2line (m : Nat) : (s.modGrid n f).l2line m = s.l2line m := rfl
@[simp] theorem State.modGrid_key (m : Nat) : (s.modGrid n f).key m = s.key m := rfl
end

section
variable (s : State) (n : Nat) (f : Context → Context)

@[simp] theorem State.modCtx_groups : (s.modCtx n f).groups = s.groups := rfl
@[simp] theorem State.modCtx_teams : (s.modCtx n f).teams = s.teams := rfl
@[simp] theorem State.modCtx_grids : (s.modCtx n f).grids = s.grids := rfl
@[simp] theorem State.modCtx_cores : (s.modCtx n f).cores = s.cores := rfl
@[simp] theorem State.modCtx_clusters : (s.modCtx n f).clusters = s.clusters := rfl
@[simp] theorem State.modCtx_parts : (s.modCtx n f).parts = s.parts := rfl
@[simp] theorem State.modCtx_keys : (s.modCtx n f).keys = s.keys := rfl
@[simp] theorem State.modCtx_vdevs : (s.modCtx n f).vdevs = s.vdevs := rfl
@[simp] theorem State.modCtx_insts : (s.modCtx n f).insts = s.insts := rfl
@[simp] theorem State.modCtx_slots : (s.modCtx n f).slots = s.slots := rfl
@[simp] theorem State.modCtx_slotReqs : (s.modCtx n f).slotReqs = s.slotReqs := rfl
@[simp] theorem State.modCtx_weir : (s.modCtx n f).weir = s.weir := rfl
@[simp] theorem State.modCtx_l2 : (s.modCtx n f).l2 = s.l2 := rfl
@[simp] theorem State.modCtx_mem : (s.modCtx n f).mem = s.mem := rfl
@[simp] theorem State.modCtx_xlat : (s.modCtx n f).xlat = s.xlat := rfl
@[simp] theorem State.modCtx_raced : (s.modCtx n f).raced = s.raced := rfl
@[simp] theorem State.modCtx_boot : (s.modCtx n f).boot = s.boot := rfl
@[simp] theorem State.modCtx_regs : (s.modCtx n f).regs = s.regs := rfl
@[simp] theorem State.modCtx_gtime : (s.modCtx n f).gtime = s.gtime := rfl
@[simp] theorem State.modCtx_retiredHw : (s.modCtx n f).retiredHw = s.retiredHw := rfl
@[simp] theorem State.modCtx_clks : (s.modCtx n f).clks = s.clks := rfl
@[simp] theorem State.modCtx_passed : (s.modCtx n f).passed = s.passed := rfl
@[simp] theorem State.modCtx_slotNo : (s.modCtx n f).slotNo = s.slotNo := rfl
@[simp] theorem State.modCtx_sent : (s.modCtx n f).sent = s.sent := rfl
@[simp] theorem State.modCtx_inbox : (s.modCtx n f).inbox = s.inbox := rfl
@[simp] theorem State.modCtx_buffered : (s.modCtx n f).buffered = s.buffered := rfl
@[simp] theorem State.modCtx_stamped : (s.modCtx n f).stamped = s.stamped := rfl
@[simp] theorem State.modCtx_early : (s.modCtx n f).early = s.early := rfl
@[simp] theorem State.modCtx_msix : (s.modCtx n f).msix = s.msix := rfl
@[simp] theorem State.modCtx_hostWrites : (s.modCtx n f).hostWrites = s.hostWrites := rfl
@[simp] theorem State.modCtx_weirWin : (s.modCtx n f).weirWin = s.weirWin := rfl
@[simp] theorem State.modCtx_atc : (s.modCtx n f).atc = s.atc := rfl
@[simp] theorem State.modCtx_hostAbsent : (s.modCtx n f).hostAbsent = s.hostAbsent := rfl
@[simp] theorem State.modCtx_hostWaits : (s.modCtx n f).hostWaits = s.hostWaits := rfl
@[simp] theorem State.modCtx_tagErrors : (s.modCtx n f).tagErrors = s.tagErrors := rfl
@[simp] theorem State.modCtx_discarded : (s.modCtx n f).discarded = s.discarded := rfl
@[simp] theorem State.modCtx_replays : (s.modCtx n f).replays = s.replays := rfl
@[simp] theorem State.modCtx_links : (s.modCtx n f).links = s.links := rfl
@[simp] theorem State.modCtx_softErrors : (s.modCtx n f).softErrors = s.softErrors := rfl
@[simp] theorem State.modCtx_reports : (s.modCtx n f).reports = s.reports := rfl
@[simp] theorem State.modCtx_outcome : (s.modCtx n f).outcome = s.outcome := rfl
@[simp] theorem State.modCtx_fresh : (s.modCtx n f).fresh = s.fresh := rfl
@[simp] theorem State.modCtx_cur : (s.modCtx n f).cur = s.cur := rfl
@[simp] theorem State.modCtx_agenda : (s.modCtx n f).agenda = s.agenda := rfl
@[simp] theorem State.modCtx_pace : (s.modCtx n f).pace = s.pace := rfl
@[simp] theorem State.modCtx_tick : (s.modCtx n f).tick = s.tick := rfl
theorem State.modCtx_ctx (m : Nat) : (s.modCtx n f).ctx m = if m = n then f (s.ctx n) else s.ctx m := Tbl.at_put ..
@[simp] theorem State.modCtx_ctx_same : (s.modCtx n f).ctx n = f (s.ctx n) := Tbl.at_put_same ..
theorem State.modCtx_ctx_other {m : Nat} (h : m ≠ n) : (s.modCtx n f).ctx m = s.ctx m := Tbl.at_put_other _ _ h
@[simp] theorem State.modCtx_grp (m : Nat) : (s.modCtx n f).grp m = s.grp m := rfl
@[simp] theorem State.modCtx_team (m : Nat) : (s.modCtx n f).team m = s.team m := rfl
@[simp] theorem State.modCtx_grid (m : Nat) : (s.modCtx n f).grid m = s.grid m := rfl
@[simp] theorem State.modCtx_core (m : Nat) : (s.modCtx n f).core m = s.core m := rfl
@[simp] theorem State.modCtx_cluster (m : Nat) : (s.modCtx n f).cluster m = s.cluster m := rfl
@[simp] theorem State.modCtx_part (m : Nat) : (s.modCtx n f).part m = s.part m := rfl
@[simp] theorem State.modCtx_vdev (m : Nat) : (s.modCtx n f).vdev m = s.vdev m := rfl
@[simp] theorem State.modCtx_inst (m : Nat) : (s.modCtx n f).inst m = s.inst m := rfl
@[simp] theorem State.modCtx_l2line (m : Nat) : (s.modCtx n f).l2line m = s.l2line m := rfl
@[simp] theorem State.modCtx_key (m : Nat) : (s.modCtx n f).key m = s.key m := rfl
end

section
variable (s : State) (n : Nat) (f : Core → Core)

@[simp] theorem State.modCore_groups : (s.modCore n f).groups = s.groups := rfl
@[simp] theorem State.modCore_teams : (s.modCore n f).teams = s.teams := rfl
@[simp] theorem State.modCore_grids : (s.modCore n f).grids = s.grids := rfl
@[simp] theorem State.modCore_ctxs : (s.modCore n f).ctxs = s.ctxs := rfl
@[simp] theorem State.modCore_clusters : (s.modCore n f).clusters = s.clusters := rfl
@[simp] theorem State.modCore_parts : (s.modCore n f).parts = s.parts := rfl
@[simp] theorem State.modCore_keys : (s.modCore n f).keys = s.keys := rfl
@[simp] theorem State.modCore_vdevs : (s.modCore n f).vdevs = s.vdevs := rfl
@[simp] theorem State.modCore_insts : (s.modCore n f).insts = s.insts := rfl
@[simp] theorem State.modCore_slots : (s.modCore n f).slots = s.slots := rfl
@[simp] theorem State.modCore_slotReqs : (s.modCore n f).slotReqs = s.slotReqs := rfl
@[simp] theorem State.modCore_weir : (s.modCore n f).weir = s.weir := rfl
@[simp] theorem State.modCore_l2 : (s.modCore n f).l2 = s.l2 := rfl
@[simp] theorem State.modCore_mem : (s.modCore n f).mem = s.mem := rfl
@[simp] theorem State.modCore_xlat : (s.modCore n f).xlat = s.xlat := rfl
@[simp] theorem State.modCore_raced : (s.modCore n f).raced = s.raced := rfl
@[simp] theorem State.modCore_boot : (s.modCore n f).boot = s.boot := rfl
@[simp] theorem State.modCore_regs : (s.modCore n f).regs = s.regs := rfl
@[simp] theorem State.modCore_gtime : (s.modCore n f).gtime = s.gtime := rfl
@[simp] theorem State.modCore_retiredHw : (s.modCore n f).retiredHw = s.retiredHw := rfl
@[simp] theorem State.modCore_clks : (s.modCore n f).clks = s.clks := rfl
@[simp] theorem State.modCore_passed : (s.modCore n f).passed = s.passed := rfl
@[simp] theorem State.modCore_slotNo : (s.modCore n f).slotNo = s.slotNo := rfl
@[simp] theorem State.modCore_sent : (s.modCore n f).sent = s.sent := rfl
@[simp] theorem State.modCore_inbox : (s.modCore n f).inbox = s.inbox := rfl
@[simp] theorem State.modCore_buffered : (s.modCore n f).buffered = s.buffered := rfl
@[simp] theorem State.modCore_stamped : (s.modCore n f).stamped = s.stamped := rfl
@[simp] theorem State.modCore_early : (s.modCore n f).early = s.early := rfl
@[simp] theorem State.modCore_msix : (s.modCore n f).msix = s.msix := rfl
@[simp] theorem State.modCore_hostWrites : (s.modCore n f).hostWrites = s.hostWrites := rfl
@[simp] theorem State.modCore_weirWin : (s.modCore n f).weirWin = s.weirWin := rfl
@[simp] theorem State.modCore_atc : (s.modCore n f).atc = s.atc := rfl
@[simp] theorem State.modCore_hostAbsent : (s.modCore n f).hostAbsent = s.hostAbsent := rfl
@[simp] theorem State.modCore_hostWaits : (s.modCore n f).hostWaits = s.hostWaits := rfl
@[simp] theorem State.modCore_tagErrors : (s.modCore n f).tagErrors = s.tagErrors := rfl
@[simp] theorem State.modCore_discarded : (s.modCore n f).discarded = s.discarded := rfl
@[simp] theorem State.modCore_replays : (s.modCore n f).replays = s.replays := rfl
@[simp] theorem State.modCore_links : (s.modCore n f).links = s.links := rfl
@[simp] theorem State.modCore_softErrors : (s.modCore n f).softErrors = s.softErrors := rfl
@[simp] theorem State.modCore_reports : (s.modCore n f).reports = s.reports := rfl
@[simp] theorem State.modCore_outcome : (s.modCore n f).outcome = s.outcome := rfl
@[simp] theorem State.modCore_fresh : (s.modCore n f).fresh = s.fresh := rfl
@[simp] theorem State.modCore_cur : (s.modCore n f).cur = s.cur := rfl
@[simp] theorem State.modCore_agenda : (s.modCore n f).agenda = s.agenda := rfl
@[simp] theorem State.modCore_pace : (s.modCore n f).pace = s.pace := rfl
@[simp] theorem State.modCore_tick : (s.modCore n f).tick = s.tick := rfl
theorem State.modCore_core (m : Nat) : (s.modCore n f).core m = if m = n then f (s.core n) else s.core m := Tbl.at_put ..
@[simp] theorem State.modCore_core_same : (s.modCore n f).core n = f (s.core n) := Tbl.at_put_same ..
theorem State.modCore_core_other {m : Nat} (h : m ≠ n) : (s.modCore n f).core m = s.core m := Tbl.at_put_other _ _ h
@[simp] theorem State.modCore_grp (m : Nat) : (s.modCore n f).grp m = s.grp m := rfl
@[simp] theorem State.modCore_team (m : Nat) : (s.modCore n f).team m = s.team m := rfl
@[simp] theorem State.modCore_grid (m : Nat) : (s.modCore n f).grid m = s.grid m := rfl
@[simp] theorem State.modCore_ctx (m : Nat) : (s.modCore n f).ctx m = s.ctx m := rfl
@[simp] theorem State.modCore_cluster (m : Nat) : (s.modCore n f).cluster m = s.cluster m := rfl
@[simp] theorem State.modCore_part (m : Nat) : (s.modCore n f).part m = s.part m := rfl
@[simp] theorem State.modCore_vdev (m : Nat) : (s.modCore n f).vdev m = s.vdev m := rfl
@[simp] theorem State.modCore_inst (m : Nat) : (s.modCore n f).inst m = s.inst m := rfl
@[simp] theorem State.modCore_l2line (m : Nat) : (s.modCore n f).l2line m = s.l2line m := rfl
@[simp] theorem State.modCore_key (m : Nat) : (s.modCore n f).key m = s.key m := rfl
end

section
variable (s : State) (n : Nat) (f : Cluster → Cluster)

@[simp] theorem State.modCluster_groups : (s.modCluster n f).groups = s.groups := rfl
@[simp] theorem State.modCluster_teams : (s.modCluster n f).teams = s.teams := rfl
@[simp] theorem State.modCluster_grids : (s.modCluster n f).grids = s.grids := rfl
@[simp] theorem State.modCluster_ctxs : (s.modCluster n f).ctxs = s.ctxs := rfl
@[simp] theorem State.modCluster_cores : (s.modCluster n f).cores = s.cores := rfl
@[simp] theorem State.modCluster_parts : (s.modCluster n f).parts = s.parts := rfl
@[simp] theorem State.modCluster_keys : (s.modCluster n f).keys = s.keys := rfl
@[simp] theorem State.modCluster_vdevs : (s.modCluster n f).vdevs = s.vdevs := rfl
@[simp] theorem State.modCluster_insts : (s.modCluster n f).insts = s.insts := rfl
@[simp] theorem State.modCluster_slots : (s.modCluster n f).slots = s.slots := rfl
@[simp] theorem State.modCluster_slotReqs : (s.modCluster n f).slotReqs = s.slotReqs := rfl
@[simp] theorem State.modCluster_weir : (s.modCluster n f).weir = s.weir := rfl
@[simp] theorem State.modCluster_l2 : (s.modCluster n f).l2 = s.l2 := rfl
@[simp] theorem State.modCluster_mem : (s.modCluster n f).mem = s.mem := rfl
@[simp] theorem State.modCluster_xlat : (s.modCluster n f).xlat = s.xlat := rfl
@[simp] theorem State.modCluster_raced : (s.modCluster n f).raced = s.raced := rfl
@[simp] theorem State.modCluster_boot : (s.modCluster n f).boot = s.boot := rfl
@[simp] theorem State.modCluster_regs : (s.modCluster n f).regs = s.regs := rfl
@[simp] theorem State.modCluster_gtime : (s.modCluster n f).gtime = s.gtime := rfl
@[simp] theorem State.modCluster_retiredHw : (s.modCluster n f).retiredHw = s.retiredHw := rfl
@[simp] theorem State.modCluster_clks : (s.modCluster n f).clks = s.clks := rfl
@[simp] theorem State.modCluster_passed : (s.modCluster n f).passed = s.passed := rfl
@[simp] theorem State.modCluster_slotNo : (s.modCluster n f).slotNo = s.slotNo := rfl
@[simp] theorem State.modCluster_sent : (s.modCluster n f).sent = s.sent := rfl
@[simp] theorem State.modCluster_inbox : (s.modCluster n f).inbox = s.inbox := rfl
@[simp] theorem State.modCluster_buffered : (s.modCluster n f).buffered = s.buffered := rfl
@[simp] theorem State.modCluster_stamped : (s.modCluster n f).stamped = s.stamped := rfl
@[simp] theorem State.modCluster_early : (s.modCluster n f).early = s.early := rfl
@[simp] theorem State.modCluster_msix : (s.modCluster n f).msix = s.msix := rfl
@[simp] theorem State.modCluster_hostWrites : (s.modCluster n f).hostWrites = s.hostWrites := rfl
@[simp] theorem State.modCluster_weirWin : (s.modCluster n f).weirWin = s.weirWin := rfl
@[simp] theorem State.modCluster_atc : (s.modCluster n f).atc = s.atc := rfl
@[simp] theorem State.modCluster_hostAbsent : (s.modCluster n f).hostAbsent = s.hostAbsent := rfl
@[simp] theorem State.modCluster_hostWaits : (s.modCluster n f).hostWaits = s.hostWaits := rfl
@[simp] theorem State.modCluster_tagErrors : (s.modCluster n f).tagErrors = s.tagErrors := rfl
@[simp] theorem State.modCluster_discarded : (s.modCluster n f).discarded = s.discarded := rfl
@[simp] theorem State.modCluster_replays : (s.modCluster n f).replays = s.replays := rfl
@[simp] theorem State.modCluster_links : (s.modCluster n f).links = s.links := rfl
@[simp] theorem State.modCluster_softErrors : (s.modCluster n f).softErrors = s.softErrors := rfl
@[simp] theorem State.modCluster_reports : (s.modCluster n f).reports = s.reports := rfl
@[simp] theorem State.modCluster_outcome : (s.modCluster n f).outcome = s.outcome := rfl
@[simp] theorem State.modCluster_fresh : (s.modCluster n f).fresh = s.fresh := rfl
@[simp] theorem State.modCluster_cur : (s.modCluster n f).cur = s.cur := rfl
@[simp] theorem State.modCluster_agenda : (s.modCluster n f).agenda = s.agenda := rfl
@[simp] theorem State.modCluster_pace : (s.modCluster n f).pace = s.pace := rfl
@[simp] theorem State.modCluster_tick : (s.modCluster n f).tick = s.tick := rfl
theorem State.modCluster_cluster (m : Nat) : (s.modCluster n f).cluster m = if m = n then f (s.cluster n) else s.cluster m := Tbl.at_put ..
@[simp] theorem State.modCluster_cluster_same : (s.modCluster n f).cluster n = f (s.cluster n) := Tbl.at_put_same ..
theorem State.modCluster_cluster_other {m : Nat} (h : m ≠ n) : (s.modCluster n f).cluster m = s.cluster m := Tbl.at_put_other _ _ h
@[simp] theorem State.modCluster_grp (m : Nat) : (s.modCluster n f).grp m = s.grp m := rfl
@[simp] theorem State.modCluster_team (m : Nat) : (s.modCluster n f).team m = s.team m := rfl
@[simp] theorem State.modCluster_grid (m : Nat) : (s.modCluster n f).grid m = s.grid m := rfl
@[simp] theorem State.modCluster_ctx (m : Nat) : (s.modCluster n f).ctx m = s.ctx m := rfl
@[simp] theorem State.modCluster_core (m : Nat) : (s.modCluster n f).core m = s.core m := rfl
@[simp] theorem State.modCluster_part (m : Nat) : (s.modCluster n f).part m = s.part m := rfl
@[simp] theorem State.modCluster_vdev (m : Nat) : (s.modCluster n f).vdev m = s.vdev m := rfl
@[simp] theorem State.modCluster_inst (m : Nat) : (s.modCluster n f).inst m = s.inst m := rfl
@[simp] theorem State.modCluster_l2line (m : Nat) : (s.modCluster n f).l2line m = s.l2line m := rfl
@[simp] theorem State.modCluster_key (m : Nat) : (s.modCluster n f).key m = s.key m := rfl
end

section
variable (s : State) (n : Nat) (f : Partition → Partition)

@[simp] theorem State.modPart_groups : (s.modPart n f).groups = s.groups := rfl
@[simp] theorem State.modPart_teams : (s.modPart n f).teams = s.teams := rfl
@[simp] theorem State.modPart_grids : (s.modPart n f).grids = s.grids := rfl
@[simp] theorem State.modPart_ctxs : (s.modPart n f).ctxs = s.ctxs := rfl
@[simp] theorem State.modPart_cores : (s.modPart n f).cores = s.cores := rfl
@[simp] theorem State.modPart_clusters : (s.modPart n f).clusters = s.clusters := rfl
@[simp] theorem State.modPart_keys : (s.modPart n f).keys = s.keys := rfl
@[simp] theorem State.modPart_vdevs : (s.modPart n f).vdevs = s.vdevs := rfl
@[simp] theorem State.modPart_insts : (s.modPart n f).insts = s.insts := rfl
@[simp] theorem State.modPart_slots : (s.modPart n f).slots = s.slots := rfl
@[simp] theorem State.modPart_slotReqs : (s.modPart n f).slotReqs = s.slotReqs := rfl
@[simp] theorem State.modPart_weir : (s.modPart n f).weir = s.weir := rfl
@[simp] theorem State.modPart_l2 : (s.modPart n f).l2 = s.l2 := rfl
@[simp] theorem State.modPart_mem : (s.modPart n f).mem = s.mem := rfl
@[simp] theorem State.modPart_xlat : (s.modPart n f).xlat = s.xlat := rfl
@[simp] theorem State.modPart_raced : (s.modPart n f).raced = s.raced := rfl
@[simp] theorem State.modPart_boot : (s.modPart n f).boot = s.boot := rfl
@[simp] theorem State.modPart_regs : (s.modPart n f).regs = s.regs := rfl
@[simp] theorem State.modPart_gtime : (s.modPart n f).gtime = s.gtime := rfl
@[simp] theorem State.modPart_retiredHw : (s.modPart n f).retiredHw = s.retiredHw := rfl
@[simp] theorem State.modPart_clks : (s.modPart n f).clks = s.clks := rfl
@[simp] theorem State.modPart_passed : (s.modPart n f).passed = s.passed := rfl
@[simp] theorem State.modPart_slotNo : (s.modPart n f).slotNo = s.slotNo := rfl
@[simp] theorem State.modPart_sent : (s.modPart n f).sent = s.sent := rfl
@[simp] theorem State.modPart_inbox : (s.modPart n f).inbox = s.inbox := rfl
@[simp] theorem State.modPart_buffered : (s.modPart n f).buffered = s.buffered := rfl
@[simp] theorem State.modPart_stamped : (s.modPart n f).stamped = s.stamped := rfl
@[simp] theorem State.modPart_early : (s.modPart n f).early = s.early := rfl
@[simp] theorem State.modPart_msix : (s.modPart n f).msix = s.msix := rfl
@[simp] theorem State.modPart_hostWrites : (s.modPart n f).hostWrites = s.hostWrites := rfl
@[simp] theorem State.modPart_weirWin : (s.modPart n f).weirWin = s.weirWin := rfl
@[simp] theorem State.modPart_atc : (s.modPart n f).atc = s.atc := rfl
@[simp] theorem State.modPart_hostAbsent : (s.modPart n f).hostAbsent = s.hostAbsent := rfl
@[simp] theorem State.modPart_hostWaits : (s.modPart n f).hostWaits = s.hostWaits := rfl
@[simp] theorem State.modPart_tagErrors : (s.modPart n f).tagErrors = s.tagErrors := rfl
@[simp] theorem State.modPart_discarded : (s.modPart n f).discarded = s.discarded := rfl
@[simp] theorem State.modPart_replays : (s.modPart n f).replays = s.replays := rfl
@[simp] theorem State.modPart_links : (s.modPart n f).links = s.links := rfl
@[simp] theorem State.modPart_softErrors : (s.modPart n f).softErrors = s.softErrors := rfl
@[simp] theorem State.modPart_reports : (s.modPart n f).reports = s.reports := rfl
@[simp] theorem State.modPart_outcome : (s.modPart n f).outcome = s.outcome := rfl
@[simp] theorem State.modPart_fresh : (s.modPart n f).fresh = s.fresh := rfl
@[simp] theorem State.modPart_cur : (s.modPart n f).cur = s.cur := rfl
@[simp] theorem State.modPart_agenda : (s.modPart n f).agenda = s.agenda := rfl
@[simp] theorem State.modPart_pace : (s.modPart n f).pace = s.pace := rfl
@[simp] theorem State.modPart_tick : (s.modPart n f).tick = s.tick := rfl
theorem State.modPart_part (m : Nat) : (s.modPart n f).part m = if m = n then f (s.part n) else s.part m := Tbl.at_put ..
@[simp] theorem State.modPart_part_same : (s.modPart n f).part n = f (s.part n) := Tbl.at_put_same ..
theorem State.modPart_part_other {m : Nat} (h : m ≠ n) : (s.modPart n f).part m = s.part m := Tbl.at_put_other _ _ h
@[simp] theorem State.modPart_grp (m : Nat) : (s.modPart n f).grp m = s.grp m := rfl
@[simp] theorem State.modPart_team (m : Nat) : (s.modPart n f).team m = s.team m := rfl
@[simp] theorem State.modPart_grid (m : Nat) : (s.modPart n f).grid m = s.grid m := rfl
@[simp] theorem State.modPart_ctx (m : Nat) : (s.modPart n f).ctx m = s.ctx m := rfl
@[simp] theorem State.modPart_core (m : Nat) : (s.modPart n f).core m = s.core m := rfl
@[simp] theorem State.modPart_cluster (m : Nat) : (s.modPart n f).cluster m = s.cluster m := rfl
@[simp] theorem State.modPart_vdev (m : Nat) : (s.modPart n f).vdev m = s.vdev m := rfl
@[simp] theorem State.modPart_inst (m : Nat) : (s.modPart n f).inst m = s.inst m := rfl
@[simp] theorem State.modPart_l2line (m : Nat) : (s.modPart n f).l2line m = s.l2line m := rfl
@[simp] theorem State.modPart_key (m : Nat) : (s.modPart n f).key m = s.key m := rfl
end

section
variable (s : State) (n : Nat) (f : VDev → VDev)

@[simp] theorem State.modVDev_groups : (s.modVDev n f).groups = s.groups := rfl
@[simp] theorem State.modVDev_teams : (s.modVDev n f).teams = s.teams := rfl
@[simp] theorem State.modVDev_grids : (s.modVDev n f).grids = s.grids := rfl
@[simp] theorem State.modVDev_ctxs : (s.modVDev n f).ctxs = s.ctxs := rfl
@[simp] theorem State.modVDev_cores : (s.modVDev n f).cores = s.cores := rfl
@[simp] theorem State.modVDev_clusters : (s.modVDev n f).clusters = s.clusters := rfl
@[simp] theorem State.modVDev_parts : (s.modVDev n f).parts = s.parts := rfl
@[simp] theorem State.modVDev_keys : (s.modVDev n f).keys = s.keys := rfl
@[simp] theorem State.modVDev_insts : (s.modVDev n f).insts = s.insts := rfl
@[simp] theorem State.modVDev_slots : (s.modVDev n f).slots = s.slots := rfl
@[simp] theorem State.modVDev_slotReqs : (s.modVDev n f).slotReqs = s.slotReqs := rfl
@[simp] theorem State.modVDev_weir : (s.modVDev n f).weir = s.weir := rfl
@[simp] theorem State.modVDev_l2 : (s.modVDev n f).l2 = s.l2 := rfl
@[simp] theorem State.modVDev_mem : (s.modVDev n f).mem = s.mem := rfl
@[simp] theorem State.modVDev_xlat : (s.modVDev n f).xlat = s.xlat := rfl
@[simp] theorem State.modVDev_raced : (s.modVDev n f).raced = s.raced := rfl
@[simp] theorem State.modVDev_boot : (s.modVDev n f).boot = s.boot := rfl
@[simp] theorem State.modVDev_regs : (s.modVDev n f).regs = s.regs := rfl
@[simp] theorem State.modVDev_gtime : (s.modVDev n f).gtime = s.gtime := rfl
@[simp] theorem State.modVDev_retiredHw : (s.modVDev n f).retiredHw = s.retiredHw := rfl
@[simp] theorem State.modVDev_clks : (s.modVDev n f).clks = s.clks := rfl
@[simp] theorem State.modVDev_passed : (s.modVDev n f).passed = s.passed := rfl
@[simp] theorem State.modVDev_slotNo : (s.modVDev n f).slotNo = s.slotNo := rfl
@[simp] theorem State.modVDev_sent : (s.modVDev n f).sent = s.sent := rfl
@[simp] theorem State.modVDev_inbox : (s.modVDev n f).inbox = s.inbox := rfl
@[simp] theorem State.modVDev_buffered : (s.modVDev n f).buffered = s.buffered := rfl
@[simp] theorem State.modVDev_stamped : (s.modVDev n f).stamped = s.stamped := rfl
@[simp] theorem State.modVDev_early : (s.modVDev n f).early = s.early := rfl
@[simp] theorem State.modVDev_msix : (s.modVDev n f).msix = s.msix := rfl
@[simp] theorem State.modVDev_hostWrites : (s.modVDev n f).hostWrites = s.hostWrites := rfl
@[simp] theorem State.modVDev_weirWin : (s.modVDev n f).weirWin = s.weirWin := rfl
@[simp] theorem State.modVDev_atc : (s.modVDev n f).atc = s.atc := rfl
@[simp] theorem State.modVDev_hostAbsent : (s.modVDev n f).hostAbsent = s.hostAbsent := rfl
@[simp] theorem State.modVDev_hostWaits : (s.modVDev n f).hostWaits = s.hostWaits := rfl
@[simp] theorem State.modVDev_tagErrors : (s.modVDev n f).tagErrors = s.tagErrors := rfl
@[simp] theorem State.modVDev_discarded : (s.modVDev n f).discarded = s.discarded := rfl
@[simp] theorem State.modVDev_replays : (s.modVDev n f).replays = s.replays := rfl
@[simp] theorem State.modVDev_links : (s.modVDev n f).links = s.links := rfl
@[simp] theorem State.modVDev_softErrors : (s.modVDev n f).softErrors = s.softErrors := rfl
@[simp] theorem State.modVDev_reports : (s.modVDev n f).reports = s.reports := rfl
@[simp] theorem State.modVDev_outcome : (s.modVDev n f).outcome = s.outcome := rfl
@[simp] theorem State.modVDev_fresh : (s.modVDev n f).fresh = s.fresh := rfl
@[simp] theorem State.modVDev_cur : (s.modVDev n f).cur = s.cur := rfl
@[simp] theorem State.modVDev_agenda : (s.modVDev n f).agenda = s.agenda := rfl
@[simp] theorem State.modVDev_pace : (s.modVDev n f).pace = s.pace := rfl
@[simp] theorem State.modVDev_tick : (s.modVDev n f).tick = s.tick := rfl
theorem State.modVDev_vdev (m : Nat) : (s.modVDev n f).vdev m = if m = n then f (s.vdev n) else s.vdev m := Tbl.at_put ..
@[simp] theorem State.modVDev_vdev_same : (s.modVDev n f).vdev n = f (s.vdev n) := Tbl.at_put_same ..
theorem State.modVDev_vdev_other {m : Nat} (h : m ≠ n) : (s.modVDev n f).vdev m = s.vdev m := Tbl.at_put_other _ _ h
@[simp] theorem State.modVDev_grp (m : Nat) : (s.modVDev n f).grp m = s.grp m := rfl
@[simp] theorem State.modVDev_team (m : Nat) : (s.modVDev n f).team m = s.team m := rfl
@[simp] theorem State.modVDev_grid (m : Nat) : (s.modVDev n f).grid m = s.grid m := rfl
@[simp] theorem State.modVDev_ctx (m : Nat) : (s.modVDev n f).ctx m = s.ctx m := rfl
@[simp] theorem State.modVDev_core (m : Nat) : (s.modVDev n f).core m = s.core m := rfl
@[simp] theorem State.modVDev_cluster (m : Nat) : (s.modVDev n f).cluster m = s.cluster m := rfl
@[simp] theorem State.modVDev_part (m : Nat) : (s.modVDev n f).part m = s.part m := rfl
@[simp] theorem State.modVDev_inst (m : Nat) : (s.modVDev n f).inst m = s.inst m := rfl
@[simp] theorem State.modVDev_l2line (m : Nat) : (s.modVDev n f).l2line m = s.l2line m := rfl
@[simp] theorem State.modVDev_key (m : Nat) : (s.modVDev n f).key m = s.key m := rfl
end

section
variable (s : State) (n : Nat) (f : Inst → Inst)

@[simp] theorem State.modInst_groups : (s.modInst n f).groups = s.groups := rfl
@[simp] theorem State.modInst_teams : (s.modInst n f).teams = s.teams := rfl
@[simp] theorem State.modInst_grids : (s.modInst n f).grids = s.grids := rfl
@[simp] theorem State.modInst_ctxs : (s.modInst n f).ctxs = s.ctxs := rfl
@[simp] theorem State.modInst_cores : (s.modInst n f).cores = s.cores := rfl
@[simp] theorem State.modInst_clusters : (s.modInst n f).clusters = s.clusters := rfl
@[simp] theorem State.modInst_parts : (s.modInst n f).parts = s.parts := rfl
@[simp] theorem State.modInst_keys : (s.modInst n f).keys = s.keys := rfl
@[simp] theorem State.modInst_vdevs : (s.modInst n f).vdevs = s.vdevs := rfl
@[simp] theorem State.modInst_slots : (s.modInst n f).slots = s.slots := rfl
@[simp] theorem State.modInst_slotReqs : (s.modInst n f).slotReqs = s.slotReqs := rfl
@[simp] theorem State.modInst_weir : (s.modInst n f).weir = s.weir := rfl
@[simp] theorem State.modInst_l2 : (s.modInst n f).l2 = s.l2 := rfl
@[simp] theorem State.modInst_mem : (s.modInst n f).mem = s.mem := rfl
@[simp] theorem State.modInst_xlat : (s.modInst n f).xlat = s.xlat := rfl
@[simp] theorem State.modInst_raced : (s.modInst n f).raced = s.raced := rfl
@[simp] theorem State.modInst_boot : (s.modInst n f).boot = s.boot := rfl
@[simp] theorem State.modInst_regs : (s.modInst n f).regs = s.regs := rfl
@[simp] theorem State.modInst_gtime : (s.modInst n f).gtime = s.gtime := rfl
@[simp] theorem State.modInst_retiredHw : (s.modInst n f).retiredHw = s.retiredHw := rfl
@[simp] theorem State.modInst_clks : (s.modInst n f).clks = s.clks := rfl
@[simp] theorem State.modInst_passed : (s.modInst n f).passed = s.passed := rfl
@[simp] theorem State.modInst_slotNo : (s.modInst n f).slotNo = s.slotNo := rfl
@[simp] theorem State.modInst_sent : (s.modInst n f).sent = s.sent := rfl
@[simp] theorem State.modInst_inbox : (s.modInst n f).inbox = s.inbox := rfl
@[simp] theorem State.modInst_buffered : (s.modInst n f).buffered = s.buffered := rfl
@[simp] theorem State.modInst_stamped : (s.modInst n f).stamped = s.stamped := rfl
@[simp] theorem State.modInst_early : (s.modInst n f).early = s.early := rfl
@[simp] theorem State.modInst_msix : (s.modInst n f).msix = s.msix := rfl
@[simp] theorem State.modInst_hostWrites : (s.modInst n f).hostWrites = s.hostWrites := rfl
@[simp] theorem State.modInst_weirWin : (s.modInst n f).weirWin = s.weirWin := rfl
@[simp] theorem State.modInst_atc : (s.modInst n f).atc = s.atc := rfl
@[simp] theorem State.modInst_hostAbsent : (s.modInst n f).hostAbsent = s.hostAbsent := rfl
@[simp] theorem State.modInst_hostWaits : (s.modInst n f).hostWaits = s.hostWaits := rfl
@[simp] theorem State.modInst_tagErrors : (s.modInst n f).tagErrors = s.tagErrors := rfl
@[simp] theorem State.modInst_discarded : (s.modInst n f).discarded = s.discarded := rfl
@[simp] theorem State.modInst_replays : (s.modInst n f).replays = s.replays := rfl
@[simp] theorem State.modInst_links : (s.modInst n f).links = s.links := rfl
@[simp] theorem State.modInst_softErrors : (s.modInst n f).softErrors = s.softErrors := rfl
@[simp] theorem State.modInst_reports : (s.modInst n f).reports = s.reports := rfl
@[simp] theorem State.modInst_outcome : (s.modInst n f).outcome = s.outcome := rfl
@[simp] theorem State.modInst_fresh : (s.modInst n f).fresh = s.fresh := rfl
@[simp] theorem State.modInst_cur : (s.modInst n f).cur = s.cur := rfl
@[simp] theorem State.modInst_agenda : (s.modInst n f).agenda = s.agenda := rfl
@[simp] theorem State.modInst_pace : (s.modInst n f).pace = s.pace := rfl
@[simp] theorem State.modInst_tick : (s.modInst n f).tick = s.tick := rfl
theorem State.modInst_inst (m : Nat) : (s.modInst n f).inst m = if m = n then f (s.inst n) else s.inst m := Tbl.at_put ..
@[simp] theorem State.modInst_inst_same : (s.modInst n f).inst n = f (s.inst n) := Tbl.at_put_same ..
theorem State.modInst_inst_other {m : Nat} (h : m ≠ n) : (s.modInst n f).inst m = s.inst m := Tbl.at_put_other _ _ h
@[simp] theorem State.modInst_grp (m : Nat) : (s.modInst n f).grp m = s.grp m := rfl
@[simp] theorem State.modInst_team (m : Nat) : (s.modInst n f).team m = s.team m := rfl
@[simp] theorem State.modInst_grid (m : Nat) : (s.modInst n f).grid m = s.grid m := rfl
@[simp] theorem State.modInst_ctx (m : Nat) : (s.modInst n f).ctx m = s.ctx m := rfl
@[simp] theorem State.modInst_core (m : Nat) : (s.modInst n f).core m = s.core m := rfl
@[simp] theorem State.modInst_cluster (m : Nat) : (s.modInst n f).cluster m = s.cluster m := rfl
@[simp] theorem State.modInst_part (m : Nat) : (s.modInst n f).part m = s.part m := rfl
@[simp] theorem State.modInst_vdev (m : Nat) : (s.modInst n f).vdev m = s.vdev m := rfl
@[simp] theorem State.modInst_l2line (m : Nat) : (s.modInst n f).l2line m = s.l2line m := rfl
@[simp] theorem State.modInst_key (m : Nat) : (s.modInst n f).key m = s.key m := rfl
end

section
variable (s : State) (n : Nat) (f : L2Line → L2Line)

@[simp] theorem State.modL2_groups : (s.modL2 n f).groups = s.groups := rfl
@[simp] theorem State.modL2_teams : (s.modL2 n f).teams = s.teams := rfl
@[simp] theorem State.modL2_grids : (s.modL2 n f).grids = s.grids := rfl
@[simp] theorem State.modL2_ctxs : (s.modL2 n f).ctxs = s.ctxs := rfl
@[simp] theorem State.modL2_cores : (s.modL2 n f).cores = s.cores := rfl
@[simp] theorem State.modL2_clusters : (s.modL2 n f).clusters = s.clusters := rfl
@[simp] theorem State.modL2_parts : (s.modL2 n f).parts = s.parts := rfl
@[simp] theorem State.modL2_keys : (s.modL2 n f).keys = s.keys := rfl
@[simp] theorem State.modL2_vdevs : (s.modL2 n f).vdevs = s.vdevs := rfl
@[simp] theorem State.modL2_insts : (s.modL2 n f).insts = s.insts := rfl
@[simp] theorem State.modL2_slots : (s.modL2 n f).slots = s.slots := rfl
@[simp] theorem State.modL2_slotReqs : (s.modL2 n f).slotReqs = s.slotReqs := rfl
@[simp] theorem State.modL2_weir : (s.modL2 n f).weir = s.weir := rfl
@[simp] theorem State.modL2_mem : (s.modL2 n f).mem = s.mem := rfl
@[simp] theorem State.modL2_xlat : (s.modL2 n f).xlat = s.xlat := rfl
@[simp] theorem State.modL2_raced : (s.modL2 n f).raced = s.raced := rfl
@[simp] theorem State.modL2_boot : (s.modL2 n f).boot = s.boot := rfl
@[simp] theorem State.modL2_regs : (s.modL2 n f).regs = s.regs := rfl
@[simp] theorem State.modL2_gtime : (s.modL2 n f).gtime = s.gtime := rfl
@[simp] theorem State.modL2_retiredHw : (s.modL2 n f).retiredHw = s.retiredHw := rfl
@[simp] theorem State.modL2_clks : (s.modL2 n f).clks = s.clks := rfl
@[simp] theorem State.modL2_passed : (s.modL2 n f).passed = s.passed := rfl
@[simp] theorem State.modL2_slotNo : (s.modL2 n f).slotNo = s.slotNo := rfl
@[simp] theorem State.modL2_sent : (s.modL2 n f).sent = s.sent := rfl
@[simp] theorem State.modL2_inbox : (s.modL2 n f).inbox = s.inbox := rfl
@[simp] theorem State.modL2_buffered : (s.modL2 n f).buffered = s.buffered := rfl
@[simp] theorem State.modL2_stamped : (s.modL2 n f).stamped = s.stamped := rfl
@[simp] theorem State.modL2_early : (s.modL2 n f).early = s.early := rfl
@[simp] theorem State.modL2_msix : (s.modL2 n f).msix = s.msix := rfl
@[simp] theorem State.modL2_hostWrites : (s.modL2 n f).hostWrites = s.hostWrites := rfl
@[simp] theorem State.modL2_weirWin : (s.modL2 n f).weirWin = s.weirWin := rfl
@[simp] theorem State.modL2_atc : (s.modL2 n f).atc = s.atc := rfl
@[simp] theorem State.modL2_hostAbsent : (s.modL2 n f).hostAbsent = s.hostAbsent := rfl
@[simp] theorem State.modL2_hostWaits : (s.modL2 n f).hostWaits = s.hostWaits := rfl
@[simp] theorem State.modL2_tagErrors : (s.modL2 n f).tagErrors = s.tagErrors := rfl
@[simp] theorem State.modL2_discarded : (s.modL2 n f).discarded = s.discarded := rfl
@[simp] theorem State.modL2_replays : (s.modL2 n f).replays = s.replays := rfl
@[simp] theorem State.modL2_links : (s.modL2 n f).links = s.links := rfl
@[simp] theorem State.modL2_softErrors : (s.modL2 n f).softErrors = s.softErrors := rfl
@[simp] theorem State.modL2_reports : (s.modL2 n f).reports = s.reports := rfl
@[simp] theorem State.modL2_outcome : (s.modL2 n f).outcome = s.outcome := rfl
@[simp] theorem State.modL2_fresh : (s.modL2 n f).fresh = s.fresh := rfl
@[simp] theorem State.modL2_cur : (s.modL2 n f).cur = s.cur := rfl
@[simp] theorem State.modL2_agenda : (s.modL2 n f).agenda = s.agenda := rfl
@[simp] theorem State.modL2_pace : (s.modL2 n f).pace = s.pace := rfl
@[simp] theorem State.modL2_tick : (s.modL2 n f).tick = s.tick := rfl
theorem State.modL2_l2line (m : Nat) : (s.modL2 n f).l2line m = if m = n then f (s.l2line n) else s.l2line m := Tbl.at_put ..
@[simp] theorem State.modL2_l2line_same : (s.modL2 n f).l2line n = f (s.l2line n) := Tbl.at_put_same ..
theorem State.modL2_l2line_other {m : Nat} (h : m ≠ n) : (s.modL2 n f).l2line m = s.l2line m := Tbl.at_put_other _ _ h
@[simp] theorem State.modL2_grp (m : Nat) : (s.modL2 n f).grp m = s.grp m := rfl
@[simp] theorem State.modL2_team (m : Nat) : (s.modL2 n f).team m = s.team m := rfl
@[simp] theorem State.modL2_grid (m : Nat) : (s.modL2 n f).grid m = s.grid m := rfl
@[simp] theorem State.modL2_ctx (m : Nat) : (s.modL2 n f).ctx m = s.ctx m := rfl
@[simp] theorem State.modL2_core (m : Nat) : (s.modL2 n f).core m = s.core m := rfl
@[simp] theorem State.modL2_cluster (m : Nat) : (s.modL2 n f).cluster m = s.cluster m := rfl
@[simp] theorem State.modL2_part (m : Nat) : (s.modL2 n f).part m = s.part m := rfl
@[simp] theorem State.modL2_vdev (m : Nat) : (s.modL2 n f).vdev m = s.vdev m := rfl
@[simp] theorem State.modL2_inst (m : Nat) : (s.modL2 n f).inst m = s.inst m := rfl
@[simp] theorem State.modL2_key (m : Nat) : (s.modL2 n f).key m = s.key m := rfl
end

section
variable (s : State) (n : Nat) (f : KeySlot → KeySlot)

@[simp] theorem State.modKey_groups : (s.modKey n f).groups = s.groups := rfl
@[simp] theorem State.modKey_teams : (s.modKey n f).teams = s.teams := rfl
@[simp] theorem State.modKey_grids : (s.modKey n f).grids = s.grids := rfl
@[simp] theorem State.modKey_ctxs : (s.modKey n f).ctxs = s.ctxs := rfl
@[simp] theorem State.modKey_cores : (s.modKey n f).cores = s.cores := rfl
@[simp] theorem State.modKey_clusters : (s.modKey n f).clusters = s.clusters := rfl
@[simp] theorem State.modKey_parts : (s.modKey n f).parts = s.parts := rfl
@[simp] theorem State.modKey_vdevs : (s.modKey n f).vdevs = s.vdevs := rfl
@[simp] theorem State.modKey_insts : (s.modKey n f).insts = s.insts := rfl
@[simp] theorem State.modKey_slots : (s.modKey n f).slots = s.slots := rfl
@[simp] theorem State.modKey_slotReqs : (s.modKey n f).slotReqs = s.slotReqs := rfl
@[simp] theorem State.modKey_weir : (s.modKey n f).weir = s.weir := rfl
@[simp] theorem State.modKey_l2 : (s.modKey n f).l2 = s.l2 := rfl
@[simp] theorem State.modKey_mem : (s.modKey n f).mem = s.mem := rfl
@[simp] theorem State.modKey_xlat : (s.modKey n f).xlat = s.xlat := rfl
@[simp] theorem State.modKey_raced : (s.modKey n f).raced = s.raced := rfl
@[simp] theorem State.modKey_boot : (s.modKey n f).boot = s.boot := rfl
@[simp] theorem State.modKey_regs : (s.modKey n f).regs = s.regs := rfl
@[simp] theorem State.modKey_gtime : (s.modKey n f).gtime = s.gtime := rfl
@[simp] theorem State.modKey_retiredHw : (s.modKey n f).retiredHw = s.retiredHw := rfl
@[simp] theorem State.modKey_clks : (s.modKey n f).clks = s.clks := rfl
@[simp] theorem State.modKey_passed : (s.modKey n f).passed = s.passed := rfl
@[simp] theorem State.modKey_slotNo : (s.modKey n f).slotNo = s.slotNo := rfl
@[simp] theorem State.modKey_sent : (s.modKey n f).sent = s.sent := rfl
@[simp] theorem State.modKey_inbox : (s.modKey n f).inbox = s.inbox := rfl
@[simp] theorem State.modKey_buffered : (s.modKey n f).buffered = s.buffered := rfl
@[simp] theorem State.modKey_stamped : (s.modKey n f).stamped = s.stamped := rfl
@[simp] theorem State.modKey_early : (s.modKey n f).early = s.early := rfl
@[simp] theorem State.modKey_msix : (s.modKey n f).msix = s.msix := rfl
@[simp] theorem State.modKey_hostWrites : (s.modKey n f).hostWrites = s.hostWrites := rfl
@[simp] theorem State.modKey_weirWin : (s.modKey n f).weirWin = s.weirWin := rfl
@[simp] theorem State.modKey_atc : (s.modKey n f).atc = s.atc := rfl
@[simp] theorem State.modKey_hostAbsent : (s.modKey n f).hostAbsent = s.hostAbsent := rfl
@[simp] theorem State.modKey_hostWaits : (s.modKey n f).hostWaits = s.hostWaits := rfl
@[simp] theorem State.modKey_tagErrors : (s.modKey n f).tagErrors = s.tagErrors := rfl
@[simp] theorem State.modKey_discarded : (s.modKey n f).discarded = s.discarded := rfl
@[simp] theorem State.modKey_replays : (s.modKey n f).replays = s.replays := rfl
@[simp] theorem State.modKey_links : (s.modKey n f).links = s.links := rfl
@[simp] theorem State.modKey_softErrors : (s.modKey n f).softErrors = s.softErrors := rfl
@[simp] theorem State.modKey_reports : (s.modKey n f).reports = s.reports := rfl
@[simp] theorem State.modKey_outcome : (s.modKey n f).outcome = s.outcome := rfl
@[simp] theorem State.modKey_fresh : (s.modKey n f).fresh = s.fresh := rfl
@[simp] theorem State.modKey_cur : (s.modKey n f).cur = s.cur := rfl
@[simp] theorem State.modKey_agenda : (s.modKey n f).agenda = s.agenda := rfl
@[simp] theorem State.modKey_pace : (s.modKey n f).pace = s.pace := rfl
@[simp] theorem State.modKey_tick : (s.modKey n f).tick = s.tick := rfl
theorem State.modKey_key (m : Nat) : (s.modKey n f).key m = if m = n then f (s.key n) else s.key m := Tbl.at_put ..
@[simp] theorem State.modKey_key_same : (s.modKey n f).key n = f (s.key n) := Tbl.at_put_same ..
theorem State.modKey_key_other {m : Nat} (h : m ≠ n) : (s.modKey n f).key m = s.key m := Tbl.at_put_other _ _ h
@[simp] theorem State.modKey_grp (m : Nat) : (s.modKey n f).grp m = s.grp m := rfl
@[simp] theorem State.modKey_team (m : Nat) : (s.modKey n f).team m = s.team m := rfl
@[simp] theorem State.modKey_grid (m : Nat) : (s.modKey n f).grid m = s.grid m := rfl
@[simp] theorem State.modKey_ctx (m : Nat) : (s.modKey n f).ctx m = s.ctx m := rfl
@[simp] theorem State.modKey_core (m : Nat) : (s.modKey n f).core m = s.core m := rfl
@[simp] theorem State.modKey_cluster (m : Nat) : (s.modKey n f).cluster m = s.cluster m := rfl
@[simp] theorem State.modKey_part (m : Nat) : (s.modKey n f).part m = s.part m := rfl
@[simp] theorem State.modKey_vdev (m : Nat) : (s.modKey n f).vdev m = s.vdev m := rfl
@[simp] theorem State.modKey_inst (m : Nat) : (s.modKey n f).inst m = s.inst m := rfl
@[simp] theorem State.modKey_l2line (m : Nat) : (s.modKey n f).l2line m = s.l2line m := rfl
end

section
variable (s : State) (n : Nat) (l : List Byte)

@[simp] theorem State.wrN_groups : (s.wrN n l).groups = s.groups := rfl
@[simp] theorem State.wrN_teams : (s.wrN n l).teams = s.teams := rfl
@[simp] theorem State.wrN_grids : (s.wrN n l).grids = s.grids := rfl
@[simp] theorem State.wrN_ctxs : (s.wrN n l).ctxs = s.ctxs := rfl
@[simp] theorem State.wrN_cores : (s.wrN n l).cores = s.cores := rfl
@[simp] theorem State.wrN_clusters : (s.wrN n l).clusters = s.clusters := rfl
@[simp] theorem State.wrN_parts : (s.wrN n l).parts = s.parts := rfl
@[simp] theorem State.wrN_keys : (s.wrN n l).keys = s.keys := rfl
@[simp] theorem State.wrN_vdevs : (s.wrN n l).vdevs = s.vdevs := rfl
@[simp] theorem State.wrN_insts : (s.wrN n l).insts = s.insts := rfl
@[simp] theorem State.wrN_slots : (s.wrN n l).slots = s.slots := rfl
@[simp] theorem State.wrN_slotReqs : (s.wrN n l).slotReqs = s.slotReqs := rfl
@[simp] theorem State.wrN_weir : (s.wrN n l).weir = s.weir := rfl
@[simp] theorem State.wrN_l2 : (s.wrN n l).l2 = s.l2 := rfl
@[simp] theorem State.wrN_xlat : (s.wrN n l).xlat = s.xlat := rfl
@[simp] theorem State.wrN_raced : (s.wrN n l).raced = s.raced := rfl
@[simp] theorem State.wrN_boot : (s.wrN n l).boot = s.boot := rfl
@[simp] theorem State.wrN_regs : (s.wrN n l).regs = s.regs := rfl
@[simp] theorem State.wrN_gtime : (s.wrN n l).gtime = s.gtime := rfl
@[simp] theorem State.wrN_retiredHw : (s.wrN n l).retiredHw = s.retiredHw := rfl
@[simp] theorem State.wrN_clks : (s.wrN n l).clks = s.clks := rfl
@[simp] theorem State.wrN_passed : (s.wrN n l).passed = s.passed := rfl
@[simp] theorem State.wrN_slotNo : (s.wrN n l).slotNo = s.slotNo := rfl
@[simp] theorem State.wrN_sent : (s.wrN n l).sent = s.sent := rfl
@[simp] theorem State.wrN_inbox : (s.wrN n l).inbox = s.inbox := rfl
@[simp] theorem State.wrN_buffered : (s.wrN n l).buffered = s.buffered := rfl
@[simp] theorem State.wrN_stamped : (s.wrN n l).stamped = s.stamped := rfl
@[simp] theorem State.wrN_early : (s.wrN n l).early = s.early := rfl
@[simp] theorem State.wrN_msix : (s.wrN n l).msix = s.msix := rfl
@[simp] theorem State.wrN_hostWrites : (s.wrN n l).hostWrites = s.hostWrites := rfl
@[simp] theorem State.wrN_weirWin : (s.wrN n l).weirWin = s.weirWin := rfl
@[simp] theorem State.wrN_atc : (s.wrN n l).atc = s.atc := rfl
@[simp] theorem State.wrN_hostAbsent : (s.wrN n l).hostAbsent = s.hostAbsent := rfl
@[simp] theorem State.wrN_hostWaits : (s.wrN n l).hostWaits = s.hostWaits := rfl
@[simp] theorem State.wrN_tagErrors : (s.wrN n l).tagErrors = s.tagErrors := rfl
@[simp] theorem State.wrN_discarded : (s.wrN n l).discarded = s.discarded := rfl
@[simp] theorem State.wrN_replays : (s.wrN n l).replays = s.replays := rfl
@[simp] theorem State.wrN_links : (s.wrN n l).links = s.links := rfl
@[simp] theorem State.wrN_softErrors : (s.wrN n l).softErrors = s.softErrors := rfl
@[simp] theorem State.wrN_reports : (s.wrN n l).reports = s.reports := rfl
@[simp] theorem State.wrN_outcome : (s.wrN n l).outcome = s.outcome := rfl
@[simp] theorem State.wrN_fresh : (s.wrN n l).fresh = s.fresh := rfl
@[simp] theorem State.wrN_cur : (s.wrN n l).cur = s.cur := rfl
@[simp] theorem State.wrN_agenda : (s.wrN n l).agenda = s.agenda := rfl
@[simp] theorem State.wrN_pace : (s.wrN n l).pace = s.pace := rfl
@[simp] theorem State.wrN_tick : (s.wrN n l).tick = s.tick := rfl
@[simp] theorem State.wrN_grp (m : Nat) : (s.wrN n l).grp m = s.grp m := rfl
@[simp] theorem State.wrN_team (m : Nat) : (s.wrN n l).team m = s.team m := rfl
@[simp] theorem State.wrN_grid (m : Nat) : (s.wrN n l).grid m = s.grid m := rfl
@[simp] theorem State.wrN_ctx (m : Nat) : (s.wrN n l).ctx m = s.ctx m := rfl
@[simp] theorem State.wrN_core (m : Nat) : (s.wrN n l).core m = s.core m := rfl
@[simp] theorem State.wrN_cluster (m : Nat) : (s.wrN n l).cluster m = s.cluster m := rfl
@[simp] theorem State.wrN_part (m : Nat) : (s.wrN n l).part m = s.part m := rfl
@[simp] theorem State.wrN_vdev (m : Nat) : (s.wrN n l).vdev m = s.vdev m := rfl
@[simp] theorem State.wrN_inst (m : Nat) : (s.wrN n l).inst m = s.inst m := rfl
@[simp] theorem State.wrN_l2line (m : Nat) : (s.wrN n l).l2line m = s.l2line m := rfl
@[simp] theorem State.wrN_key (m : Nat) : (s.wrN n l).key m = s.key m := rfl
end

/-! ## The issuing agent -/

theorem State.modMe_eq (s : State) (f : Group → Group) : s.modMe f = s.modGrp s.cur.agent f := rfl
@[simp] theorem State.modMe_me (s : State) (f : Group → Group) : (s.modMe f).me = f s.me := Tbl.at_put_same ..
theorem State.modMe_grp_other (s : State) (f : Group → Group) {a : Nat} (h : a ≠ s.cur.agent) :
    (s.modMe f).grp a = s.grp a := Tbl.at_put_other _ _ h
@[simp] theorem State.grp_agent (s : State) : s.grp s.cur.agent = s.me := rfl
@[simp] theorem State.modMe_teams (s : State) (f : Group → Group) : (s.modMe f).teams = s.teams := rfl
@[simp] theorem State.modMe_grids (s : State) (f : Group → Group) : (s.modMe f).grids = s.grids := rfl
@[simp] theorem State.modMe_ctxs (s : State) (f : Group → Group) : (s.modMe f).ctxs = s.ctxs := rfl
@[simp] theorem State.modMe_cores (s : State) (f : Group → Group) : (s.modMe f).cores = s.cores := rfl
@[simp] theorem State.modMe_clusters (s : State) (f : Group → Group) : (s.modMe f).clusters = s.clusters := rfl
@[simp] theorem State.modMe_parts (s : State) (f : Group → Group) : (s.modMe f).parts = s.parts := rfl
@[simp] theorem State.modMe_keys (s : State) (f : Group → Group) : (s.modMe f).keys = s.keys := rfl
@[simp] theorem State.modMe_vdevs (s : State) (f : Group → Group) : (s.modMe f).vdevs = s.vdevs := rfl
@[simp] theorem State.modMe_insts (s : State) (f : Group → Group) : (s.modMe f).insts = s.insts := rfl
@[simp] theorem State.modMe_slots (s : State) (f : Group → Group) : (s.modMe f).slots = s.slots := rfl
@[simp] theorem State.modMe_slotReqs (s : State) (f : Group → Group) : (s.modMe f).slotReqs = s.slotReqs := rfl
@[simp] theorem State.modMe_weir (s : State) (f : Group → Group) : (s.modMe f).weir = s.weir := rfl
@[simp] theorem State.modMe_l2 (s : State) (f : Group → Group) : (s.modMe f).l2 = s.l2 := rfl
@[simp] theorem State.modMe_mem (s : State) (f : Group → Group) : (s.modMe f).mem = s.mem := rfl
@[simp] theorem State.modMe_xlat (s : State) (f : Group → Group) : (s.modMe f).xlat = s.xlat := rfl
@[simp] theorem State.modMe_raced (s : State) (f : Group → Group) : (s.modMe f).raced = s.raced := rfl
@[simp] theorem State.modMe_boot (s : State) (f : Group → Group) : (s.modMe f).boot = s.boot := rfl
@[simp] theorem State.modMe_regs (s : State) (f : Group → Group) : (s.modMe f).regs = s.regs := rfl
@[simp] theorem State.modMe_gtime (s : State) (f : Group → Group) : (s.modMe f).gtime = s.gtime := rfl
@[simp] theorem State.modMe_retiredHw (s : State) (f : Group → Group) : (s.modMe f).retiredHw = s.retiredHw := rfl
@[simp] theorem State.modMe_clks (s : State) (f : Group → Group) : (s.modMe f).clks = s.clks := rfl
@[simp] theorem State.modMe_passed (s : State) (f : Group → Group) : (s.modMe f).passed = s.passed := rfl
@[simp] theorem State.modMe_slotNo (s : State) (f : Group → Group) : (s.modMe f).slotNo = s.slotNo := rfl
@[simp] theorem State.modMe_sent (s : State) (f : Group → Group) : (s.modMe f).sent = s.sent := rfl
@[simp] theorem State.modMe_inbox (s : State) (f : Group → Group) : (s.modMe f).inbox = s.inbox := rfl
@[simp] theorem State.modMe_buffered (s : State) (f : Group → Group) : (s.modMe f).buffered = s.buffered := rfl
@[simp] theorem State.modMe_stamped (s : State) (f : Group → Group) : (s.modMe f).stamped = s.stamped := rfl
@[simp] theorem State.modMe_early (s : State) (f : Group → Group) : (s.modMe f).early = s.early := rfl
@[simp] theorem State.modMe_msix (s : State) (f : Group → Group) : (s.modMe f).msix = s.msix := rfl
@[simp] theorem State.modMe_hostWrites (s : State) (f : Group → Group) : (s.modMe f).hostWrites = s.hostWrites := rfl
@[simp] theorem State.modMe_weirWin (s : State) (f : Group → Group) : (s.modMe f).weirWin = s.weirWin := rfl
@[simp] theorem State.modMe_atc (s : State) (f : Group → Group) : (s.modMe f).atc = s.atc := rfl
@[simp] theorem State.modMe_hostAbsent (s : State) (f : Group → Group) : (s.modMe f).hostAbsent = s.hostAbsent := rfl
@[simp] theorem State.modMe_hostWaits (s : State) (f : Group → Group) : (s.modMe f).hostWaits = s.hostWaits := rfl
@[simp] theorem State.modMe_tagErrors (s : State) (f : Group → Group) : (s.modMe f).tagErrors = s.tagErrors := rfl
@[simp] theorem State.modMe_discarded (s : State) (f : Group → Group) : (s.modMe f).discarded = s.discarded := rfl
@[simp] theorem State.modMe_replays (s : State) (f : Group → Group) : (s.modMe f).replays = s.replays := rfl
@[simp] theorem State.modMe_links (s : State) (f : Group → Group) : (s.modMe f).links = s.links := rfl
@[simp] theorem State.modMe_softErrors (s : State) (f : Group → Group) : (s.modMe f).softErrors = s.softErrors := rfl
@[simp] theorem State.modMe_reports (s : State) (f : Group → Group) : (s.modMe f).reports = s.reports := rfl
@[simp] theorem State.modMe_outcome (s : State) (f : Group → Group) : (s.modMe f).outcome = s.outcome := rfl
@[simp] theorem State.modMe_fresh (s : State) (f : Group → Group) : (s.modMe f).fresh = s.fresh := rfl
@[simp] theorem State.modMe_cur (s : State) (f : Group → Group) : (s.modMe f).cur = s.cur := rfl
@[simp] theorem State.modMe_agenda (s : State) (f : Group → Group) : (s.modMe f).agenda = s.agenda := rfl
@[simp] theorem State.modMe_pace (s : State) (f : Group → Group) : (s.modMe f).pace = s.pace := rfl
@[simp] theorem State.modMe_tick (s : State) (f : Group → Group) : (s.modMe f).tick = s.tick := rfl

/-! ## Updates of a group -/

section
variable (g : Group) (n : Nat) (w : Word)

@[simp] theorem Group.setS_role : (g.setS n w).role = g.role := rfl
@[simp] theorem Group.setS_gid : (g.setS n w).gid = g.gid := rfl
@[simp] theorem Group.setS_team : (g.setS n w).team = g.team := rfl
@[simp] theorem Group.setS_slot : (g.setS n w).slot = g.slot := rfl
@[simp] theorem Group.setS_budget : (g.setS n w).budget = g.budget := rfl
@[simp] theorem Group.setS_ended : (g.setS n w).ended = g.ended := rfl
@[simp] theorem Group.setS_v : (g.setS n w).v = g.v := rfl
@[simp] theorem Group.setS_x : (g.setS n w).x = g.x := rfl
@[simp] theorem Group.setS_p : (g.setS n w).p = g.p := rfl
@[simp] theorem Group.setS_j : (g.setS n w).j = g.j := rfl
@[simp] theorem Group.setS_flags : (g.setS n w).flags = g.flags := rfl
@[simp] theorem Group.setS_flagPc : (g.setS n w).flagPc = g.flagPc := rfl
@[simp] theorem Group.setS_lanes : (g.setS n w).lanes = g.lanes := rfl
@[simp] theorem Group.setS_bundle : (g.setS n w).bundle = g.bundle := rfl
@[simp] theorem Group.setS_privBase : (g.setS n w).privBase = g.privBase := rfl
@[simp] theorem Group.setS_fpmode : (g.setS n w).fpmode = g.fpmode := rfl
@[simp] theorem Group.setS_fpflags : (g.setS n w).fpflags = g.fpflags := rfl
@[simp] theorem Group.setS_trap : (g.setS n w).trap = g.trap := rfl
@[simp] theorem Group.setS_done : (g.setS n w).done = g.done := rfl
@[simp] theorem Group.setS_timer : (g.setS n w).timer = g.timer := rfl
@[simp] theorem Group.setS_watch : (g.setS n w).watch = g.watch := rfl
@[simp] theorem Group.setS_xstat : (g.setS n w).xstat = g.xstat := rfl
@[simp] theorem Group.setS_region : (g.setS n w).region = g.region := rfl
@[simp] theorem Group.setS_race : (g.setS n w).race = g.race := rfl
@[simp] theorem Group.setS_mfs : (g.setS n w).mfs = g.mfs := rfl
@[simp] theorem Group.setS_mts : (g.setS n w).mts = g.mts := rfl
@[simp] theorem Group.setS_board : (g.setS n w).board = g.board := rfl
@[simp] theorem Group.setS_faults : (g.setS n w).faults = g.faults := rfl
@[simp] theorem Group.setS_stopped : (g.setS n w).stopped = g.stopped := rfl
@[simp] theorem Group.setS_deny : (g.setS n w).deny = g.deny := rfl
@[simp] theorem Group.setS_issued : (g.setS n w).issued = g.issued := rfl
@[simp] theorem Group.setS_under : (g.setS n w).under = g.under := rfl
@[simp] theorem Group.setS_owed : (g.setS n w).owed = g.owed := rfl
end

section
variable (g : Group) (n l : Nat) (w : Word)

@[simp] theorem Group.setV_role : (g.setV n l w).role = g.role := rfl
@[simp] theorem Group.setV_gid : (g.setV n l w).gid = g.gid := rfl
@[simp] theorem Group.setV_team : (g.setV n l w).team = g.team := rfl
@[simp] theorem Group.setV_slot : (g.setV n l w).slot = g.slot := rfl
@[simp] theorem Group.setV_budget : (g.setV n l w).budget = g.budget := rfl
@[simp] theorem Group.setV_ended : (g.setV n l w).ended = g.ended := rfl
@[simp] theorem Group.setV_s : (g.setV n l w).s = g.s := rfl
@[simp] theorem Group.setV_x : (g.setV n l w).x = g.x := rfl
@[simp] theorem Group.setV_p : (g.setV n l w).p = g.p := rfl
@[simp] theorem Group.setV_j : (g.setV n l w).j = g.j := rfl
@[simp] theorem Group.setV_flags : (g.setV n l w).flags = g.flags := rfl
@[simp] theorem Group.setV_flagPc : (g.setV n l w).flagPc = g.flagPc := rfl
@[simp] theorem Group.setV_lanes : (g.setV n l w).lanes = g.lanes := rfl
@[simp] theorem Group.setV_bundle : (g.setV n l w).bundle = g.bundle := rfl
@[simp] theorem Group.setV_privBase : (g.setV n l w).privBase = g.privBase := rfl
@[simp] theorem Group.setV_fpmode : (g.setV n l w).fpmode = g.fpmode := rfl
@[simp] theorem Group.setV_fpflags : (g.setV n l w).fpflags = g.fpflags := rfl
@[simp] theorem Group.setV_trap : (g.setV n l w).trap = g.trap := rfl
@[simp] theorem Group.setV_done : (g.setV n l w).done = g.done := rfl
@[simp] theorem Group.setV_timer : (g.setV n l w).timer = g.timer := rfl
@[simp] theorem Group.setV_watch : (g.setV n l w).watch = g.watch := rfl
@[simp] theorem Group.setV_xstat : (g.setV n l w).xstat = g.xstat := rfl
@[simp] theorem Group.setV_region : (g.setV n l w).region = g.region := rfl
@[simp] theorem Group.setV_race : (g.setV n l w).race = g.race := rfl
@[simp] theorem Group.setV_mfs : (g.setV n l w).mfs = g.mfs := rfl
@[simp] theorem Group.setV_mts : (g.setV n l w).mts = g.mts := rfl
@[simp] theorem Group.setV_board : (g.setV n l w).board = g.board := rfl
@[simp] theorem Group.setV_faults : (g.setV n l w).faults = g.faults := rfl
@[simp] theorem Group.setV_stopped : (g.setV n l w).stopped = g.stopped := rfl
@[simp] theorem Group.setV_deny : (g.setV n l w).deny = g.deny := rfl
@[simp] theorem Group.setV_issued : (g.setV n l w).issued = g.issued := rfl
@[simp] theorem Group.setV_under : (g.setV n l w).under = g.under := rfl
@[simp] theorem Group.setV_owed : (g.setV n l w).owed = g.owed := rfl
end

section
variable (g : Group) (n l : Nat) (w : Word)

@[simp] theorem Group.setX_role : (g.setX n l w).role = g.role := rfl
@[simp] theorem Group.setX_gid : (g.setX n l w).gid = g.gid := rfl
@[simp] theorem Group.setX_team : (g.setX n l w).team = g.team := rfl
@[simp] theorem Group.setX_slot : (g.setX n l w).slot = g.slot := rfl
@[simp] theorem Group.setX_budget : (g.setX n l w).budget = g.budget := rfl
@[simp] theorem Group.setX_ended : (g.setX n l w).ended = g.ended := rfl
@[simp] theorem Group.setX_s : (g.setX n l w).s = g.s := rfl
@[simp] theorem Group.setX_v : (g.setX n l w).v = g.v := rfl
@[simp] theorem Group.setX_p : (g.setX n l w).p = g.p := rfl
@[simp] theorem Group.setX_j : (g.setX n l w).j = g.j := rfl
@[simp] theorem Group.setX_flags : (g.setX n l w).flags = g.flags := rfl
@[simp] theorem Group.setX_flagPc : (g.setX n l w).flagPc = g.flagPc := rfl
@[simp] theorem Group.setX_lanes : (g.setX n l w).lanes = g.lanes := rfl
@[simp] theorem Group.setX_bundle : (g.setX n l w).bundle = g.bundle := rfl
@[simp] theorem Group.setX_privBase : (g.setX n l w).privBase = g.privBase := rfl
@[simp] theorem Group.setX_fpmode : (g.setX n l w).fpmode = g.fpmode := rfl
@[simp] theorem Group.setX_fpflags : (g.setX n l w).fpflags = g.fpflags := rfl
@[simp] theorem Group.setX_trap : (g.setX n l w).trap = g.trap := rfl
@[simp] theorem Group.setX_done : (g.setX n l w).done = g.done := rfl
@[simp] theorem Group.setX_timer : (g.setX n l w).timer = g.timer := rfl
@[simp] theorem Group.setX_watch : (g.setX n l w).watch = g.watch := rfl
@[simp] theorem Group.setX_xstat : (g.setX n l w).xstat = g.xstat := rfl
@[simp] theorem Group.setX_region : (g.setX n l w).region = g.region := rfl
@[simp] theorem Group.setX_race : (g.setX n l w).race = g.race := rfl
@[simp] theorem Group.setX_mfs : (g.setX n l w).mfs = g.mfs := rfl
@[simp] theorem Group.setX_mts : (g.setX n l w).mts = g.mts := rfl
@[simp] theorem Group.setX_board : (g.setX n l w).board = g.board := rfl
@[simp] theorem Group.setX_faults : (g.setX n l w).faults = g.faults := rfl
@[simp] theorem Group.setX_stopped : (g.setX n l w).stopped = g.stopped := rfl
@[simp] theorem Group.setX_deny : (g.setX n l w).deny = g.deny := rfl
@[simp] theorem Group.setX_issued : (g.setX n l w).issued = g.issued := rfl
@[simp] theorem Group.setX_under : (g.setX n l w).under = g.under := rfl
@[simp] theorem Group.setX_owed : (g.setX n l w).owed = g.owed := rfl
end

section
variable (g : Group) (l : Nat) (f : Lane → Lane)

@[simp] theorem Group.modLane_role : (g.modLane l f).role = g.role := rfl
@[simp] theorem Group.modLane_gid : (g.modLane l f).gid = g.gid := rfl
@[simp] theorem Group.modLane_team : (g.modLane l f).team = g.team := rfl
@[simp] theorem Group.modLane_slot : (g.modLane l f).slot = g.slot := rfl
@[simp] theorem Group.modLane_budget : (g.modLane l f).budget = g.budget := rfl
@[simp] theorem Group.modLane_ended : (g.modLane l f).ended = g.ended := rfl
@[simp] theorem Group.modLane_s : (g.modLane l f).s = g.s := rfl
@[simp] theorem Group.modLane_v : (g.modLane l f).v = g.v := rfl
@[simp] theorem Group.modLane_x : (g.modLane l f).x = g.x := rfl
@[simp] theorem Group.modLane_p : (g.modLane l f).p = g.p := rfl
@[simp] theorem Group.modLane_j : (g.modLane l f).j = g.j := rfl
@[simp] theorem Group.modLane_flags : (g.modLane l f).flags = g.flags := rfl
@[simp] theorem Group.modLane_flagPc : (g.modLane l f).flagPc = g.flagPc := rfl
@[simp] theorem Group.modLane_bundle : (g.modLane l f).bundle = g.bundle := rfl
@[simp] theorem Group.modLane_privBase : (g.modLane l f).privBase = g.privBase := rfl
@[simp] theorem Group.modLane_fpmode : (g.modLane l f).fpmode = g.fpmode := rfl
@[simp] theorem Group.modLane_fpflags : (g.modLane l f).fpflags = g.fpflags := rfl
@[simp] theorem Group.modLane_trap : (g.modLane l f).trap = g.trap := rfl
@[simp] theorem Group.modLane_done : (g.modLane l f).done = g.done := rfl
@[simp] theorem Group.modLane_timer : (g.modLane l f).timer = g.timer := rfl
@[simp] theorem Group.modLane_watch : (g.modLane l f).watch = g.watch := rfl
@[simp] theorem Group.modLane_xstat : (g.modLane l f).xstat = g.xstat := rfl
@[simp] theorem Group.modLane_region : (g.modLane l f).region = g.region := rfl
@[simp] theorem Group.modLane_race : (g.modLane l f).race = g.race := rfl
@[simp] theorem Group.modLane_mfs : (g.modLane l f).mfs = g.mfs := rfl
@[simp] theorem Group.modLane_mts : (g.modLane l f).mts = g.mts := rfl
@[simp] theorem Group.modLane_board : (g.modLane l f).board = g.board := rfl
@[simp] theorem Group.modLane_faults : (g.modLane l f).faults = g.faults := rfl
@[simp] theorem Group.modLane_stopped : (g.modLane l f).stopped = g.stopped := rfl
@[simp] theorem Group.modLane_deny : (g.modLane l f).deny = g.deny := rfl
@[simp] theorem Group.modLane_issued : (g.modLane l f).issued = g.issued := rfl
@[simp] theorem Group.modLane_under : (g.modLane l f).under = g.under := rfl
@[simp] theorem Group.modLane_owed : (g.modLane l f).owed = g.owed := rfl
end

section
variable (g : Group) (n l : Nat) (b : Bool)

@[simp] theorem Group.setP_role : (g.setP n l b).role = g.role := by unfold Group.setP; split <;> rfl
@[simp] theorem Group.setP_gid : (g.setP n l b).gid = g.gid := by unfold Group.setP; split <;> rfl
@[simp] theorem Group.setP_team : (g.setP n l b).team = g.team := by unfold Group.setP; split <;> rfl
@[simp] theorem Group.setP_slot : (g.setP n l b).slot = g.slot := by unfold Group.setP; split <;> rfl
@[simp] theorem Group.setP_budget : (g.setP n l b).budget = g.budget := by unfold Group.setP; split <;> rfl
@[simp] theorem Group.setP_ended : (g.setP n l b).ended = g.ended := by unfold Group.setP; split <;> rfl
@[simp] theorem Group.setP_s : (g.setP n l b).s = g.s := by unfold Group.setP; split <;> rfl
@[simp] theorem Group.setP_v : (g.setP n l b).v = g.v := by unfold Group.setP; split <;> rfl
@[simp] theorem Group.setP_x : (g.setP n l b).x = g.x := by unfold Group.setP; split <;> rfl
@[simp] theorem Group.setP_j : (g.setP n l b).j = g.j := by unfold Group.setP; split <;> rfl
@[simp] theorem Group.setP_flags : (g.setP n l b).flags = g.flags := by unfold Group.setP; split <;> rfl
@[simp] theorem Group.setP_flagPc : (g.setP n l b).flagPc = g.flagPc := by unfold Group.setP; split <;> rfl
@[simp] theorem Group.setP_lanes : (g.setP n l b).lanes = g.lanes := by unfold Group.setP; split <;> rfl
@[simp] theorem Group.setP_bundle : (g.setP n l b).bundle = g.bundle := by unfold Group.setP; split <;> rfl
@[simp] theorem Group.setP_privBase : (g.setP n l b).privBase = g.privBase := by unfold Group.setP; split <;> rfl
@[simp] theorem Group.setP_fpmode : (g.setP n l b).fpmode = g.fpmode := by unfold Group.setP; split <;> rfl
@[simp] theorem Group.setP_fpflags : (g.setP n l b).fpflags = g.fpflags := by unfold Group.setP; split <;> rfl
@[simp] theorem Group.setP_trap : (g.setP n l b).trap = g.trap := by unfold Group.setP; split <;> rfl
@[simp] theorem Group.setP_done : (g.setP n l b).done = g.done := by unfold Group.setP; split <;> rfl
@[simp] theorem Group.setP_timer : (g.setP n l b).timer = g.timer := by unfold Group.setP; split <;> rfl
@[simp] theorem Group.setP_watch : (g.setP n l b).watch = g.watch := by unfold Group.setP; split <;> rfl
@[simp] theorem Group.setP_xstat : (g.setP n l b).xstat = g.xstat := by unfold Group.setP; split <;> rfl
@[simp] theorem Group.setP_region : (g.setP n l b).region = g.region := by unfold Group.setP; split <;> rfl
@[simp] theorem Group.setP_race : (g.setP n l b).race = g.race := by unfold Group.setP; split <;> rfl
@[simp] theorem Group.setP_mfs : (g.setP n l b).mfs = g.mfs := by unfold Group.setP; split <;> rfl
@[simp] theorem Group.setP_mts : (g.setP n l b).mts = g.mts := by unfold Group.setP; split <;> rfl
@[simp] theorem Group.setP_board : (g.setP n l b).board = g.board := by unfold Group.setP; split <;> rfl
@[simp] theorem Group.setP_faults : (g.setP n l b).faults = g.faults := by unfold Group.setP; split <;> rfl
@[simp] theorem Group.setP_stopped : (g.setP n l b).stopped = g.stopped := by unfold Group.setP; split <;> rfl
@[simp] theorem Group.setP_deny : (g.setP n l b).deny = g.deny := by unfold Group.setP; split <;> rfl
@[simp] theorem Group.setP_issued : (g.setP n l b).issued = g.issued := by unfold Group.setP; split <;> rfl
@[simp] theorem Group.setP_under : (g.setP n l b).under = g.under := by unfold Group.setP; split <;> rfl
@[simp] theorem Group.setP_owed : (g.setP n l b).owed = g.owed := by unfold Group.setP; split <;> rfl
end

section
variable (g : Group) (m : Mask) (f : Lane → Lane)

theorem Group.modLanes_field {β : Type} (r : Group → β) (h : ∀ (g : Group) (l : Nat), r (g.modLane l f) = r g) :
    r (g.modLanes m f) = r g := by
  unfold Group.modLanes
  induction lanesOf m generalizing g with
  | nil => rfl
  | cons x t ih => rw [List.foldl_cons, ih, h]

@[simp] theorem Group.modLanes_role : (g.modLanes m f).role = g.role := Group.modLanes_field g m f (·.role) (fun _ _ => rfl)
@[simp] theorem Group.modLanes_gid : (g.modLanes m f).gid = g.gid := Group.modLanes_field g m f (·.gid) (fun _ _ => rfl)
@[simp] theorem Group.modLanes_team : (g.modLanes m f).team = g.team := Group.modLanes_field g m f (·.team) (fun _ _ => rfl)
@[simp] theorem Group.modLanes_slot : (g.modLanes m f).slot = g.slot := Group.modLanes_field g m f (·.slot) (fun _ _ => rfl)
@[simp] theorem Group.modLanes_budget : (g.modLanes m f).budget = g.budget := Group.modLanes_field g m f (·.budget) (fun _ _ => rfl)
@[simp] theorem Group.modLanes_ended : (g.modLanes m f).ended = g.ended := Group.modLanes_field g m f (·.ended) (fun _ _ => rfl)
@[simp] theorem Group.modLanes_s : (g.modLanes m f).s = g.s := Group.modLanes_field g m f (·.s) (fun _ _ => rfl)
@[simp] theorem Group.modLanes_v : (g.modLanes m f).v = g.v := Group.modLanes_field g m f (·.v) (fun _ _ => rfl)
@[simp] theorem Group.modLanes_x : (g.modLanes m f).x = g.x := Group.modLanes_field g m f (·.x) (fun _ _ => rfl)
@[simp] theorem Group.modLanes_p : (g.modLanes m f).p = g.p := Group.modLanes_field g m f (·.p) (fun _ _ => rfl)
@[simp] theorem Group.modLanes_j : (g.modLanes m f).j = g.j := Group.modLanes_field g m f (·.j) (fun _ _ => rfl)
@[simp] theorem Group.modLanes_flags : (g.modLanes m f).flags = g.flags := Group.modLanes_field g m f (·.flags) (fun _ _ => rfl)
@[simp] theorem Group.modLanes_flagPc : (g.modLanes m f).flagPc = g.flagPc := Group.modLanes_field g m f (·.flagPc) (fun _ _ => rfl)
@[simp] theorem Group.modLanes_bundle : (g.modLanes m f).bundle = g.bundle := Group.modLanes_field g m f (·.bundle) (fun _ _ => rfl)
@[simp] theorem Group.modLanes_privBase : (g.modLanes m f).privBase = g.privBase := Group.modLanes_field g m f (·.privBase) (fun _ _ => rfl)
@[simp] theorem Group.modLanes_fpmode : (g.modLanes m f).fpmode = g.fpmode := Group.modLanes_field g m f (·.fpmode) (fun _ _ => rfl)
@[simp] theorem Group.modLanes_fpflags : (g.modLanes m f).fpflags = g.fpflags := Group.modLanes_field g m f (·.fpflags) (fun _ _ => rfl)
@[simp] theorem Group.modLanes_trap : (g.modLanes m f).trap = g.trap := Group.modLanes_field g m f (·.trap) (fun _ _ => rfl)
@[simp] theorem Group.modLanes_done : (g.modLanes m f).done = g.done := Group.modLanes_field g m f (·.done) (fun _ _ => rfl)
@[simp] theorem Group.modLanes_timer : (g.modLanes m f).timer = g.timer := Group.modLanes_field g m f (·.timer) (fun _ _ => rfl)
@[simp] theorem Group.modLanes_watch : (g.modLanes m f).watch = g.watch := Group.modLanes_field g m f (·.watch) (fun _ _ => rfl)
@[simp] theorem Group.modLanes_xstat : (g.modLanes m f).xstat = g.xstat := Group.modLanes_field g m f (·.xstat) (fun _ _ => rfl)
@[simp] theorem Group.modLanes_region : (g.modLanes m f).region = g.region := Group.modLanes_field g m f (·.region) (fun _ _ => rfl)
@[simp] theorem Group.modLanes_race : (g.modLanes m f).race = g.race := Group.modLanes_field g m f (·.race) (fun _ _ => rfl)
@[simp] theorem Group.modLanes_mfs : (g.modLanes m f).mfs = g.mfs := Group.modLanes_field g m f (·.mfs) (fun _ _ => rfl)
@[simp] theorem Group.modLanes_mts : (g.modLanes m f).mts = g.mts := Group.modLanes_field g m f (·.mts) (fun _ _ => rfl)
@[simp] theorem Group.modLanes_board : (g.modLanes m f).board = g.board := Group.modLanes_field g m f (·.board) (fun _ _ => rfl)
@[simp] theorem Group.modLanes_faults : (g.modLanes m f).faults = g.faults := Group.modLanes_field g m f (·.faults) (fun _ _ => rfl)
@[simp] theorem Group.modLanes_stopped : (g.modLanes m f).stopped = g.stopped := Group.modLanes_field g m f (·.stopped) (fun _ _ => rfl)
@[simp] theorem Group.modLanes_deny : (g.modLanes m f).deny = g.deny := Group.modLanes_field g m f (·.deny) (fun _ _ => rfl)
@[simp] theorem Group.modLanes_issued : (g.modLanes m f).issued = g.issued := Group.modLanes_field g m f (·.issued) (fun _ _ => rfl)
@[simp] theorem Group.modLanes_under : (g.modLanes m f).under = g.under := Group.modLanes_field g m f (·.under) (fun _ _ => rfl)
@[simp] theorem Group.modLanes_owed : (g.modLanes m f).owed = g.owed := Group.modLanes_field g m f (·.owed) (fun _ _ => rfl)
end

end Sys2Proof.Machine
end

