-- ==== Sys2Proof/Laws/Ops.lean ====
section
/-!
SUPPORT. What the shared operations around every instruction do: the lanes' move to the next instruction, a clk
of the group, retirement, completion, and `performS` when an instruction issues.
-/

namespace Sys2Proof.Machine

open Sys2Proof.Safety

/-! ## Lanes -/

theorem lanesOf_mem {m : Mask} {l : Nat} : l ∈ lanesOf m ↔ l < 64 ∧ m.getLsbD l = true := by
  simp [lanesOf, lanes64]

theorem lanesOf_nodup (m : Mask) : (lanesOf m).Nodup := List.Nodup.filter _ List.nodup_range

@[simp] theorem Group.lane_modLane (g : Group) (l n : Nat) (f : Lane → Lane) :
    (g.modLane l f).lane n = if n = l then f (g.lane l) else g.lane n := Tbl.at_put ..

theorem Group.lane_foldl (ls : List Nat) (hn : ls.Nodup) (g : Group) (f : Lane → Lane) (n : Nat) :
    (ls.foldl (fun g l => g.modLane l f) g).lane n = if n ∈ ls then f (g.lane n) else g.lane n := by
  induction ls generalizing g with
  | nil => simp
  | cons x t ih =>
    rw [List.nodup_cons] at hn
    rw [List.foldl_cons, ih hn.2, Group.lane_modLane]
    by_cases hx : n = x
    · subst hx; simp [hn.1]
    · simp [hx]

/-- An update of the lanes of a mask reaches exactly those lanes. -/
theorem Group.lane_modLanes (g : Group) (m : Mask) (f : Lane → Lane) (n : Nat) :
    (g.modLanes m f).lane n = if n < 64 ∧ m.getLsbD n = true then f (g.lane n) else g.lane n := by
  rw [Group.modLanes, Group.lane_foldl _ (lanesOf_nodup m)]
  simp only [lanesOf_mem]

/-- The bundle's lanes go to the next instruction. -/
theorem Group.moved_setPcs (g : Group) (m : Mask) (pc : DWord) : GoesTo m (fun _ => pc) g (g.setPcs m pc) := by
  intro l
  rw [Group.setPcs, Group.lane_modLanes]
  split <;> simp

/-! ## A clk of the group -/

@[simp] theorem Lane.passed_st (act up : Mask) (l : Nat) (x : Lane) : (x.passed act up l).st = x.st := by
  unfold Lane.passed; split <;> rfl
@[simp] theorem Lane.passed_pc (act up : Mask) (l : Nat) (x : Lane) : (x.passed act up l).pc = x.pc := by
  unfold Lane.passed; split <;> rfl

/-- An issue leaves every lane's status and PC. -/
theorem Group.lane_passed (act up : Mask) (g : Group) (l : Nat) :
    ((g.passed act up).lane l).st = (g.lane l).st ∧ ((g.passed act up).lane l).pc = (g.lane l).pc := by
  have h : (g.passed act up).lane l = if Tbl.lists g.lanes l then (g.lane l).passed act up l else default :=
    Tbl.at_map g.lanes (fun l x => x.passed act up l) l
  rw [h]
  split
  · simp
  · rename_i hl
    rw [show g.lane l = default from Tbl.at_unlisted (by simpa using hl)]
    exact ⟨rfl, rfl⟩

theorem Group.rest_passed (act up : Mask) (g : Group) : SameRest g (g.passed act up) :=
  ⟨⟨rfl, rfl, rfl, rfl, rfl, rfl⟩, ⟨rfl, rfl⟩, rfl, rfl, rfl, rfl, rfl, ⟨rfl, rfl⟩, rfl, ⟨rfl, rfl⟩, rfl, rfl, ⟨rfl, rfl⟩⟩

theorem Group.regs_passed (act up : Mask) (g : Group) : SameRegs g (g.passed act up) :=
  ⟨fun _ _ _ _ => rfl, fun _ _ => rfl, fun _ _ _ => rfl, fun _ _ _ _ => rfl⟩

theorem clkPass_me (act : Mask) (s : State) : (clkPass act s).me = s.me.passed act s.cur.others := by
  have h : (s.modMe (Group.passed act s.cur.others)).me = s.me.passed act s.cur.others := State.modMe_me s _
  unfold clkPass
  dsimp only
  split
  · exact h
  · split <;> exact h

/-- An update of the issuer's group changes nothing else. -/
theorem modMe_machine (s : State) (f : Group → Group) : SameMachine s (s.modMe f) ∧ SameOthers s (s.modMe f) :=
  ⟨⟨rfl, rfl, rfl, rfl, fun _ => rfl, fun _ => rfl, rfl, rfl, rfl, rfl, rfl, ⟨rfl, rfl, rfl⟩, ⟨rfl, rfl, rfl, rfl⟩,
    ⟨rfl, rfl, rfl⟩, rfl, rfl, ⟨rfl, rfl, rfl⟩, ⟨rfl, rfl, rfl, rfl, rfl, rfl, rfl⟩, ⟨rfl, rfl, rfl, rfl⟩, ⟨rfl, rfl, rfl⟩, rfl, rfl⟩,
    fun _ ha => State.modMe_grp_other _ _ ha⟩

/-- An update of what a core has issued changes nothing else. -/
theorem modCore_machine (s : State) (k : Nat) (f : Core → Core) (h : ∀ x, untimed (f x) = untimed x) :
    SameMachine s (s.modCore k f) := by
  refine ⟨rfl, rfl, rfl, rfl, fun _ => rfl, fun n => ?_, rfl, rfl, rfl, rfl, rfl, ⟨rfl, rfl, rfl⟩, ⟨rfl, rfl, rfl, rfl⟩,
    ⟨rfl, rfl, rfl⟩, rfl, rfl, ⟨rfl, rfl, rfl⟩, ⟨rfl, rfl, rfl, rfl, rfl, rfl, rfl⟩, ⟨rfl, rfl, rfl, rfl⟩, ⟨rfl, rfl, rfl⟩, rfl, rfl⟩
  rw [State.modCore_core]
  split
  · rename_i hn; subst hn; exact h _
  · rfl

/-! ## Relations compose -/

end Sys2Proof.Machine

namespace Sys2Proof.Safety

open Sys2Proof.Machine

theorem SameRest.trans {g h k : Group} (a : SameRest g h) (b : SameRest h k) : SameRest g k where
  ids := ⟨b.ids.1.trans a.ids.1, b.ids.2.1.trans a.ids.2.1, b.ids.2.2.1.trans a.ids.2.2.1,
    b.ids.2.2.2.1.trans a.ids.2.2.2.1, b.ids.2.2.2.2.1.trans a.ids.2.2.2.2.1, b.ids.2.2.2.2.2.trans a.ids.2.2.2.2.2⟩
  ended := ⟨b.ended.1.trans a.ended.1, b.ended.2.trans a.ended.2⟩
  join := b.join.trans a.join
  flags := b.flags.trans a.flags
  fpmode := b.fpmode.trans a.fpmode
  trap := b.trap.trans a.trap
  timer := b.timer.trans a.timer
  region := ⟨b.region.1.trans a.region.1, b.region.2.trans a.region.2⟩
  race := b.race.trans a.race
  shadows := ⟨b.shadows.1.trans a.shadows.1, b.shadows.2.trans a.shadows.2⟩
  board := b.board.trans a.board
  faults := b.faults.trans a.faults
  waits := ⟨b.waits.1.trans a.waits.1, b.waits.2.trans a.waits.2⟩

theorem SameMachine.trans {s t u : State} (a : SameMachine s t) (b : SameMachine t u) : SameMachine s u where
  mem := b.mem.trans a.mem
  l2 := b.l2.trans a.l2
  teams := b.teams.trans a.teams
  grids := b.grids.trans a.grids
  ctxs c := (b.ctxs c).trans (a.ctxs c)
  cores k := (b.cores k).trans (a.cores k)
  clusters := b.clusters.trans a.clusters
  parts := b.parts.trans a.parts
  keys := b.keys.trans a.keys
  vdevs := b.vdevs.trans a.vdevs
  insts := b.insts.trans a.insts
  slots := ⟨b.slots.1.trans a.slots.1, b.slots.2.1.trans a.slots.2.1, b.slots.2.2.trans a.slots.2.2⟩
  weir := ⟨b.weir.1.trans a.weir.1, b.weir.2.1.trans a.weir.2.1, b.weir.2.2.1.trans a.weir.2.2.1, b.weir.2.2.2.trans a.weir.2.2.2⟩
  caches := ⟨b.caches.1.trans a.caches.1, b.caches.2.1.trans a.caches.2.1, b.caches.2.2.trans a.caches.2.2⟩
  boot := b.boot.trans a.boot
  regs := b.regs.trans a.regs
  time := ⟨b.time.1.trans a.time.1, b.time.2.1.trans a.time.2.1, b.time.2.2.trans a.time.2.2⟩
  fabric := ⟨b.fabric.1.trans a.fabric.1, b.fabric.2.1.trans a.fabric.2.1, b.fabric.2.2.1.trans a.fabric.2.2.1,
    b.fabric.2.2.2.1.trans a.fabric.2.2.2.1, b.fabric.2.2.2.2.1.trans a.fabric.2.2.2.2.1,
    b.fabric.2.2.2.2.2.1.trans a.fabric.2.2.2.2.2.1, b.fabric.2.2.2.2.2.2.trans a.fabric.2.2.2.2.2.2⟩
  reports := ⟨b.reports.1.trans a.reports.1, b.reports.2.1.trans a.reports.2.1, b.reports.2.2.1.trans a.reports.2.2.1,
    b.reports.2.2.2.trans a.reports.2.2.2⟩
  hosts := ⟨b.hosts.1.trans a.hosts.1, b.hosts.2.1.trans a.hosts.2.1, b.hosts.2.2.trans a.hosts.2.2⟩
  cur := b.cur.trans a.cur
  fresh := b.fresh.trans a.fresh

theorem SameMachine.refl (s : State) : SameMachine s s :=
  ⟨rfl, rfl, rfl, rfl, fun _ => rfl, fun _ => rfl, rfl, rfl, rfl, rfl, rfl, ⟨rfl, rfl, rfl⟩, ⟨rfl, rfl, rfl, rfl⟩,
    ⟨rfl, rfl, rfl⟩, rfl, rfl, ⟨rfl, rfl, rfl⟩, ⟨rfl, rfl, rfl, rfl, rfl, rfl, rfl⟩, ⟨rfl, rfl, rfl, rfl⟩, ⟨rfl, rfl, rfl⟩, rfl, rfl⟩

theorem SameOthers.trans {s t u : State} (hc : t.cur = s.cur) (a : SameOthers s t) (b : SameOthers t u) :
    SameOthers s u := fun x hx => (b x (by rw [hc]; exact hx)).trans (a x hx)

theorem OnlyDst.same {g h k : Group} (a : SameRegs g h) (b : SameRegs h k) : SameRegs g k :=
  ⟨fun n l hl hh => (b.v n l hl hh).trans (a.v n l hl hh), fun n hh => (b.s n hh).trans (a.s n hh),
    fun n l hh => (b.p n l hh).trans (a.p n l hh), fun n l hl hh => (b.x n l hl hh).trans (a.x n l hl hh)⟩

end Sys2Proof.Safety

namespace Sys2Proof.Machine

open Sys2Proof.Safety

/-- What an issue leaves of the rest of the machine. -/
theorem clkPass_machine (act : Mask) (s : State) :
    SameMachine s (clkPass act s) ∧ SameOthers s (clkPass act s)
      ∧ (clkPass act s).retiredHw = s.retiredHw ∧ (clkPass act s).ctxs = s.ctxs := by
  have m := modMe_machine s (Group.passed act s.cur.others)
  have ho : SameOthers s (s.modMe (Group.passed act s.cur.others)) := m.2
  unfold clkPass
  dsimp only
  split
  · exact ⟨m.1, ho, rfl, rfl⟩
  · split
    · exact ⟨m.1.trans (modCore_machine _ _ _ (fun _ => rfl)), ho, rfl, rfl⟩
    · exact ⟨m.1.trans (modCore_machine _ _ _ (fun _ => rfl)), ho, rfl, rfl⟩

theorem Group.rest_setPcs (g : Group) (m : Mask) (pc : DWord) : SameRest g (g.setPcs m pc) := by
  constructor <;> simp [Group.setPcs]

theorem Group.regs_setPcs (g : Group) (m : Mask) (pc : DWord) : SameRegs g (g.setPcs m pc) := by
  constructor <;> intros <;> simp [Group.setPcs, Group.vreg, Group.sreg, Group.preg, Group.xreg]

/-! ## Retirement (R303, R329, R332) -/

theorem State.count_retired (s : State) (c e n : Nat) (d : Nat) : ((s.count c e n).ctx d).retired = (s.ctx d).retired := by
  unfold State.count
  rw [State.modCtx_ctx]
  split
  · rename_i h; subst h; rfl
  · rfl

theorem State.count_ctx (s : State) (c e n : Nat) (d : Nat) :
    uncounted ((s.count c e n).ctx d) = uncounted (s.ctx d) := by
  unfold State.count
  rw [State.modCtx_ctx]
  split
  · rename_i h; subst h; rfl
  · rfl

/-- An update of a context's counts changes nothing else. -/
theorem modCtx_machine (s : State) (c : Nat) (f : Context → Context) (h : ∀ x, uncounted (f x) = uncounted x) :
    SameMachine s (s.modCtx c f) := by
  refine ⟨rfl, rfl, rfl, rfl, fun d => ?_, fun _ => rfl, rfl, rfl, rfl, rfl, rfl, ⟨rfl, rfl, rfl⟩, ⟨rfl, rfl, rfl, rfl⟩,
    ⟨rfl, rfl, rfl⟩, rfl, rfl, ⟨rfl, rfl, rfl⟩, ⟨rfl, rfl, rfl, rfl, rfl, rfl, rfl⟩, ⟨rfl, rfl, rfl, rfl⟩, ⟨rfl, rfl, rfl⟩, rfl, rfl⟩
  rw [State.modCtx_ctx]
  split
  · rename_i hd; subst hd; exact h _
  · rfl

theorem count_machine (s : State) (c e n : Nat) : SameMachine s (s.count c e n) :=
  modCtx_machine s c _ (fun _ => rfl)

/-- Retirement changes the counts alone. -/
theorem retireOf_machine (a n : Nat) (s : State) :
    SameMachine s (retireOf a n s) ∧ (retireOf a n s).groups = s.groups := by
  unfold retireOf
  split
  · exact ⟨⟨rfl, rfl, rfl, rfl, fun _ => rfl, fun _ => rfl, rfl, rfl, rfl, rfl, rfl, ⟨rfl, rfl, rfl⟩, ⟨rfl, rfl, rfl, rfl⟩,
    ⟨rfl, rfl, rfl⟩, rfl, rfl, ⟨rfl, rfl, rfl⟩, ⟨rfl, rfl, rfl, rfl, rfl, rfl, rfl⟩, ⟨rfl, rfl, rfl, rfl⟩, ⟨rfl, rfl, rfl⟩, rfl, rfl⟩, rfl⟩
  · exact ⟨((modCtx_machine s (s.ctxNo a) (fun x => { x with retired := x.retired + 1 }) (fun _ => rfl)).trans
      (count_machine ..)).trans (count_machine ..), rfl⟩

theorem retireOf_retired (n : Nat) (s : State) : Retired s (retireOf s.cur.agent n s) := by
  unfold Retired retireOf
  rw [State.grp_agent]
  split
  · rfl
  · refine ⟨rfl, ?_⟩
    show ((((s.modCtx _ _).count _ _ _).count _ _ _).ctx s.myCtxNo).retired = _
    rw [State.count_retired, State.count_retired]
    exact congrArg Context.retired (State.modCtx_ctx_same s s.myCtxNo _)

/-! ## Completion -/

theorem complete_cur (act : Mask) (n : Nat) (s : State) : (complete act n s).cur = s.cur := by
  have h := (clkPass_machine act (retireOf s.cur.agent n s)).1.cur
  have h2 := (retireOf_machine s.cur.agent n s).1.cur
  exact h.trans h2

theorem complete_me (act : Mask) (n : Nat) (s : State) :
    (complete act n s).me = rebundle act (s.me.passed act s.cur.others) := by
  have hr := retireOf_machine s.cur.agent n s
  have hm : (retireOf s.cur.agent n s).me = s.me := by
    show (retireOf s.cur.agent n s).groups.at _ = s.groups.at _
    rw [hr.2, hr.1.cur]
  unfold complete
  dsimp only
  rw [State.modMe_me, clkPass_me, hm, hr.1.cur]

/-- What completion leaves of the machine: everything but the counts and the clk. -/
theorem complete_machine (act : Mask) (n : Nat) (s : State) :
    SameMachine s (complete act n s) ∧ SameOthers s (complete act n s) ∧ Retired s (complete act n s) := by
  have hr := retireOf_machine s.cur.agent n s
  have hc := clkPass_machine act (retireOf s.cur.agent n s)
  have hm := modMe_machine (clkPass act (retireOf s.cur.agent n s)) (rebundle act)
  have hcur := hr.1.cur
  refine ⟨(hr.1.trans hc.1).trans hm.1, fun a ha => ?_, ?_⟩
  · have h1 : (retireOf s.cur.agent n s).grp a = s.grp a := by
      show (retireOf s.cur.agent n s).groups.at a = s.groups.at a; rw [hr.2]
    exact ((hm.2 a (by rw [hc.1.cur, hcur]; exact ha)).trans (hc.2.1 a (by rw [hcur]; exact ha))).trans h1
  · have h := retireOf_retired n s
    have hx : (complete act n s).retiredHw = (retireOf s.cur.agent n s).retiredHw := hc.2.2.1
    have hy : ∀ c, (complete act n s).ctx c = (retireOf s.cur.agent n s).ctx c := fun c =>
      congrArg (fun t => Tbl.at t c) hc.2.2.2
    unfold Retired at h ⊢
    rw [hx, hy]
    exact h

/-! ## `performS` on an instruction that issues -/

/-- The meaning runs with the bundle's lanes at the next instruction. -/
def entered (o : Body) (s : State) : State := s.modMe (fun g => g.setPcs s.cur.act (nextPc s.cur.pc o.len))

/-- DONE is used up by the instruction it names (R146, R243). -/
def usedUp (s t : State) : State := t.modMe (Group.unskip s.cur.pc s.cur.act)

theorem issues_iff {opc : BitVec 8} {o : Body} {s : State} : issues opc o s = true ↔
    issuerFault s opc o = none ∧ outOfRange s opc o = false ∧ flagBusy s o = false ∧ waitsOperand s opc o = false
      ∧ (abortsRegion opc && decide (s.actMask o &&& regionParts s ≠ 0)) = false := by
  simp only [issues, Bool.and_eq_true, Bool.not_eq_true', decide_eq_true_eq, and_assoc]

/-- What `performS` answers for an instruction that issues, by what its meaning answers. -/
theorem performS_issues {opc : BitVec 8} {o : Body} {s : State} (h : issues opc o s = true) (k : State → Res) :
    performS opc o k s =
      (match k (entered o s) with
      | .ok t => complete s.cur.act (lanesOf (s.actMask o)).length (usedUp s t)
      | .run t => clkPass s.cur.act (retireOf s.cur.agent (lanesOf (s.actMask o)).length (usedUp s t))
      | .wait t => (clkPass s.cur.act ((usedUp s t).modMe (Group.wait s.cur.act (lanesOf (s.actMask o)).length))).modMe
          (rebundle s.cur.act)
      | .aborted t => clkPass s.cur.act t
      | .trap i t => clkPass s.cur.act (raise (nextPc s.cur.pc o.len) (s.actMask o)
          { i with done := i.done ||| (s.me.done.at s.cur.pc.toNat &&& s.cur.act) }
          (usedUp s (t.modMe (fun g => g.setPcs (s.cur.act &&& g.live) s.cur.pc))))
      | .hold => holdBundle s
      | .pfault d t => t.modMe (fun g => { (g.modLanes s.cur.act (fun l => { l with st := .pfault, pc := s.cur.pc })).skip
          s.cur.pc d with bundle := { g.bundle with due := g.bundle.due || decide (g.bundle.clause ≠ 0), clause := 0 } })) := by
  obtain ⟨h1, h2, h3, h4, h5⟩ := issues_iff.1 h
  unfold performS
  simp only [h1, h2, h3, h4, Bool.false_eq_true, if_false, Bool.or_self]
  rw [if_neg (by rw [Bool.not_eq_true]; exact h5)]
  cases hk : k (entered o s) <;> rw [entered] at hk <;> rw [hk] <;> rfl

theorem exec_ok {opc : BitVec 8} {o : Body} {s t : State} {k : State → Res} (h : issues opc o s = true)
    (hk : k (entered o s) = .ok t) :
    perform opc o k s = .next (complete s.cur.act (lanesOf (s.actMask o)).length (usedUp s t)) := by
  rw [perform, performS_issues h, hk]

end Sys2Proof.Machine
end

