-- ==== Sys2Proof/Laws/Memory.lean ====
section
/-!
SUPPORT. Memory: a read after a write, the bytes a write leaves alone, and that every operation on memory keeps its
canonical form.
-/

namespace Sys2Proof.Machine

open Sys2Proof.Safety

/-! ## Numbers as bytes, least significant first (R3) -/

theorem ofLe_leBytes (n v : Nat) : ofLe (leBytes n v) = v % 256 ^ n := by
  induction n generalizing v with
  | zero => simp [leBytes, ofLe, Nat.mod_one]
  | succ n ih => simp [leBytes, ofLe, ih, Nat.pow_succ', Nat.mod_mul]

theorem leBytes_length (n v : Nat) : (leBytes n v).length = n := by induction n generalizing v <;> simp [leBytes, *]

/-! ## Bytes of a table replaced from a number on -/

theorem at_append_left {t u : Tbl Byte} {i : Nat} (h : ∀ p ∈ t, p.1 ≠ i) : Tbl.at (t ++ u) i = Tbl.at u i := by
  induction t with
  | nil => rfl
  | cons p t ih =>
    obtain ⟨b, x⟩ := p
    have hb : b ≠ i := h (b, x) (by simp)
    simp only [List.cons_append, Tbl.at, hb, if_false]
    exact ih (fun p hp => h p (by simp [hp]))

theorem at_append_right {t u : Tbl Byte} {i : Nat} (h : ∀ p ∈ u, p.1 ≠ i) : Tbl.at (t ++ u) i = Tbl.at t i := by
  induction t with
  | nil =>
    have : Tbl.lists u i = false := by simpa [Tbl.lists] using h
    simpa using Tbl.at_unlisted this
  | cons p t ih =>
    obtain ⟨b, x⟩ := p
    by_cases hb : b = i <;> simp [Tbl.at, hb, ih]

/-- The new bytes as a table. -/
def newBytes (lo n : Nat) (bs : List Byte) : Tbl Byte :=
  (bs.zipIdx n).filterMap (fun p => if p.1 = 0 then none else some (lo + p.2, p.1))

theorem newBytes_range (lo n : Nat) (bs : List Byte) : ∀ p ∈ newBytes lo n bs, lo + n ≤ p.1 ∧ p.1 < lo + n + bs.length := by
  intro p hp
  simp only [newBytes, List.mem_filterMap] at hp
  obtain ⟨⟨x, m⟩, hm, hq⟩ := hp
  have := List.mem_zipIdx hm
  by_cases hx : x = 0
  · simp [hx] at hq
  · simp only [hx, if_false, Option.some.injEq] at hq
    subst hq; simp only; omega

theorem newBytes_cons (lo n : Nat) (b : Byte) (bs : List Byte) :
    newBytes lo n (b :: bs) = (if b = 0 then [] else [(lo + n, b)]) ++ newBytes lo (n + 1) bs := by
  by_cases hb : b = 0
  · subst hb; simp [newBytes]
  · rw [if_neg hb]
    unfold newBytes
    rw [List.zipIdx_cons, List.filterMap_cons]
    simp only [if_neg hb, List.cons_append, List.nil_append]

theorem at_newBytes (lo n : Nat) (bs : List Byte) (i : Nat) :
    Tbl.at (newBytes lo n bs) i = if lo + n ≤ i ∧ i < lo + n + bs.length then bs.getD (i - (lo + n)) 0 else 0 := by
  induction bs generalizing n with
  | nil => simp [newBytes]; rfl
  | cons b bs ih =>
    rw [newBytes_cons]
    by_cases hi : i = lo + n
    · subst hi
      have hr : ∀ p ∈ newBytes lo (n + 1) bs, p.1 ≠ lo + n := fun p hp => by
        have := (newBytes_range lo (n + 1) bs p hp).1; omega
      rw [at_append_right hr]
      have hv : Tbl.at (if b = 0 then ([] : Tbl Byte) else [(lo + n, b)]) (lo + n) = b := by
        by_cases hb : b = 0
        · rw [if_pos hb, hb]; rfl
        · rw [if_neg hb]; simp [Tbl.at]
      rw [hv, if_pos (by simp)]
      simp
    · have hl : ∀ p ∈ (if b = 0 then ([] : Tbl Byte) else [(lo + n, b)]), p.1 ≠ i := by
        by_cases hb : b = 0
        · rw [if_pos hb]; simp
        · rw [if_neg hb]; simpa using Ne.symm hi
      rw [at_append_left hl, ih]
      by_cases hc : lo + n ≤ i ∧ i < lo + n + (b :: bs).length
      · have h1 : lo + (n + 1) ≤ i ∧ i < lo + (n + 1) + bs.length := by simp at hc; omega
        have h2 : i - (lo + n) = i - (lo + (n + 1)) + 1 := by omega
        rw [if_pos h1, if_pos hc, h2, List.getD_cons_succ]
      · rw [if_neg hc, if_neg]
        simp at hc ⊢; omega

theorem wf_newBytes (lo n : Nat) (bs : List Byte) : Tbl.wf (newBytes lo n bs) = true := by
  induction bs generalizing n with
  | nil => rfl
  | cons b bs ih =>
    rw [newBytes_cons]
    refine Tbl.wf_append (m := lo + n + 1) ?_ (ih (n + 1)) ?_ (fun p hp => (newBytes_range lo (n + 1) bs p hp).1)
    · by_cases hb : b = 0
      · rw [if_pos hb]; rfl
      · rw [if_neg hb]; simp only [Tbl.wf, Tbl.wfFrom, Bool.true_and, Bool.and_true, decide_eq_true_eq]; exact hb
    · by_cases hb : b = 0
      · rw [if_pos hb]; simp
      · rw [if_neg hb]; simp

theorem putRange_eq (t : Tbl Byte) (lo : Nat) (bs : List Byte) :
    putRange t lo bs = t.filter (fun p => decide (p.1 < lo)) ++ (newBytes lo 0 bs
      ++ t.filter (fun p => decide (lo + bs.length ≤ p.1))) := by
  simp [putRange, newBytes]

/-- Reading a byte after bytes were replaced from `lo` on. -/
theorem at_putRange (t : Tbl Byte) (lo : Nat) (bs : List Byte) (i : Nat) :
    Tbl.at (putRange t lo bs) i = if lo ≤ i ∧ i < lo + bs.length then bs.getD (i - lo) 0 else Tbl.at t i := by
  rw [putRange_eq]
  by_cases h1 : i < lo
  · rw [at_append_right, Tbl.at_filter t (fun n => decide (n < lo)), if_pos (by simpa using h1), if_neg (by omega)]
    intro p hp
    simp only [List.mem_append, List.mem_filter, decide_eq_true_eq] at hp
    rcases hp with hp | hp
    · have := (newBytes_range lo 0 bs p hp).1; omega
    · omega
  · rw [at_append_left (fun p hp => by simp at hp; omega)]
    by_cases h2 : i < lo + bs.length
    · rw [at_append_right (fun p hp => by simp at hp; omega), at_newBytes]
      rw [Nat.add_zero, if_pos (by omega), if_pos (by omega)]
    · rw [at_append_left (fun p hp => by have := (newBytes_range lo 0 bs p hp).2; omega),
        Tbl.at_filter t (fun n => decide (lo + bs.length ≤ n)), if_pos (by simp; omega), if_neg (by omega)]

theorem wf_putRange {t : Tbl Byte} (h : Tbl.wf t = true) (lo : Nat) (bs : List Byte) :
    Tbl.wf (putRange t lo bs) = true := by
  rw [putRange_eq]
  refine Tbl.wf_append (m := lo) (Tbl.wf_filter _ h) ?_ (fun p hp => by simp at hp; omega) ?_
  · refine Tbl.wf_append (m := lo + bs.length) (wf_newBytes lo 0 bs) (Tbl.wf_filter _ h) (fun p hp => ?_)
      (fun p hp => by simp at hp; omega)
    have := (newBytes_range lo 0 bs p hp).2; omega
  · intro p hp
    simp only [List.mem_append, List.mem_filter, decide_eq_true_eq] at hp
    rcases hp with hp | hp
    · have := (newBytes_range lo 0 bs p hp).1; omega
    · omega

/-! ## Reads and writes of memory -/

/-- A read of a byte after a write of a range: the byte written inside it, the byte from before outside. -/
theorem rd_wrN (s : State) (k : Nat) (bs : List Byte) (i : Nat) :
    (s.wrN k bs).rd i = if k ≤ i ∧ i < k + bs.length then bs.getD (i - k) 0 else s.rd i := at_putRange s.mem k bs i

theorem stored_wrN (s : State) (k : Nat) (bs : List Byte) : Stored k bs s (s.wrN k bs) := rd_wrN s k bs

theorem rdN_wrN_same (s : State) (k : Nat) (bs : List Byte) : (s.wrN k bs).rdN k bs.length = bs := by
  apply List.ext_getElem
  · simp [State.rdN]
  · intro n h1 h2
    have := rd_wrN s k bs (k + n)
    rw [if_pos (by omega)] at this
    simp only [State.rd] at this
    simp [State.rdN, this, h2]

theorem rdN_wrN_other (s : State) (k n : Nat) (bs : List Byte) (i : Nat) (h : i + n ≤ k ∨ k + bs.length ≤ i) :
    (s.wrN k bs).rdN i n = s.rdN i n := by
  simp only [State.rdN]
  refine List.map_congr_left (fun x hx => ?_)
  have := rd_wrN s k bs (i + x)
  simp only [List.mem_range] at hx
  rwa [if_neg (by omega)] at this

theorem rd_zeroN (s : State) (k n i : Nat) : (s.zeroN k n).rd i = if k ≤ i ∧ i < k + n then 0 else s.rd i := by
  have := Tbl.at_filter s.mem (fun m => decide (m < k) || decide (k + n ≤ m)) i
  simp only [State.rd, State.zeroN, this]
  by_cases h : k ≤ i ∧ i < k + n
  · rw [if_neg (by simp; omega), if_pos h]; rfl
  · rw [if_pos (by simp; omega), if_neg h]

theorem reset_wf : MemWf State.reset := rfl
theorem wrN_wf {s : State} (h : MemWf s) (k : Nat) (bs : List Byte) : MemWf (s.wrN k bs) := wf_putRange h k bs
theorem wrLe_wf {s : State} (h : MemWf s) (k n w : Nat) : MemWf (s.wrLe k n w) := wrN_wf h k _
theorem zeroN_wf {s : State} (h : MemWf s) (k n : Nat) : MemWf (s.zeroN k n) := Tbl.wf_filter _ h

/-- A loop keeps the canonical form if its body does. -/
theorem foldl_wf {β : Type} (f : State → β → State) (l : List β) (hf : ∀ s x, MemWf s → MemWf (f s x)) :
    ∀ s, MemWf s → MemWf (l.foldl f s) := by
  induction l with
  | nil => exact fun _ h => h
  | cons x l ih => exact fun s h => ih (f s x) (hf s x h)

/-- A loop changes no byte of memory if its body changes none. -/
theorem foldl_mem {β : Type} (f : State → β → State) (l : List β) (hf : ∀ s x, (f s x).mem = s.mem) :
    ∀ s, (l.foldl f s).mem = s.mem := by
  induction l with
  | nil => exact fun _ => rfl
  | cons x l ih => exact fun s => (ih (f s x)).trans (hf s x)

/-! ## What the operations at the home slice write -/

theorem endRegion_mem (a q c f : Nat) (s : State) : (endRegion a q c f s).mem = s.mem := by
  unfold endRegion; split <;> rfl

theorem abortRegion_mem (a q c f : Nat) (s : State) : (abortRegion a q c f s).mem = s.mem := by
  unfold abortRegion; split <;> exact endRegion_mem ..

theorem conflicts_mem (own : Option Nat) (w : Bool) (l : Nat) (s : State) : (conflicts own w l s).mem = s.mem := by
  refine foldl_mem _ _ (fun s p => ?_) s
  split
  · exact abortRegion_mem ..
  · rfl

theorem applyWords_wf (op ty : Nat) (ws : List (Nat × DWord)) {s : State} (h : MemWf s) : MemWf (applyWords op ty ws s) :=
  foldl_wf _ _ (fun _ _ h => wrLe_wf h _ _ _) s h

theorem takePushed_wf (c l : Nat) (m : Merge) {s : State} (h : MemWf s) : MemWf (takePushed c l m s) :=
  applyWords_wf _ _ _ (s := s.modCore c _) h

theorem foldReds_wf (l : Nat) {s : State} (h : MemWf s) : MemWf (foldReds l s) := by
  unfold foldReds
  split
  · exact h
  · refine foldl_wf _ _ (fun s c h => ?_) s h
    dsimp only
    split
    · exact foldl_wf _ _ (fun _ _ h => applyWords_wf _ _ _ h) _ (takePushed_wf _ _ _ (applyWords_wf _ _ _ h))
    · exact applyWords_wf _ _ _ h

theorem dirtyLine_wf (l : Nat) {s : State} (h : MemWf s) : MemWf (dirtyLine l s) := h

theorem putSumm_wf (ls : List Nat) (bs : List Byte) {s : State} (h : MemWf s) : MemWf (putSumm ls bs s) :=
  foldl_wf _ _ (fun _ _ h => dirtyLine_wf _ (wrN_wf h _ _)) s h

theorem foldSumAt_wf (ls : List Nat) {s : State} (h : MemWf s) : MemWf (foldSumAt ls s) := by
  unfold foldSumAt
  dsimp only
  split
  · exact h
  · exact putSumm_wf _ _ h

theorem foldSums_wf (l : Nat) {s : State} (h : MemWf s) : MemWf (foldSums l s) :=
  foldl_wf _ _ (fun _ _ h => foldSumAt_wf _ h) s h

theorem foldLine_wf (l : Nat) {s : State} (h : MemWf s) : MemWf (foldLine l s) := foldSums_wf l (foldReds_wf l h)

theorem touchLine_wf (own : Option Nat) (w : Bool) (l : Nat) {s : State} (h : MemWf s) : MemWf (touchLine own w l s) := by
  rw [MemWf, touchLine, conflicts_mem]; exact foldLine_wf l h

theorem verifyTag_mem (conf l : Nat) (s : State) : (verifyTag conf l s).mem = s.mem := by
  unfold verifyTag; dsimp only; split <;> rfl

theorem verifyTag_wf (conf l : Nat) {s : State} (h : MemWf s) : MemWf (verifyTag conf l s) := by
  rw [MemWf, verifyTag_mem]; exact h

theorem claimLine_wf (conf l : Nat) {s : State} (h : MemWf s) : MemWf (claimLine conf l s) := by
  unfold claimLine
  simp only
  split
  · exact h
  · split
    · exact verifyTag_wf _ _ h
    · exact wrN_wf (verifyTag_wf _ _ h) _ _

/-- A read at the home slice keeps the canonical form. -/
theorem l2Read_wf (own : Option Nat) (conf k n : Nat) {s : State} (h : MemWf s) : MemWf (l2Read own conf k n s).2 := by
  unfold l2Read
  simp only
  split
  · exact foldl_wf _ _ (fun _ _ h => verifyTag_wf _ _ (touchLine_wf _ _ _ h)) s h
  · exact h

/-- A write at the home slice keeps the canonical form. -/
theorem l2Write_wf (own : Option Nat) (conf k : Nat) (bs : List Byte) {s : State} (h : MemWf s) :
    MemWf (l2Write own conf k bs s) := by
  unfold l2Write
  simp only
  refine wrN_wf ?_ k bs
  split
  · exact foldl_wf _ _ (fun _ l h => dirtyLine_wf l (claimLine_wf _ _ (touchLine_wf _ _ _ h))) s h
  · exact h

/-- The bytes written at the home slice are there afterwards. -/
theorem l2Write_same (own : Option Nat) (conf k : Nat) (bs : List Byte) (s : State) :
    (l2Write own conf k bs s).rdN k bs.length = bs := rdN_wrN_same _ k bs

theorem raceEmpty_mem (k n : Nat) (s : State) : (raceEmpty k n s).mem = s.mem := by
  unfold raceEmpty
  split
  · refine foldl_mem _ _ (fun s l => ?_) s; rfl
  · rfl

theorem outsideWrite_wf (k : Nat) (bs : List Byte) {s : State} (h : MemWf s) : MemWf (outsideWrite k bs s) := by
  rw [MemWf, outsideWrite, raceEmpty_mem]; exact l2Write_wf _ _ _ _ h

theorem outsideWrite_same (k : Nat) (bs : List Byte) (s : State) : (outsideWrite k bs s).rdN k bs.length = bs := by
  have : (outsideWrite k bs s).rdN k bs.length = (l2Write none 0 k bs s).rdN k bs.length := by
    simp only [State.rdN, outsideWrite, raceEmpty_mem]
  rw [this, l2Write_same]

/-! ## Descriptors, table entries and partition-stage addresses -/

theorem setDesc_wf (c off n w : Nat) {s : State} (h : MemWf s) : MemWf (s.setDesc c off n w) := by
  unfold State.setDesc
  exact outsideWrite_wf _ _ h

theorem setPte_wf (l : Leaf) (m : Nat) {s : State} (h : MemWf s) : MemWf (setPte l m s) := by
  unfold setPte
  simp only
  split
  · exact h
  · rw [MemWf, raceEmpty_mem]; exact wrLe_wf h _ _ _

theorem cacheXlat_mem (c : Nat) (t : Trans) (s : State) : (cacheXlat c t s).mem = s.mem := by
  unfold cacheXlat; split <;> rfl

theorem markAD_wf (c : Nat) (w : Bool) (t : Trans) {s : State} (h : MemWf s) : MemWf (markAD c w t s) := by
  have h : MemWf (cacheXlat c t s) := by rw [MemWf, cacheXlat_mem]; exact h
  unfold markAD
  simp only
  split
  · exact setPte_wf _ _ (setPte_wf _ _ h)
  · exact setPte_wf _ _ (setPte_wf _ _ h)

theorem writeAt_wf (k : Option Nat) (bs : List Byte) {s : State} (h : MemWf s) : MemWf (writeAt k bs s) := by
  cases k with
  | none => exact h
  | some k => exact outsideWrite_wf _ _ h

theorem writePieces_wf (c addr : Nat) (bs : List Byte) (l : List Nat) : ∀ {s : State}, MemWf s → MemWf (l.foldl
    (fun s i => writeAt (stage2Key s c true (addr + 64 * i)) (sub bs (64 * i) 64) s) s) := by
  induction l with
  | nil => exact fun h => h
  | cons x l ih => intro s h; rw [List.foldl_cons]; exact ih (writeAt_wf _ _ h)

theorem writeStage2_wf (c addr : Nat) (bs : List Byte) {s : State} (h : MemWf s) : MemWf (writeStage2 c addr bs s) := by
  rw [writeStage2]
  exact writePieces_wf _ _ _ _ h

end Sys2Proof.Machine
end

