-- ==== Sys2Proof/Laws/Exceptions.lean ====
section
/-!
SUPPORT. Taking an exception and returning from one: what trap entry does where a handler can take it, what an abort of
an atomic region does, and what ERET's act does.
-/

namespace Sys2Proof.Machine

open Sys2Proof.Safety

/-! ## What the write of a trap area leaves alone -/

/-- Every group keeps its trap registers, role and team. -/
structure SameTraps (s t : State) : Prop where
  all : ∀ a, (t.grp a).trap = (s.grp a).trap ∧ (t.grp a).role = (s.grp a).role ∧ (t.grp a).team = (s.grp a).team

variable {s u v : State}

theorem SameTraps.refl (s : State) : SameTraps s s := ⟨fun _ => ⟨rfl, rfl, rfl⟩⟩
theorem SameTraps.then_groups (h : SameTraps s u) (g : v.groups = u.groups) : SameTraps s v :=
  ⟨fun a => by simpa [State.grp, g] using h.all a⟩
theorem SameTraps.trans (h : SameTraps s u) (k : SameTraps u v) : SameTraps s v :=
  ⟨fun a => ⟨(k.all a).1.trans (h.all a).1, (k.all a).2.1.trans (h.all a).2.1, (k.all a).2.2.trans (h.all a).2.2⟩⟩

theorem SameTraps.foldl {β : Type} (f : State → β → State) (l : List β) (hf : ∀ s x, SameTraps s (f s x)) :
    ∀ s, SameTraps s (l.foldl f s) := by
  induction l with
  | nil => exact SameTraps.refl
  | cons x l ih => exact fun s => (hf s x).trans (ih (f s x))

theorem SameTraps.modGrp (s : State) (a : Nat) (f : Group → Group)
    (h : ∀ g, (f g).trap = g.trap ∧ (f g).role = g.role ∧ (f g).team = g.team) : SameTraps s (s.modGrp a f) := by
  refine ⟨fun b => ?_⟩
  by_cases hb : b = a
  · subst hb; simpa [State.grp, State.modGrp] using h (s.groups.at b)
  · simp [State.grp, State.modGrp, Tbl.at_put_other _ _ hb]

theorem SameTraps.abort (a q c f : Nat) (s : State) : SameTraps s (abortRegion a q c f s) := by
  have h : SameTraps s (endRegion a q c f s) := by
    unfold endRegion
    split
    · exact SameTraps.refl s
    · exact SameTraps.modGrp s a _ (fun g => by simp [Group.aborted, Group.unfinish])
  unfold abortRegion
  split
  · exact h
  · exact h.then_groups rfl

theorem SameTraps.conflicts (own : Option Nat) (w : Bool) (l : Nat) (s : State) : SameTraps s (conflicts own w l s) := by
  refine SameTraps.foldl _ _ (fun s p => ?_) s
  split
  · exact SameTraps.abort ..
  · exact SameTraps.refl s

theorem foldl_groups {β : Type} (f : State → β → State) (l : List β) (hf : ∀ s x, (f s x).groups = s.groups) :
    ∀ s, (l.foldl f s).groups = s.groups := by
  induction l with
  | nil => exact fun _ => rfl
  | cons x l ih => exact fun s => (ih (f s x)).trans (hf s x)

theorem applyWords_groups (op ty : Nat) (ws : List (Nat × DWord)) (s : State) :
    (applyWords op ty ws s).groups = s.groups := by
  refine foldl_groups _ _ (fun s p => ?_) s
  rfl

theorem foldReds_groups (l : Nat) (s : State) : (foldReds l s).groups = s.groups := by
  unfold foldReds
  split
  · rfl
  · refine foldl_groups _ _ (fun s c => ?_) s
    dsimp only
    split
    · exact (foldl_groups _ _ (fun _ _ => applyWords_groups ..) _).trans
        ((applyWords_groups ..).trans (applyWords_groups ..) : (takePushed ..).groups = s.groups)
    · exact applyWords_groups ..

theorem foldSumAt_groups (ls : List Nat) (s : State) : (foldSumAt ls s).groups = s.groups := by
  unfold foldSumAt
  dsimp only
  split
  · rfl
  · simp only [putSumm]
    refine foldl_groups _ _ (fun s p => ?_) s
    rfl

theorem foldSums_groups (l : Nat) (s : State) : (foldSums l s).groups = s.groups :=
  foldl_groups _ _ (fun _ _ => foldSumAt_groups ..) s

theorem claimLine_groups (conf l : Nat) (s : State) : (claimLine conf l s).groups = s.groups := by
  unfold claimLine
  simp only
  split
  · rfl
  · have h : (verifyTag conf l s).groups = s.groups := by unfold verifyTag; dsimp only; split <;> rfl
    split <;> exact h

theorem dirtyLine_groups (l : Nat) (s : State) : (dirtyLine l s).groups = s.groups := rfl

theorem SameTraps.lines (own : Option Nat) (conf : Nat) (ls : List Nat) (s : State) :
    SameTraps s (ls.foldl (fun s l => dirtyLine l (claimLine conf l (touchLine own true l s))) s) := by
  refine SameTraps.foldl _ _ (fun s l => ?_) s
  refine SameTraps.then_groups (SameTraps.then_groups ?_ (claimLine_groups conf l _)) (dirtyLine_groups l _)
  exact (SameTraps.then_groups (SameTraps.refl s) ((foldSums_groups ..).trans (foldReds_groups ..))).trans
    (SameTraps.conflicts ..)

theorem SameTraps.l2Write (h : SameTraps s u) (own : Option Nat) (conf k : Nat) (bs : List Byte) :
    SameTraps s (l2Write own conf k bs u) := by
  refine h.trans ?_
  unfold Machine.l2Write
  by_cases hf : isFrame k = true
  · simp only [hf, if_true]; exact SameTraps.then_groups (SameTraps.lines ..) rfl
  · simp only [hf]; exact SameTraps.then_groups (SameTraps.refl u) rfl

theorem setPte_groups (l : Leaf) (m : Nat) (s : State) : (setPte l m s).groups = s.groups := by
  unfold setPte
  simp only
  split
  · rfl
  · unfold raceEmpty
    split
    · refine foldl_groups _ _ (fun _ _ => ?_) _
      rfl
    · rfl

theorem cacheXlat_groups (c : Nat) (t : Trans) (s : State) : (cacheXlat c t s).groups = s.groups := by
  unfold cacheXlat; split <;> rfl

theorem markAD_groups (c : Nat) (w : Bool) (t : Trans) (s : State) : (markAD c w t s).groups = s.groups := by
  unfold markAD
  simp only
  split <;> exact ((setPte_groups ..).trans (setPte_groups ..)).trans (cacheXlat_groups ..)

theorem patchL1_groups (core k : Nat) (bs : List Byte) (s : State) : (patchL1 core k bs s).groups = s.groups := by
  refine foldl_groups _ _ (fun s l => ?_) s
  simp only
  split <;> rfl

/-! ## Trap entry (R237, R238) -/

theorem SameTraps.area (a key conf : Nat) (tr : Option Trans) (r x : List Byte) (s : State) :
    SameTraps s (writeArea a key conf tr r x s) := by
  have h0 : SameTraps s (match tr with | some tr => markAD (s.ctxNo a) true tr s | none => s) := by
    cases tr with
    | none => exact SameTraps.refl s
    | some tr => exact (SameTraps.refl s).then_groups (markAD_groups ..)
  have h1 := h0.l2Write none conf key r
  have h2 : ∀ w, SameTraps s w → SameTraps s (if (w.grp a).role = .headwater then w
      else overtake (w.coreNo a) key (r ++ x).length (patchL1 (w.coreNo a) key (r ++ x) w)) := fun w hw => by
    split
    · exact hw
    · exact hw.then_groups (patchL1_groups ..)
  unfold writeArea
  refine h2 _ ?_
  by_cases hx : x = []
  · simp only [hx, if_true]; exact h1
  · simp only [hx, if_false]; exact h1.l2Write none conf (key + 0x80) x

theorem Group.lane_trapped (lanes : Mask) (tpc recPc recd : DWord) (d : Bool) (op : Nat) (x : TrapInfo) (g : Group) (l : Nat)
    (h : l ∈ lanesOf lanes) :
    ((g.trapped lanes tpc recPc recd d op x).lane l).st = .ready ∧
      ((g.trapped lanes tpc recPc recd d op x).lane l).pc = g.trap.base := by
  have := Group.lane_modLanes (g.unfinish lanes) lanes (fun l => { l with st := .ready, pc := g.trap.base }) l
  rw [lanesOf_mem] at h
  rw [if_pos h] at this
  exact ⟨congrArg Lane.st this, congrArg Lane.pc this⟩

/-- Where a handler can take it, trap entry puts cause and PC into the trap registers and sends the trap lanes, and no
others, to TRAPBASE. -/
theorem enterTrap_entered {s : State} {a : Nat} {m : Mask} {tpc recPc : DWord} {d : Bool} {op : Nat} {x : TrapInfo}
    (h : canTrapAt s a (if d then tpc else recPc) = true) :
    Entered a m x.code d tpc s (enterTrap a m tpc recPc d op x s) := by
  simp only [canTrapAt, Bool.and_eq_true] at h
  obtain ⟨⟨hh, ha⟩, _⟩ := h
  unfold enterTrap
  simp only [hh]
  cases hk : trapArea s a (if d then tpc else recPc) with
  | bad => simp [hk] at ha
  | wait => simp [hk] at ha
  | at_ va key conf tr =>
    simp only
    have hn : SameTraps s (if (s.grp a).role = .headwater then s
        else noteFault (s.ctxNo a) (if d = true then 1 else 0) s) := by
      split
      · exact SameTraps.refl s
      · exact (SameTraps.refl s).then_groups rfl
    generalize (if (s.grp a).role = .headwater then s else noteFault (s.ctxNo a) (if d = true then 1 else 0) s) = n at hn
    have hb := ((hn.trans (SameTraps.area a key conf tr (faultRecord s a recPc d x) x.special n)).all a).1
    generalize writeArea a key conf tr (faultRecord s a recPc d x) x.special n = u at hb
    refine ⟨?_, ?_, ?_, fun l hl => ?_⟩
    · simp [State.grp, State.modGrp, Group.trapped]
    · simp [State.grp, State.modGrp, Group.trapped]
    · simp [State.grp, State.modGrp, Group.trapped]
    · have := Group.lane_trapped m tpc recPc (if x.special = [] then va else va + 0x80) d op x (u.grp a) l hl
      rw [hb] at this
      simpa [State.grp, State.modGrp] using this

/-! ## ERET's act (R243, R403) -/

theorem restartOp_groups (a op : Nat) (s : State) : (restartOp a op s).groups = s.groups := by
  unfold restartOp
  split <;> rfl

theorem Group.lane_returned (g : Group) (l : Nat) (h : l ∈ lanesOf (g.trap.lanes &&& g.live)) :
    (g.returned.lane l).st = .ready ∧ (g.returned.lane l).pc = g.trap.pc := by
  have := Group.lane_modLanes (g.finish (g.trap.lanes &&& g.live)) (g.trap.lanes &&& g.live) (fun l => { l with st := .ready, pc := g.trap.pc }) l
  rw [lanesOf_mem] at h
  rw [if_pos h] at this
  exact ⟨congrArg Lane.st this, congrArg Lane.pc this⟩

/-- ERET's act ends the trap: INTRAP falls, nothing is held, and the trap lanes that have not exited stand at TRAPPC. -/
theorem eretAct_returns (a : Nat) (s : State) :
    ((eretAct a s).grp a).trap.inTrap = false ∧ ((eretAct a s).grp a).trap.held = 0 ∧
      ∀ l ∈ lanesOf ((s.grp a).trap.lanes &&& (s.grp a).live),
        (((eretAct a s).grp a).lane l).st = .ready ∧ (((eretAct a s).grp a).lane l).pc = (s.grp a).trap.pc := by
  have hg : (eretAct a s).grp a = (s.grp a).returned := by
    unfold eretAct
    rw [State.grp, restartOp_groups]
    simp [State.modGrp, State.grp]
  rw [hg]
  exact ⟨rfl, rfl, fun l hl => Group.lane_returned _ l hl⟩

/-! ## The abort of an atomic region (R169, R170) -/

/-- An abort closes the region, writes XSTAT, changes no byte of memory, and sends the participants that have not exited to
the abort target. -/
theorem abortRegion_aborts (a q c f : Nat) (s : State) (r : Region) (h : (s.grp a).region = some r) :
    ((abortRegion a q c f s).grp a).region = none ∧ ((abortRegion a q c f s).grp a).xstat = xstatOf q c r.lines f ∧
      (abortRegion a q c f s).mem = s.mem ∧
      ∀ l ∈ lanesOf r.parts, ((s.grp a).lane l).st ≠ .gone →
        (((abortRegion a q c f s).grp a).lane l).st = .ready ∧ (((abortRegion a q c f s).grp a).lane l).pc = r.target := by
  have hg : (abortRegion a q c f s).grp a = (s.grp a).aborted r (xstatOf q c r.lines f) := by
    have he : (endRegion a q c f s).grp a = (s.grp a).aborted r (xstatOf q c r.lines f) := by
      unfold endRegion; rw [h]; simp [State.modGrp, State.grp]
    unfold abortRegion
    split
    · exact he
    · exact he
  rw [hg]
  refine ⟨rfl, rfl, abortRegion_mem .., fun l hl hn => ?_⟩
  have := Group.lane_modLanes ((s.grp a).unfinish r.parts) r.parts
    (fun l => if l.st = .gone then l else { l with st := .ready, pc := r.target }) l
  rw [lanesOf_mem] at hl
  rw [if_pos hl, if_neg (show ((Group.unfinish (s.grp a) r.parts).lane l).st ≠ .gone from hn)] at this
  exact ⟨congrArg Lane.st this, congrArg Lane.pc this⟩

end Sys2Proof.Machine
end

