-- ==== Sys2Proof/Laws/Operands.lean ====
section
/-!
SUPPORT. What writing a destination does: the destination holds the value, every other register keeps its own;
and the lane operations as completed instructions.
-/

namespace Sys2Proof.Machine

open Sys2Proof.Safety

/-! ## Reading a register after a write -/

theorem Group.vreg_setV (g : Group) (n l m k : Nat) (w : Word) (hl : l < 64) (hk : k < 64) :
    (g.setV n l w).vreg m k = if m = n ∧ k = l then w else g.vreg m k := by
  rw [show (g.setV n l w).vreg m k = Tbl.at (Tbl.put g.v (64 * n + l) w) (64 * m + k) from rfl, Tbl.at_put]
  by_cases h : m = n ∧ k = l
  · rw [if_pos h, if_pos (by omega)]
  · rw [if_neg h, if_neg (by omega)]; rfl

theorem Group.xreg_setX (g : Group) (n l m k : Nat) (w : Word) (hl : l < 64) (hk : k < 64) :
    (g.setX n l w).xreg m k = if m = n ∧ k = l then w else g.xreg m k := by
  rw [show (g.setX n l w).xreg m k = Tbl.at (Tbl.put g.x (64 * n + l) w) (64 * m + k) from rfl, Tbl.at_put]
  by_cases h : m = n ∧ k = l
  · rw [if_pos h, if_pos (by omega)]
  · rw [if_neg h, if_neg (by omega)]; rfl

theorem Group.sreg_setS (g : Group) (n m : Nat) (w : Word) :
    (g.setS n w).sreg m = if m = n then w else g.sreg m := Tbl.at_put ..

theorem laneBit_getLsbD (l k : Nat) (hk : k < 64) : (laneBit l).getLsbD k = decide (k = l) := by
  rw [laneBit, BitVec.getLsbD_shiftLeft, BitVec.getLsbD_one]
  by_cases h : k = l <;> by_cases h2 : k < l <;> simp [hk, h2] <;> omega

theorem Group.preg_setP (g : Group) (n l m k : Nat) (b : Bool) (hl : l < 64) :
    (g.setP n l b).preg m k = if m = n ∧ k = l then (decide (n = 0) || b) else g.preg m k := by
  unfold Group.setP
  by_cases hn : n = 0
  · subst hn
    rw [if_pos rfl]
    split
    · rename_i h; simp [Group.preg, h.1]
    · rfl
  · rw [if_neg hn]
    show (decide (m = 0) || (Tbl.at (Tbl.put g.p n _) m).getLsbD k) = _
    rw [Tbl.at_put]
    by_cases hm : m = n
    · subst hm
      rw [if_pos rfl]
      by_cases hk : k < 64
      · by_cases hkl : k = l
        · subst hkl
          cases b
          · simp only [Bool.false_eq_true, if_false, BitVec.getLsbD_and, BitVec.getLsbD_not, laneBit_getLsbD k k hk]
            simp [hn]
          · simp only [if_true, BitVec.getLsbD_or, laneBit_getLsbD k k hk]
            simp [hn]
        · cases b
          · simp only [Bool.false_eq_true, if_false, BitVec.getLsbD_and, BitVec.getLsbD_not, laneBit_getLsbD l k hk]
            simp only [hkl, decide_false, Bool.not_false, hk, decide_true, Bool.and_true, and_false, if_false, Group.preg]
          · simp only [if_true, BitVec.getLsbD_or, laneBit_getLsbD l k hk]
            simp only [hkl, decide_false, Bool.or_false, and_false, if_false, Group.preg]
      · have hne : k ≠ l := by omega
        have h0 : ∀ x : Mask, x.getLsbD k = false := fun x => BitVec.getLsbD_of_ge x k (by omega)
        simp [hne, Group.preg, h0]
    · rw [if_neg hm, if_neg (fun h => hm h.1)]; rfl

/-! ## Writing a destination in one lane -/

theorem Group.wr_rest (g : Group) (wide : Bool) (d : Opd) (l : Nat) (x : DWord) :
    SameRest g (g.wr wide d l x) ∧ (g.wr wide d l x).lanes = g.lanes ∧ (g.wr wide d l x).fpflags = g.fpflags := by
  unfold Group.wr
  cases d <;> (try cases wide) <;>
    exact ⟨⟨by simp [Group.setSPair], by simp [Group.setSPair], by simp [Group.setSPair], by simp [Group.setSPair],
      by simp [Group.setSPair], by simp [Group.setSPair], by simp [Group.setSPair], by simp [Group.setSPair],
      by simp [Group.setSPair], by simp [Group.setSPair], by simp [Group.setSPair], by simp [Group.setSPair],
      by simp [Group.setSPair]⟩, by simp [Group.setSPair], by simp [Group.setSPair]⟩

/-- The destination holds the value, and nothing else changes. -/
theorem Group.wr_holds (g : Group) (wide : Bool) (d : Opd) (l : Nat) (x : DWord) (hl : l < 64) :
    holds (g.wr wide d l x) wide d l x ∧ OnlyDst wide d [l] g (g.wr wide d l x) := by
  cases d with
  | v n =>
    cases wide
    · refine ⟨⟨?_, by simp⟩, fun m k hk h => ?_, fun _ _ => rfl, fun _ _ _ => rfl, fun _ _ _ _ => rfl⟩
      · simp only [Group.wr, Bool.false_eq_true, if_false]
        rw [Group.vreg_setV _ _ _ _ _ _ hl hl, if_pos ⟨rfl, rfl⟩]
      · simp only [Group.wr, Bool.false_eq_true, if_false]
        simp [hitsV] at h
        rw [Group.vreg_setV _ _ _ _ _ _ hl hk, if_neg (fun h' => h h'.1 h'.2)]
    · refine ⟨⟨?_, fun _ => ?_⟩, fun m k hk h => ?_, fun _ _ => rfl, fun _ _ _ => rfl, fun _ _ _ _ => rfl⟩
      · simp only [Group.wr, if_true]
        rw [Group.vreg_setV _ _ _ _ _ _ hl hl, if_neg (by omega), Group.vreg_setV _ _ _ _ _ _ hl hl, if_pos ⟨rfl, rfl⟩]
      · simp only [Group.wr, if_true]
        rw [Group.vreg_setV _ _ _ _ _ _ hl hl, if_pos ⟨rfl, rfl⟩]
      · simp only [Group.wr, if_true]
        simp [hitsV] at h
        rw [Group.vreg_setV _ _ _ _ _ _ hl hk, if_neg (fun h' => h (.inr h'.1) h'.2),
          Group.vreg_setV _ _ _ _ _ _ hl hk, if_neg (fun h' => h (.inl h'.1) h'.2)]
  | s n =>
    cases wide
    · refine ⟨⟨?_, by simp⟩, fun _ _ _ _ => rfl, fun m h => ?_, fun _ _ _ => rfl, fun _ _ _ _ => rfl⟩
      · simp only [Group.wr, Bool.false_eq_true, if_false]
        rw [Group.sreg_setS, if_pos rfl]
      · simp only [Group.wr, Bool.false_eq_true, if_false]
        simp [hitsS] at h
        rw [Group.sreg_setS, if_neg h]
    · refine ⟨⟨?_, fun _ => ?_⟩, fun _ _ _ _ => rfl, fun m h => ?_, fun _ _ _ => rfl, fun _ _ _ _ => rfl⟩
      · simp only [Group.wr, Group.setSPair, if_true]
        rw [Group.sreg_setS, if_neg (by omega), Group.sreg_setS, if_pos rfl]
      · simp only [Group.wr, Group.setSPair, if_true]
        rw [Group.sreg_setS, if_pos rfl]
      · simp only [Group.wr, Group.setSPair, if_true]
        simp [hitsS] at h
        rw [Group.sreg_setS, if_neg h.2, Group.sreg_setS, if_neg h.1]
  | p n =>
    refine ⟨?_, fun m k _ _ => ?_, fun m _ => ?_, fun m k h => ?_, fun m k _ _ => ?_⟩
    · simp only [holds, Group.wr]
      rw [Group.preg_setP _ _ _ _ _ _ hl, if_pos ⟨rfl, rfl⟩]
      congr 1
      simp [BitVec.toNat_eq]
    · simp [Group.wr, Group.vreg]
    · simp [Group.wr, Group.sreg]
    · simp only [Group.wr]
      simp [hitsP] at h
      rw [Group.preg_setP _ _ _ _ _ _ hl, if_neg (fun h' => h h'.1 h'.2)]
    · simp [Group.wr, Group.xreg]
  | x n =>
    refine ⟨?_, fun _ _ _ _ => rfl, fun _ _ => rfl, fun _ _ _ => rfl, fun m k hk h => ?_⟩
    · simp only [holds, Group.wr]
      rw [Group.xreg_setX _ _ _ _ _ _ hl hl, if_pos ⟨rfl, rfl⟩]
    · simp only [Group.wr]
      simp [hitsX] at h
      rw [Group.xreg_setX _ _ _ _ _ _ hl hk, if_neg (fun h' => h h'.1 h'.2)]
  | _ => exact ⟨trivial, fun _ _ _ _ => rfl, fun _ _ => rfl, fun _ _ _ => rfl, fun _ _ _ _ => rfl⟩

/-! ## Writing a destination in the lanes an instruction acts in -/

theorem OnlyDst.append {wide : Bool} {d : Opd} {l : Nat} {ls : List Nat} {g h k : Group}
    (a : OnlyDst wide d [l] g h) (b : OnlyDst wide d ls h k) : OnlyDst wide d (l :: ls) g k := by
  refine ⟨fun n k hk hh => ?_, fun n hh => ?_, fun n k hh => ?_, fun n k hk hh => ?_⟩
  · rw [b.v n k hk, a.v n k hk]
    all_goals cases d <;> simp_all [hitsV]
  · rw [b.s n, a.s n]
    all_goals cases d <;> simp_all [hitsS]
  · rw [b.p n k, a.p n k]
    all_goals cases d <;> simp_all [hitsP]
  · rw [b.x n k hk, a.x n k hk]
    all_goals cases d <;> simp_all [hitsX]

theorem OnlyDst.none (wide : Bool) (d : Opd) (ls : List Nat) (g : Group) : OnlyDst wide d ls g g :=
  ⟨fun _ _ _ _ => rfl, fun _ _ => rfl, fun _ _ _ => rfl, fun _ _ _ _ => rfl⟩

/-- A lane that is not written keeps what it holds; a scalar destination has one lane only. -/
theorem holds_only {wide : Bool} {d : Opd} {ls : List Nat} {g h : Group} {l : Nat} {x : DWord} (hl : l < 64)
    (hn : l ∉ ls) (hs : d.scl = true → ls = []) (a : OnlyDst wide d ls g h) (b : holds g wide d l x) :
    holds h wide d l x := by
  cases d with
  | v n =>
    refine ⟨?_, fun hw => ?_⟩
    · rw [a.v _ _ hl (by simp [hitsV, hn])]; exact b.1
    · rw [a.v _ _ hl (by simp [hitsV, hn])]; exact b.2 hw
  | s n =>
    have hs := hs rfl
    subst hs
    refine ⟨?_, fun hw => ?_⟩
    · rw [a.s _ (by simp [hitsS])]; exact b.1
    · rw [a.s _ (by simp [hitsS])]; exact b.2 hw
  | p n =>
    show h.preg _ _ = _
    rw [a.p _ _ (by simp [hitsP, hn])]; exact b
  | x n =>
    show h.xreg _ _ = _
    rw [a.x _ _ hl (by simp [hitsX, hn])]; exact b
  | _ => trivial

theorem Group.wrAll_rest (g : Group) (wide : Bool) (d : Opd) (vals : List (Nat × DWord)) :
    SameRest g (g.wrAll wide d vals) ∧ (g.wrAll wide d vals).lanes = g.lanes
      ∧ (g.wrAll wide d vals).fpflags = g.fpflags := by
  unfold Group.wrAll
  induction vals generalizing g with
  | nil => exact ⟨⟨⟨rfl, rfl, rfl, rfl, rfl, rfl⟩, ⟨rfl, rfl⟩, rfl, rfl, rfl, rfl, rfl, ⟨rfl, rfl⟩, rfl, ⟨rfl, rfl⟩, rfl,
      rfl, ⟨rfl, rfl⟩⟩, rfl, rfl⟩
  | cons p t ih =>
    have h := Group.wr_rest g wide d p.1 p.2
    have h2 := ih (g.wr wide d p.1 p.2)
    exact ⟨h.1.trans h2.1, h2.2.1.trans h.2.1, h2.2.2.trans h.2.2⟩

/-- Each lane's destination holds its value, and nothing else changes. -/
theorem Group.wrAll_holds (g : Group) (wide : Bool) (d : Opd) (ls : List Nat) (f : Nat → DWord) (hn : ls.Nodup)
    (hl : ∀ l ∈ ls, l < 64) (hs : d.scl = true → ls.length ≤ 1) :
    (∀ l ∈ ls, holds (g.wrAll wide d (ls.map (fun l => (l, f l)))) wide d l (f l))
      ∧ OnlyDst wide d ls g (g.wrAll wide d (ls.map (fun l => (l, f l)))) := by
  induction ls generalizing g with
  | nil => exact ⟨by simp, OnlyDst.none ..⟩
  | cons x t ih =>
    rw [List.nodup_cons] at hn
    have h1 := Group.wr_holds g wide d x (f x) (hl x (by simp))
    have ht : d.scl = true → t = [] := fun h => by
      have := hs h
      simpa using this
    have h2 := ih (g.wr wide d x (f x)) hn.2 (fun l h => hl l (by simp [h])) (fun h => by simp [ht h])
    refine ⟨fun l h => ?_, OnlyDst.append h1.2 h2.2⟩
    rcases List.mem_cons.1 h with rfl | h
    · exact holds_only (hl l (by simp)) hn.1 ht h2.2 h1.1
    · exact h2.1 l h

/-! ## The lanes an instruction acts in -/

theorem actLanes_mem {o : Body} {m : Mask} {l : Nat} (h : l ∈ actLanes o m) : l < 64 ∧ m.getLsbD l = true := by
  unfold actLanes at h
  split at h
  · exact lanesOf_mem.1 (List.mem_of_mem_take h)
  · exact lanesOf_mem.1 h

theorem actLanes_nodup (o : Body) (m : Mask) : (actLanes o m).Nodup := by
  unfold actLanes
  split
  · exact (lanesOf_nodup m).sublist (List.take_sublist ..)
  · exact lanesOf_nodup m

theorem actLanes_scl {o : Body} (m : Mask) (h : o.dst.scl = true) : (actLanes o m).length ≤ 1 := by
  simp [actLanes, once, h]

/-! ## Entering an instruction changes no register -/

section
variable (o : Body) (s : State)

theorem entered_me : (entered o s).me = s.me.setPcs s.cur.act (nextPc s.cur.pc o.len) := State.modMe_me s _

@[simp] theorem entered_cur : (entered o s).cur = s.cur := rfl

theorem opv_setPcs (g : Group) (m : Mask) (pc : DWord) (wide : Bool) (x : Opd) (l : Nat) :
    (g.setPcs m pc).opv wide x l = g.opv wide x l := by
  cases x <;> simp [Group.opv, Group.setPcs, Group.vpair, Group.vreg, Group.spair, Group.sreg, Group.preg, Group.xreg]

@[simp] theorem entered_opv (wide : Bool) (x : Opd) (l : Nat) : (entered o s).me.opv wide x l = s.me.opv wide x l := by
  rw [entered_me, opv_setPcs]

@[simp] theorem entered_actMask (o' : Body) : (entered o s).actMask o' = s.actMask o' := by
  simp [State.actMask, State.active, Group.passing, entered_me, Group.setPcs]

end

/-! ## Completed instructions -/

theorem usedUp_me (s u : State) :
    (usedUp s u).me = u.me.unskip s.cur.pc s.cur.act := State.modMe_me u _

theorem usedUp_rest (s u : State) : SameRest u.me (usedUp s u).me ∧ SameRegs u.me (usedUp s u).me
    ∧ (usedUp s u).me.fpflags = u.me.fpflags ∧ (usedUp s u).me.lanes = u.me.lanes := by
  rw [usedUp_me]
  exact ⟨⟨⟨rfl, rfl, rfl, rfl, rfl, rfl⟩, ⟨rfl, rfl⟩, rfl, rfl, rfl, rfl, rfl, ⟨rfl, rfl⟩, rfl, ⟨rfl, rfl⟩, rfl,
      rfl, ⟨rfl, rfl⟩⟩, ⟨fun _ _ _ _ => rfl, fun _ _ => rfl, fun _ _ _ => rfl, fun _ _ _ _ => rfl⟩, rfl, rfl⟩

theorem usedUp_machine (s u : State) : SameMachine u (usedUp s u) ∧ SameOthers u (usedUp s u)
    ∧ (usedUp s u).retiredHw = u.retiredHw ∧ (usedUp s u).ctxs = u.ctxs := by
  exact ⟨(modMe_machine u _).1, (modMe_machine u _).2, rfl, rfl⟩

/-- What completion leaves of the issuer's group. -/
theorem complete_rest (act : Mask) (n : Nat) (s : State) : SameRest s.me (complete act n s).me
    ∧ SameRegs s.me (complete act n s).me ∧ (complete act n s).me.fpflags = s.me.fpflags
    ∧ ∀ l, ((complete act n s).me.lane l).st = (s.me.lane l).st ∧ ((complete act n s).me.lane l).pc = (s.me.lane l).pc := by
  rw [complete_me]
  refine ⟨?_, ?_, rfl, fun l => Group.lane_passed act s.cur.others s.me l⟩
  · exact ⟨⟨rfl, rfl, rfl, rfl, rfl, rfl⟩, ⟨rfl, rfl⟩, rfl, rfl, rfl, rfl, rfl, ⟨rfl, rfl⟩, rfl, ⟨rfl, rfl⟩, rfl, rfl,
      ⟨rfl, rfl⟩⟩
  · exact ⟨fun _ _ _ _ => rfl, fun _ _ => rfl, fun _ _ _ => rfl, fun _ _ _ _ => rfl⟩

/-- `complete` after a meaning: the group as the meaning left it, the machine as the meaning left it, one
retirement. -/
theorem completed (s u : State) (act : Mask) (n : Nat) (hrole : u.me.role = s.me.role)
    (hctx : u.myCtxNo = s.myCtxNo) (hr : u.retiredHw = s.retiredHw) (hq : (u.ctx s.myCtxNo).retired = s.myCtx.retired) :
    let t := complete act n (usedUp s u)
    SameRest u.me t.me ∧ SameRegs u.me t.me ∧ t.me.fpflags = u.me.fpflags
      ∧ (∀ l, (t.me.lane l).st = (u.me.lane l).st ∧ (t.me.lane l).pc = (u.me.lane l).pc)
      ∧ SameMachine u t ∧ SameOthers u t ∧ Retired s t := by
  intro t
  have h1 := usedUp_rest s u
  have h2 := usedUp_machine s u
  have h3 := complete_rest act n (usedUp s u)
  have h4 := complete_machine act n (usedUp s u)
  refine ⟨h1.1.trans h3.1, h1.2.1.same h3.2.1, h3.2.2.1.trans h1.2.2.1, fun l => ?_, h2.1.trans h4.1,
    SameOthers.trans h2.1.cur h2.2.1 h4.2.1, ?_⟩
  · have hl : (usedUp s u).me.lane l = u.me.lane l := by simp only [Group.lane, h1.2.2.2]
    exact ⟨(h3.2.2.2 l).1.trans (by rw [hl]), (h3.2.2.2 l).2.trans (by rw [hl])⟩
  · have h := h4.2.2
    have e1 : (usedUp s u).me.role = s.me.role := h1.1.ids.1.trans hrole
    have e2 : (usedUp s u).myCtxNo = s.myCtxNo := by
      rw [← hctx]
      have : (usedUp s u).me.team = u.me.team := h1.1.ids.2.2.1
      simp only [State.myCtxNo, State.ctxNo, State.gridOf, State.teamOf, State.grp_agent, this]
      simp only [State.team, State.grid, h2.1.teams, h2.1.grids]
    have e3 : ((usedUp s u).ctx s.myCtxNo).retired = s.myCtx.retired := by
      rw [show (usedUp s u).ctx s.myCtxNo = u.ctx s.myCtxNo from congrArg (fun t => Tbl.at t _) h2.2.2.2, hq]
    unfold Retired at h ⊢
    rw [e1, h2.2.2.1, hr, e2] at h
    split at h
    · rename_i hh; rw [if_pos hh]; exact h
    · rename_i hh
      rw [if_neg hh]
      refine ⟨h.1, h.2.trans ?_⟩
      rw [show (usedUp s u).myCtx = (usedUp s u).ctx (usedUp s u).myCtxNo from rfl, e2, e3]

/-- An instruction whose meaning changes the issuer's registers alone completes. -/
theorem completes_of_group {opc : BitVec 8} {o : Body} {s : State} {k : State → Res} {f : Group → Group}
    (hi : issues opc o s = true) (hk : k (entered o s) = .ok ((entered o s).modMe f))
    (hf : SameRest (entered o s).me (f (entered o s).me)) (hl : (f (entered o s).me).lanes = (entered o s).me.lanes) :
    ∃ t, perform opc o k s = .next t ∧ Completes o s t ∧ SameRegs (f (entered o s).me) t.me
      ∧ t.me.fpflags = (f (entered o s).me).fpflags := by
  refine ⟨_, exec_ok hi hk, ?_⟩
  have hm : ((entered o s).modMe f).me = f (entered o s).me := State.modMe_me _ _
  have he := Group.rest_setPcs s.me s.cur.act (nextPc s.cur.pc o.len)
  rw [← entered_me] at he
  have hrest : SameRest s.me ((entered o s).modMe f).me := by rw [hm]; exact he.trans hf
  have hctx : ((entered o s).modMe f).myCtxNo = s.myCtxNo := by
    have : ((entered o s).modMe f).me.team = s.me.team := hrest.ids.2.2.1
    simp only [State.myCtxNo, State.ctxNo, State.gridOf, State.teamOf, State.grp_agent, this]
    rfl
  have h := completed s ((entered o s).modMe f) s.cur.act (lanesOf (s.actMask o)).length hrest.ids.1 hctx rfl rfl
  obtain ⟨h1, h2, h3, h4, h5, h6, h7⟩ := h
  have m1 := modMe_machine s (fun g => g.setPcs s.cur.act (nextPc s.cur.pc o.len))
  have m2 := modMe_machine (entered o s) f
  have hmach := (m1.1.trans m2.1).trans h5
  have hrest' := hrest.trans h1
  have hoth1 : SameOthers s ((entered o s).modMe f) := SameOthers.trans (s := s) (t := entered o s) rfl m1.2 m2.2
  have hoth : SameOthers s _ := SameOthers.trans (s := s) (t := (entered o s).modMe f) rfl hoth1 h6
  generalize complete s.cur.act (lanesOf (s.actMask o)).length (usedUp s ((entered o s).modMe f)) = t at *
  refine ⟨⟨fun l => ?_, hrest', hoth, hmach, h7⟩, ?_, ?_⟩
  · have hmv := Group.moved_setPcs s.me s.cur.act (nextPc s.cur.pc o.len) l
    have hlane : ((entered o s).modMe f).me.lane l = (s.me.setPcs s.cur.act (nextPc s.cur.pc o.len)).lane l := by
      rw [hm]; simp only [Group.lane, hl]; rw [entered_me]
    exact ⟨((h4 l).1.trans (by rw [hlane])).trans hmv.1, ((h4 l).2.trans (by rw [hlane])).trans hmv.2⟩
  · rw [← hm]; exact h2
  · rw [h3, hm]

/-- A lane operation completes and writes its destination alone. -/
theorem writes_of_laneOp {opc : BitVec 8} {o : Body} {s : State} {k : State → Res} {wide : Bool}
    {f : Group → Nat → DWord} (hi : issues opc o s = true)
    (hk : k (entered o s) = .ok (laneOp o wide f (entered o s))) :
    ∃ t, perform opc o k s = .next t ∧ Writes o wide (f (entered o s).me) s t := by
  have hw := Group.wrAll_rest (entered o s).me wide o.dst ((actLanes o (s.actMask o)).map (fun l => (l, f (entered o s).me l)))
  have hh := Group.wrAll_holds (entered o s).me wide o.dst (actLanes o (s.actMask o)) (f (entered o s).me)
    (actLanes_nodup ..) (fun l h => (actLanes_mem h).1) (actLanes_scl _)
  have hk' : k (entered o s) = .ok ((entered o s).modMe (fun g =>
      g.wrAll wide o.dst ((actLanes o (s.actMask o)).map (fun l => (l, f (entered o s).me l))))) := by
    rw [hk]; simp only [laneOp, entered_actMask]
  obtain ⟨t, ht, hc, hr, hfp⟩ := completes_of_group hi hk' hw.1 hw.2.1
  refine ⟨t, ht, hc, fun l hl => ?_, ?_, ?_⟩
  · have := hh.1 l hl
    refine holds_only (ls := []) (actLanes_mem hl).1 (by simp) (fun _ => rfl) ?_ this
    exact ⟨fun n l hl _ => hr.v n l hl rfl, fun n _ => hr.s n rfl, fun n l _ => hr.p n l rfl,
      fun n l hl _ => hr.x n l hl rfl⟩
  · have he := Group.regs_setPcs s.me s.cur.act (nextPc s.cur.pc o.len)
    rw [← entered_me] at he
    exact ⟨fun n l hl h => ((hr.v n l hl rfl).trans (hh.2.v n l hl h)).trans (he.v n l hl rfl),
      fun n h => ((hr.s n rfl).trans (hh.2.s n h)).trans (he.s n rfl),
      fun n l h => ((hr.p n l rfl).trans (hh.2.p n l h)).trans (he.p n l rfl),
      fun n l hl h => ((hr.x n l hl rfl).trans (hh.2.x n l hl h)).trans (he.x n l hl rfl)⟩
  · rw [hfp, hw.2.2, entered_me]; simp [Group.setPcs]

end Sys2Proof.Machine
end

