-- ==== Sys2Proof/Tests/Slice0.lean ====
section
/-!
SUPPORT. Tests of the model, and for each statement a state and operands that meet its hypotheses (the theorems
`witness_…`). Expected words and results are worked from the spec's tables and examples by hand.
-/

namespace Sys2Proof.Tests

open Sys2Proof.Machine Sys2Proof.Safety

-- Theorems are elaborated one after another: the check bounds the threads a file may start.
set_option Elab.async false

/-! ## Decoding (R340 to R345, R357) -/

/-- The decoder reads the word as the instruction, and as no other bits. -/
def decodes (x : Nat × Nat × Instr) : Bool := decide (decodeTableWord x.1 x.2.1 = some x.2.2)

/-- Words of control flow and waits, opcodes 0x01 to 0x17, from the fields of R342 to R345 and the map of R357. -/
def controlWords : List (Nat × Nat × Instr) := [
  (32, 0x00000004, .nop {}),
  (96, 0x0000000A + 0x8F000000 * 2 ^ 32 + 0x00000100 * 2 ^ 64, .bra { len := .w3, a := .lit 0x100 }),
  (32, 0x0100000C, .brx { a := .v 4 }),
  (96, 0x00018012 + 0x8F000000 * 2 ^ 32 + 0xFFFFFFFC * 2 ^ 64, .call { len := .w3, dst := .v 6, a := .lit 0xFFFFFFFC }),
  (32, 0x01000014, .ret { a := .v 4 }),
  (32, 0x00000018, .exit {}),
  (96, 0x8000401E + 0x8F000000 * 2 ^ 32 + 0x00000040 * 2 ^ 64, .joinset { len := .w3, dst := .j 1, a := .lit 0x40 }),
  (32, 0x40400020, .join { a := .j 1 }),
  (32, 0x00000024, .yield {}),
  (32, 0x62400028, .sleep { a := .imm 9 }),
  (32, 0x60C0002C, .trap { a := .imm 3 }),
  (32, 0x00000030, .bkpt {}),
  (32, 0x00000034, .eret {}),
  (32, 0x40800040, .bar { a := .b 2 }),
  (64, 0x00000045 + 0x0F400000 * 2 ^ 32, .fence { len := .w2, md := 0x40 }),
  (64, 0x00000049 + 0x0F100000 * 2 ^ 32, .qfence { len := .w2, md := 0x10 }),
  (32, 0x4140004C, .waitf { a := .f 5 }),
  (32, 0x00406850, .setx { pred := 2, pneg := true, dst := .x 1, a := .v 1 }),
  (32, 0x0040C054, .ldx { dst := .v 3, a := .x 1 }),
  (32, 0x00C04058, .stx { dst := .x 1, a := .v 3 }),
  (32, 0x7FC0C05C, .incx { dst := .x 3, a := .imm 127 })]

/-- Words of integer and logic, opcodes 0x20 to 0x38, from the fields of R342 to R345 and the map of R357. -/
def integerWords : List (Nat × Nat × Instr) := [
  (32, 0x0040C080, .abs { dst := .v 3, a := .v 1 }),
  (64, 0x0040C085 + 0x0F000002 * 2 ^ 32, .add { len := .w2, dst := .v 3, a := .v 1, b := .v 2 }),
  (64, 0x0040C089 + 0x0F000002 * 2 ^ 32, .and { len := .w2, dst := .v 3, a := .v 1, b := .v 2 }),
  (64, 0x0040C08D + 0x0F000502 * 2 ^ 32, .bfe { len := .w2, dst := .v 3, a := .v 1, b := .v 2, c := .v 5 }),
  (64, 0x0040C091 + 0x0F000502 * 2 ^ 32, .bfi { len := .w2, dst := .v 3, a := .v 1, b := .v 2, c := .v 5 }),
  (32, 0x0040C094, .brev { dst := .v 3, a := .v 1 }),
  (32, 0x0040C098, .clz { dst := .v 3, a := .v 1 }),
  (64, 0x0040409D + 0x0F020002 * 2 ^ 32, .cmp { len := .w2, dst := .p 1, a := .v 1, b := .v 2, md := 0x2 }),
  (64, 0x0040C0A1 + 0x0F000502 * 2 ^ 32, .lea { len := .w2, dst := .v 3, a := .v 1, b := .v 2, c := .v 5 }),
  (64, 0x0040C0A5 + 0x0F000502 * 2 ^ 32, .mad { len := .w2, dst := .v 3, a := .v 1, b := .v 2, c := .v 5 }),
  (64, 0x0040C0A9 + 0x0F000002 * 2 ^ 32, .max { len := .w2, dst := .v 3, a := .v 1, b := .v 2 }),
  (64, 0x0040C0AD + 0x0F000002 * 2 ^ 32, .min { len := .w2, dst := .v 3, a := .v 1, b := .v 2 }),
  (32, 0x0040C0B0, .mov { dst := .v 3, a := .v 1 }),
  (64, 0x0040C0B5 + 0x0F000002 * 2 ^ 32, .mul { len := .w2, dst := .v 3, a := .v 1, b := .v 2 }),
  (64, 0x0040C0B9 + 0x0F000002 * 2 ^ 32, .mulh { len := .w2, dst := .v 3, a := .v 1, b := .v 2 }),
  (64, 0x0040C0BD + 0x0F000000 * 2 ^ 32, .not { len := .w2, dst := .v 3, a := .v 1 }),
  (64, 0x0040C0C1 + 0x0F000002 * 2 ^ 32, .or { len := .w2, dst := .v 3, a := .v 1, b := .v 2 }),
  (64, 0x0040C0C5 + 0x0F000502 * 2 ^ 32, .perm { len := .w2, dst := .v 3, a := .v 1, b := .v 2, c := .v 5 }),
  (32, 0x0040C0C8, .popc { dst := .v 3, a := .v 1 }),
  (64, 0x0040C0CD + 0x0F000202 * 2 ^ 32, .sel { len := .w2, dst := .v 3, a := .v 1, b := .v 2, c := .p 2 }),
  (64, 0x0040C0D1 + 0x0F000002 * 2 ^ 32, .shl { len := .w2, dst := .v 3, a := .v 1, b := .v 2 }),
  (64, 0x0040C0D5 + 0x0F000002 * 2 ^ 32, .shr { len := .w2, dst := .v 3, a := .v 1, b := .v 2 }),
  (64, 0x0040C0D9 + 0x0F000002 * 2 ^ 32, .sra { len := .w2, dst := .v 3, a := .v 1, b := .v 2 }),
  (64, 0x0040C0DD + 0x0F000002 * 2 ^ 32, .sub { len := .w2, dst := .v 3, a := .v 1, b := .v 2 }),
  (64, 0x0040C0E1 + 0x0F000002 * 2 ^ 32, .xor { len := .w2, dst := .v 3, a := .v 1, b := .v 2 })]

/-- Words of floating point, packed and conversions, opcodes 0x40 to 0x58, from the fields of R342 to R345 and the map of R357. -/
def floatWords : List (Nat × Nat × Instr) := [
  (64, 0x0040C101 + 0x0F000002 * 2 ^ 32, .fadd { len := .w2, dst := .v 3, a := .v 1, b := .v 2 }),
  (64, 0x0040C105 + 0x0F000002 * 2 ^ 32, .fsub { len := .w2, dst := .v 3, a := .v 1, b := .v 2 }),
  (64, 0x0040C109 + 0x0F000002 * 2 ^ 32, .fmul { len := .w2, dst := .v 3, a := .v 1, b := .v 2 }),
  (64, 0x0040C10D + 0x0F000502 * 2 ^ 32, .ffma { len := .w2, dst := .v 3, a := .v 1, b := .v 2, c := .v 5 }),
  (64, 0x0040C111 + 0x0F000002 * 2 ^ 32, .fmin { len := .w2, dst := .v 3, a := .v 1, b := .v 2 }),
  (64, 0x0040C115 + 0x0F000002 * 2 ^ 32, .fmax { len := .w2, dst := .v 3, a := .v 1, b := .v 2 }),
  (64, 0x00408119 + 0x0F000002 * 2 ^ 32, .fcmp { len := .w2, dst := .p 2, a := .v 1, b := .v 2 }),
  (32, 0x0040C11C, .fclass { dst := .v 3, a := .v 1 }),
  (32, 0x0040C120, .frnd { dst := .v 3, a := .v 1 }),
  (32, 0x0040C124, .frcp { dst := .v 3, a := .v 1 }),
  (32, 0x0040C128, .frsq { dst := .v 3, a := .v 1 }),
  (32, 0x0040C12C, .fsqrt { dst := .v 3, a := .v 1 }),
  (32, 0x0040C130, .fexp2 { dst := .v 3, a := .v 1 }),
  (32, 0x0040C134, .flog2 { dst := .v 3, a := .v 1 }),
  (32, 0x0040C138, .fsin { dst := .v 3, a := .v 1 }),
  (32, 0x0040C13C, .fcos { dst := .v 3, a := .v 1 }),
  (64, 0x0040C141 + 0x0F000002 * 2 ^ 32, .hwadd { len := .w2, dst := .v 3, a := .v 1, b := .v 2 }),
  (64, 0x0040C145 + 0x0F500002 * 2 ^ 32, .hwmul { len := .w2, dst := .v 3, a := .v 1, b := .v 2, md := 0x50 }),
  (64, 0x0040C149 + 0x0F010502 * 2 ^ 32, .hwfma { len := .w2, dst := .v 3, a := .v 1, b := .v 2, c := .v 5, md := 0x1 }),
  (64, 0x0040C14D + 0x0F000502 * 2 ^ 32, .dot2 { len := .w2, dst := .v 3, a := .v 1, b := .v 2, c := .v 5 }),
  (64, 0x0040C151 + 0x0F700502 * 2 ^ 32, .dot4 { len := .w2, dst := .v 3, a := .v 1, b := .v 2, c := .v 5, md := 0x70 }),
  (64, 0x0040C155 + 0x0F140000 * 2 ^ 32, .cvt { len := .w2, dst := .v 3, a := .v 1, c := .ctl 0, md := 0x14 }),
  (32, 0x00410158, .bnpack { dst := .v 4, a := .v 1 }),
  (32, 0x0100C15C, .bnunpk { dst := .v 3, a := .v 4 }),
  (64, 0x0040C161 + 0x8F420008 * 2 ^ 32, .cbdec { len := .w2, dst := .v 3, a := .v 1, b := .s 8, md := 0x42 })]

/-- Words of lane operations, opcodes 0x60 to 0x65, from the fields of R342 to R345 and the map of R357. -/
def laneWords : List (Nat × Nat × Instr) := [
  (64, 0x0040C181 + 0x8F010083 * 2 ^ 32, .siphon { len := .w2, dst := .v 3, a := .v 1, b := .imm 3, md := 0x1 }),
  (32, 0x8040C184, .lred { dst := .s 3, a := .v 1 }),
  (64, 0x0040C189 + 0x0F840000 * 2 ^ 32, .scan { len := .w2, dst := .v 3, a := .v 1, md := 0x84 }),
  (32, 0x8041018C, .ballot { dst := .s 4, a := .p 1 }),
  (32, 0x0040C190, .verdict { dst := .p 3, a := .p 1 }),
  (32, 0x8040C194, .rdfl { dst := .s 3, a := .v 1 })]

/-- Words of memory and regions, opcodes 0x70 to 0x7F, from the fields of R342 to R345 and the map of R357. -/
def memoryWords : List (Nat × Nat × Instr) := [
  (64, 0x4100C1C1 + 0xD2008880 * 2 ^ 32, .ld { len := .w2, dst := .v 3, a := .s 4, b := .imm 0, c := .imm 8, hint := 1, fset := 2 }),
  (64, 0x4100C1C5 + 0xCF048880 * 2 ^ 32, .st { len := .w2, dst := .v 3, a := .s 4, b := .imm 0, c := .imm 8, md := 0x4 }),
  (64, 0x0040C1C9 + 0xCF008480 * 2 ^ 32, .lds { len := .w2, dst := .v 3, a := .v 1, b := .imm 0, c := .imm 4 }),
  (64, 0x0040C1CD + 0x8F000080 * 2 ^ 32, .sts { len := .w2, dst := .v 3, a := .v 1, b := .imm 0 }),
  (64, 0x4100C1D1 + 0x0F000001 * 2 ^ 32, .atom { len := .w2, dst := .v 3, a := .s 4, b := .v 1, c := .ctl 0 }),
  (64, 0x4100C1D5 + 0x0F000001 * 2 ^ 32, .cas { len := .w2, dst := .v 3, a := .s 4, b := .v 1, c := .ctl 0 }),
  (64, 0x410001D9 + 0x0F040101 * 2 ^ 32, .red { len := .w2, a := .s 4, b := .v 1, c := .ctl 1, md := 0x4 }),
  (64, 0x410001DD + 0x8F010080 * 2 ^ 32, .pref { len := .w2, a := .s 4, b := .imm 0, md := 0x1 }),
  (64, 0x410001E1 + 0x83010080 * 2 ^ 32, .cflush { len := .w2, a := .s 4, b := .imm 0, fset := 3, md := 0x1 }),
  (96, 0x000001F2 + 0x8F000000 * 2 ^ 32 + 0x00000020 * 2 ^ 64, .xenter { len := .w3, a := .lit 0x20 }),
  (32, 0x000001F4, .xcommit {}),
  (32, 0x61C001F8, .xquit { a := .imm 7 }),
  (32, 0x000081FC, .xprobe { dst := .p 2 })]

/-- Words of engines and matrix, opcodes 0x80 to 0x98, from the fields of R342 to R345 and the map of R357. -/
def engineWords : List (Nat × Nat × Instr) := [
  (64, 0xC4024201 + 0x02000000 * 2 ^ 32, .tcopy { len := .w2, dst := .s 9, a := .s 16, fset := 2 }),
  (32, 0xC807C204, .qpop { dst := .s 31, a := .s 32 }),
  (32, 0x41C00208, .qpush { a := .s 7 }),
  (32, 0x4240020C, .waitp { a := .s 9 }),
  (64, 0xC3028211 + 0x01000000 * 2 ^ 32, .collset { len := .w2, dst := .s 10, a := .s 12, fset := 1 }),
  (64, 0xC1404241 + 0x00000000 * 2 ^ 32, .tcfg { len := .w2, dst := .t 1, a := .s 5, fset := 0 }),
  (32, 0x80008244, .tzero { dst := .a 2 }),
  (64, 0xC1004249 + 0x8F010006 * 2 ^ 32, .mma { len := .w2, dst := .a 1, a := .s 4, b := .s 6, md := 0x1 }),
  (64, 0xC100424D + 0xCF000806 * 2 ^ 32, .mmas { len := .w2, dst := .a 1, a := .s 4, b := .s 6, c := .s 8 }),
  (64, 0xC040C251 + 0x0F400000 * 2 ^ 32, .tdrain { len := .w2, dst := .t 3, a := .a 1, md := 0x40 }),
  (64, 0xC1008255 + 0x8F000006 * 2 ^ 32, .tld { len := .w2, dst := .t 2, a := .s 4, b := .s 6 }),
  (64, 0xC1008259 + 0x8F000006 * 2 ^ 32, .tst { len := .w2, dst := .t 2, a := .s 4, b := .s 6 }),
  (64, 0x4140025D + 0x4F000402 * 2 ^ 32, .twr { len := .w2, a := .s 5, b := .v 2, c := .t 4 }),
  (64, 0x4100C261 + 0x8F000005 * 2 ^ 32, .trd { len := .w2, dst := .v 3, a := .t 4, b := .s 5 })]

/-- Words of summaries, opcodes 0xA0 to 0xA8, from the fields of R342 to R345 and the map of R357. -/
def summaryWords : List (Nat × Nat × Instr) := [
  (64, 0x41000281 + 0x8F010006 * 2 ^ 32, .sinit { len := .w2, a := .s 4, b := .s 6, md := 0x1 }),
  (64, 0x41000285 + 0x0F000001 * 2 ^ 32, .sqadd { len := .w2, a := .s 4, b := .v 1 }),
  (64, 0x41000289 + 0x0F000001 * 2 ^ 32, .shadd { len := .w2, a := .s 4, b := .v 1 }),
  (64, 0x4100028D + 0x0F800001 * 2 ^ 32, .sdadd { len := .w2, a := .s 4, b := .v 1, md := 0x80 }),
  (64, 0x41000291 + 0x8F010006 * 2 ^ 32, .smerge { len := .w2, a := .s 4, b := .s 6, md := 0x1 }),
  (64, 0x4100C295 + 0x0F000001 * 2 ^ 32, .sqry { len := .w2, dst := .v 3, a := .s 4, b := .v 1 }),
  (64, 0xC1028299 + 0x8F000080 * 2 ^ 32, .shtop { len := .w2, dst := .s 10, a := .s 4, b := .imm 0 }),
  (32, 0xC102829C, .sdest { dst := .s 10, a := .s 4 }),
  (64, 0x0040C2A1 + 0xCF000604 * 2 ^ 32, .qclamp { len := .w2, dst := .v 3, a := .v 1, b := .s 4, c := .s 6 })]

/-- Words of time, status and privileged, opcodes 0xB0 to 0xC3, from the fields of R342 to R345 and the map of R357. -/
def systemWords : List (Nat × Nat × Instr) := [
  (32, 0x000102C0, .rdvt { dst := .v 4 }),
  (64, 0x410002C5 + 0x02010000 * 2 ^ 32, .armt { len := .w2, a := .s 4, fset := 2, md := 0x1 }),
  (32, 0xE08102C8, .rdcnt { dst := .s 4, a := .imm 2 }),
  (64, 0x8000C2CD + 0x0F000020 * 2 ^ 32, .mfs { len := .w2, dst := .s 3, b := .ctl 0x20, c := .ctl 0 }),
  (64, 0x40C002D1 + 0x0F000021 * 2 ^ 32, .mts { len := .w2, a := .s 3, b := .ctl 0x21, c := .ctl 0 }),
  (32, 0x40C002D4, .ebook { a := .s 3 }),
  (32, 0x40C002D8, .tmark { a := .s 3 }),
  (32, 0x40C00300, .kzero { a := .s 3 }),
  (64, 0x41000305 + 0x02000000 * 2 ^ 32, .scrub { len := .w2, a := .s 4, fset := 2 }),
  (32, 0xC100C308, .pasgn { dst := .s 3, a := .s 4 }),
  (32, 0xC100C30C, .pfree { dst := .s 3, a := .s 4 })]

theorem test_decode_controlWords : controlWords.all decodes = true := by decide +kernel
theorem test_decode_integerWords : integerWords.all decodes = true := by decide +kernel
theorem test_decode_floatWords : floatWords.all decodes = true := by decide +kernel
theorem test_decode_laneWords : laneWords.all decodes = true := by decide +kernel
theorem test_decode_memoryWords : memoryWords.all decodes = true := by decide +kernel
theorem test_decode_engineWords : engineWords.all decodes = true := by decide +kernel
theorem test_decode_summaryWords : summaryWords.all decodes = true := by decide +kernel
theorem test_decode_systemWords : systemWords.all decodes = true := by decide +kernel

/-- One well-formed instruction of every opcode. -/
def samples : List Instr :=
  (controlWords ++ integerWords ++ floatWords ++ laneWords ++ memoryWords ++ engineWords ++ summaryWords ++ systemWords).map (·.2.2)

/-- R30, R355: CLAUSE 3, F1, F3. -/
theorem test_decode_clause : decodes (32, 0x00100503, .clause 2 0xA) = true := by decide +kernel

/-- The worked encodings after R361. -/
theorem test_worked_encodings : ([
    (32, 0x008040B0, .mov { dst := .v 1, a := .v 2 }),
    (32, 0xE003C0B0, .mov { dst := .s 15, a := .imm 0 }),
    (64, 0x00804085 + 0x0F000003 * 2 ^ 32, .add { len := .w2, dst := .v 1, a := .v 2, b := .v 3 }),
    (64, 0x00804085 + 0x8F800007 * 2 ^ 32, .add { len := .w2, dst := .v 1, a := .v 2, b := .s 7, md := 0x80 }),
    (64, 0xC24280D1 + 0x8F000081 * 2 ^ 32, .shl { len := .w2, dst := .s 10, a := .s 9, b := .imm 1 }),
    (96, 0x00804086 + 0x8F000000 * 2 ^ 32 + 0x00010000 * 2 ^ 64, .add { len := .w3, dst := .v 1, a := .v 2, b := .lit 0x10000 }),
    (96, 0x0101290A + 0x8F000000 * 2 ^ 32 + 0x3F000000 * 2 ^ 64,
      .fmul { len := .w3, pred := 2, pneg := true, dst := .v 4, a := .v 4, b := .lit 0x3F000000 }),
    (96, 0x800280B2 + 0x8F000000 * 2 ^ 32 + 0x100 * 2 ^ 64, .mov { len := .w3, dst := .s 10, a := .lit 0x100 })
  ] : List (Nat × Nat × Instr)).all decodes = true := by decide +kernel

/-- The words that the encoding chapter lists as UNDEF, an unassigned opcode, CLAUSE with a reserved bit, a literal target
that is no multiple of 4, an odd pair, and a length the opcode has not. -/
theorem test_undefined_words : ([
    (32, 0x00000000), (32, 0x00000007), (64, 0x00804085 + 0x0C000003 * 2 ^ 32), (32, 0x808040B0),
    (96, 0x800280B2 + 0x0F000000 * 2 ^ 32 + 0x100 * 2 ^ 64), (32, 4 * 0x0E), (32, 0x00900503),
    (96, 0x0000000A + 0x8F000000 * 2 ^ 32 + 0x102 * 2 ^ 64), (64, 0x00804085 + 0x0F100003 * 2 ^ 32), (32, 0x00000155)
  ] : List (Nat × Nat)).all (fun x => decide (decodeTableWord x.1 x.2 = none)) = true := by decide +kernel

/-! ## Well-formedness -/

theorem test_samples_well_formed : samples.all Instr.wf = true := by decide +kernel

/-- Every opcode's sample is decoded from the words the encoder writes. -/
theorem test_samples_round_trip : samples.all (fun i => decide (decode (encode i ++ [0]) = some (i, [0]))) = true := by
  decide +kernel

/-- One ill-formed term for each check of `bodyOk`: it refuses each. -/
theorem test_ill_formed : ([
    -- a length the opcode has not (R358), of each form
    .bra { len := .w1, a := .lit 0x100 }, .mfs { len := .w1, dst := .s 3, b := .ctl 0x20, c := .ctl 0 },
    .nop { len := .w3, a := .lit 0 },
    -- a modifier that is not listed (R353)
    .and { len := .w2, dst := .v 3, a := .v 1, b := .v 2, md := 0x80 }, .ld { len := .w2, dst := .v 3, a := .s 4, b := .imm 0, md := 0x10 },
    -- a 32-bit form that drops a second word (R341)
    .add { dst := .v 3, a := .v 1, b := .v 2 }, .fence { md := 0x40 },
    -- a literal out of its place (R344)
    .add { len := .w3, dst := .v 3, a := .lit 1, b := .v 2 }, .add { len := .w2, dst := .v 3, a := .v 1, b := .lit 1 },
    -- a destination, and sources a, b and c, of a wrong kind, range or alignment (R75, R345, R347)
    .add { len := .w2, dst := .imm 3, a := .v 1, b := .v 2 }, .add { len := .w2, dst := .v 3, a := .v 1, b := .v 4, md := 0x10 },
    .rdfl { dst := .s 3, a := .s 1 }, .bar { a := .b 16 }, .setx { dst := .x 4, a := .v 1 },
    .cbdec { len := .w2, dst := .v 3, a := .v 1, b := .s 4, md := 0x42 }, .st { len := .w2, dst := .v 3, a := .imm 4, b := .imm 0 },
    .sel { len := .w2, dst := .v 3, a := .v 1, b := .v 2, c := .p 8 }, .mov { dst := .s 128, a := .imm 0 },
    -- a flag the instruction does not take, and FSET 12 to 14 (R354)
    .add { len := .w2, dst := .v 3, a := .v 1, b := .v 2, fset := 0 }, .ld { len := .w2, dst := .v 3, a := .s 4, b := .imm 0, fset := 12 },
    -- a hint the instruction does not carry, and hint 3 (R137)
    .sts { len := .w2, dst := .v 3, a := .v 1, b := .imm 0, hint := 1 }, .ld { len := .w2, dst := .v 3, a := .s 4, b := .imm 0, hint := 3 },
    -- a scalar destination with a vector source (R348)
    .mov { dst := .s 3, a := .v 2 },
    -- a predicate on BAR (R377) and on ERET (R403)
    .bar { a := .b 2, pred := 1 }, .eret { pneg := true },
    -- a status index that names no register, and one with bits [15:12] (R84, R358)
    .mfs { len := .w2, dst := .s 3, b := .ctl 0x07, c := .ctl 0 }, .mts { len := .w2, a := .s 3, b := .ctl 0x20, c := .ctl 0x10 },
    -- a branch target that is no multiple of 4 (R358)
    .call { len := .w3, dst := .v 6, a := .lit 0x102 },
    -- an instruction with no encoding
    .moduleReset
  ] : List Instr).all (fun i => !i.wf) = true := by decide +kernel

/-! ## Small states -/

/-- A live lane at the first instruction. -/
def lane0 : Lane := { st := .ready, pc := 0x10000 }

def team1 : Team :=
  { live := true, grid := 1, groups := [1], steer := some 2, bars := 16, tmask := 0xFFFF, amask := 0xFF, scratchSize := 4096 }

/-- Context 1 of partition 0 runs a grid of one team: group 1 with lanes 0 and 1 alive and current, steer thread 2; and
Headwater is at work. -/
def reg : State :=
  { groups := [
      (0, { role := .headwater, gid := 16, lanes := [(0, lane0)], trap := { base := 0x18000 } }),
      (1, { role := .produce, team := 1, budget := 256, lanes := [(0, lane0), (1, lane0)], bundle := { lanes := 3, due := false } }),
      (2, { role := .steer, gid := 16, team := 1, lanes := [(0, lane0)] })]
    teams := [(1, team1)]
    grids := [(1, { st := .placing, ctx := 1, dimX := 1, dimY := 1, dimZ := 1, next := 1, priv := 0x20000, pwords := 16 })]
    ctxs := [(1, { hasDesc := true, st := .running, vrun := true, desc := 0x8000 })]
    parts := [(0, { st := .active, clusters := [0], slices := [0, 1], channels := [0, 1, 2, 3] })]
    passed := [(0, 1)]
    fresh := 8
    cur := { agent := 1, act := 3, pc := 0x10000 } }

/-- The steer thread's turn, and Headwater's. -/
def steer : State := { reg with cur := { agent := 2, act := 1, pc := 0x10000 } }
def hw : State := { reg with cur := { agent := 0, act := 1, pc := 0x10000 } }

def inStage (g : Stage) (s : State) : State := { s with boot := { s.boot with stage := g } }

/-- The group is in a trap of its lane 0, at ERET. -/
def inTrap : State := reg.modGrp 1 (fun g => { g with trap := { inTrap := true, lanes := 1, pc := 0x10040 } })

/-- The first GiB mapped onto itself, with a trap handler and a trap area. -/
def mapped : State :=
  let s := ((identityTables reg).wrLe (hbmKey 0 0x8008) 8 0x1000).wrLe (hbmKey 0 0x8010) 8 0x1000
  s.modGrp 1 (fun g => { g with trap := { base := 0x18000 }, privBase := 0x20100 })

/-- The agent that runs an instruction's sample. -/
def turnOf (i : Instr) : State :=
  match opcodeOf i with
  | some (n, _) =>
    if 0xC0 ≤ n.toNat then hw else if 0x90 ≤ n.toNat ∧ n.toNat ≤ 0x96 then steer else if n = 0x0D#8 then inTrap else reg
  | none => reg

/-- An instruction is well formed and issues. -/
def goes (s : State) (i : Instr) : Bool := match opcodeOf i with | some (n, o) => i.wf && issues n o s | none => false

/-- An instruction is executed to a next state of which `f` holds. -/
def runs (i : Instr) (s : State) (f : State → Bool) : Bool := match exec i s with | .next t => f t | _ => false

/-- Group 1 with registers: V1 to V5 in every lane, S4 to S7, as given. -/
def withRegs (v sr : List (Nat × Word)) (s : State) : State :=
  s.modGrp s.cur.agent (fun g =>
    let g := v.foldl (fun g p => (List.range 2).foldl (fun g l => g.setV p.1 l p.2) g) g
    sr.foldl (fun g p => g.setS p.1 p.2) g)

/-! ## Issue: the hypotheses that every instruction statement shares -/

/-- Each sample is well formed and issues: the hypotheses of IntegerArithmetic, IntegerLogic, PackedAndConversions,
LaneExchange, LaneReductions, IndexRegisters and Branches, and the first two of every other instruction statement. -/
theorem witness_issues : samples.all (fun i => goes (turnOf i) i) = true := by decide +kernel

/-- The pairs of the 64-bit forms, scalar destinations and Headwater's turn meet them too. -/
theorem witness_issues_forms :
    goes reg (.add { len := .w2, dst := .v 254, a := .v 2, b := .imm 63, md := 0xD0 }) = true ∧
    goes steer (.add { len := .w3, dst := .s 127, a := .s 0, b := .lit 0x80000000 }) = true ∧
    goes hw (.mov { dst := .s 127, a := .imm 64 }) = true ∧ goes reg (.cmp { len := .w2, dst := .p 0, a := .v 1, b := .v 2 }) = true := by
  decide +kernel

/-! ## Results of single steps -/

/-- The instruction writes `x` to V3 of lane 0 from V1 = a, V2 = b, V5 = c. -/
def v3 (i : Body → Instr) (o : Body) (a b c x : Word) : Bool :=
  runs (i o) (withRegs [(1, a), (2, b), (5, c)] [] reg) (fun t => decide (t.me.vreg 3 0 = x) && decide ((t.me.lane 0).pc = nextPc 0x10000 o.len))

def two : Body := { len := .w2, dst := .v 3, a := .v 1, b := .v 2 }
def three : Body := { two with c := .v 5 }
def one : Body := { dst := .v 3, a := .v 1 }

/-- R95: wrapped and clamped sums and products; the high half; the most negative value of ABS. -/
theorem test_arithmetic :
    v3 .add two 0x7FFFFFFF 1 0 0x80000000 ∧ v3 .add { two with md := 0x80 } 0x7FFFFFFF 1 0 0x7FFFFFFF ∧
    v3 .sub two 3 5 0 0xFFFFFFFE ∧ v3 .sub { two with md := 0xC0 } 3 5 0 0 ∧
    v3 .mul two 0x10000 0x10001 0 0x00010000 ∧ v3 .mulh two 0xFFFFFFFF 2 0 0xFFFFFFFF ∧ v3 .mulh { two with md := 0x40 } 0xFFFFFFFF 2 0 1 ∧
    v3 .mad three 3 4 5 17 ∧ v3 .mad { three with md := 0x80 } 0x10000 0x10000 0 0x7FFFFFFF ∧
    v3 .abs { one with len := .w2, md := 0x80 } 0x80000000 0 0 0x7FFFFFFF ∧ v3 .abs one 0x80000000 0 0 0x80000000 ∧
    v3 .lea three 0x100 0xFFFFFFFF 2 0xFC ∧ v3 .max two 0xFFFFFFFF 1 0 1 ∧ v3 .min { two with md := 0x40 } 0xFFFFFFFF 1 0 1 := by
  decide +kernel

/-- R367 to R370, R379, R380, R385, R393, R394, R432, R447: shifts of the width and more, fields past the top, byte choice. -/
theorem test_logic :
    v3 .and two 0xF0F0 0xFF00 0 0xF000 ∧ v3 .or two 0xF0 0x0F 0 0xFF ∧ v3 .xor two 0xFF 0x0F 0 0xF0 ∧
    v3 .not { one with len := .w2 } 0 0 0 0xFFFFFFFF ∧ v3 .mov one 7 0 0 7 ∧
    v3 .sel { two with c := .p 2 } 1 2 0 2 ∧ v3 .sel { two with c := .p 0 } 1 2 0 1 ∧
    v3 .shl two 1 31 0 0x80000000 ∧ v3 .shl two 1 32 0 0 ∧ v3 .shl two 1 256 0 1 ∧ v3 .shr two 0x80000000 31 0 1 ∧
    v3 .sra two 0x80000000 40 0 0xFFFFFFFF ∧ v3 .brev one 1 0 0 0x80000000 ∧ v3 .clz one 1 0 0 31 ∧ v3 .popc one 0xF1 0 0 5 ∧
    v3 .bfe three 0x80000000 28 8 0xFFFFFFF8 ∧ v3 .bfe { three with md := 0x40 } 0x80000000 28 8 8 ∧ v3 .bfi three 0xFF 28 8 0xF0000000 ∧
    v3 .perm three 0x88442211 0x00007F80 0x00780224 0x00FFFF80 := by
  decide +kernel

/-- A value in V3 and FPFLAGS. -/
def v3f (i : Body → Instr) (o : Body) (a b c x f : Word) : Bool :=
  runs (i o) (withRegs [(1, a), (2, b), (5, c)] [] reg) (fun t => decide (t.me.vreg 3 0 = x ∧ t.me.fpflags = f))

/-- R98 to R103, R406 to R409, R412: one rounding with NX, signed zeros, NaNs, exact and inexact functions. -/
theorem test_floating_point :
    v3f .fadd two 0x3F800000 0x33800000 0 0x3F800000 0x10 ∧ v3f .fsub two 0x3F800000 0x3F800000 0 0 0 ∧
    v3f .fmul two 0x40400000 0x3F000000 0 0x3FC00000 0 ∧ v3f .fmul two 0x7F800000 0 0 0x7FC00000 1 ∧
    v3f .ffma three 0x40000000 0x40400000 0x3F800000 0x40E00000 0 ∧ v3f .fmin two 0x80000000 0 0 0x80000000 0 ∧
    v3f .fmax two 0x7FC00000 0x3F800000 0 0x3F800000 0 ∧ v3f .fmax two 0x7F800001 0x3F800000 0 0x3F800000 1 ∧
    v3f .fclass one 0x80000001 0 0 4 0 ∧ v3f .fclass one 0x7F800001 0 0 0x100 0 ∧
    v3f .frnd one 0x40200000 0 0 0x40000000 0x10 ∧ v3f .frnd { one with len := .w2, md := 2 } 0xBF000000 0 0 0x80000000 0x10 ∧
    v3f .frcp one 0x40800000 0 0 0x3E800000 0 ∧ v3f .frcp one 1 0 0 0x7F800000 0x14 ∧ v3f .frsq one 0x40800000 0 0 0x3F000000 0 ∧
    v3f .fsqrt one 0x40800000 0 0 0x40000000 0 ∧ v3f .fexp2 one 0x40400000 0 0 0x41000000 0 ∧
    v3f .fexp2 one 0x43000000 0 0 0x7F800000 0x14 ∧ v3f .flog2 one 0x41000000 0 0 0x40400000 0 ∧
    v3f .fsin one 0 0 0 0 0 ∧ v3f .fcos one 0 0 0 0x3F800000 0 := by decide +kernel

/-- R104, R382, R383, R390, R396, R397: the worked conversions of CVT's and DOT4's entries and CBDEC's. -/
theorem test_packed :
    v3f .hwadd two 0x3C004000 0x3C004000 0 0x40004400 0 ∧ v3f .hwmul { two with md := 0x51 } 0x3C004000 0x40004400 0 0x44004400 0 = true ∧
    v3f .hwfma three 0x3C004000 0x3C004000 0x3C003C00 0x40004500 0 ∧ v3f .dot2 three 0x40003C00 0x40003C00 0x3F800000 0x40C00000 0 ∧
    v3f .dot4 three 0xFC03FE01 0x08070605 100 0x52 0 ∧ v3f .dot4 three 0xFC03FE01 0x08070605 0x80000005 0x7FFFFFF3 0 ∧
    v3f .dot4 { three with md := 1 } 0xFC03FE01 0x08070605 0x80000005 0x80000000 0 ∧
    v3f .cvt { len := .w2, dst := .v 3, a := .v 1, c := .ctl 0, md := 0x74 } 0x43960000 0 0 0x79 0x10 ∧
    v3f .cvt { len := .w2, dst := .v 3, a := .v 1, c := .ctl 0, md := 0x74 } 0x43FA0000 0 0 0x7E 0x14 ∧
    v3f .cvt { len := .w2, dst := .v 3, a := .v 1, c := .ctl 0, md := 0x34 } 0x40200000 0 0 2 0x10 ∧
    runs (.cbdec { len := .w2, dst := .v 3, a := .v 1, b := .s 8, md := 1 }) (withRegs [(1, 0x30)] [(9, 0x3F804000)] reg)
      (fun t => t.me.vreg 3 0 = 0x3F800000) ∧
    runs (.bnunpk { dst := .v 3, a := .v 4 }) (withRegs [(4, 0x40), (5, 0xFE82)] [] reg) (fun t => t.me.vreg 3 0 = 0x41000000) := by
  decide +kernel

/-- R109: the worked block of BNPACK's entry, in lanes 0 to 15. -/
theorem test_bnpack :
    runs (.bnpack { dst := .v 4, a := .v 1 })
      ({ reg with cur := { agent := 1, act := 0xFFFF, pc := 0x10000 } }.modGrp 1 (fun g =>
        ((({ g with lanes := (List.range 16).map (fun l => (l, lane0)) }).setV 1 0 0x41000000).setV 1 1 0x40800000)))
      (fun t => decide (t.me.vreg 4 0 = 0x40 ∧ t.me.vreg 4 1 = 0x20 ∧ t.me.vreg 4 2 = 0 ∧ t.me.vreg 5 0 = 0xFE82 ∧
        t.me.vreg 5 15 = 0xFE82 ∧ t.me.fpflags = 0)) = true := by decide +kernel

/-- R116, R117, R376, R441, R450, R462: the worked lanes of SCAN's and SIPHON's entries, in lanes 0 and 1. -/
theorem test_lane_operations :
    let s := reg.modGrp 1 (fun g => ((g.setV 1 0 5).setV 1 1 6).setP 1 1 true)
    runs (.scan { dst := .v 3, a := .v 1 }) s (fun t => decide (t.me.vreg 3 0 = 5 ∧ t.me.vreg 3 1 = 11)) ∧
    runs (.scan { len := .w2, dst := .v 3, a := .v 1, md := 0x80 }) s (fun t => decide (t.me.vreg 3 0 = 0 ∧ t.me.vreg 3 1 = 5)) ∧
    runs (.lred { dst := .s 3, a := .v 1 }) s (fun t => t.me.sreg 3 = 11) ∧
    runs (.ballot { dst := .s 4, a := .p 1 }) s (fun t => decide (t.me.sreg 4 = 2 ∧ t.me.sreg 5 = 0)) ∧
    runs (.verdict { dst := .p 3, a := .p 1 }) s (fun t => t.me.preg 3 0) ∧
    runs (.rdfl { dst := .s 3, a := .v 1 }) s (fun t => t.me.sreg 3 = 5) ∧
    runs (.siphon { len := .w2, dst := .v 3, a := .v 1, b := .imm 1, md := 5 }) s
      (fun t => decide (t.me.vreg 3 0 = 5 ∧ t.me.vreg 3 1 = 5 ∧ t.me.fpflags = 0)) ∧
    runs (.siphon { len := .w2, dst := .v 3, a := .v 1, b := .imm 1, md := 1 }) s
      (fun t => decide (t.me.vreg 3 0 = 0 ∧ t.me.vreg 3 1 = 5 ∧ t.me.fpflags = 0x20)) := by decide +kernel

/-- R414, R423, R448: INCX's worked words; LDX and STX through X1 = 0x0002_0801. -/
theorem test_index_registers :
    let s := fun (x : Word) => (withRegs [(3, 7)] [] reg).modGrp 1 (fun g => (g.setX 1 0 x).setX 1 1 x)
    runs (.incx { len := .w2, dst := .x 1, a := .imm 1, md := 1 }) (s 0x00090838) (fun t => t.me.xreg 1 0 = 0x00020838) ∧
    runs (.incx { dst := .x 1, a := .imm 118 }) (s 0x00090838) (fun t => t.me.xreg 1 0 = 0xFFFF0838) ∧
    runs (.setx { len := .w2, dst := .x 1, a := .v 3, md := 1 }) (s 0x00090838) (fun t => t.me.xreg 1 0 = 0x00070838) ∧
    runs (.ldx { dst := .v 9, a := .x 1 }) (s 0x00020801) (fun t => t.me.vreg 9 1 = 7) ∧
    runs (.stx { dst := .x 1, a := .imm 5 }) (s 0x00020801) (fun t => t.me.vreg 3 0 = 5) := by decide +kernel

/-! ## Witnesses: floating point and the index window -/

/-- FloatArithmetic, PackedAndConversions, LaneReductions: no exception is trapped after reset, whatever the flags are. -/
theorem witness_no_fp_trap (x : FFlags) : x &&& reg.me.traps = 0 := by
  have h : reg.me.traps = 0 := by decide +kernel
  rw [h]; simp

/-- A signalling NaN in V1 with the NV trap on, and a handler. -/
def trapFp : State := (withRegs [(1, 0x7F800001)] [] mapped).modGrp 1 (fun g => { g with fpmode := 8 })

/-- FloatArithmetic: lane 0 raises the trapped exception, and the trap can be taken. -/
theorem witness_fp_traps : canTrap trapFp = true ∧
    ([(.fadd two, 0x40), (.fsub two, 0x41), (.fmul two, 0x42), (.ffma three, 0x43), (.fmin two, 0x44), (.fmax two, 0x45),
      (.fcmp { two with dst := .p 2 }, 0x46), (.frcp one, 0x49), (.frsq one, 0x4A), (.fsqrt one, 0x4B), (.fexp2 one, 0x4C),
      (.flog2 one, 0x4D)] : List (Instr × Nat)).all (fun x => goes trapFp x.1) = true ∧
    (fp (fun _ rm z a b _ => roundV fp32 rm z (sumV rm [unpack fp32 z a, unpack fp32 z b])) two trapFp 0).2 &&& trapFp.me.traps ≠ 0 ∧
    (fp (fun _ rm z a b _ => roundV fp32 rm z (mulV (unpack fp32 z a) (unpack fp32 z b))) two trapFp 0).2 &&& trapFp.me.traps ≠ 0 ∧
    (fp (fun _ rm z a b c => roundV fp32 rm z (sumV rm [mulV (unpack fp32 z a) (unpack fp32 z b), unpack fp32 z c])) three trapFp 0).2
      &&& trapFp.me.traps ≠ 0 ∧
    (fp (fun _ _ z a b _ => minMaxNum fp32 z false a b) two trapFp 0).2 &&& trapFp.me.traps ≠ 0 ∧
    (fp (fun o _ z a b _ => fcmpR (o.md.extractLsb' 0 4).toNat z a b) two trapFp 0).2 &&& trapFp.me.traps ≠ 0 ∧
    [0x49, 0x4A, 0x4B, 0x4C, 0x4D].all (fun n => decide ((fp (fun _ _ z a _ _ => funF n z a) one trapFp 0).2 &&& trapFp.me.traps ≠ 0)) := by
  decide +kernel

/-- The trap is taken, and no register is written (R101, R237). -/
theorem test_fp_trap : runs (.fadd two) trapFp (fun t => decide (t.me.trap.code = cFPE ∧ t.me.trap.pc = 0x10000 ∧
    t.me.vreg 3 0 = 0 ∧ t.me.fpflags = 0 ∧ (t.me.lane 0).pc = 0x18000)) = true := by decide +kernel

/-- FloatResults: finite operands, and a quiet and a signalling NaN. -/
theorem witness_float_results : isFinite (f32 0x7F7FFFFF) = true ∧ isFinite (f32 0x80000001) = true ∧ isFinite (f32 0) = true ∧
    (f32 0x7FC00000).isNan = true ∧ (f32 0x7F800001).isSig = true ∧ (f32 0x7F800001).isNan = true := by decide +kernel

/-- An index register in both lanes. -/
def window (x : Word) (s : State) : State := s.modGrp s.cur.agent (fun g => (g.setX 1 0 x).setX 1 1 x)

/-- WindowAccess: the last register of the window, of the pairs' window, and the first index beyond it. -/
theorem witness_window : (∀ l ∈ [0, 1], windowOk (window 0x000708F8 reg).me false 1 l) ∧
    (∀ l ∈ [0, 1], windowOk (window 0x000304F8 reg).me true 1 l) ∧
    (window 0x000708F8 reg).actMask {} = 3 ∧
    goes (window 0x000708F8 reg) (.ldx { dst := .v 3, a := .x 1 }) = true ∧
    goes (window 0x000304F8 reg) (.ldx { len := .w2, dst := .v 4, a := .x 1, md := 1 }) = true ∧
    goes (window 0x000304F8 reg) (.stx { len := .w2, dst := .x 1, a := .v 4, md := 1 }) = true := by
  refine ⟨?_, ?_, ?_⟩ <;> try unfold windowOk <;> decide +kernel
  decide +kernel

theorem witness_window_bounds : xLen ((window 0x000808F8 mapped).me.xreg 1 0) ≤ xIndex ((window 0x000808F8 mapped).me.xreg 1 0) ∧
    canTrap (window 0x000808F8 mapped) = true ∧ goes (window 0x000808F8 mapped) (.ldx { dst := .v 3, a := .x 1 }) = true ∧
    (let s := window 0x000004F7 mapped
     goes s (.stx { len := .w2, dst := .x 1, a := .v 4, md := 1 }) = true ∧ xBase (s.me.xreg 1 0) % 2 ≠ 0 ∧ canTrap s = true) ∧
    (let s := window 0x000809F8 mapped
     goes s (.ldx { dst := .v 3, a := .x 1 }) = true ∧ goes s (.stx { dst := .x 1, a := .v 3 }) = true ∧ canTrap s = true ∧
     (∀ l ∈ lanesOf (s.actMask {}), xIndex (s.me.xreg 1 l) < xLen (s.me.xreg 1 l)) ∧
     ¬ xReg false (s.me.xreg 1 0) < Min.min 256 s.me.budget) := by
  decide +kernel

/-! ## Witnesses: control flow -/

/-- Branches: aligned and misaligned targets, and a handler; ClauseAndYield: a header outside and within a clause, with
and without a pending flag. -/
theorem witness_branches :
    (∀ l ∈ lanesOf ((withRegs [(4, 0xFFFFFFFC)] [] reg).actMask {}),
      ((withRegs [(4, 0xFFFFFFFC)] [] reg).me.opv true (.v 4) l).extractLsb' 0 2 = 0#2) ∧
    (∃ l ∈ lanesOf ((withRegs [(4, 2)] [] mapped).actMask {}),
      ((withRegs [(4, 2)] [] mapped).me.opv true (.v 4) l).extractLsb' 0 2 ≠ 0#2) ∧
    canTrap (withRegs [(4, 2)] [] mapped) = true ∧ goes (withRegs [(4, 2)] [] mapped) (.brx { a := .v 4 }) = true ∧
    goes (withRegs [(4, 2)] [] mapped) (.ret { a := .v 4 }) = true := by decide +kernel

def clausing (n : Nat) (f : BitVec 12) (s : State) : State :=
  s.modGrp 1 (fun g => { g with flags := f, bundle := { g.bundle with clause := n } })

theorem witness_clause : issues 0x00 {} reg = true ∧ reg.me.bundle.clause = 0 ∧ reg.me.flags &&& 0xFFF = 0 ∧ allReady reg = true ∧
    issues 0x00 {} (clausing 0 0x800 reg) = true ∧ (clausing 0 0x800 reg).me.flags &&& 0x800 ≠ 0 ∧
    issues 0x00 {} (clausing 16 0 mapped) = true ∧ (clausing 16 0 mapped).me.bundle.clause ≠ 0 ∧ canTrap (clausing 16 0 mapped) = true ∧
    reg.actMask {} ≠ 0 := by decide +kernel

/-- J1 with participants, of whom some wait. -/
def joining (parts waiting : Mask) (s : State) : State :=
  s.modGrp 1 (fun g => { g with j := g.j.put 1 { parts := parts, waiting := waiting, pc := 0x10080 } })

/-- JoinBarriers: an empty J1; a bundle of no participants; one that another lane's arrival is still to follow; the last. -/
theorem witness_join :
    (reg.me.j.at 1).waiting = 0 ∧ allReady reg = true ∧ reg.cur.act &&& (reg.me.j.at 1).parts = 0 ∧
    (let s := joining 3 0 { reg with cur := { reg.cur with act := 1 } }
     goes s (.join { a := .j 1 }) = true ∧ allReady s = true ∧ s.cur.act &&& (s.me.j.at 1).parts ≠ 0 ∧
       (s.me.j.at 1).parts &&& s.me.live &&& ~~~ ((s.me.j.at 1).waiting ||| 1) ≠ 0) ∧
    (let s := joining 3 0 reg
     goes s (.join { a := .j 1 }) = true ∧ (s.me.j.at 1).parts &&& s.me.live &&& ~~~ ((s.me.j.at 1).waiting ||| 3) = 0) := by
  decide +kernel

theorem test_join : runs (.join { a := .j 1 }) (joining 3 0 { reg with cur := { reg.cur with act := 1 } })
      (fun t => decide ((t.me.lane 0).st = .join 1 ∧ (t.me.j.at 1).waiting = 1)) = true ∧
    runs (.join { a := .j 1 }) (joining 3 0 reg) (fun t => decide ((t.me.lane 0).pc = 0x10080 ∧ (t.me.lane 1).pc = 0x10080 ∧
      t.me.j.at 1 = {})) = true ∧
    runs (.joinset { len := .w3, dst := .j 1, a := .lit 0x40 }) reg (fun t => decide (t.me.j.at 1 = { parts := 3, waiting := 0, pc := 0x10040 } ∧
      (t.me.lane 0).pc = 0x1000C)) = true := by decide +kernel

/-- A second group of the team. -/
def twoGroups : State :=
  (reg.modTeam 1 (fun t => { t with groups := [1, 3] })).modGrp 3 (fun _ => { role := .consume, gid := 1, team := 1, budget := 64, lanes := [(0, lane0)] })

/-- NamedBarriers: another group is to arrive; the group arrives as the last. -/
theorem witness_bar : allReady twoGroups = true ∧ coreQuiet twoGroups (twoGroups.coreNo 1) = true ∧
    goes twoGroups (.bar { a := .b 15 }) = true ∧
    (∃ g ∈ twoGroups.liveGroups 1, g ≠ 1 ∧ (twoGroups.myTeam.bar.at 15).arrived.any (fun p => p.1 = g) = false) ∧
    coreQuiet reg (reg.coreNo 1) = true ∧ 1 ∈ reg.liveGroups 1 ∧ reg.me.live &&& ~~~ reg.cur.act = 0 ∧
    (reg.myTeam.bar.at 15).arrived.any (fun p => p.1 = 1) = false ∧ (∀ g ∈ reg.liveGroups 1, g ≠ 1 →
      (reg.myTeam.bar.at 15).arrived.any (fun p => p.1 = g) = true) ∧ reg.me.team = 1 := by decide +kernel

theorem test_bar : runs (.bar { a := .b 2 }) twoGroups (fun t => decide ((t.me.lane 0).st = .bar 2)) = true ∧
    runs (.bar { a := .b 2 }) reg (fun t => decide ((t.me.lane 0).pc = 0x10004 ∧ (t.myTeam.bar.at 2).phase = true)) = true := by
  decide +kernel

/-- Exits: all live lanes, and one of two. -/
theorem witness_exit : reg.actMask {} ≠ 0 ∧ reg.me.live &&& ~~~ reg.actMask {} = 0 ∧ goes reg (.exit {}) = true ∧
    (lanesOf reg.me.live).all (fun l => match (reg.me.lane l).st with | .bar _ => false | _ => true) = true := by decide +kernel
theorem test_exit : runs (.exit {}) (withRegs [(3, 9)] [] reg) (fun t => decide ((t.me.lane 0).st = .gone ∧ t.me.vreg 3 0 = 0 ∧ t.me.ended = true)) = true ∧
    runs (.exit { pred := 1 }) ((withRegs [(3, 9)] [] reg).modGrp 1 (fun g => g.setP 1 0 true))
      (fun t => decide (t.me.vreg 3 0 = 0 ∧ t.me.vreg 3 1 = 9 ∧ t.me.ended = false ∧ (t.me.lane 1).pc = 0x10004)) = true := by decide +kernel

/-- TrapInstructions: TRAP and BKPT with a handler; BKPT claimed by DBGSET; the last trap lane at ERET; no trap. -/
theorem witness_trap : canTrap mapped = true ∧ mapped.actMask {} ≠ 0 ∧ mapped.myCtx.dbgset.getLsbD 2 = false ∧
    goes mapped (.trap { a := .imm 3 }) = true ∧ goes mapped (.bkpt {}) = true ∧
    (let s := reg.modCtx 1 (fun x => { x with dbgset := 4 })
     goes s (.bkpt {}) = true ∧ s.me.region = none ∧ s.isHw = false ∧ s.myCtx.dbgset.getLsbD 2 = true ∧ s.myCtx.st = .running ∧
       s.myCtx.stop = .none) ∧
    (let s := reg.modCtx 1 (fun x => { x with dbgset := 4, st := .stopping, stop := .drain 0 })
     goes s (.bkpt {}) = true ∧ s.me.region = none ∧ s.myCtx.st = .stopping ∧ s.myCtx.stop = .drain 0) ∧
    goes inTrap (.eret {}) = true ∧ allReady inTrap = true ∧ inTrap.me.trap.inTrap = true ∧ inTrap.me.trap.op = 0 ∧
    inTrap.me.trap.pc.extractLsb' 0 2 = 0#2 ∧ inTrap.me.trap.lanes &&& inTrap.me.live ≠ 0 ∧
    inTrap.me.trap.lanes &&& inTrap.me.live &&& ~~~ (inTrap.cur.act ||| inTrap.me.lanesWith (fun x => x = .eret)) = 0 ∧
    goes mapped (.eret {}) = true ∧ mapped.me.trap.inTrap = false := by
  decide +kernel

theorem test_traps :
    runs (.trap { a := .imm 3 }) mapped (fun t => decide (t.me.trap.code = cTRAPI ∧ t.me.trap.pc = 0x10004 ∧ (t.me.lane 1).pc = 0x18000)) = true ∧
    runs (.bkpt {}) mapped (fun t => decide (t.me.trap.code = cBKPT ∧ t.me.trap.pc = 0x10000)) = true ∧
    runs (.eret {}) inTrap (fun t => decide ((t.me.lane 0).pc = 0x10040 ∧ t.me.trap.inTrap = false)) = true ∧
    runs (.eret {}) mapped (fun t => decide (t.me.trap.code = cPRIV ∧ t.me.trap.pc = 0x10000)) = true := by decide +kernel

/-! ## Witnesses: waits and order -/

/-- A copy under way, with its promise. -/
def copy1 : Copy := { id := 3, agent := 1, team := 1, ctx := 1, promise := 1000, flag := 2, shape := [0x80000000, 0, 0, 0, 0, 0, 0, 0] }
def copying (s : State) : State := s.modCore 0 (fun c => { c with eddy := [copy1] })

/-- WaitInstructions: SLEEP of 0 and more; an idle flag, a pending one, and a time-out of 0; a WAITP that no copy concerns,
one that waits, and one past its promise. -/
theorem witness_waits :
    goes reg (.sleep { a := .imm 0 }) = true ∧ goes reg (.sleep { a := .imm 9 }) = true ∧
    goes (clausing 0 0x20 reg) (.waitf { a := .f 5 }) = true ∧ (clausing 0 0x20 reg).me.flags.getLsbD 5 = true ∧
    goes reg (.waitf { a := .f 5 }) = true ∧ reg.me.flags.getLsbD 5 = false ∧
    goes (clausing 0 0x20 reg) (.waitf { len := .w2, a := .f 5, b := .imm 0, md := 1 }) = true ∧
    reg.actMask {} ≠ 0 ∧ covered reg 1 (reg.me.sreg 9) reg.fresh = [] ∧ goes reg (.waitp { a := .s 9 }) = true ∧
    (let s := copying (withRegs [] [(9, 1000)] reg)
     goes s (.waitp { a := .s 9 }) = true ∧ covered s 1 (s.me.sreg 9) s.fresh ≠ [] ∧ promisePast s 1 (s.me.sreg 9) = false) ∧
    (let s := { copying (withRegs [] [(9, 1000)] mapped) with gtime := 1000 }
     goes s (.waitp { a := .s 9 }) = true ∧ covered s 1 (s.me.sreg 9) s.fresh ≠ [] ∧ promisePast s 1 (s.me.sreg 9) = true ∧ canTrap s = true) := by
  decide +kernel

theorem test_waits :
    runs (.sleep { a := .imm 9 }) reg (fun t => decide ((t.me.lane 0).st = .sleep 9 ∧ (t.me.lane 0).pc = 0x10000)) = true ∧
    runs (.waitf { a := .f 5 }) (clausing 0 0x20 reg) (fun t => decide ((t.me.lane 0).st = .waitf 5 none)) = true ∧
    runs (.waitf { a := .f 5 }) reg (fun t => decide ((t.me.lane 0).pc = 0x10004)) = true ∧
    runs (.waitp { a := .s 9 }) ({ copying (withRegs [] [(9, 1000)] mapped) with gtime := 1000 })
      (fun t => decide (t.me.trap.code = cPROMISE ∧ t.me.trap.pc = 0x10004)) = true := by decide +kernel

/-- A request of core 0 under way. -/
def req1 : Req := { id := 3, kind := .store, agent := 1, line := lineOf (hbmKey 0 0x40000) }
def busy (s : State) : State := s.modCore 0 (fun c => { c with queue := [req1] })

/-- Fences: GROUP scope with and without a load under way, Headwater, an empty queue, an access under way, and at SYSTEM scope
a copy whose write is not acknowledged. -/
theorem witness_fences :
    goes reg (.fence {}) = true ∧ scopeSel {} = 0 ∧ groupQuiet reg 1 = true ∧ goes hw (.fence { len := .w2, md := 0x40 }) = true ∧ hw.isHw = true ∧
    (let s := reg.modCore 0 (fun c => { c with queue := [{ req1 with kind := .load }] })
     goes s (.fence {}) = true ∧ groupQuiet s 1 = false) ∧
    scopeSel { md := 0xA0 } = 5 ∧ peersQuiet reg 1 = true ∧
    (let s := reg.modCore 0 (fun c => { c with eddy := [{ copy1 with acks := [(1, 0)] }] })
     goes s (.fence { len := .w2, md := 0xA0 }) = true ∧ peersQuiet s 1 = false ∧ (s.core 0).queue = []) ∧
    reg.actMask { md := 0x40 } ≠ 0 ∧ ({ md := 0x40 } : Body).md.extractLsb' 5 3 ≠ 0 ∧ reg.isHw = false ∧ (reg.core (reg.coreNo 1)).queue = [] ∧
    goes (busy reg) (.fence { len := .w2, md := 0xA0 }) = true ∧ ((busy reg).core ((busy reg).coreNo 1)).queue ≠ [] := by decide +kernel

theorem test_fence : runs (.fence { len := .w2, md := 0x40 }) (busy reg) (fun t => decide ((t.me.lane 0).pc = 0x10000)) = true ∧
    runs (.fence { len := .w2, md := 0x40 }) reg (fun t => decide ((t.me.lane 0).pc = 0x10008)) = true := by decide +kernel

/-! ## Witnesses: memory -/

/-- The conditions of `Reaches`, and the negation of `isEntry`, as they are computed. -/
def reachesB (s : State) (n : Need) (x : Acc) : Bool :=
  decide (x.va.toNat % x.n = 0) && canonical x.va && decide (windowAt s s.myCtxNo x.va = none)
    && match translate s s.myCtxNo n x.va with | .ok t => decide (s.raceOn s.myCtxNo t.rc = false) | _ => false

theorem reaches_of {s : State} {n : Need} {x : Acc} (h : reachesB s n x = true) : Reaches s n x := by
  simp only [reachesB, Bool.and_eq_true, decide_eq_true_eq] at h
  obtain ⟨⟨⟨h1, h2⟩, hw⟩, h3⟩ := h
  refine ⟨h1, h2, hw, ?_⟩
  split at h3
  · next t ht => exact ⟨t, ht, by simpa using h3⟩
  · cases h3

def freeB (s : State) (n : Need) (xs : List Acc) (b : Nat) : Bool :=
  xs.all (fun x => match translate s s.myCtxNo n x.va with
    | .ok t => !(decide (t.l1.key ≤ b ∧ b < t.l1.key + 8) || decide (t.l2.key ≤ b ∧ b < t.l2.key + 8))
    | _ => true)

theorem free_of {s : State} {n : Need} {xs : List Acc} {b : Nat} (h : freeB s n xs b = true) : ¬ isEntry s n xs b := by
  rintro ⟨x, hx, t, ht, hb⟩
  have := List.all_eq_true.mp h x hx
  simp only [ht] at this
  simp at this
  omega

/-- S4 and S6 hold addresses, V1 and V3 data; the pages are mapped. -/
def addressed (a : Word) : State := withRegs [(1, 5), (3, 7)] [(4, a), (6, 0x48000)] mapped

def ldB : Body := { len := .w2, dst := .v 3, a := .s 4, b := .imm 0 }
def atB : Body := { len := .w2, dst := .v 3, a := .s 4, b := .v 1, c := .ctl 0 }
def redB : Body := { len := .w2, a := .s 4, b := .v 1, c := .ctl 0 }

/-- PlainStores, PlainLoads: every access reaches its address, at the first and the last word of the mapped GiB. -/
theorem witness_plain (a : Word) (ha : a = 0 ∨ a = 0x40000 ∨ a = 0x3FFFFFFC) :
    goes (addressed a) (.st ldB) = true ∧ goes (addressed a) (.ld ldB) = true ∧ goes (addressed a) (.atom atB) = true ∧
    goes (addressed a) (.cas atB) = true ∧ goes (addressed a) (.red redB) = true ∧ (addressed a).isHw = false ∧
    (addressed a).me.region = none ∧ orderSel ldB = 0 ∧ orderSel atB = 0 ∧ isPriv ldB = false ∧
    (laneAccs ldB (addressed a) true).all (reachesB (addressed a) { w := true }) = true ∧
    (laneAccs ldB (addressed a) false).all (reachesB (addressed a) { r := true }) = true ∧ laneAccs ldB (addressed a) false ≠ [] ∧
    (rmwList atB (addressed a) true).all (reachesB (addressed a) { r := true, w := true }) = true ∧
    (rmwList redB (addressed a) false).all (reachesB (addressed a) { r := true, w := true }) = true ∧
    fillsInFlight (addressed a) 0 + (laneAccs ldB (addressed a) false).length ≤ Config.missEntries ∧
    (∀ x ∈ laneAccs ldB (addressed a) false, inL1 (addressed a) 0 (lineOf (placed (addressed a) { r := true } x).pa) = false) ∧
    (∀ x ∈ rmwList redB (addressed a) false, (placed (addressed a) { r := true, w := true } x).rc = false ∧
      isFrame (placed (addressed a) { r := true, w := true } x).pa = true ∧
      wayOfRed redB (addressed a) { r := true, w := true } (rmwList redB (addressed a) false) x = .join) ∧
    partialLines ((addressed a).core 0) + (rmwList redB (addressed a) false).length ≤ Config.partialLines := by
  rcases ha with rfl | rfl | rfl <;> decide +kernel

/-- Core 0 with a partial of the line at 0x40000, and a store of group 1 to its first word queued or not. -/
def gathering (op : Nat) (store : Bool) : State := (addressed 0x40000).modCore 0 (fun c =>
  { c with partials := [{ line := lineOf (hbmKey 0 0x40000), op := op, ty := 0, words := [] }],
           queue := if store then [{ req1 with accs := [{ lane := 0, va := 0x40000, pa := hbmKey 0 0x40000 }] }] else [] })

/-- PlainStores: a RED of another operation than the partial's goes to the slice, and one behind a store to its bytes holds. -/
theorem witness_red_ways :
    (∀ x ∈ rmwList redB (gathering 1 false) false,
      wayOfRed redB (gathering 1 false) { r := true, w := true } (rmwList redB (gathering 1 false) false) x = .send) ∧
    (∀ x ∈ rmwList redB (gathering 0 true) false,
      wayOfRed redB (gathering 0 true) { r := true, w := true } (rmwList redB (gathering 0 true) false) x = .hold) ∧
    goes (gathering 1 false) (.red redB) = true ∧ goes (gathering 0 true) (.red redB) = true ∧
    partialLines ((gathering 1 false).core 0) ≤ Config.partialLines := by decide +kernel

/-- The private forms: the last private word of each lane. -/
theorem witness_private :
    let o : Body := { len := .w2, dst := .v 3, b := .imm 15, md := 6 }
    goes mapped (.st o) = true ∧ goes mapped (.ld o) = true ∧ mapped.myGrid.priv ≠ 0 ∧ canonical mapped.me.privBase = true ∧
    (∀ l ∈ accLanes true o (mapped.actMask o), 0 ≤ privWord mapped.me o l ∧ privWord mapped.me o l < mapped.myGrid.pwords) ∧
    (laneAccs o mapped true).all (reachesB mapped { w := true }) = true := by decide +kernel

/-- Core 0's L1 holds the line at 0x40000. -/
def cached : State := (addressed 0x40000).modCore 0 (fun c =>
  { c with l1 := c.l1.put (lineOf (hbmKey 0 0x40000)) { data := List.replicate 128 9 } })

theorem witness_cached : ∀ x ∈ laneAccs ldB cached false, (placed cached { r := true } x).cp = 0 ∧
    inL1 cached 0 (lineOf (placed cached { r := true } x).pa) = true := by decide +kernel

theorem test_plain :
    runs (.ld ldB) cached (fun t => decide (t.me.vreg 3 0 = 0x09090909 ∧ t.me.vreg 3 1 = 0x09090909)) = true ∧
    runs (.ld { ldB with md := 2 }) cached (fun t => decide (t.me.vreg 3 0 = 9)) = true ∧
    runs (.st { ldB with fset := 2 }) (addressed 0x40000) (fun t => decide ((t.core 0).queue.length = 1 ∧ t.me.flags = 4 ∧
      (t.me.lane 0).pc = 0x10008 ∧ t.rdN (hbmKey 0 0x40000) 4 = [0, 0, 0, 0])) = true ∧
    runs (.st { ldB with fset := 2 }) (addressed 0x40000) (fun t => runs (.homeSliceArrival 0 0) t (fun u =>
      decide (u.rdN (hbmKey 0 0x40000) 4 = [7, 0, 0, 0] ∧ u.me.flags = 0 ∧ (u.core 0).queue = []))) = true := by decide +kernel

/-- HeadwaterAccess, HeadwaterAtomics: the last word of Headwater memory. -/
theorem witness_headwater :
    let s := withRegs [] [(4, 0xFFFFFFFC), (6, 7)] hw
    let ld : Body := { len := .w2, dst := .s 8, a := .s 4, b := .imm 0 }
    let at_ : Body := { len := .w2, dst := .s 8, a := .s 4, b := .s 6, c := .ctl 0 }
    let red : Body := { at_ with dst := .none }
    goes s (.ld ld) = true ∧ goes s (.st ld) = true ∧ goes s (.atom at_) = true ∧ goes s (.cas at_) = true ∧ goes s (.red red) = true ∧
    s.isHw = true ∧ s.me.region = none ∧ isPriv ld = false ∧ acts ld s ≠ [] ∧
    (∀ l ∈ acts ld s, (ea s.me ld l).toNat + 4 ≤ Config.hwBytes ∧ (ea s.me ld l).toNat % 4 = 0) ∧
    (∀ l ∈ accLanes true ld (s.actMask ld), (ea s.me ld l).toNat + 4 ≤ Config.hwBytes ∧ (ea s.me ld l).toNat % 4 = 0) ∧
    (∀ l ∈ acts at_ s, (s.me.opv true at_.a l).toNat + 4 ≤ Config.hwBytes ∧ (s.me.opv true at_.a l).toNat % 4 = 0) := by
  decide +kernel

theorem test_headwater :
    let s := withRegs [] [(4, 0x20000), (6, 7)] hw
    let s := s.wrN (hwKey 0x20000) [5, 0, 0, 0]
    runs (.atom { len := .w2, dst := .s 8, a := .s 4, b := .s 6, c := .ctl 0 }) s
      (fun t => decide (t.me.sreg 8 = 5 ∧ t.rdN (hwKey 0x20000) 4 = [12, 0, 0, 0])) = true ∧
    runs (.cas { len := .w2, dst := .s 8, a := .s 4, b := .s 6, c := .ctl 0 }) s
      (fun t => decide (t.me.sreg 8 = 5 ∧ t.rdN (hwKey 0x20000) 4 = [5, 0, 0, 0])) = true ∧
    runs (.ld { len := .w2, dst := .s 8, a := .s 4, b := .imm 0, md := 3 }) (s.wrN (hwKey 0x20000) [0x80]) (fun t => t.me.sreg 8 = 0xFFFFFF80) = true ∧
    runs (.red { len := .w2, a := .s 4, b := .s 6, c := .ctl 0, md := 4 }) s (fun t => t.rdN (hwKey 0x20000) 4 = [7, 0, 0, 0]) = true := by
  decide +kernel

/-- The condition `onLine`, as it is computed. -/
def onLineB (s : State) (line : Nat) (x : Acc) : Bool :=
  decide (lineOf x.pa = line ∧ x.pa % 128 + x.n ≤ 128 ∧ x.n ≤ 8 ∧ isFrame x.pa = true ∧ quiet s x.conf line = true)

/-- SliceArrival: a request of each kind at the head of core 0's queue, and a load that waits for a fill. -/
def k0 : Nat := hbmKey 0 0x40000
def queued (k : ReqKind) (x : Acc) (s : State) : State :=
  s.modCore 0 (fun c => { c with queue := [{ id := 3, kind := k, agent := 1, line := lineOf k0, dst := .v 3, accs := [x] }] })
def acc1 : Acc := { lane := 1, va := 0x40000, pa := k0, data := 7, cmp := 5 }

theorem witness_arrival :
    takeReq reg 0 0 = none ∧ onLineB reg (lineOf k0) acc1 = true ∧ onLineB reg (lineOf (k0 + 124)) { acc1 with pa := k0 + 124 } = true ∧
    ([.store, .load, .atom, .cas, .red] : List ReqKind).all (fun k =>
      decide ((takeReq (queued k acc1 reg) 0 0).map (fun q => (q.kind, q.accs, q.wide)) = some (k, [acc1], false))) = true ∧
    acc1.n = tySize 0 ∧ roomFor reg 1 false (lineOf k0) = true ∧ roomFor reg 1 false (lineOf (k0 + 124)) = true ∧ (reg.me.lane acc1.lane).st ≠ .gone ∧
    (let s := (queued .fill acc1 reg).modCore 0 (fun c =>
      { c with waiters := [{ fill := 3, req := { kind := .load, agent := 1, dst := .v 3, accs := [acc1] } }] })
     (s.core 0).queue.findIdx? (fun q => q.kind = .fill && decide (q.line = lineOf k0)) = some 0 ∧ (takeReq s 0 0).isSome = true ∧
       ((s.core 0).waiters.filter (fun w => w.fill = 3)).length = 1 ∧ (∀ r ∈ (s.core 0).queue, r.kind = .store → r.line ≠ lineOf k0) ∧
       roomFor s 1 false (lineOf k0) = true) := by
  decide +kernel

theorem test_arrival :
    let s := reg.wrN k0 [5, 0, 0, 0]
    runs (.homeSliceArrival 0 0) (queued .atom acc1 s) (fun t => decide (t.rdN k0 4 = [12, 0, 0, 0] ∧ (t.grp 1).vreg 3 1 = 5)) = true ∧
    runs (.homeSliceArrival 0 0) (queued .cas acc1 s) (fun t => decide (t.rdN k0 4 = [7, 0, 0, 0] ∧ (t.grp 1).vreg 3 1 = 5)) = true ∧
    runs (.homeSliceArrival 0 0) (queued .load acc1 s) (fun t => decide (t.rdN k0 4 = [5, 0, 0, 0] ∧ (t.grp 1).vreg 3 1 = 5)) = true := by
  decide +kernel

/-- OrderedAccesses: ST.REL, LD.ACQ and ATOM at SYSTEM and GROUP scope, of lane 0 alone. -/
def single (s : State) : State := { s with cur := { s.cur with act := 1 }, ctxs := s.ctxs.map (fun p => (p.1, { p.2 with scopectl := 0 })) }

theorem witness_ordered :
    let s := single (addressed 0x40000)
    goes s (.st { ldB with md := 0xB0 }) = true ∧ goes s (.ld { ldB with md := 0x08 }) = true ∧ goes s (.atom { atB with md := 0xB8 }) = true ∧
    s.isHw = false ∧ s.me.region = none ∧ orderSel { ldB with md := 0xB0 } ≠ 0 ∧ (s.core (s.coreNo 1)).queue = [] ∧
    s.myCtx.scopectl.getLsbD 0 = false ∧ releaseReady s 1 5 = true ∧ releaseReady s 1 0 = true ∧
    (laneAccs ldB s true ++ laneAccs ldB s false ++ rmwList atB s false).all (fun x =>
      let y := placed s { r := true } x
      roomFor s 1 y.rc (lineOf y.pa)) = true ∧
    (laneAccs ldB s true).all (fun x => reachesB s { w := true } x && freeB s { w := true } (laneAccs ldB s true) k0
      && freeB s { w := true } (laneAccs ldB s true) (k0 + 3)
      && onLineB s (lineOf (placed s { w := true } x).pa) (placed s { w := true } x)) = true ∧
    (laneAccs ldB s false).all (fun x => reachesB s { r := true } x
      && onLineB s (lineOf (placed s { r := true } x).pa) (placed s { r := true } x)) = true ∧
    (rmwList atB s false).length = 1 ∧
    (rmwList atB s false).all (fun x => reachesB s { r := true, w := true } x && freeB s { r := true, w := true } [x] k0
      && onLineB s (lineOf (placed s { r := true, w := true } x).pa) (placed s { r := true, w := true } x)) = true := by
  decide +kernel

theorem test_ordered :
    runs (.st { ldB with md := 0xB0 }) (single (addressed 0x40000)) (fun t => decide (t.rdN k0 4 = [7, 0, 0, 0] ∧ t.me.race.clk = 1)) = true ∧
    runs (.atom { atB with md := 0xB8 }) (single ((addressed 0x40000).wrN k0 [3])) (fun t => decide (t.rdN k0 4 = [8, 0, 0, 0] ∧
      t.me.vreg 3 0 = 3)) = true := by decide +kernel

/-- AccessFaults: a misaligned address, an unmapped one, and a .PRIV word beyond PWORDS. -/
theorem witness_access_faults :
    canTrap (addressed 0x40002) = true ∧ (∃ x ∈ laneAccs ldB (addressed 0x40002) false, x.va.toNat % x.n ≠ 0) ∧
    (∃ x ∈ rmwList atB (addressed 0x40002) false, x.va.toNat % x.n ≠ 0) ∧ goes (addressed 0x40002) (.cas atB) = true ∧
    (let s := addressed 0x40000000
     canTrap s = true ∧ goes s (.ld ldB) = true ∧ goes s (.st ldB) = true ∧ goes s (.atom atB) = true ∧ laneAccs ldB s false ≠ [] ∧
     (∀ x ∈ laneAccs ldB s false, x.va.toNat % x.n = 0 ∧ canonical x.va = true ∧ windowAt s s.myCtxNo x.va = none ∧
       translate s s.myCtxNo { r := true } x.va = .own cPAGE) ∧
     (∀ x ∈ rmwList atB s false, translate s s.myCtxNo { r := true, w := true } x.va = .own cPAGE) ∧ (s.core 0).queue = []) ∧
    (let o : Body := { len := .w2, dst := .v 3, b := .imm 16, md := 6 }
     goes mapped (.ld o) = true ∧ sizeSel o = 6 ∧ laneAccs o mapped false ≠ [] ∧
     (∀ l ∈ accLanes false o (mapped.actMask o), privWord mapped.me o l ≥ mapped.myGrid.pwords)) := by decide +kernel

theorem test_access_faults :
    runs (.ld ldB) (addressed 0x40002) (fun t => t.me.trap.code = cALIGN) = true ∧
    runs (.st ldB) (addressed 0x40000000) (fun t => decide (t.me.trap.code = cPAGE ∧ t.me.trap.pc = 0x10000 ∧ (t.core 0).queue = [])) = true ∧
    runs (.ld { len := .w2, dst := .v 3, b := .imm 16, md := 6 }) mapped (fun t => t.me.trap.code = cACCESS) = true := by decide +kernel

/-- Scratchpad: the last word and the last quad of the share, a misaligned offset, and one past the end. -/
theorem witness_scratchpad :
    let s := fun (x : Word) => withRegs [(1, x), (3, 7)] [] mapped
    let w : Body := { len := .w2, dst := .v 3, a := .v 1, b := .imm 0 }
    let q : Body := { w with dst := .v 4, md := 6 }
    let ok := fun (o : Body) (x : Word) => ∀ l ∈ scrLanes o (s x) true, scrOffset (s x).me o l % (scrBytes o : Int) = 0 ∧
      0 ≤ scrOffset (s x).me o l ∧ scrOffset (s x).me o l + scrBytes o ≤ (s x).myTeam.scratchSize
    goes (s 4092) (.sts w) = true ∧ goes (s 4092) (.lds w) = true ∧ ok w 4092 ∧ ok w 0 ∧ goes (s 4080) (.lds q) = true ∧ ok q 4080 ∧
    canTrap (s 2) = true ∧ (∃ l ∈ scrLanes w (s 2) true, scrOffset (s 2).me w l % (scrBytes w : Int) ≠ 0) ∧
    (∀ l ∈ scrLanes w (s 4096) false, scrOffset (s 4096).me w l % (scrBytes w : Int) = 0) ∧
    (∃ l ∈ scrLanes w (s 4096) false, scrOffset (s 4096).me w l + scrBytes w > (s 4096).myTeam.scratchSize) := by decide +kernel

theorem test_scratchpad :
    let s := fun (x : Word) => withRegs [(1, x), (3, 7)] [] mapped
    runs (.sts { len := .w2, dst := .v 3, a := .v 1, b := .imm 0 }) (s 4092) (fun t => decide (t.myTeam.scratch.at 4092 = 7)) = true ∧
    runs (.lds { len := .w2, dst := .v 4, a := .v 1, b := .imm 0 }) ((s 8).modTeam 1 (fun t => { t with scratch := [(8, 3)] }))
      (fun t => decide (t.me.vreg 4 0 = 3)) = true ∧
    runs (.lds { len := .w2, dst := .v 4, a := .v 1, b := .imm 0 }) (s 4096) (fun t => decide (t.me.trap.code = cACCESS)) = true := by
  decide +kernel

/-- PrefetchAndFlush: an address of each kind. -/
theorem witness_flush :
    let o : Body := { len := .w2, a := .s 4, b := .imm 0 }
    let s := addressed 0x40000
    let h := withRegs [] [(4, 0xFFFFFFFF)] hw
    goes s (.pref o) = true ∧ goes s (.cflush o) = true ∧ s.isHw = false ∧ s.actMask o ≠ 0 ∧
    (∀ l ∈ accLanes true o (s.actMask o), canonical (ea s.me o l) = true ∧
      (match translate s s.myCtxNo { r := true } (ea s.me o l) with | .ok t => isFrame t.key | _ => false) = true) ∧
    goes h (.cflush o) = true ∧ (∀ l ∈ accLanes true o (h.actMask o), (ea h.me o l).toNat + 1 ≤ Config.hwBytes) := by decide +kernel

theorem test_flush : runs (.cflush { len := .w2, a := .s 4, b := .imm 0, fset := 3 }) cached (fun t =>
    decide (inL1 t 0 (lineOf k0) = false ∧ t.me.flags = 8)) = true ∧
    runs (.pref { len := .w2, a := .s 4, b := .imm 0 }) (addressed 0x40000) (fun t => decide ((t.me.lane 0).pc = 0x10008)) = true := by
  decide +kernel

/-! ## Witnesses: atomic regions -/

def inRegion (r : Region) (s : State) : State := s.modGrp s.cur.agent (fun g => { g with region := some r, xstat := 0x8000 })
def region1 : Region := { parts := 3, target := 0x10080, writes := [lineOf k0], held := [(k0, 9, 0)] }

/-- RegionControl: outside and in a region; a participant still to come; the last with the region alone. -/
theorem witness_regions :
    goes reg (.xenter { len := .w3, a := .lit 0x20 }) = true ∧ reg.me.region = none ∧
    (let s := inRegion region1 reg
     goes s (.xenter { len := .w3, a := .lit 0x20 }) = true ∧ goes s (.xcommit {}) = true ∧ goes s (.xquit { a := .imm 7 }) = true ∧
       goes s (.xprobe { dst := .p 2 }) = true ∧ allReady s = true ∧ s.cur.act &&& 3 ≠ 0 ∧ s.actMask {} &&& 3 ≠ 0 ∧
       region1.parts &&& s.me.live &&& ~~~ ((s.cur.act &&& 3) ||| s.me.lanesWith (fun x => x = .xcommit)) = 0 ∧
       (s.core (s.coreNo 1)).queue = [] ∧ s.openRegions = [(1, region1)] ∧
       (∀ h ∈ region1.held, quiet { s with groups := [] } h.2.2 (lineOf h.1) = true)) ∧
    (let s := { inRegion region1 reg with cur := { reg.cur with act := 1 } }
     goes s (.xcommit {}) = true ∧ allReady s = true ∧
       region1.parts &&& s.me.live &&& ~~~ ((s.cur.act &&& 3) ||| s.me.lanesWith (fun x => x = .xcommit)) ≠ 0) ∧
    goes mapped (.xcommit {}) = true ∧ goes mapped (.xquit { a := .imm 7 }) = true ∧ mapped.actMask {} ≠ 0 ∧ canTrap mapped = true ∧
    mapped.me.region = none := by decide +kernel

theorem test_regions :
    runs (.xcommit {}) (inRegion region1 reg) (fun t => decide (t.rd k0 = 9 ∧ t.me.region = none ∧ (t.me.lane 0).pc = 0x10004)) = true ∧
    runs (.xquit { a := .imm 7 }) (inRegion region1 reg) (fun t => decide (t.rd k0 = 0 ∧ t.me.region = none ∧ (t.me.lane 0).pc = 0x10080)) = true ∧
    runs (.xenter { len := .w3, a := .lit 0x20 }) reg (fun t => decide (t.me.region = some { parts := 3, target := 0x10020 } ∧ t.me.xstat = 0x8000)) = true ∧
    runs (.xprobe { dst := .p 2 }) (inRegion region1 reg) (fun t => t.me.preg 2 0) = true ∧
    runs (.xcommit {}) mapped (fun t => decide (t.me.trap.code = cNOREGION)) = true ∧
    runs (.transientAbort 1) (inRegion region1 reg) (fun t => decide (t.me.region = none ∧ (t.me.lane 1).pc = 0x10080)) = true := by
  decide +kernel

/-- RegionAccesses: a store and a load of participants, the footprint within its 8 lines. -/
theorem witness_region_accesses :
    let s := inRegion { region1 with writes := [1, 2, 3, 4, 5, 6] } (addressed 0x40000)
    let r : Region := { region1 with writes := [1, 2, 3, 4, 5, 6] }
    goes s (.st ldB) = true ∧ goes s (.ld ldB) = true ∧ s.isHw = false ∧ isPriv ldB = false ∧ laneAccs ldB s true ≠ [] ∧
    s.openRegions = [(1, r)] ∧ r.lines + (laneAccs ldB s true).length ≤ 8 ∧ (s.core (s.coreNo 1)).queue = [] ∧
    (laneAccs ldB s true).all (fun x => r.parts.getLsbD x.lane && reachesB s { w := true } x
      && onLineB { s with groups := [] } (lineOf (placed s { w := true } x).pa) (placed s { w := true } x)
      && roomFor s (laneAccs ldB s true).length false (lineOf (placed s { w := true } x).pa)
      && freeB s { w := true } (laneAccs ldB s true) k0 && freeB s { w := true } (laneAccs ldB s true) (k0 + 3)) = true ∧
    (laneAccs ldB s false).all (fun x => r.parts.getLsbD x.lane && reachesB s { r := true } x
      && decide ((placed s { r := true } x).rc = false)) = true := by decide +kernel

/-- RegionEvents: no region; a region with a capture-mode stop before and at its limit. -/
theorem witness_region_events :
    (reg.grp 1).region = none ∧ ((inRegion region1 reg).grp 1).region = some region1 ∧
    (let s := (inRegion region1 reg).modCtx 1 (fun x => { x with stop := .capture 0 false })
     let due := (s.ctx (s.ctxNo 1)).stopClks.at (s.clusterNo 1 / 20) + 4096
     (s.ctx (s.ctxNo 1)).stop = .capture 0 false ∧ s.clkOf (s.clusterNo 1 / 20) < due ∧
       due ≤ ({ s with clks := [(0, 4096000)] }).clkOf (s.clusterNo 1 / 20)) := by decide +kernel

/-! ## Witnesses: summaries -/

/-- An empty summary in the team's share at byte 128. -/
def summScr (kind : Nat) (s : State) : State :=
  s.modTeam 1 (fun t => { t with
    scratchSize := 8192
    scratch := ((summInit kind 0).bytes.zipIdx.filter (fun p => p.1 ≠ 0)).map (fun p => (128 + p.2, p.1)) })
/-- And at two places of memory. -/
def summMem (kind : Nat) (s : State) : State := (s.wrN k0 (summInit kind 0).bytes).wrN (hbmKey 0 0x48000) (summInit kind 0).bytes

def scrB : Body := { len := .w2, a := .s 4, b := .v 1, md := 0x80 }
def memB : Body := { len := .w2, a := .s 4, b := .v 1 }

/-- SummaryUpdates, SummaryQueries: in the share, at the last place where it fits. -/
theorem witness_summaries_in_share : [1, 2, 3].all (fun kind =>
    let s := summScr kind (withRegs [] [(4, 128)] mapped)
    decide ((sAddr s scrB scrB.a).toNat % 128 = 0 ∧ (sAddr s scrB scrB.a).toNat + summSize kind ≤ s.myTeam.scratchSize ∧ isScr scrB = true)
      && headerOk kind (summAt s scrB scrB.a needRw (summSize kind) s)) = true ∧
    (let s := withRegs [] [(4, 128)] (summScr 1 mapped)
     goes s (.sqadd scrB) = true ∧ goes s (.shadd scrB) = true ∧ goes s (.sdadd scrB) = true ∧ s.actMask scrB ≠ 0 ∧
       goes s (.sinit { len := .w2, a := .s 4, b := .imm 0, md := 0x82 }) = true ∧ goes s (.sqry { scrB with dst := .v 3 }) = true ∧
       goes s (.shtop { len := .w2, dst := .s 10, a := .s 4, b := .imm 0, md := 0x80 }) = true ∧
       goes s (.sdest { len := .w2, dst := .s 10, a := .s 4, md := 0x80 }) = true ∧
       goes s (.qclamp { len := .w2, dst := .v 3, a := .v 1, b := .s 4, c := .s 6, md := 0x80 }) = true ∧
       goes s (.smerge { len := .w2, a := .s 4, b := .s 6, md := 0x80 }) = true) := by decide +kernel

/-- SummaryMerge, and the global forms: both summaries' half-lines are reached, apart, and on quiet lines. -/
theorem witness_summaries_in_memory :
    let s := summMem 2 (addressed 0x40000)
    let o : Body := { len := .w2, a := .s 4, b := .s 6, md := 1 }
    let da := halves s o o.a needRw 320
    let sb := halves s o o.b { r := true } 320
    goes s (.smerge o) = true ∧ goes s (.smerge { o with md := 0 }) = true ∧ s.actMask o ≠ 0 ∧ isScr o = false ∧ s.isHw = false ∧
    (s.core 0).queue = [] ∧ (sAddr s o o.a).toNat % 128 = 0 ∧ (sAddr s o o.b).toNat % 128 = 0 ∧
    da.Pairwise (fun y z => y.pa + 64 ≤ z.pa ∨ z.pa + 64 ≤ y.pa) ∧
    headerOk 2 (summAt s o o.a needRw 320 s) = true ∧ headerOk 2 (summAt s o o.b { r := true } 320 s) = true ∧
    (da ++ sb).all (fun y => reachesB s needRw y && isFrame y.pa && quiet s y.conf (lineOf y.pa)
      && roomFor s (da ++ sb).length y.rc (lineOf y.pa)) = true ∧
    [0x40000, 0x4013F, 0x48000, 0x4813F].all (fun a => freeB s needRw (da ++ sb) (hbmKey 0 a)
      && freeB s { r := true } (da ++ sb) (hbmKey 0 a)) = true := by decide +kernel

/-- The checks: an address that is no multiple of 128, a header that fails, and no active lane. -/
theorem witness_summary_checks :
    let s := summScr 1 (withRegs [] [(4, 64)] mapped)
    let u := summScr 1 (withRegs [] [(4, 4096)] mapped)
    canTrap s = true ∧ s.actMask scrB ≠ 0 ∧ (sAddr s scrB scrB.a).toNat % 128 ≠ 0 ∧ goes s (.sqadd scrB) = true ∧
    (sAddr u scrB scrB.a).toNat % 128 = 0 ∧ (sAddr u scrB scrB.a).toNat + summSize 2 ≤ u.myTeam.scratchSize ∧
    headerOk 2 (u.myTeam.scratchBytes (sAddr u scrB scrB.a).toNat (summSize 2)) = false ∧ isScr scrB = true ∧
    s.actMask { scrB with pneg := true } = 0 ∧ goes s (.sqadd { scrB with pneg := true }) = true := by decide +kernel

theorem test_summaries :
    runs (.sdest { len := .w2, dst := .s 10, a := .s 4, md := 0x80 }) (summScr 3 (withRegs [] [(4, 128)] mapped))
      (fun t => decide (t.me.sreg 10 = 0 ∧ t.me.sreg 11 = 0)) = true ∧
    runs (.shadd memB) (summMem 2 (withRegs [(1, 9)] [(4, 0x40000)] mapped))
      (fun t => decide (shTop (summOf (t.rdN k0 320)) 0 = (9, 2))) = true := by decide +kernel

theorem test_summary_align :
    runs (.shadd scrB) (withRegs [] [(4, 64)] mapped) (fun t => decide (t.me.trap.code = cALIGN)) = true := by decide +kernel

/-- The FP32 encoding of a whole number. -/
def whole (n : Nat) : Nat := (roundV fp32 0 false (.fin false n 0)).1

/-- The worked case after R225: 60 values and 8 more, seed 1. -/
theorem test_sketch :
    let x := sqAdd (sqAdd (summInit 1 1) ((List.range 60).map whole)) ((List.range 8).map (fun i => whole (60 + i)))
    decide (x.count = 68 ∧ x.seed = 0x00042021 ∧ x.levels.map List.length = [0, 34, 0, 0, 0, 0, 0, 0, 0, 0, 0, 0, 0, 0, 0, 0] ∧
      sketchWeight x = 68 ∧ sqQuery x 0x3F000000 = whole 33) = true := by decide +kernel

/-- The worked cases of R229. -/
theorem test_distinct_count : sdEst (summInit 3 0) = 0 ∧ sdEst (sdAdd (summInit 3 0) [0]) = 1 := by decide +kernel

/-- SummaryLaws: an empty sketch, whose weight is its count; a table with two entries of one count, and one alone. -/
theorem witness_summary_laws :
    let x := summInit 1 0
    x.levels.length = 16 ∧ x.sat = false ∧ x.kind = 1 ∧ sketchWeight x = x.count ∧ x.count + 1 < 2 ^ 64 ∧ (smerge x x).sat = false ∧
    (let y : Summ := { summInit 2 0 with hh := [(5, 3), (4, 3), (0, 0)] }
     (y.hh.filter (fun p => p.2 ≠ 0)).Nodup ∧ 1 < (y.hh.filter (fun p => p.2 ≠ 0)).length ∧ shTop y 0 = (4, 3) ∧ shTop y 1 = (5, 3)) := by
  decide +kernel

/-! ## Witnesses: engines -/

/-- A local copy's shape record in S16 to S23: a 4-byte element from 0x40000 to 0x48000. -/
def shaped (s : State) : State := withRegs [] ((shapeOf).zipIdx.map (fun p => (16 + p.2, p.1))) s
where shapeOf : List Word := [0x40000, 0x80000000, 0x48000, 0xFE000000, 0, 0, 0, 0]

theorem witness_tcopy :
    let o : Body := { len := .w2, dst := .s 9, a := .s 16, fset := 2 }
    let s := shaped mapped
    goes s (.tcopy o) = true ∧ s.actMask o ≠ 0 ∧ s.isHw = false ∧ (s.core 0).eddy.length < 64 ∧ (s.core 0).queue = [] ∧
    shapeBad (shpOf (shapeWords o s)) ((curInst s s.me.team).map (·.2)) = false ∧
    (let t := s.modCore 0 (fun c => { c with eddy := List.replicate 64 copy1 })
     goes t (.tcopy o) = true ∧ 64 ≤ (t.core 0).eddy.length) ∧
    (let t := withRegs [] [(16, 0x40001)] s
     goes t (.tcopy o) = true ∧ shapeBad (shpOf (shapeWords o t)) ((curInst t t.me.team).map (·.2)) = true ∧ canTrap t = true) ∧
    goes hw (.tcopy o) = true ∧ hw.actMask o ≠ 0 ∧ hw.isHw = true ∧ canTrap hw = true := by
  decide +kernel

theorem test_tcopy : runs (.tcopy { len := .w2, dst := .s 9, a := .s 16, fset := 2 }) (shaped mapped)
    (fun t => decide ((t.core 0).eddy.length = 1 ∧ t.me.flags = 4 ∧ t.me.sreg 9 = 1501 ∧ (t.me.lane 0).pc = 0x10008)) = true := by
  decide +kernel

/-- An instance of kind 0 (EXCHANGE) at the team, with its arrived-tile queue. -/
def exchanging (tiles : List Word) (s : State) : State :=
  { s.modTeam 1 (fun t => { t with inst := 5 }) with insts := [(5, { live := true, ctx := 1, agent := 1, team := 1, tiles := tiles, members := [(0, 1)] })] }

/-- EngineQueues: QFENCE of every queue, the matrix queue's with and without a steer thread, Delta's with and without an instance,
Sluice's on Headwater, and another queue there. -/
theorem witness_qfence :
    let o := fun (n : BitVec 8) => ({ len := .w2, md := n } : Body)
    goes reg (.qfence (o 0x10)) = true ∧ goes reg (.qfence (o 0x71)) = true ∧ reg.myTeam.steer ≠ none ∧ reg.myTeam.mqueue.length < 32 ∧
    goes (exchanging [] reg) (.qfence (o 0x42)) = true ∧ (curInst (exchanging [] reg) 1).isSome = true ∧ (reg.core 0).eddy.length < 64 ∧
    (let s := reg.modCore 0 (fun c => { c with eddy := List.replicate 64 copy1 })
     goes s (.qfence (o 0x10)) = true ∧ 64 ≤ (s.core 0).eddy.length) ∧
    (let s := reg.modTeam 1 (fun t => { t with mqueue := List.replicate 32 {} })
     goes s (.qfence (o 0x71)) = true ∧ s.myTeam.steer ≠ none ∧ 32 ≤ s.myTeam.mqueue.length) ∧
    (curInst mapped 1).isNone = true ∧ canTrap mapped = true ∧ goes mapped (.qfence (o 0x42)) = true ∧
    (let s := mapped.modTeam 1 (fun t => { t with steer := none })
     goes s (.qfence (o 0x41)) = true ∧ s.myTeam.steer = none ∧ canTrap s = true) ∧
    goes hw (.qfence (o 0x83)) = true ∧ (o 0x83).md.extractLsb' 0 2 = 3#2 ∧ goes hw (.qfence (o 0x80)) = true ∧ canTrap hw = true ∧
    hw.actMask (o 0x83) ≠ 0 := by decide +kernel

/-- CollectiveOpen: Headwater; no member; BADARG; a sequence number out of turn; ring and Confluence instances. -/
def grouped (s : State) : State := s.modCtx 1 (fun x => { x with colls := [(2, { members := [(0, 1)] })] })
def collB : Body := { len := .w2, dst := .s 10, a := .s 12, fset := 1 }

theorem witness_collset :
    let s := fun (w0 w1 : Word) => grouped (withRegs [] [(12, w0), (13, w1)] reg)
    goes hw (.collset { collB with fset := 15 }) = true ∧ hw.isHw = true ∧ hw.actMask collB ≠ 0 ∧
    (isMember collB reg = false ∧ goes reg (.collset collB) = true) ∧
    (isMember collB (s 0 0x0102C000) = true ∧ badArg collB (s 0 0x0102C000) = true ∧ goes (s 0 0x0102C000) (.collset collB) = true) ∧
    (badArg collB (s 1 0x00024000) = false ∧ seqFits collB (s 1 0x00024000) = false) ∧
    (isMember collB (s 0 0x00024000) = true ∧ badArg collB (s 0 0x00024000) = false ∧ seqFits collB (s 0 0x00024000) = true ∧
      (coll1 collB (s 0 0x00024000)).extractLsb' 14 2 ≠ 0#2 ∧ (s 0 0x00024000).myTeam.inst ≠ (s 0 0x00024000).fresh) ∧
    (isMember collB (s 0 0x00020000) = true ∧ badArg collB (s 0 0x00020000) = false ∧ seqFits collB (s 0 0x00020000) = true ∧
      (coll1 collB (s 0 0x00020000)).extractLsb' 14 2 = 0#2 ∧ (s 0 0x00020000).early = [] ∧
      (collGroup collB (s 0 0x00020000)).departed = []) := by decide +kernel

theorem test_collset :
    runs (.collset collB) (grouped (withRegs [] [(12, 0), (13, 0x00024000)] reg)) (fun t => decide (t.me.sreg 10 = 0 ∧ t.myTeam.inst = 8)) = true ∧
    runs (.collset collB) (withRegs [] [(12, 0), (13, 0x00024000)] reg) (fun t => decide (t.me.sreg 10 = 2)) = true := by decide +kernel

/-- ArrivedTiles: a tile, an empty queue with and without a time-out, no instance; a push to an empty queue, to a waiting QPOP,
to a full queue, and of 0xFFFFFFFF. -/
theorem witness_qpop :
    let pop : Body := { dst := .s 31, a := .s 32 }
    (let s := exchanging [0x01000007, 3] reg
     goes s (.qpop pop) = true ∧ s.actMask pop ≠ 0 ∧ (exchange s).map (fun p => (p.1, p.2.tiles)) = some (5, [0x01000007, 3])) ∧
    (let s := exchanging [] (withRegs [] [(32, 9)] reg)
     goes s (.qpop pop) = true ∧ (exchange s).map (fun p => (p.1, p.2.tiles)) = some (5, []) ∧ (a32 pop s.me 0).toNat ≠ 0) ∧
    exchange mapped = none ∧ canTrap mapped = true ∧ goes mapped (.qpop pop) = true := by decide +kernel

def waitingPop : State :=
  let s := (exchanging [] (withRegs [] [(7, 4)] twoGroups)).modGrp 3 (fun g => { g with lanes := [(0, { st := .qpop 31 none })] })
  { s with insts := s.insts.map (fun p => (p.1, { p.2 with qwait := [(3, 1, 31, 9)] })) }

theorem witness_qpush :
    let push : Body := { a := .s 7 }
    (let s := exchanging [] (withRegs [] [(7, 4)] reg)
     goes s (.qpush push) = true ∧ a32 push s.me 0 ≠ 0xFFFFFFFF ∧ 0 < Config.tileQueue ∧ (s.core 0).queue = []) ∧
    goes mapped (.qpush push) = true ∧
    (let s := exchanging (List.replicate Config.tileQueue 1) reg
     goes s (.qpush push) = true ∧ (exchange s).map (fun p => decide (Config.tileQueue ≤ p.2.tiles.length)) = some true) ∧
    goes waitingPop (.qpush push) = true ∧ (exchange waitingPop).map (fun p => (p.2.tiles, p.2.qwait)) = some ([], [(3, 1, 31, 9)]) ∧
    lanesOf 1 = [0] ∧ ((waitingPop.grp 3).lane 0).st = .qpop 31 none := by decide +kernel

theorem test_tiles :
    runs (.qpop { dst := .s 31, a := .imm 0 }) (exchanging [7, 3] reg) (fun t => decide (t.me.sreg 31 = 7 ∧ (t.inst 5).tiles = [3])) = true ∧
    runs (.qpop { dst := .s 31, a := .imm 0 }) (exchanging [] reg) (fun t => decide (t.me.sreg 31 = 0xFFFFFFFF)) = true ∧
    runs (.qpush { a := .imm 4 }) (exchanging [7] reg) (fun t => decide ((t.inst 5).tiles = [7, 4])) = true := by decide +kernel

/-- The steer thread with a handler, and registers. -/
def steerT (sr : List (Nat × Word)) : State :=
  withRegs [] sr ({ mapped with cur := { agent := 2, act := 1, pc := 0x10000 } }.modGrp 2 (fun g =>
    { g with trap := { base := 0x18000 }, privBase := 0x20100 }))

/-- MatrixIssue: a shape word TCFG accepts at its bounds and one it refuses; aligned and misaligned records and rows; the last row
and the first beyond. -/
theorem witness_matrix :
    let ok := fun (w : Word) => 1 ≤ (w.extractLsb' 28 4).toNat ∧ (w.extractLsb' 28 4).toNat ≤ 11 ∧ 1 ≤ (w.extractLsb' 20 8).toNat ∧
      (w.extractLsb' 20 8).toNat ≤ 64 ∧ 1 ≤ (w.extractLsb' 8 12).toNat ∧
      (w.extractLsb' 8 12).toNat ≤ rowElems (w.extractLsb' 28 4).toNat ∧ w.extractLsb' 0 8 = 0
    let tcfg : Body := { len := .w2, dst := .t 1, a := .s 5 }
    let mma : Body := { len := .w2, dst := .a 1, a := .s 4, b := .s 6 }
    let tld : Body := { len := .w2, dst := .t 2, a := .s 4, b := .s 6 }
    ok 0x44002000 ∧ ok 0xB0110000 ∧ ¬ ok 0x44002100 ∧ ¬ ok 0x00100100 ∧
    a32 tcfg (steerT [(5, 0x44002000)]).me 0 = 0x44002000 ∧ goes (steerT [(5, 0x44002000)]) (.tcfg tcfg) = true ∧
    goes (steerT [(5, 0)]) (.tcfg tcfg) = true ∧ canTrap (steerT [(5, 0)]) = true ∧
    (let s := steerT [(4, 0x40000), (6, 0x40040)]
     (s.me.opv true mma.a 0).toNat % 64 = 0 ∧ (s.me.opv true mma.b 0).toNat % 64 = 0 ∧ goes s (.mma mma) = true ∧
       goes s (.tzero { dst := .a 2 }) = true ∧ s.myTeam.mqueue.length < Config.matrixEntries ∧ (s.core 0).queue = [] ∧
       s.actMask mma ≠ 0 ∧ (s.me.opv true tld.a 0).toNat % 16 = 0 ∧ (b32 tld s.me 0).toNat % 16 = 0 ∧ goes s (.tld tld) = true ∧
       goes s (.tst tld) = true ∧ goes s (.tdrain { len := .w2, dst := .t 3, a := .a 1, md := 0x40 }) = true ∧
       goes s (.mmas { mma with c := .imm 1 }) = true) ∧
    (let s := steerT [(4, 0x40008), (6, 0x40040)]
     (s.me.opv true mma.a 0).toNat % 64 ≠ 0 ∧ (s.me.opv true tld.a 0).toNat % 16 ≠ 0 ∧ goes s (.mma mma) = true ∧ goes s (.tld tld) = true ∧
       canTrap s = true) ∧
    (let s := (steerT [(4, 0x40000)]).modTeam 1 (fun t => { t with mqueue := List.replicate Config.matrixEntries {} })
     goes s (.tzero { dst := .a 2 }) = true ∧ s.myTeam.mqueue.length ≥ Config.matrixEntries) ∧
    (let s := fun (r : Word) => withRegs [] [(5, r)] mapped
     let twr : Body := { len := .w2, a := .s 5, b := .v 2, c := .t 4 }
     goes (s 63) (.twr twr) = true ∧ goes (s 63) (.trd { len := .w2, dst := .v 3, a := .t 4, b := .s 5 }) = true ∧
       (∀ l ∈ lanesOf ((s 63).actMask twr), rowOf 63 l ≤ 63) ∧ (∃ l ∈ lanesOf ((s 64).actMask twr), rowOf 64 l > 63) ∧ canTrap (s 64) = true) := by
  decide +kernel

theorem test_matrix :
    runs (.twr { len := .w2, a := .imm 3, b := .v 2, c := .t 4 }) (withRegs [(2, 0x04030201)] [] reg)
      (fun t => decide ((List.range 9).map (fun i => t.myTeam.tile 4 (384 + i)) = [1, 2, 3, 4, 1, 2, 3, 4, 0])) = true ∧
    runs (.trd { len := .w2, dst := .v 3, a := .t 4, b := .imm 3 }) (reg.modTeam 1 (fun t => { t with tiles := [(8192 * 4 + 385, 9)] }))
      (fun t => decide (t.me.vreg 3 0 = 0x900)) = true ∧
    runs (.tcfg { len := .w2, dst := .t 1, a := .s 5 }) (steerT [(5, 0x44002100)]) (fun t => decide (t.me.trap.code = cACCESS)) = true ∧
    runs (.tzero { dst := .a 2 }) (steerT []) (fun t => decide ((t.myTeam.mqueue.map (fun e => (e.opc, e.d))) = [(0x91, 2)])) = true := by
  decide +kernel

/-! ## Witnesses: time, status and privilege -/

/-- TimeAndEnergy: a deadline to come and one that has passed; an account at its bound, and one short; marks on and off. -/
theorem witness_time :
    let armt : Body := { len := .w2, a := .s 4, md := 1, fset := 2 }
    let s : Word → State := fun d => { withRegs [] [(4, d)] reg with gtime := 100 }
    let due := fun (d : Word) => (decide ((s d).me.opv true armt.a 0 ≤ State.clockOf (s d) 1) && (s d).myCtx.vrun : Bool)
    goes (s 101) (.armt armt) = true ∧ (s 101).actMask armt ≠ 0 ∧ due 101 = false ∧ due 100 = true ∧
    (lanesOf ((s 101).actMask armt)).headD 0 = 0 ∧
    (let t := fun (n : Word) => (withRegs [] [(3, n)] mapped).modPart 0 (fun x => { x with eacct := 50 })
     goes (t 50) (.ebook { a := .s 3 }) = true ∧ ((50 : Nat) : Int) ≤ ((t 50).part ((t 50).partNo 1)).eacct ∧
       ((t 51).part ((t 51).partNo 1)).eacct < ((51 : Nat) : Int) ∧ canTrap (t 51) = true ∧ (a32 { a := .s 3 } (t 51).me 0).toNat = 51) ∧
    goes reg (.tmark { a := .s 3 }) = true ∧ reg.myCtx.trctl.getLsbD 2 = false ∧
    (let t := reg.modCtx 1 (fun x => { x with trctl := 4 })
     goes t (.tmark { a := .s 3 }) = true ∧ t.myCtx.trctl.getLsbD 2 = true ∧ t.me.region = none) ∧
    goes hw (.ebook { a := .s 3 }) = true ∧ goes hw (.tmark { a := .s 3 }) = true ∧ hw.isHw = true := by decide +kernel

theorem test_time :
    runs (.rdvt { dst := .v 4 }) { reg with gtime := 2 ^ 32 + 5 } (fun t => decide (t.me.vreg 4 1 = 5 ∧ t.me.vreg 5 1 = 1)) = true ∧
    runs (.rdcnt { dst := .s 4, a := .imm 2 }) (reg.modCtx 1 (fun x => { x with counters := [(2, 77)] })) (fun t => decide (t.me.sreg 4 = 77)) = true ∧
    runs (.armt { len := .w2, a := .s 4, fset := 2 }) { withRegs [] [(4, 101)] reg with gtime := 100 }
      (fun t => decide (t.me.timer.dl = 101 ∧ t.me.timer.mode = 1 ∧ t.me.flags = 4)) = true ∧
    runs (.ebook { a := .imm 50 }) (reg.modPart 0 (fun x => { x with eacct := 60 }))
      (fun t => decide ((t.part 0).eacct = 10 ∧ t.myGrid.booking = 50)) = true := by decide +kernel

def mfsB (n : Nat) : Body := { len := .w2, dst := .s 3, b := .ctl (BitVec.ofNat 8 (n % 256)), c := .ctl (BitVec.ofNat 8 (n / 256)) }
def mtsB (n : Nat) : Body := { len := .w2, a := .s 3, b := .ctl (BitVec.ofNat 8 (n % 256)), c := .ctl (BitVec.ofNat 8 (n / 256)) }

/-- StatusRegisters: reads of LANEID, of a 32-bit register, of both halves; a tile's shape register held and not held; every
write, the high halves after the low ones. -/
theorem witness_status :
    [0x001, 0x020, 0x010, 0x0CF].all (fun n => goes reg (.mfs { mfsB n with dst := .v 3 }) && decide (noTile reg n = false)) = true ∧
    isHalf 0x020 = false ∧ lowHalf 0x010 = true ∧ reg.actMask (mfsB 0x010) ≠ 0 ∧
    (let s := reg.modGrp 1 (fun g => { g with mfs := some (0x010, 9) })
     s.me.mfs = some (0x010, 9) ∧ goes s (.mfs (mfsB 0x011)) = true ∧ (mfsB 0x011).sysIndex = 0x010 + 1) ∧
    (let s := mapped.modTeam 1 (fun t => { t with tmask := 0x7FFF })
     noTile s 0x0CF = true ∧ goes s (.mfs (mfsB 0x0CF)) = true ∧ canTrap s = true) ∧
    [0x020, 0x021, 0x030, 0x050, 0x051, 0x0A0, 0x0A1, 0x090, 0x097, 0x000, 0x001, 0x002, 0x003, 0x014, 0x032, 0x060].all (fun n =>
      goes reg (.mts (mtsB n)) && decide ((mtsB n).sysIndex = n)) = true ∧ reg.cur.agent ≠ 0 ∧ reg.actMask (mtsB 0x020) ≠ 0 ∧
    [0x030, 0x034].all (fun n => goes (reg.modGrp 1 (fun g => { g with mts := some (n, 4) })) (.mts (mtsB (n + 1)))) = true ∧
    [0x802, 0x806].all (fun n => goes hw (.mts (mtsB n))) = true ∧ (0 : BitVec 7).toNat < 80 := by decide +kernel

theorem test_status :
    runs (.mfs { mfsB 1 with dst := .v 3 }) reg (fun t => decide (t.me.vreg 3 0 = 0 ∧ t.me.vreg 3 1 = 1)) = true ∧
    runs (.mts (mtsB 0x020)) (withRegs [] [(3, 0xFFFFFFFF)] reg) (fun t => decide (t.me.fpmode = 0xFF)) = true ∧
    runs (.mts (mtsB 0x031)) ((withRegs [] [(3, 1)] reg).modGrp 1 (fun g => { g with mts := some (0x030, 0x18000) }))
      (fun t => decide (t.me.trap.base = 0x100018000)) = true ∧
    runs (.mts (mtsB 0x020)) (withRegs [] [(3, 8)] steer) (fun t => decide (t.me.fpmode = 8 ∧ (t.grp 1).fpmode = 0)) = true := by decide +kernel

/-- PrivilegedInstructions: a free key slot, one bound to a running context, one beyond 63; a job at the end of memory, a full queue
and a bad record; a free, an owned and a clearing resource, and a bad argument. -/
theorem witness_privileged :
    let s := fun (x : Word) => withRegs [] [(3, x), (4, x)] hw
    let kz : Body := { a := .s 3 }
    let pa : Body := { dst := .s 5, a := .s 4 }
    goes (s 63) (.kzero kz) = true ∧ (s 63).isHw = true ∧ (s 63).actMask kz ≠ 0 ∧ ((s 63).key 63).bound = none ∧
    64 ≤ (a32 kz (s 64).me 0).toNat ∧ canTrap (s 64) = true ∧
    (let t := { s 0 with keys := [(0, { owner := some 0, bound := some 1 })] }
     goes t (.kzero kz) = true ∧ (t.key 0).bound = some 1 ∧ (t.ctx 1).st = .running) ∧
    (inStage .ready (s 79)).boot.stage = .ready ∧ goes (inStage .ready (s 79)) (.pasgn pa) = true ∧ (s 79).boot.stage ≠ .ready ∧
    resArg (a32 pa (s 79).me 0) = some (0, 0, 79) ∧ goes (s 79) (.pasgn pa) = true ∧ beingCleared (s 79) 0 79 = false ∧
    (ownerOf (s 79) 0 79).isSome = false ∧
    resArg (a32 pa (s 0).me 0) = some (0, 0, 0) ∧ (ownerOf (s 0) 0 0).isSome = true ∧ ownedBy (s 79) 0 79 0 = false ∧
    (let t := (s 7).modPart 0 (fun x => { x with clearing := [(0, 7, true)] })
     beingCleared t 0 7 = true ∧ goes t (.pasgn pa) = true) ∧
    (let t := { s 0x40000005 with keys := [(5, { owner := some 0 })] }.modPart 0 (fun x => { x with st := .ready })
     resArg (a32 pa t.me 0) = some (4, 0, 5) ∧ ownedBy t 4 5 0 = true ∧ (t.part 0).st = .ready ∧ beingCleared t 4 5 = false ∧
       boundBusy t (t.key 5).bound = false ∧ goes t (.pfree pa) = true) ∧
    resArg (a32 pa (s 80).me 0) = none ∧ goes (s 80) (.pfree pa) = true := by decide +kernel

theorem witness_scrub :
    let o : Body := { len := .w2, a := .s 4, fset := 2 }
    let s := withRegs [] [(4, 0), (5, 0), (6, 1), (7, 0x00FF0000)] hw
    let w := fun (i : Nat) => s.me.sreg (4 + i)
    goes s (.scrub o) = true ∧ s.isHw = true ∧ s.actMask o ≠ 0 ∧ (w 0).extractLsb' 0 16 = 0#16 ∧ (w 1).extractLsb' 25 7 = 0#7 ∧
    (w 2).extractLsb' 24 8 = 0#8 ∧ (w 3).extractLsb' 24 8 = 0#8 ∧ (w 3).extractLsb' 9 7 = 0#7 ∧ (w 3).extractLsb' 6 2 = 0#2 ∧
    ((w 3).extractLsb' 16 8).toNat = 255 ∧ 0 + 65536 * 1 ≤ s.hbmSize 0 ∧ (s.part 0).jobs.length < 32 ∧
    (let t := s.modPart 0 (fun x => { x with jobs := List.replicate 32 {} })
     goes t (.scrub o) = true ∧ 32 ≤ (t.part 0).jobs.length) ∧
    (let t := withRegs [] [(6, 0)] s
     goes t (.scrub o) = true ∧ ((t.me.sreg 6).extractLsb' 0 24).toNat = 0 ∧ canTrap t = true) := by decide +kernel

theorem test_privileged :
    runs (.pasgn { dst := .s 5, a := .s 4 }) (inStage .ready (withRegs [] [(4, 79)] hw))
      (fun t => decide (t.me.sreg 5 = 0 ∧ ownedBy t 0 79 0 = true)) = true ∧
    runs (.pasgn { dst := .s 5, a := .s 4 }) (withRegs [] [(4, 0)] hw) (fun t => decide (t.me.sreg 5 = 2)) = true ∧
    runs (.pfree { dst := .s 5, a := .s 4 }) (withRegs [] [(4, 80)] hw) (fun t => decide (t.me.sreg 5 = 4)) = true ∧
    runs (.kzero { a := .imm 5 }) { hw with keys := [(5, { owner := some 0, mem := some 1 })] }
      (fun t => decide ((t.key 5).mem = none ∧ (t.key 5).owner = some 0)) = true ∧
    runs (.pasgn { dst := .s 5, a := .s 4 }) mapped (fun t => decide (t.me.trap.code = cPRIV)) = true := by decide +kernel

/-- IssueChecks: PRIV, REGRANGE at the budget's end, a pending flag and a pending register, an instruction that aborts a region. -/
theorem witness_issue_checks :
    let add : Body := { len := .w2, dst := .v 64, a := .v 1, b := .v 2 }
    let s := mapped.modGrp 1 (fun g => { g with budget := 64 })
    issuerFault mapped 0xC0 { a := .s 3 } = some cPRIV ∧ canTrap mapped = true ∧ mapped.isHw = false ∧ mapped.me.role = .produce ∧
    issuerFault mapped 0x91 { dst := .a 2 } = some cPRIV ∧ (0x800 : Nat) ≤ (mfsB 0x800).sysIndex ∧ (Instr.mfs (mfsB 0x800)).wf = true ∧
    (Instr.add add).wf = true ∧ issuerFault s 0x21 add = none ∧ outOfRange s 0x21 add = true ∧ canTrap s = true ∧
    outOfRange s 0x21 { add with dst := .v 63 } = false ∧
    flagBusy (clausing 0 4 reg) { ldB with fset := 2 } = true ∧ issuerFault (clausing 0 4 reg) 0x70 { ldB with fset := 2 } = none ∧
    outOfRange (clausing 0 4 reg) 0x70 { ldB with fset := 2 } = false ∧
    waitsOperand (reg.modGrp 1 (fun g => { g with board := [{ reg := 1, lanes := 1 }] })) 0x21 add = true ∧
    (let t := inRegion region1 reg
     t.me.region = some region1 ∧ issuerFault t 0x11 {} = none ∧ outOfRange t 0x11 {} = false ∧ flagBusy t {} = false ∧
       waitsOperand t 0x11 {} = false ∧ abortsRegion 0x11 = true ∧ t.actMask {} &&& region1.parts ≠ 0) := by decide +kernel

/-- IndexRegisters: a steer thread that can trap; words of SETX and INCX with the first MOD that is undefined, which do not decode,
and with the last defined one, which do (R414, R448). -/
theorem witness_index_forms :
    let s := { mapped.modGrp 2 (fun g => { g with trap := { base := 0x18000 }, privBase := 0x20200 }) with cur := { agent := 2, act := 1, pc := 0x10000 } }
    s.me.role = .steer ∧ canTrap s = true ∧ (Instr.incx { dst := .x 1, a := .imm 1 }).wf = true ∧
    runs (.incx { dst := .x 1, a := .imm 1 }) s (fun t => decide (t.me.trap.code = cPRIV)) = true ∧
    (0x40404051 : Word).extractLsb' 2 8 = 0x14#8 ∧ (0x4040405D : Word).extractLsb' 2 8 = 0x17#8 ∧
    decodeWords 0x40404051 0x0F030000 0 = none ∧ (decodeWords 0x40404051 0x0F020000 0).isSome = true ∧
    decodeWords 0x4040405D 0x0F020000 0 = none ∧ (decodeWords 0x4040405D 0x0F010000 0).isSome = true := by decide +kernel

theorem test_issue_checks :
    runs (.add { len := .w2, dst := .v 64, a := .v 1, b := .v 2 }) (mapped.modGrp 1 (fun g => { g with budget := 64 }))
      (fun t => decide (t.me.trap.code = cREGRANGE)) = true ∧
    runs (.fence {}) (inRegion region1 reg) (fun t => decide (t.me.region = none ∧ (t.me.lane 0).pc = 0x10080 ∧ t.rd k0 = 0)) = true := by
  decide +kernel

/-- StepRunsDecoded: the next turn is an issue of group 1, of the steer thread and of Headwater, and of a word that does not decode. -/
theorem witness_step :
    let ok := fun (s : State) (a : Nat) => decide ((passTime s).agenda = [.issue a]) && (let q : State := { passTime s with agenda := [] }
      canIssue q a && !outranked q a && !deliversFirst q a && !isDrowsy q a)
    ok (State.reset.withFetchWord 64 (0x00804085 + 0x0F000003 * 2 ^ 32)) 1 = true ∧ ok (State.reset.withFetchWord 32 0x80000244) 2 = true ∧
    ok (State.reset.withFetchWord 32 0x400C0300) 0 = true ∧ ok (State.reset.withFetchWord 32 0) 1 = true ∧
    (let p := prepare 1 { passTime (State.reset.withFetchWord 64 (0x00804085 + 0x0F000003 * 2 ^ 32)) with agenda := [] }
     (match translate p (p.ctxNo 1) { x := true } p.cur.pc with | .ok _ => true | _ => false) = true ∧
     (match fetch 1 p.cur.pc p with | .words w1 w2 _ _ => decide (w1 = 0x00804085 ∧ w2 = 0x0F000003) | _ => false) = true) := by decide +kernel

theorem test_step :
    (match step (State.reset.withFetchWord 96 (0x800280B2 + 0x8F000000 * 2 ^ 32 + 0x100 * 2 ^ 64)) with
      | .next t => decide ((t.grp 1).sreg 10 = 0x100 ∧ ((t.grp 1).lane 0).pc = 0x1000C) | _ => false) = true := by decide +kernel

/-! ## Witnesses: events -/

/-- BootEvents: each stage; an image that fails the check (an empty flash); the bounds of the window, the counter and the
temperature. Whether a signature is good is an opaque value of Config, so no evaluation can give an image that passes. -/
theorem witness_boot :
    State.reset.boot.stage = .rom ∧ checkImage (flashKey 0) (inStage .verify State.reset) = 1 ∧
    ([.verify, .supervisor, .scrub, .fabric, .recovery, .ready] : List Stage).all (fun g => decide ((inStage g reg).boot.stage = g)) = true ∧
    (1 : BitVec 80) ≠ 0 ∧ (1 : Word).getLsbD 0 = true ∧ 0x1FFFFFC + 4 ≤ 0x2000000 ∧ 0x2000000 < 0x1FFFFFD + 4 ∧
    supervising (inStage .ready reg) = true ∧ (inStage .ready reg).boot.fused < 1 ∧ supervising reg = false ∧
    (reg.ctx 1).hasDesc = true ∧ (reg.ctx 1).st ≠ .free := by decide +kernel

theorem test_boot :
    runs .verify (inStage .verify State.reset) (fun t => decide (t.boot.stage = .recovery ∧ t.boot.failcode = 1)) = true ∧
    runs (.supervisor true 5) (inStage .supervisor State.reset) (fun t => decide (t.boot.stage = .scrub ∧ t.boot.usable = 2 ∧
      (t.cluster 1).unusable = true ∧ (t.cluster 2).unusable = false)) = true ∧
    runs .bootScrub (inStage .scrub (State.reset.wrN k0 [9])) (fun t => decide (t.rd k0 = 0 ∧ t.boot.stage = .fabric)) = true ∧
    runs (.fabric 0xFFFF) (inStage .fabric State.reset) (fun t => decide (t.boot.stage = .ready ∧ bootst t = 0x60000000)) = true ∧
    runs (.versionCounterRaise 3 true) (inStage .ready State.reset) (fun t => decide (t.boot.fused = 3)) = true ∧
    runs (.thermalTrip 3 115) reg (fun t => decide (t.boot.stage = .tripped ∧ (t.ctx 1).st = .lost)) = true := by decide +kernel

/-- ClockEvents: a die to be lowered, hot, and in between; the power envelope; a slot, a Weir window and a meter window due. -/
theorem witness_clocks :
    0 < 1000 ∧ 1000 < dieMhz reg 3 ∧ dieMhz reg 3 = 3300 ∧ reg.boot.hot.at 3 ≠ 1 ∧
    (let s := { reg with boot := { hot := [(3, 1)], slower := [(3, 2300)] } }
     s.boot.hot.at 3 = 1 ∧ dieMhz s 3 ≤ 1000 ∧ 999 < dieMhz s 3) ∧
    ¬ (reg.slotNo.at 2 + 1) * 512 ≤ reg.clkOf 2 ∧ (reg.slotNo.at 2 + 1) * 512 ≤ ({ reg with clks := [(2, 512000)] }).clkOf 2 ∧
    reg.gtime < (reg.weirWin + 1) * 10000 ∧ (reg.weirWin + 1) * 10000 ≤ 10000 ∧ reg.hostWrites = [] ∧
    reg.gtime < ((reg.part 0).ewin + 1) * 10000 ∧ counted reg 0 [(1, 7), (2, 9)] = [(1, 7)] := by decide +kernel

theorem test_clocks :
    runs (.thermalThrottle 3 1000 105) reg (fun t => decide (dieMhz t 3 = 1000 ∧ dieMhz t 2 = 3300)) = true ∧
    runs (.frequencyChange 2 2000) reg (fun t => decide (dieMhz t 2 = 2000)) = true ∧
    runs .slotRotation { reg with clks := [(2, 512000)] } (fun t => decide (t.slotNo.at 2 = 1 ∧ t.slotNo.at 0 = 0)) = true ∧
    windowShares [(10, [(1, 3), (2, 1)])] = [(1, 7), (2, 3)] ∧
    runs (.energyMeterWindow 0 [(10, [(1, 3), (2, 1)])]) { reg with gtime := 10000 }
      (fun t => decide ((t.part 0).emeter = 7 ∧ (t.grid 1).measured = 7)) = true ∧
    runs (.gtimeRead 0x10) { reg with gtime := 2 ^ 32 + 5 } (fun t => decide (t.outcome.at 0 = 5)) = true := by decide +kernel

/-- A virtual device bound to context 1 with a queue of 4, one command at the head: op, tag 0x77, the descriptor at 0x50000, one team. -/
def commanded (op : Nat) (d : List Byte) (s : State) : State :=
  let s := { inStage .ready s with vdevs := [(9, { owner := some 0, bound := some 1, queues := [(2, { ring := 0x1000, cring := 0x2000, size := 4, tail := 1, vector := 3 })] })] }
  let s := s.wrN (hostKey 9 0x1000) (leBytes 1 op ++ [3, 0, 0] ++ leBytes 4 0x77 ++ leBytes 8 0x50000 ++ leBytes 8 0x60000
    ++ leBytes 4 1 ++ leBytes 2 1 ++ leBytes 2 1 ++ leBytes 8 0)
  s.wrN (hbmKey 0 0x50000) d
/-- A kernel of one PRODUCE group of 64 registers at 0x10000. -/
def kdesc1 : List Byte := leBytes 8 0x10000 ++ leBytes 20 0 ++ [1, 0, 0, 0] ++ leBytes 2 64

/-- HostCommands: kicks to an unbound, a bound and a stopped context; no command; a bad command; a bad descriptor, one too large, one
that is right; FENCE with and without an open launch; a grid skipped too long; a generation to clear. -/
theorem witness_host :
    ((reg.vdev 9).bound = none) ∧
    (let s := commanded 1 kdesc1 mapped
     (s.vdev 9).bound = some 1 ∧ (s.part (s.ctx 1).part).st ≠ .resetting ∧ (s.ctx 1).st = .running ∧ s.hostWrites = [] ∧
     (∀ k ∈ [0, 1, 255], (s.weir.at k).unbudget = 0) ∧
     s.boot.stage = .ready ∧ reg.boot.stage ≠ .ready ∧
     nextCommand s 9 2 = some (1, s.rdN (hostKey 9 0x1000) 64) ∧ fieldOf (s.rdN (hostKey 9 0x1000) 64) 0 1 = 1 ∧
     commandBad (s.rdN (hostKey 9 0x1000) 64) = false ∧
     (readKdesc 1 0x50000 false s).map Prod.fst = some (some (s.rdN (hbmKey 0 0x50000) 64)) ∧
     descBad (s.rdN (hbmKey 0 0x50000) 64) = false ∧ couldHold s 0 (kernelOf (s.rdN (hbmKey 0 0x50000) 64)) 1 = true) ∧
    descBad (leBytes 64 0) = true ∧ couldHold reg 0 { pcount := 1, pregs := 64, coresident := true } 100000 = false ∧
    (let s := commanded 9 kdesc1 mapped
     (nextCommand s 9 2).isSome = true ∧ fieldOf (s.rdN (hostKey 9 0x1000) 64) 0 1 ≠ 1 ∧ fieldOf (s.rdN (hostKey 9 0x1000) 64) 0 1 ≠ 2) ∧
    (let s := commanded 2 kdesc1 mapped
     (nextCommand s 9 2).isSome = true ∧ fieldOf (s.rdN (hostKey 9 0x1000) 64) 0 1 = 2 ∧ (s.vq 9 2).fences = [] ∧
     (∀ e ∈ s.grids, e.2.vd = 9 → e.2.queue = 2 → gridOpen s e.1 = false)) ∧
    (let s := (commanded 2 kdesc1 mapped).modGrid 1 (fun g => { g with vd := 9, queue := 2 })
     ∃ e ∈ s.grids, e.2.vd = 9 ∧ e.2.queue = 2 ∧ gridOpen s e.1 = true) ∧
    (let s := reg.modGrid 1 (fun g => { g with skippedAt := some 0 })
     (s.grid 1).skippedAt = some 0 ∧ 0 + 1000000 ≤ ({ s with gtime := 1000000 }).gtime ∧ s.gtime < 0 + 1000000) ∧
    (let s := reg.modCtx 1 (fun x => { x with clearing := [3] })
     (s.ctx 1).clearing.contains (BitVec.ofNat 4 3) = true ∧ (s.ctx 1).racectl.getLsbD 2 = false) := by decide +kernel

theorem test_host :
    runs (.launch 9 2) (commanded 1 kdesc1 mapped) (fun t => decide ((t.grid 8).st = .held ∧ (t.grid 8).prio = 3 ∧
      (t.grid 8).kernel.pregs = 64 ∧ (t.vq 9 2).read = 1)) = true ∧
    runs (.launch 9 2) (commanded 9 kdesc1 mapped) (fun t => decide (t.rdN (hostKey 9 0x2010) 5 = [0x77, 0, 0, 0, 2] ∧ t.msix = [(9, 3)])) = true ∧
    runs (.fenceCommand 9 2) (commanded 2 kdesc1 mapped) (fun t => decide (t.rdN (hostKey 9 0x2010) 5 = [0x77, 0, 0, 0, 0])) = true ∧
    runs (.kick 9 2 3) (commanded 1 kdesc1 mapped) (fun t => decide ((t.vq 9 2).tail = 3)) = true := by decide +kernel

/-- A grid that waits for placement. -/
def heldGrid (co : Bool) (s : State) : State :=
  { s with groups := [(0, { role := .headwater, gid := 16, lanes := [(0, lane0)] })], teams := [],
           grids := [(1, { st := .held, ctx := 1, dimX := 1, dimY := 1, dimZ := 1, booked := true, param := 0x100000002,
                           kernel := { pcount := 1, pregs := 64, pEntry := 0x10000, coresident := co } })] }

/-- Placement: a team placed, a co-resident grid that fits, groups and teams that end and that do not, a grid whose teams have ended. -/
theorem witness_placement :
    (let s := heldGrid false mapped
     (s.part 0).st = .active ∧ waitingGrids s 0 = [1] ∧ (s.grid 1).booked = true ∧
     chooseCore s 1 0 (s.grid 1).kernel = some (0, ((chooseCore s 1 0 (s.grid 1).kernel).getD (0, 0)).2)) ∧
    (let s := heldGrid true mapped
     waitingGrids s 0 = [1] ∧ (s.grid 1).kernel.coresident = true ∧ (placeTeams 1 (gridTotal (s.grid 1)) s).isSome = true) ∧
    (let s := { heldGrid true mapped with parts := [(0, { st := .active })] }
     (placeTeams 1 (gridTotal (s.grid 1)) s).isNone = true ∧ waitingGrids s 0 = [1]) ∧
    (let s := reg.modGrp 1 (fun g => { g with ended := true })
     (s.grp 1).role ≠ .absent ∧ (s.grp 1).ended = true ∧ (s.grp 1).flags = 0 ∧ hasRequests s 1 = false ∧ (s.core (s.coreNo 1)).eddy = [] ∧
       (s.team (s.grp 1).team).mqueue = [] ∧ hasRequests (busy s) 1 = true ∧ s.insts = [] ∧
       ({ s with insts := [(5, { waiting := true, agent := 1, team := 1 })] } : State).insts.any (fun p => p.2.waiting && decide (p.2.agent = 1)) = true) ∧
    (reg.grp 1).ended = false ∧ (∃ a ∈ (reg.team 1).agents, (reg.grp a).role ≠ .absent) ∧
    (let s : State := { reg with groups := [(1, { team := 1 }), (2, { team := 1 })] }
     (s.team 1).live = true ∧ (∀ a ∈ (s.team 1).agents, (s.grp a).role = .absent ∧ (s.grp a).team = 1) ∧ (s.team 1).mqueue = [] ∧
       (s.core 0).eddy = [] ∧ s.insts = [] ∧ (s.cluster 0).waits = [] ∧
       ({ s with insts := [(5, { waiting := true, agent := 1, team := 1 })] } : State).insts.any (fun p => p.2.waiting && decide (p.2.team = 1)) = true) ∧
    gridOpen reg 2 = false ∧ gridOpen reg 1 = true ∧ (reg.grid 1).faulted = false ∧ (reg.grid 1).endedTeams ≠ (reg.grid 1).next ∧
    (let s := (commanded 1 kdesc1 reg).modGrid 1 (fun g => { g with endedTeams := 1, vd := 9, queue := 2 })
     gridOpen s 1 = true ∧ (s.grid 1).next = gridTotal (s.grid 1) ∧ (s.grid 1).endedTeams = (s.grid 1).next ∧ (s.vq 9 2).size ≠ 0 ∧
       (s.vq 9 2).fences = [] ∧ (∀ e ∈ s.grids, e.1 = 1)) ∧
    (let s := reg.modGrid 1 (fun g => { g with faulted := true })
     gridOpen s 1 = true ∧ s.cores = [] ∧ ∀ e ∈ gridTeams s 1, ∀ a ∈ e.2.agents, hasRequests s a = false) := by decide +kernel

theorem test_placement :
    runs (.teamPlacement 0) (heldGrid false mapped) (fun t => decide ((t.grid 1).next = 1 ∧ (t.team 8).live = true ∧ (t.grp 9).sreg 0 = 2 ∧
      (t.grp 9).sreg 1 = 1 ∧ ((t.grp 9).lane 63).pc = 0x10000 ∧ (t.grp 9).role = .produce)) = true ∧
    runs (.groupEnd 1) (reg.modGrp 1 (fun g => { g with ended := true })) (fun t => decide ((t.grp 1).role = .absent)) = true ∧
    runs (.gridEnd 1) ((commanded 1 kdesc1 mapped).modGrid 1 (fun g => { g with endedTeams := 1, vd := 9, queue := 2, tag := 0x55 }))
      (fun t => decide ((t.grid 1).st = .absent ∧ t.rdN (hostKey 9 0x2010) 5 = [0x55, 0, 0, 0, 0])) = true := by decide +kernel

/-- GroupEvents: a formation point due and not due, of lanes at two PCs; register and timer writes. -/
def split (s : State) : State := s.modGrp 1 (fun g =>
  { g with lanes := [(0, { lane0 with pc := 0x10008 }), (1, lane0)], bundle := { due := true } })

theorem witness_group_events :
    canIssue (split reg) 1 = true ∧ formsNow ((split reg).grp 1) = true ∧ ((split reg).grp 1).bundle.last = 0 ∧
    (∀ m ∈ lanesOf ((split reg).grp 1).ready, (((split reg).grp 1).lane m).age < 256) ∧ formsNow (reg.grp 1) = false ∧
    (reg.grp 1).role ≠ .absent ∧ (reg.grp 9).role = .absent ∧
    reg.clockOf 1 < ((reg.modGrp 1 (fun g => { g with timer := { dl := 9 } })).grp 1).timer.dl ∧
    (0x10001 : Word).extractLsb' 0 2 = 1#2 ∧ (0x10000 : Word).extractLsb' 0 2 = 0#2 := by decide +kernel

theorem test_group_events :
    runs (.formationPoint 1) (split reg) (fun t => decide ((t.grp 1).bundle.lanes = 2 ∧ (t.grp 1).bundle.due = false)) = true ∧
    runs (.registerWrite 1 0x020 0xFFF) reg (fun t => decide ((t.grp 1).fpmode = 0xFF)) = true ∧
    runs (.timerctl 1 0x30001) (reg.modGrp 1 (fun g => { g with timer := { dl := 9 } })) (fun t => decide ((t.grp 1).timer.wd = 3 ∧
      (t.grp 1).timer.mode = 1)) = true ∧
    runs (.cntsel 1 7 5) (reg.modCtx 1 (fun x => { x with counters := [(7, 3)] })) (fun t => decide ((t.ctx 1).counters.at 7 = 0 ∧ (t.ctx 1).cntsel.at 7 = 5)) = true := by
  decide +kernel

/-- A group whose lanes are in a wait. -/
def waitingIn (st : LaneSt) (s : State) : State :=
  s.modGrp 1 (fun g => { g with lanes := [(0, { st := st, pc := 0x10000, nx := 0x10004 }), (1, { st := st, pc := 0x10000, nx := 0x10004 })] })

/-- TimeOuts: an armed timer before and at its deadline; waits that have run out; a promise past; the watchdog at its limit. -/
theorem witness_timeouts :
    (let s := { reg.modGrp 1 (fun g => { g with timer := { dl := 9, mode := 2, flag := 2 } }) with gtime := 9 }
     (s.grp 1).timer.mode ≠ 0 ∧ (s.grp 1).timer.dl ≤ s.clockOf 1 ∧ clockRuns s 1 = true) ∧ (reg.grp 1).timer.mode = 0 ∧
    (let s : State := exchanging [] (waitingIn (.qpop 31 (some 0)) reg)
     let s : State := { s with insts := [(5, { live := true, qwait := [(1, 3, 31, 9)] })] }
     (s.inst 5).qwait = [(1, 3, 31, 9)] ∧ (3 : Mask) ≠ 0 ∧ (∀ l ∈ lanesOf 3, ((s.grp 1).lane l).st = .qpop 31 (some 0))) ∧
    reg.insts = [] ∧
    (let s := { copying (waitingIn (.waitp 1000 8) mapped) with gtime := 1000 }
     (lanesOf (lowestRun (s.grp 1) (promiseDue s 1))).head? = some 0 ∧ clockRuns s 1 = true ∧ canTrapAt s 1 0x10000 = true) ∧
    lowestRun (reg.grp 1) (promiseDue reg 1) = 0 ∧
    (let s := (waitingIn (.waitf 5 none) reg).modGrp 1 (fun g => { g with watch := 2 ^ 11, timer := { wd := 1 } })
     (s.grp 1).timer.wd ≠ 0 ∧ 2 ^ ((s.grp 1).timer.wd.toNat + 10) ≤ (s.grp 1).watch ∧ allWatched (s.grp 1) = true) ∧
    allWatched (reg.grp 1) = false := by decide +kernel

theorem test_timeouts :
    runs (.timerExpiry 1) { reg.modGrp 1 (fun g => { g with flags := 4, timer := { dl := 9, mode := 2, flag := 2 } }) with gtime := 9 }
      (fun t => decide ((t.grp 1).flags = 0 ∧ (t.grp 1).timer.fired = true ∧ ((t.grp 1).faults.map (·.code)) = [cTIMER])) = true ∧
    runs (.sleepEnd 1) (waitingIn (.sleep 0) reg) (fun t => decide (((t.grp 1).lane 1).pc = 0x10004 ∧ ((t.grp 1).lane 1).st = .ready)) = true ∧
    runs (.waitfTimeout 1) (waitingIn (.waitf 5 (some 1)) reg) (fun t => decide (((t.grp 1).lane 1).pc = 0x10000)) = true ∧
    runs (.watchdog 1) ((waitingIn (.waitf 5 none) reg).modGrp 1 (fun g => { g with watch := 2 ^ 11, timer := { wd := 1 } }))
      (fun t => decide (((t.grp 1).faults.map (·.code)) = [cWATCHDOG] ∧ (t.grp 1).watch = 0)) = true := by decide +kernel

/-- FaultEvents: two deferred faults due, a handler; none due; a group that waits for the supervisor. -/
def due2 : State := mapped.modGrp 1 (fun g => { g with faults := [{ code := cTIMER, order := 2 }, { code := cACCESS, order := 1 }] })

theorem witness_faults :
    (firstDue (due2.grp 1).faults).isSome = true ∧ (due2.grp 1).role ≠ .absent ∧ (due2.grp 1).stopped = false ∧ ctxLets due2 1 = true ∧
    (due2.grp 1).ready ≠ 0 ∧ (lanesOf (nextBundle due2 1)).head? = some 0 ∧
    (let s := (waitingIn (.waitf 5 none) due2).modGrp 1 (fun g => { g with faults := [{ code := cWATCHDOG }, { code := cTIMER }] })
     (s.grp 1).ready = 0 ∧ (lanesOf (lowestRun (s.grp 1) ((s.grp 1).lanesWith watchWait))).head? = some 0) ∧
    canTrapAt due2 1 0x10000 = true ∧ (mapped.grp 1).faults = [] ∧ canIssue mapped 1 = true ∧
    (match nextOf 1 (mapped.wrN (hbmKey 0 0x10000) (leBytes 12 0x00000024)) with | .instr _ _ => true | _ => false) = true ∧
    (match nextOf 1 (mapped.wrLe (hbmKey 0 0x8010) 8 0x5000) with | .wait _ => true | _ => false) = true ∧
    (lanesOf (lowestRun ((waitingIn .pfault reg).grp 1) (((waitingIn .pfault reg).grp 1).lanesWith (fun x => x = .pfault)))).head? = some 0 := by
  decide +kernel

theorem test_faults :
    runs (.deferredFaultDelivery 1) due2 (fun t => decide ((t.grp 1).trap.inTrap = true ∧ (t.grp 1).trap.deferred = true ∧
      (t.grp 1).faults.length = 1 ∧ ((t.grp 1).lane 0).pc = 0x18000)) = true ∧
    runs (.supervisorFaultResolution 1 true) (waitingIn .pfault reg) (fun t => decide (((t.grp 1).lane 0).st = .ready)) = true ∧
    runs (.supervisorFaultResolution 1 false) (waitingIn .pfault reg) (fun t => decide ((t.grp 1).deny = some 0x10000)) = true := by
  decide +kernel

/-- TileAllocation: a request for nothing, for what is held, one that fits and one that does not, blocking or not, with another holder
and with none; a release of what is and is not held, and of what an operation uses; a request that waits and fits. -/
def tiled (tm am : Nat) (s : State) : State := s.modTeam 1 (fun t => { t with tmask := BitVec.ofNat 16 tm, amask := BitVec.ofNat 8 am })
def otherTeam (s : State) : State :=
  { s with teams := s.teams ++ [2, 3, 4, 5].map (fun n => (n, { live := true, grid := 1, tmask := 0xFFFF, amask := 0xFF, groups := [n + 8] })) }

theorem witness_talloc :
    (reg.grp 1).bundle.lanes = 3 ∧ (reg.grp 1).bundle.lanes &&& ~~~ (reg.grp 1).ready = 0 ∧ (reg.cluster 0).waits = [] ∧
    (lanesOf (reg.grp 1).bundle.lanes).head? = some 0 ∧
    requestBad (reg.team 1) 0 = true ∧ requestBad (reg.team 1) 1 = true ∧ requestBad ((tiled 0 0 reg).team 1) 0xFFFFFF = false ∧
    requestFits (tiled 0 0 reg) 0 0xFFFFFF = true ∧ requestFits (otherTeam (tiled 0 0 reg)) 0 0xFFFFFF = false ∧
    taFree 0xFFFFFF = false ∧ taBlock 0x80000001 = true ∧ taBlock 0xFFFFFF = false ∧
    (∃ e ∈ clusterTeams (otherTeam (tiled 0 0 reg)) 0, (e.2.tmask ≠ 0 ∨ e.2.amask ≠ 0) ∧ 1 ∉ e.2.agents) ∧
    taFree 0x4000FFFF = true ∧ taT 0x4000FFFF &&& ~~~ (reg.team 1).tmask = 0 ∧ taA 0x4000FFFF &&& ~~~ (reg.team 1).amask = 0 ∧
    taT 0x4000FFFF &&& ~~~ ((tiled 1 0 reg).team 1).tmask ≠ 0 ∧ releaseWaits reg 1 0x4000FFFF = false ∧
    releaseWaits (reg.modTeam 1 (fun t => { t with mqueue := [{ id := 3, opc := 0x90, t := 1 }] })) 1 0x4000FFFF = true ∧
    (reg.grp 1).lanesWith (fun y => y = .tallocRel 0x4000FFFF) = 0 ∧
    ((waitingIn (.tallocRel 0x4000FFFF) reg).grp 1).lanesWith (fun y => y = .tallocRel 0x4000FFFF) ≠ 0 := by decide +kernel

/-- TileAllocation: the deadlock of R67. Four other teams hold every tile but those of this one, and wait. -/
def stuck : State :=
  let s := (tiled 1 0 mapped).modGrp 2 (fun g => { g with lanes := [] })
  let w : Nat → TWait := fun n => { agent := n + 8, lanes := 1, request := 0x80000001, id := n }
  { s with
    teams := s.teams ++ [2, 3, 4, 5].map (fun n => (n, { live := true, grid := 1, tmask := if n = 5 then 0x7FFE else 0xFFFE, groups := [n + 8] }))
               ++ [(6, { live := true, grid := 1, tmask := 0x1F, groups := [14] })]
    groups := s.groups ++ [2, 3, 4, 5, 6].map (fun n => (n + 8, { role := .produce, team := n, lanes := [(0, { st := .talloc 0x80000001 })] }))
    clusters := [(0, { waits := [2, 3, 4, 5, 6].map w })] }

theorem witness_deadlock :
    let tm := (stuck.grp 1).team
    let cl := (stuck.team tm).core / 2
    let ws := (stuck.cluster cl).waits
    let held := fun (x : Team) => x.tmask ≠ 0 ∨ x.amask ≠ 0
    (stuck.grp 1).role ≠ .absent ∧ (stuck.grp 1).bundle.lanes = 3 ∧ 3 &&& ~~~ (stuck.grp 1).ready = 0 ∧
    requestBad (stuck.team tm) 0x80000002 = false ∧ requestFits stuck cl 0x80000002 = false ∧
    (∀ w ∈ ws, requestFits stuck cl w.request = false) ∧ (stuck.grp 1).live &&& ~~~ 3 = 0 ∧
    (stuck.grp 1).live &&& (stuck.grp 1).trap.held = 0 ∧
    (∀ e ∈ clusterTeams stuck cl, held e.2 → (∀ b ∈ e.2.agents, b ≠ 1 → (stuck.grp b).live &&& (stuck.grp b).trap.held = 0 ∧
        (∀ l ∈ lanesOf (stuck.grp b).live, ((stuck.grp b).lane l).st = .talloc 0x80000001)) ∧
      (1 ∈ e.2.agents ∨ ∃ w ∈ ws, w.agent ∈ e.2.agents)) ∧
    (∃ e ∈ clusterTeams stuck cl, held e.2 ∧ 1 ∈ e.2.agents) ∧
    (∀ w ∈ ws, w.id < stuck.fresh ∧ (stuck.gridOf w.agent).submitted = (stuck.gridOf 1).submitted ∧
      (stuck.teamOf w.agent).index ≤ (stuck.teamOf 1).index) ∧ canTrapAt stuck 1 0x10000 = true := by decide +kernel

theorem test_talloc :
    runs (.tallocRequest 1 0xFFFFFF) (tiled 0 0 reg) (fun t => decide ((t.team 1).tmask = 0xFFFF ∧ (t.team 1).amask = 0xFF ∧ (t.team 1).tstatus = 1)) = true ∧
    runs (.tallocRequest 1 1) reg (fun t => decide ((t.team 1).tstatus = 3 ∧ ((t.grp 1).lane 0).pc = 0x10008)) = true ∧
    runs (.tallocRequest 1 0xFFFFFF) (otherTeam (tiled 0 0 reg)) (fun t => decide ((t.team 1).tstatus = 2)) = true ∧
    runs (.tallocBlockingRequest 1 0x80000001) (otherTeam (tiled 0 0 reg)) (fun t => decide (((t.grp 1).lane 0).st = .talloc 0x80000001 ∧
      (t.cluster 0).waits.length = 1)) = true ∧
    runs (.tallocRelease 1 0x4000FFFF) reg (fun t => decide ((t.team 1).tmask = 0 ∧ (t.team 1).amask = 0xFF)) = true ∧
    runs (.tallocBlockingRequest 1 0x80000002) stuck (fun t => decide ((t.grp 1).trap.code = cREFUSED ∧ (t.team 1).tstatus = 2 ∧
      (t.cluster 0).waits.length = 5)) = true := by decide +kernel

/-- EngineEvents: a local copy of two elements of 4 bytes inside the share, one whose source runs over its end, one stopped, and a
QFENCE entry that waits and one that does not. -/
def localCopy (src dst n : Word) : Copy :=
  { id := 3, agent := 1, team := 1, ctx := 1, flag := 2, shape := [src, 0x98000000, dst, 0xFE000000, n, 0, 0, 0] }
def withCopy (c : Copy) (s : State) : State :=
  (s.modCore 0 (fun k => { k with eddy := [c] })).modGrp 1 (fun g => { g with flags := 4 })

theorem witness_copies :
    let c := localCopy 0 64 1
    let s := withCopy c reg
    let x := c.shp
    (s.core 0).eddy[0]? = some c ∧ (s.core 0).eddy[1]? = none ∧ c.stopped = false ∧ agentRuns s 1 = true ∧ atTurn (s.core 0).eddy 0 = true ∧
    c.fence = false ∧ c.inst = 0 ∧ c.moved = false ∧ c.isStep = false ∧ c.olds = [] ∧ x.remote = false ∧ x.op = 0 ∧ x.sscr = true ∧
    x.dscr = true ∧ c.unit = 0 ∧ x.count = 2 ∧ x.esz = 4 ∧
    (∀ j, j < 2 → srcAt x j + 4 ≤ 4096 ∧ dstAt x j + 4 ≤ 4096) ∧ (s.team 1).scratchSize = 4096 ∧
    (∀ j < 2, ∀ m < 2, j ≠ m → dstAt x j + 4 ≤ dstAt x m ∨ dstAt x m + 4 ≤ dstAt x j) ∧
    (∀ j < 2, ∀ m < 2, srcAt x j + 4 ≤ dstAt x m ∨ dstAt x m + 4 ≤ srcAt x j) ∧
    (let d := localCopy 4096 64 0
     d.unit < d.shp.count ∧ (reg.team 1).scratchSize < srcAt d.shp d.unit + d.shp.esz ∧ (reg.grp 1).ended = false) ∧
    fenceOver (withCopy c reg) [3] = false ∧ fenceOver reg [3] = true := by decide +kernel

theorem test_copies :
    runs (.copyCompletion 0 0) (withCopy (localCopy 0 64 1) (reg.modTeam 1 (fun t => { t with scratch := [(0, 7), (5, 9)] })))
      (fun t => decide ((t.team 1).scratch.at 64 = 7 ∧ (t.team 1).scratch.at 69 = 9 ∧ (t.core 0).eddy = [] ∧ t.me.flags = 0)) = true ∧
    runs (.copyDeferredFault 0 0) (withCopy (localCopy 4096 64 0) reg)
      (fun t => decide ((t.me.faults.map (·.code)) = [cACCESS] ∧ (t.core 0).eddy.map (·.stopped) = [true])) = true := by decide +kernel

/-- A team's matrix queue. -/
def matrixQueue (q : List MEntry) (s : State) : State :=
  (s.modTeam 1 (fun t => { t with mqueue := q })).modGrp 2 (fun g => { g with flags := 4 })
def mma1 : MEntry := { id := 3, agent := 2, opc := 0x92, d := 1, ra := 0x40000, rb := 0x40040, flag := 2 }

theorem witness_matrix_events :
    nextToStage 0 (reg.team 1).mqueue = none ∧ (nextToStage 0 ((matrixQueue [mma1] mapped).team 1).mqueue).isSome = true ∧
    (((matrixQueue [mma1] reg).team 1).mqueue.headD {}).id = 3 ∧
    (let q := { mma1 with staged := some {} } :: [{ mma1 with id := 4 }]
     (nextToStage 0 ((matrixQueue q reg).team 1).mqueue).map (·.id) = some 4 ∧ (q.headD {}).id ≠ 4) ∧
    agentRuns (matrixQueue [mma1] mapped) 2 = true ∧
    (match stageEntry 1 mma1 false (matrixQueue [mma1] mapped) with | .ok _ _ => true | .bad .. => false | _ => false) = true ∧
    (match stageEntry 1 mma1 false (matrixQueue [mma1] reg) with | .bad .. => true | _ => false) = true ∧
    (reg.cluster 0).admitted = 0 ∧ admissible reg 0 = [] ∧
    (let s := matrixQueue [{ mma1 with staged := some {} }] reg
     admissible s 0 ≠ [] ∧ (∀ q ∈ admissible s 0, ¬ ((slotEntry s 0).getLsbD 18 = true)) ∧ admittedTeam s 0 = none) ∧
    (let s := { matrixQueue [{ mma1 with staged := some {} }] reg with clusters := [(0, { admitted := 3 })] }
     (admittedTeam s 0).isSome = true ∧ rgMask {} = 0) ∧
    (let e : MEntry := { id := 3, agent := 2, opc := 0x95, t := 1, ra := 0x40000, rc := 128, flag := 2, row := 63 }
     (match engRead { agent := 2 } false (e.ra + BitVec.ofNat 64 63 * e.rc.signExtend 64) 128 mapped with | .ok bs _ => decide (bs.length = 128) | _ => false) = true ∧
     (match engRead { agent := 2 } false (e.ra + BitVec.ofNat 64 63 * e.rc.signExtend 64) 128 reg with | .bad .. => true | _ => false) = true) ∧
    (let s := exchanging [] reg
     let s : State := { s with insts := [(5, { live := true, ctx := 1, arrivals := [(3, 9)] })] }
     (s.inst 5).arrivals.find? (fun q => q.1 = 3) = some (3, 9) ∧ (s.ctx (s.inst 5).ctx).vrun = true ∧ (s.inst 5).tiles.length < Config.tileQueue ∧
       (s.inst 5).qwait = []) := by decide +kernel

theorem test_matrix_events :
    runs (.matrixEntryPerformed 1) (matrixQueue [{ id := 3, agent := 2, opc := 0x90, t := 1, rc := 0x44002000, flag := 2 }] reg)
      (fun t => decide ((t.team 1).tshape.at 1 = 0x44002000 ∧ (t.team 1).mqueue = [] ∧ (t.grp 2).flags = 0)) = true ∧
    runs (.matrixEntryPerformed 1) (matrixQueue [{ id := 3, agent := 2, opc := 0x95, t := 1, ra := 0x40000, rc := 128, flag := 2, row := 63 }]
        (mapped.wrN (hbmKey 0 0x41F80) [1, 2, 3]))
      (fun t => decide (((t.team 1).tileRow 1 63).take 4 = [1, 2, 3, 0] ∧ (t.team 1).mqueue = [])) = true ∧
    runs (.admission 0) (matrixQueue [{ mma1 with staged := some {} }] reg) (fun t => decide ((t.cluster 0).admitted = 3)) = true ∧
    runs (.arrivedTilePush 5 3) { reg with insts := [(5, { live := true, ctx := 1, arrivals := [(3, 9)] })] }
      (fun t => decide ((t.inst 5).tiles = [0x03000009] ∧ (t.inst 5).arrivals = [])) = true := by decide +kernel

/-- FabricEvents: a WRITE of 8 bytes of context 1 in group 2, instance sequence 0. -/
def grouped2 (n : Nat) (s : State) : State :=
  s.modCtx 1 (fun x => { x with colls := [(2, { members := [(0, 1), (4, 1)], nextSeq := BitVec.ofNat 16 n })] })
def writeFl (va : Nat) : Flit := { typ := 1, src := 4, dst := 0, ctx := 1, info := infoOf 2 0 0 1 0, data := leBytes 8 va ++ leBytes 8 0 ++ [1, 2, 3, 4, 5, 6, 7, 8] }

/-- A contribution flit's data: of `m` members, a 4-byte element `v` in a copy of `n` bytes. -/
def contribution (m n v : Nat) : List Byte := [BitVec.ofNat 8 m, 0, 0, 4] ++ leBytes 1 n ++ leBytes 4 0 ++ leBytes 8 0x40000 ++ leBytes 4 v

theorem witness_flits :
    (reg.ctx 9).st = .free ∧ wayOf (grouped2 1 mapped) (writeFl 0x40000) false = .now none ∧
    mapped.inbox = [] ∧ behindFlit mapped (writeFl 0x40000) = false ∧
    behindFlit { mapped with inbox := [writeFl 0x40000] } (writeFl 0x40008) = true ∧
    (match peerWrite 1 0x40000 [1, 2] (grouped2 1 mapped) with | .ok _ => true | _ => false) = true ∧
    (match peerWrite 1 0x40000000 [1, 2] (grouped2 1 mapped) with | .error (some _) => true | _ => false) = true ∧
    (let f : Flit := { typ := 2, src := 4, ctx := 1, info := 0x40000, data := leBytes 4 8 }
     0 < Min.min (fieldOf f.data 0 4) 224 ∧ f.info.toNat % 64 + Min.min (fieldOf f.data 0 4) 224 ≤ 64 ∧ canonical f.info = true ∧
       (match translate mapped 1 { r := true } f.info with | .ok _ => true | _ => false) = true) ∧
    infoCode (infoOf 2 0 0 1 9) = 9 ∧ infoCode (infoOf 2 0 0 1 10) = 10 ∧
    (let c : Copy := { localCopy 0 64 1 with inst := 5, moved := true, acks := [(1, 0)] }
     let s := { withCopy c (grouped2 1 reg) with insts := [(5, { live := true, ctx := 1, gid := 2, team := 1, agent := 1 })] }
     let f : Flit := { typ := 4, src := 4, ctx := 1, info := infoOf 2 0 0 1 0, data := [1, 0] }
     infoCode f.info ≠ 9 ∧ infoCode f.info ≠ 10 ∧ wayOf s f true = .now (some 5) ∧ (s.core (s.team (s.inst 5).team).core).eddy = [c] ∧
       c.step % 2 ^ 24 = infoStep f.info ∧ c.acks = [(infoRank f.info, fieldOf f.data 2 4)] ∧ c.fails = [] ∧ fieldOf f.data 1 1 = 0) ∧
    (let x : Inst := { ctx := 1, gid := 2, waiting := true, stamp := 3 }
     let s := { reg with insts := [(5, x)] }
     s.insts.find? (fun p => asksSlot p.2 && decide (p.2.ctx = 1) && decide (p.2.gid = 2)) = some (5, x) ∧ s.inst 5 = x) ∧
    (let x : Inst := { ctx := 1, gid := 2, team := 1, agent := 1 }
     let s : State := { reg with insts := [(5, { x with live := true })] }
     (s.ctx 1).vrun = true ∧ (s.inst 5).closing = false ∧ (s.inst 5).waiting = false ∧ (s.inst 5).live = true ∧
       ({ x with waiting := true } : Inst).waiting = true ∧ (s.team 1).inst = 0) ∧
    (let s : State := { reg with slotReqs := [{ stamp := 0, ctx := 1, gid := 2 }], gtime := 500 }
     s.inbox = [] ∧ (∀ r ∈ s.slotReqs, r.stamp + 500 ≤ s.gtime) ∧ ∀ r ∈ s.slotReqs, ({ s with gtime := 499 }).gtime < r.stamp + 500) ∧
    (let s := reg.modCtx 1 (fun x => { x with stop := .drain 0, noticeAcks := [(2, 1)] })
     (s.ctx 1).stop ≠ .none ∧ s.gtime < (s.ctx 1).noticeAt + 100000 ∧ (s.ctx 1).noticeAt + 100000 ≤ ({ s with gtime := 100000 }).gtime ∧
       (2, 1) ∈ (s.ctx 1).noticeAcks) := by decide +kernel

/-- FabricEvents: contributions that agree and differ, a descriptor, an end; a mismatch, and a result for a step. -/
theorem witness_folds :
    (let x : Slot := { used := true, ctx := 1, gid := 2, members := [(0, 1), (4, 1)] }
     let f : Nat → Flit := fun n => { typ := 5, src := 4, ctx := 1, info := infoOf 2 0 0 1 n, data := contribution 2 4 7 }
     let s : State := { reg with slots := [(5, { x with contribs := [(0, contribution 2 4 9)] })] }
     [0, 1, 2].all (fun n => decide (x.gid = infoGid (f n).info ∧ x.seq = infoSeq (f n).info ∧ infoCode (f n).info = n ∧
       behindFlit s (f n) = false)) = true ∧
       (s.ctx 1).st = .running ∧ (s.ctx 1).vrun = true ∧ fieldOf (f 0).data 0 1 = 2 ∧ sub (contribution 2 4 9) 1 8 = sub (f 0).data 1 8 ∧
       sub (contribution 2 8 9) 4 5 ≠ sub (f 0).data 4 5) ∧
    (let s : State := { reg with insts := [(5, { live := true, ctx := 1, gid := 2, team := 1, agent := 1 })] }
     let f : Flit := { typ := 6, src := 4, ctx := 1, info := infoOf 2 0 0 0 1, data := leBytes 4 0 }
     wayOf s f true = .now (some 5) ∧ infoCode f.info = 1 ∧ mismatched s f = [5] ∧ (s.inst 5).mismatch = false ∧ (s.grp 1).ended = false) ∧
    (let c : Copy := { localCopy 0 64 1 with inst := 5, moved := true, isStep := true }
     let s := { withCopy c (grouped2 1 reg) with insts := [(5, { live := true, ctx := 1, gid := 2, team := 1, agent := 1 })] }
     let f : Flit := { typ := 6, src := 4, ctx := 1, info := infoOf 2 0 0 0 0, data := leBytes 4 0xFFFFFFFF ++ zeros 12 ++ [1, 2, 3, 4, 5, 6, 7, 8] }
     wayOf s f true = .now (some 5) ∧ infoCode f.info ≠ 1 ∧ (s.core 0).eddy = [c] ∧ c.step % 2 ^ 24 = infoStep f.info ∧ c.stopped = false ∧
       c.runit = 0 ∧ c.shp.dscr = true ∧ c.shp.op ≠ 0xA ∧ fieldOf f.data 0 4 = 0xFFFFFFFF ∧ f.data.length = 16 + c.shp.count * c.shp.esz ∧
       (∀ j, j < 2 → dstAt c.shp j + 4 ≤ (s.team 1).scratchSize) ∧ c.shp.count = 2) := by decide +kernel

theorem test_flits :
    runs (.write (writeFl 0x40000)) (grouped2 1 mapped) (fun t => decide (t.rdN k0 4 = [1, 2, 3, 4] ∧ t.sent.map (·.typ) = [4])) = true ∧
    runs (.write (writeFl 0x40000000)) (grouped2 1 mapped) (fun t => decide (t.rdN k0 4 = [0, 0, 0, 0] ∧
      (t.sent.map (fun f => fieldOf f.data 1 1)) = [cPAGE.toNat])) = true ∧
    runs (.write (writeFl 0x40008)) { grouped2 1 mapped with inbox := [writeFl 0x40000] }
      (fun t => decide (t.sent = [] ∧ t.inbox.length = 2)) = true ∧
    runs (.nak 3) { reg with replays := [(3, 15)], boot := { ports := 0xFFFF } } (fun t => decide (t.boot.ports = 0xFFFF)) = true ∧
    runs (.nak 3) { reg with replays := [(3, 16)], boot := { ports := 0xFFFF } } (fun t => decide (t.boot.ports = 0xFFF7)) = true ∧
    runs (.residencyNotice 1 2 1 false) (grouped2 1 reg) (fun t => decide ((collOf t 1 2).halted = [1])) = true ∧
    runs (.departureNotice 1 2 1) (grouped2 1 reg) (fun t => decide ((collOf t 1 2).departed = [1])) = true := by decide +kernel

/-- StopEvents: a context without a descriptor; running, stopping, stopped and resuming ones; acknowledgements to be made; DRAINMAX
before and at its time; an image that fits and one that does not; the debug step; the counted stop; a sample and a SYNC due. -/
def stopping (m : StopSt) (run : Bool) (s : State) : State := s.modCtx 1 (fun x => { x with st := .stopping, stop := m, vrun := run })
def field (off n w : Nat) (s : State) : State := s.wrLe (hbmKey 0 (0x8000 + off)) n w

theorem witness_stops :
    (reg.ctx 9).hasDesc = false ∧ (reg.ctx 1).hasDesc = true ∧ (reg.ctx 1).st = .running ∧
    ((stopping (.drain 0) true reg).ctx 1).st = .stopping ∧ ((stopping (.drain 0) true reg).ctx 1).vrun = true ∧
    (let s := stopping (.drain 0) true reg
     atStopUnit s 1 0 = false ∧ atStopUnit s 1 4 = true ∧ (s.ctx 1).acks.length < 4) ∧
    (let s := (stopping (.drain 0) true { reg with teams := [] }).modCtx 1 (fun x => { x with acks := [1, 2, 3, 4] })
     atStopUnit s 1 0 = true ∧ 4 ≤ (s.ctx 1).acks.length ∧ (0 : Nat) ∉ (s.ctx 1).acks) ∧
    (let s := field 0x58 8 100 (stopping (.drain 0) true reg)
     s.desc 1 0x58 8 = 100 ∧ s.gtime < 0 + 100 ∧ 0 + s.desc 1 0x58 8 ≤ ({ s with gtime := 100 }).gtime) ∧
    (let s := field 0x20 8 (2 ^ 40) (stopping (.capture 0 false) false reg)
     (s.ctx 1).saved = none ∧ imageSize s 1 false ≤ s.desc 1 0x20 8 ∧ reg.desc 1 0x20 8 < imageSize s 1 false) ∧
    (let s := (stopping (.capture 0 false) false reg).modCtx 1 (fun x => { x with saved := some {} })
     (s.ctx 1).saved ≠ none ∧ writesDone s 1 = true) ∧
    (let s := reg.modCtx 1 (fun x => { x with st := .stopped, vrun := false, saved := some { teams := [(1, team1)], groups := [(1, { role := .produce, team := 1, budget := 64 })] } })
     (s.ctx 1).part < 40 ∧ s.isConf 1 = false ∧ (s.part 0).st = .active ∧
     (let v := ((s.ctx 1).saved.getD {})
      savedTeams s 1 v ≠ [] ∧ v.teams = [(1, team1)] ∧ (chooseCore { s with teams := [] } 1 0 (savedNeed v (s.grid 1) team1)).isSome = true ∧
        (chooseCore { s with teams := [], parts := [(0, { st := .active })] } 1 0 (savedNeed v (s.grid 1) team1)).isNone = true)) ∧
    (let s := reg.modCtx 1 (fun x => { x with st := .resuming, vrun := false, dbgset := 0x10 })
     (s.ctx 1).vfrozen.toNat ≤ s.gtime ∧ (s.ctx 1).dbgset.getLsbD 4 = true ∧ (s.ctx 1).st = .resuming) ∧
    (let s := reg.modCtx 1 (fun x => { x with stepping := true })
     (s.ctx 1).stepping = true ∧ s.gtime < (s.ctx 1).stepAt + 65536 ∧ (s.ctx 1).stepAt + 65536 ≤ ({ s with gtime := 65536 }).gtime ∧
       stepTarget s 1 = some 1 ∧ (s.ctx 1).dbgset.getLsbD 1 = false) ∧
    (let s := reg.modCtx 1 (fun x => { x with dbgset := 8, rstop := 5, retired := 5 })
     (s.ctx 1).dbgset.getLsbD 3 = true ∧ (s.ctx 1).rstop.toNat ≤ (s.ctx 1).retired) ∧
    sampleAgents reg 0 true = [] ∧ sampleAgents reg 0 false = [] ∧ coreCtxs reg 0 = [1] ∧ (reg.core 0).synced.at 1 ≤ 65536 ∧
    65536 < ((reg.modCore 0 (fun c => { c with synced := [(1, 65537)] })).core 0).synced.at 1 ∧
    (let s : State := ({ reg with teams := [], grids := [] } : State).modCtx 1 (fun x => { x with st := .stopped, vrun := false })
     (s.ctx 1).st = .stopped ∧ ctxGrids s 1 = [] ∧ ctxTeams s 1 = []) ∧
    (let s := reg.modCtx 1 (fun x => { x with st := .stopped, vrun := false, saved := some { teams := [(1, team1)] } })
     s.isConf 1 = false ∧ (s.ctx 1).saved = some { teams := [(1, team1)] } ∧ (savedTeams s 1 { teams := [(1, team1)] }).map (·.1) = [1]) := by
  decide +kernel

/-- StopEvents, ErrorEvents, PartitionEvents: no request of Headwater waits for tiles, and it is at no KZERO. -/
theorem witness_no_waits (cl k : Nat) : (∀ w ∈ (reg.cluster cl).waits, (reg.grp w.agent).role ≠ .headwater) ∧
    ((reg.grp 0).lane 0).st ≠ .kzero k := by
  have h : (reg.cluster cl).waits = [] := rfl
  have h0 : ((reg.grp 0).lane 0).st = .ready := by decide +kernel
  simp [h, h0]

theorem test_stops :
    runs (.stopDrain 1) mapped (fun t => decide ((t.ctx 1).st = .stopping ∧ (t.ctx 1).stop = .drain 0 ∧ t.desc 1 0x04 4 = 2)) = true ∧
    runs (.stopDrain 9) mapped (fun t => decide ((t.ctx 9).err = 3)) = true ∧
    runs (.drainmax 1) { field 0x58 8 100 (stopping (.drain 0) true reg) with gtime := 100 } (fun t => decide ((t.ctx 1).stop = .capture 100 false)) = true ∧
    runs (.saveImage 1) (stopping (.capture 0 false) false mapped) (fun t => decide ((t.ctx 1).st = .running ∧ (t.ctx 1).err = 1)) = true ∧
    runs (.stopReport 1) ((stopping (.capture 0 false) false mapped).modCtx 1 (fun x => { x with saved := some {} }))
      (fun t => decide ((t.ctx 1).st = .stopped ∧ t.desc 1 0x04 4 = 3)) = true ∧
    runs (.release 1) (reg.modCtx 1 (fun x => { x with st := .resuming, vrun := false, vfrozen := 7 }) |> fun s => { s with gtime := 20 })
      (fun t => decide ((t.ctx 1).st = .running ∧ t.vclk 1 = 7)) = true := by decide +kernel

/-- ErrorEvents: units of every kind owned and not, a partition that resets; resources being cleared; a core that ran a confidential
context; a cluster due for retirement. -/
theorem witness_errors :
    ownerOf reg 0 0 = some 0 ∧ ownerOf reg 0 79 = none ∧ ownerOf reg 2 3 = some 0 ∧ (reg.part 0).st = .active ∧ (reg.ctx 1).st ≠ .free ∧
    1 ∈ partCtxs reg 0 ∧ reg.clusters = [] ∧
    (let s := reg.modPart 0 (fun x => { x with clearing := [(0, 7, true), (1, 1, false), (4, 2, true), (5, 9, true)] })
     (0, 7, true) ∈ (s.part 0).clearing ∧ (1, 1, false) ∈ (s.part 0).clearing ∧ (4, 2, true) ∈ (s.part 0).clearing ∧
       (5, 9, true) ∈ (s.part 0).clearing) ∧
    (let s := { reg with teams := [] }.modCore 0 (fun c => { c with ranConf := 2 })
     (s.core 0).ranConf ≠ 0 ∧ coreTeams s 0 = []) ∧ (reg.core 0).ranConf = 0 ∧
    (let s := { reg with clusters := [(0, { chks := [0, 0, 0, 0] })] }
     (s.cluster 0).retiring = none ∧ retireDue s 0 = true ∧ clusterCtxs s 0 = [1] ∧ retireDue reg 0 = false) ∧
    (let s : State := { reg with clusters := [(0, { retiring := some [1] })] }
     (∃ c ∈ clusterCtxs s 0, (s.ctx c).st = .running)) ∧
    (let s : State := { stopping (.capture 0 false) false reg with clusters := [(0, { retiring := some [1] })] }
     (∀ c ∈ clusterCtxs s 0, c ∈ [1] ∧ (s.ctx c).st ≠ .running) ∧ clusterCtxs s 0 ≠ []) ∧
    (let s : State := { (reg.modCtx 1 (fun x => { x with st := .stopped })) with teams := [], clusters := [(0, { retiring := some [1] })] }
     clusterCtxs s 0 = [] ∧ (∀ c ∈ [1], (s.ctx c).st ≠ .stopping ∧ (s.ctx c).st ≠ .resuming) ∧ ownerOf s 0 0 = some 0) := by decide +kernel

theorem test_errors :
    runs (.softError 0 7) reg (fun t => decide (t.softErrors.at 7 = 1)) = true ∧
    runs (.uncorrectableError 0 0) mapped (fun t => decide ((t.part 0).st = .resetting ∧ (t.ctx 1).st = .lost)) = true ∧
    runs (.uncorrectableError 0 79) mapped (fun t => decide ((t.part 0).st = .active ∧ (t.ctx 1).st = .running)) = true ∧
    runs (.clearing 0 5 9) { reg with parts := [(0, { st := .active, clearing := [(5, 9, true)] })], vdevs := [(9, { owner := some 0, pending := 3 })] }
      (fun t => decide ((t.vdev 9).owner = none ∧ (t.vdev 9).pending = 0 ∧ (t.part 0).clearing = [])) = true ∧
    runs (.clusterRetire 0) { mapped with teams := [], clusters := [(0, { retiring := some [] })], boot := { usable := 80 } }
      (fun t => decide ((t.cluster 0).unusable = true ∧ (t.part 0).clusters = [] ∧ t.boot.usable = 79)) = true := by decide +kernel

/-- PartitionEvents: every state of a partition; a key slot that may be bound; a device; a job's first and last page. Whether a
report key's tag is good is an opaque value of Config. -/
theorem witness_partitions :
    ([.free, .scrubbing, .ready, .active, .resetting] : List PartSt).all (fun st =>
      decide (((reg.modPart 0 (fun x => { x with st := st })).part 0).st = st)) = true ∧
    1 ≤ (reg.part 0).clusters.length ∧ 2 ≤ (reg.part 0).slices.length ∧ 4 ≤ (reg.part 0).channels.length ∧
    (∃ c ∈ partCtxs reg 0, (reg.ctx c).st ≠ .free) ∧
    (let s := reg.modCtx 1 (fun x => { x with st := .free })
     ∀ c ∈ partCtxs s 0, (s.ctx c).st = .free) ∧
    (let s := { reg with keys := [(5, { owner := some 0, mem := some 1, report := some 2 })] }
     (s.key 5).mem ≠ none ∧ (s.key 5).report ≠ none ∧ (s.ctx 1).hasDesc = true ∧ (s.key 5).owner = some (s.ctx 1).part) ∧
    (let s := { reg with vdevs := [(9, { owner := some 0 })] }
     (s.vdev 9).owner = some (s.ctx 1).part ∧ (s.part (s.ctx 1).part).st = .active) ∧
    (let s := reg.modPart 0 (fun x => { x with jobs := [{ base := 0x40000, pages := 2 }] })
     (s.part 0).paused = false ∧ (s.part 0).jobs ≠ [] ∧ (s.part 0).clearing = []) ∧
    (inStage .ready reg).boot.stage = .ready ∧ reg.boot.stage ≠ .ready ∧ (∀ w ∈ (reg.cluster 0).waits, (reg.grp w.agent).role ≠ .headwater) ∧
    (hostXlate 0 9 0x2000 16 reg).1 = true ∧ reg.hostWrites = [] ∧ weirOpen reg 0 1 = true ∧
    canonical 0x40000 = true ∧ (0x40000 : DWord).toNat % 64 + 64 ≤ 64 ∧
    (match translate mapped 1 { w := true } 0x40000 with | .ok _ => true | _ => false) = true := by decide +kernel

theorem test_partitions :
    runs (.hostWrite 1 0x40000 [1, 2]) mapped (fun t => decide (t.rdN k0 3 = [1, 2, 0])) = true ∧
    runs (.activate 0) (inStage .ready (reg.modPart 0 (fun x => { x with st := .ready })))
      (fun t => decide ((t.part 0).st = .active ∧ (t.part 0).err = 0)) = true ∧
    runs (.activate 0) { inStage .ready reg with parts := [(0, { st := .ready })] } (fun t => decide ((t.part 0).st = .ready ∧ (t.part 0).err = 2)) = true ∧
    runs (.deactivate 0) mapped (fun t => decide ((t.part 0).err = 3)) = true ∧
    runs (.reset 0) mapped (fun t => decide ((t.part 0).st = .resetting ∧ (t.ctx 1).st = .lost)) = true ∧
    runs (.keyslotBind 5 1) { reg with keys := [(5, { owner := some 0, mem := some 1, report := some 2 })] } (fun t => decide ((t.key 5).bound = some 1)) = true ∧
    runs (.vdBind 9 1) { reg with vdevs := [(9, { owner := some 0 })] } (fun t => decide ((t.vdev 9).bound = some 1)) = true ∧
    runs (.vdUnbind 9) { reg with vdevs := [(9, { bound := some 1 })] } (fun t => decide ((t.vdev 9).bound = none)) = true ∧
    runs (.generateMem 5) { reg with keys := [(5, { owner := some 0 })] } (fun t => (t.key 5).mem.isSome) = true := by decide +kernel

/-! ## Reset -/

theorem test_reset : bootst State.reset = 0x10000000 ∧ canIssue State.reset 0 = false ∧ Tbl.wf State.reset.mem = true := by decide +kernel

/-- MemoryStaysCanonical: canonical memory, empty and not. -/
theorem witness_memory : MemWf State.reset ∧ MemWf mapped ∧ ¬ MemWf { reg with mem := [(5, 1), (4, 1)] } ∧
    ¬ MemWf { reg with mem := [(5, 0)] } := by decide +kernel

/-! ## The order of issue, and Sluice's words -/

/-- Two groups of core 0 at NOPs, the second at the next slot, that have waited so long; the clk has room for one bundle more. -/
def pairAt (w1 w3 : Nat) : State :=
  (((mapped.wrN (hbmKey 0 0x10000) (leBytes 4 4)).modGrp 1 (fun g => { g with bundle := { lanes := 3, waited := w1 } })).modGrp 3
    (fun _ => { role := .consume, gid := 1, team := 1, slot := 1, budget := 64, lanes := [(0, lane0)], bundle := { lanes := 1, waited := w3 } })).modCore 0
    (fun c => { c with pipe := { c.pipe with issued := 1 } })

/-- R59: the bundle that has waited longest goes first, on a tie the one at the lower slot. -/
theorem test_longest_wait : outranked (pairAt 5 9) 1 = true ∧ outranked (pairAt 5 9) 3 = false ∧
    outranked (pairAt 5 5) 1 = false ∧ outranked (pairAt 5 5) 3 = true := by decide +kernel

/-- R60: after the steer thread at slot 0 the one at slot 1 goes first, and before it none. -/
theorem test_round_robin :
    let s := ((mapped.wrN (hbmKey 0 0x10000) (leBytes 4 4)).modGrp 2 (fun g => { g with bundle := { lanes := 1 } })).modGrp 4
      (fun _ => { role := .steer, gid := 16, team := 1, slot := 1, lanes := [(0, lane0)], bundle := { lanes := 1 } })
    let s := s.modCore 0 (fun c => { c with seq := { c.seq with slot := 0 } })
    outranked s 2 = true ∧ outranked s 4 = false := by decide +kernel

/-- R286: a word of the page in progress is zeroed; a store to it after that stays when the page is done. -/
theorem test_page_words :
    let s := (reg.wrN k0 [1, 2, 3, 4, 5, 6, 7, 8]).modPart 0 (fun x => { x with jobs := [{ base := 0x40000, pages := 1 }] })
    let t := zeroWord 0 1 s
    (t.rdN k0 8 = [1, 2, 3, 4, 0, 0, 0, 0]) ∧
    (sluicePage 0 (t.wrN (k0 + 4) [9])).rdN k0 8 = [0, 0, 0, 0, 9, 0, 0, 0] := by decide +kernel

/-! ## Further clauses of the statements -/

/-- JoinBarriers: a JOINSET of a J with a waiting lane, and one with no active lane. TrapInstructions: an ERET that another trap lane is
still to reach. -/
def lane1Joins : State := (joining 2 2 { reg with cur := { reg.cur with act := 1 } }).modGrp 1 (fun g =>
  { g with lanes := [(0, lane0), (1, { st := .join 1, pc := 0x10000, nx := 0x10004 })] })
def halfTrap : State := { inTrap.modGrp 1 (fun g => { g with trap := { g.trap with lanes := 3 } }) with cur := { reg.cur with act := 1 } }

theorem witness_joinset_forms :
    goes lane1Joins (.joinset { len := .w3, dst := .j 1, a := .lit 0x40 }) = true ∧ lane1Joins.actMask {} ≠ 0 ∧
    (lane1Joins.me.j.at 1).waiting &&& lane1Joins.me.live ≠ 0 ∧
    goes reg (.joinset { len := .w3, dst := .j 1, a := .lit 0x40, pred := 1 }) = true ∧ reg.actMask { pred := 1 } = 0 ∧
    goes halfTrap (.eret {}) = true ∧ allReady halfTrap = true ∧ halfTrap.me.trap.inTrap = true ∧
    halfTrap.me.trap.lanes &&& halfTrap.me.live &&& ~~~ (halfTrap.cur.act ||| halfTrap.me.lanesWith (fun x => x = .eret)) ≠ 0 := by decide +kernel

theorem test_joinset_forms :
    runs (.joinset { len := .w3, dst := .j 1, a := .lit 0x40 }) lane1Joins (fun t => decide ((t.me.lane 1).pc = 0x10080 ∧ (t.me.lane 1).st = .ready ∧
      t.me.j.at 1 = { parts := 1, waiting := 0, pc := 0x10040 })) = true ∧
    runs (.joinset { len := .w3, dst := .j 1, a := .lit 0x40, pred := 1 }) reg (fun t => decide (t.me.j = reg.me.j)) = true ∧
    runs (.eret {}) halfTrap (fun t => decide ((t.me.lane 0).st = .eret ∧ (t.ctx 1).retired = 0 ∧ t.me.under ≠ [])) = true := by decide +kernel

/-- OrderedAccesses: RED.REL, CAS and ATOM of two lanes, both at one word. -/
def both : State := { addressed 0x40000 with ctxs := (addressed 0x40000).ctxs.map (fun p => (p.1, { p.2 with scopectl := 0 })) }

theorem witness_ordered_rmw :
    let n : Need := { r := true, w := true }
    goes both (.red { redB with md := 0xB0 }) = true ∧ goes both (.cas { atB with md := 0xB8 }) = true ∧
    goes both (.atom { atB with md := 0xB8 }) = true ∧ (both.core 0).queue = [] ∧ both.myCtx.scopectl.getLsbD 0 = false ∧
    releaseReady both 1 5 = true ∧ (rmwList redB both false).length = 2 ∧
    (rmwList redB both false ++ rmwList atB both true).all (fun x => reachesB both n x && freeB both n (rmwList redB both false) k0
      && onLineB both (lineOf (placed both n x).pa) (placed both n x) && roomFor both 2 (placed both n x).rc (lineOf (placed both n x).pa)) = true := by
  decide +kernel

theorem test_ordered_rmw :
    runs (.red { redB with md := 0xB0 }) (both.wrN k0 [3]) (fun t => decide (t.rdN k0 4 = [13, 0, 0, 0] ∧ t.me.race.clk = 1)) = true ∧
    runs (.atom { atB with md := 0xB8 }) (both.wrN k0 [3]) (fun t => decide (t.rdN k0 4 = [13, 0, 0, 0] ∧ t.me.vreg 3 0 = 3 ∧ t.me.vreg 3 1 = 8)) = true ∧
    runs (.cas { atB with md := 0xB8 }) (both.wrN k0 [7]) (fun t => decide (t.rdN k0 4 = [5, 0, 0, 0] ∧ t.me.vreg 3 0 = 7 ∧ t.me.vreg 3 1 = 5)) = true := by
  decide +kernel

/-- EngineEvents: a copy of two words from memory into the share, under addition from the share into memory, SMX3 of two partials in the
share, and SUMMARY of two in the share. -/
def copyOf (src : Word) (c1 : Word) (dst c3 : Word) (op : Word) (n : Word) : Copy :=
  { id := 3, agent := 1, team := 1, ctx := 1, flag := 2, shape := [src, c1, dst, c3, n, 0, 0, op] }
def summaries : State := withCopy (copyOf 128 0x98000000 1280 0xFE000000 0xA000 0) ((summScr 1 mapped).modTeam 1 (fun t =>
  { t with scratch := t.scratch ++ t.scratch.map (fun p => (p.1 + 1152, p.2)) }))
def scr (s : State) (l : List (Nat × Byte)) : State := s.modTeam 1 (fun t => { t with scratchSize := 4096, scratch := l })

theorem witness_copy_forms :
    (let c := copyOf 0x40000 0x88000000 64 0xFE000000 0 1
     let s := withCopy c (mapped.wrN k0 [7, 0, 0, 0, 9])
     (movedElems c c.shp.count 0 s).isSome = true ∧ c.shp.sscr = false ∧ c.shp.dscr = true ∧ c.shp.op = 0 ∧ c.shp.count = 2 ∧
       c.shp.remote = false) ∧
    (let c := copyOf 64 0x90000000 0x40000 0xFE000000 0x1000 1
     let s := withCopy c (scr mapped [(64, 5)])
     (movedElems c c.shp.count 0 s).isSome = true ∧ c.shp.sscr = true ∧ c.shp.dscr = false ∧ c.shp.op = 1) ∧
    (let c := copyOf 64 0x98000000 128 0xFE000000 0xB000 2
     c.shp.op = 0xB ∧ c.shp.count = 3 ∧ fpWords 2 [1, 0, 0, 0, 2, 0, 0, 0] = [1, 2] ∧
     (match sideRead c false true 64 12 (scr mapped []) with
      | .ok bs u => match sideUpdate c false true 128 12 (fun d => (smx3 (fpWords 3 d) (fpWords 3 bs)).flatMap (leBytes 4)) u with | .ok _ _ => true | _ => false
      | _ => false) = true) ∧
    (let c := copyOf 128 0x98000000 1280 0xFE000000 0xA000 0
     c.shp.op = 0xA ∧ c.shp.count = 1 ∧
     (match sideRead c false true 1280 64 summaries with
      | .ok h u => decide (fieldOf h 0 1 = 1) && headerOk 1 h && (match sideRead c false true 128 (summSize 1) u with | .ok bs _ => headerOk 1 bs | _ => false)
      | _ => false) = true) := by decide +kernel

theorem test_copy_forms :
    runs (.copyCompletion 0 0) (withCopy (copyOf 0x40000 0x88000000 64 0xFE000000 0 1) (mapped.wrN k0 [7, 0, 0, 0, 9]))
      (fun t => decide ((t.team 1).scratch.at 64 = 7 ∧ (t.team 1).scratch.at 68 = 9 ∧ (t.core 0).eddy = [] ∧ t.me.flags = 0)) = true ∧
    runs (.copyCompletion 0 0) (withCopy (copyOf 64 0x90000000 0x40000 0xFE000000 0x1000 1) ((scr mapped [(64, 5)]).wrN k0 [3]))
      (fun t => decide (t.rdN k0 5 = [8, 0, 0, 0, 0] ∧ (t.core 0).eddy = [])) = true := by decide +kernel

/-- PrivilegedInstructions: KZERO of a slot that a LOST context is bound to, and of a running one's. -/
def keyed (st : CtxSt) : State :=
  ({ reg with cur := { agent := 0, act := 1, pc := 0x10000 }, keys := [(5, { owner := some 0, mem := some 1, bound := some 1 })] }).modCtx 1
    (fun x => { x with st := st })
def keyedLost : State := { keyed .lost with teams := [], grids := [] }

theorem witness_kzero :
    goes keyedLost (.kzero { a := .imm 5 }) = true ∧ keyedLost.isHw = true ∧ keyedLost.actMask {} ≠ 0 ∧ (keyedLost.key 5).bound = some 1 ∧
    (keyedLost.ctx 1).st = .lost ∧ ctxGrids keyedLost 1 = [] ∧ ctxTeams keyedLost 1 = [] ∧ confCores keyedLost 1 = false ∧
    goes (keyed .running) (.kzero { a := .imm 5 }) = true ∧ ((keyed .running).ctx 1).st = .running := by decide +kernel

theorem test_kzero :
    runs (.kzero { a := .imm 5 }) keyedLost (fun t => decide ((t.ctx 1).st = .free ∧ (t.key 5).mem = none ∧ (t.key 5).bound = none ∧
      (t.me.lane 0).pc = 0x10004 ∧ t.retiredHw = 1)) = true ∧
    runs (.kzero { a := .imm 5 }) (keyed .running) (fun t => decide ((t.ctx 1).st = .stopping ∧ (t.ctx 1).stop = .capture 0 true ∧
      t.keys = (keyed .running).keys ∧ (t.me.lane 0).st = .kzero 5 ∧ t.retiredHw = 0)) = true ∧
    runs (.pfree { dst := .s 5, a := .s 4 }) ({ withRegs [] [(4, 0x40000005)] hw with keys := [(5, { owner := some 0 })] }.modPart 0
      (fun x => { x with st := .ready })) (fun t => decide ((t.part 0).st = .scrubbing ∧ (t.part 0).clearing = [(4, 5, true)] ∧ t.me.sreg 5 = 0)) = true := by
  decide +kernel

/-- HostCommands: a program's store to word 2 of device 9's kick page; no host page is absent. -/
def kickAcc : Acc := { acc1 with pa := 44 * 2 ^ 58 + 4096 * 9 + 64 * 2 }
def kicking : State := (commanded 1 kdesc1 mapped).modCore 0 (fun c =>
  { c with queue := [{ id := 3, kind := .store, agent := 1, line := lineOf kickAcc.pa, accs := [kickAcc] }] })

theorem witness_kick_page : (takeReq kicking 0 0).map (fun r => (r.kind, r.accs, r.line)) = some (.store, [kickAcc], lineOf kickAcc.pa) ∧
    kickAcc.n = 4 ∧ (kicking.vdev 9).bound = some 1 ∧ (kicking.part (kicking.ctx 1).part).st ≠ .resetting ∧ (kicking.ctx 1).st = .running ∧
    kicking.hostAbsent = [] ∧ kicking.hostWaits = [] ∧ kicking.hostWrites = [] := by decide +kernel

theorem test_kick_page : runs (.homeSliceArrival 0 0) kicking (fun t => decide ((t.vq 9 2).tail = 7 ∧ (t.vdev 9).kicks.at 2 = 7 ∧
    t.mem = kicking.mem)) = true := by decide +kernel

/-- ClockEvents: a grid that has ended within the window is charged to the account. -/
def endedGrid : State := ({ reg with grids := [], gtime := 10000 }).modPart 0 (fun x => { x with ended := [(1, 5000)] })

theorem witness_late_share : counted endedGrid 0 [(1, 7)] = [(1, 7)] ∧ gridOpen endedGrid 1 = false := by decide +kernel

theorem test_late_share : runs (.energyMeterWindow 0 [(10, [(1, 7)])]) endedGrid
    (fun t => decide ((t.part 0).emeter = 10 ∧ (t.part 0).eacct = -10)) = true := by decide +kernel

/-- TimeOuts: two QPOPs of one group in two instances, one of which has run out. -/
def twoPops : State :=
  { reg.modGrp 1 (fun g => { g with lanes := [(0, { st := .qpop 31 (some 0), pc := 0x10000, nx := 0x10004 }),
      (1, { st := .qpop 30 (some 4), pc := 0x10000, nx := 0x10004 })] }) with
    insts := [(5, { live := true, qwait := [(1, 1, 31, 9)] }), (6, { live := true, qwait := [(1, 2, 30, 10)] })] }

theorem witness_qpops : (twoPops.insts.map (·.1)).Nodup ∧ twoPops.insts.all (fun p => decide p.2.qwait.Nodup) = true ∧
    (twoPops.insts.all (fun p => twoPops.insts.all (fun q => p.2.qwait.all (fun w => q.2.qwait.all (fun v =>
      decide (w.2.2.1 ≠ v.2.2.1) || decide (p.1 = q.1 ∧ w = v)))))) = true ∧
    (1 : Mask) &&& (twoPops.grp 1).lanesWith (fun y => y = .qpop 31 (some 0)) ≠ 0 := by decide +kernel

theorem test_qpops : runs (.qpopTimeout 1) twoPops (fun t => decide ((t.inst 5).qwait = [] ∧ (t.inst 6).qwait = [(1, 2, 30, 10)] ∧
    (t.grp 1).sreg 31 = 0xFFFFFFFF ∧ ((t.grp 1).lane 0).pc = 0x10004 ∧ ((t.grp 1).lane 1).pc = 0x10000)) = true := by decide +kernel

/-- FabricEvents: frames of a port that fail their check, that are no flit's, and that carry the next flit. -/
def ported : State := { reg with boot := { reg.boot with routes := [(4, 3)] } }
def flitFrame : List Byte := flitWire (writeFl 0x40000) {} false 0

theorem witness_frames :
    portOf ported 4 = some 2 ∧ [[]].all checked = false ∧ ([] : List (List Byte)).all checked = true ∧
    (linkOf []).testBit 28 = false ∧ carries (writeFl 0x40000) 0 [] = false ∧ carries (writeFl 0x40000) 0 [flitFrame] = true ∧
    (linkOf flitFrame).testBit 28 = false := by decide +kernel

/-- FabricEvents: the frame of a flit passes its check. -/
theorem witness_checked : checked flitFrame = true := by
  have key (b : List Byte) (h : b.length = 248) : checked (b ++ leBytes 8 (Config.crc64 b).toNat) = true := by
    simp [checked, List.drop_left' h, List.take_left' h, ofLe_leBytes, leBytes_length, h]
    omega
  exact key _ (by decide +kernel)

/-- FabricEvents: a WRITE of a mismatched instance; one that pushes its tile; a read of a quiet line; a late acknowledgement; a request
that differs; an instance that waits while its fields differ. -/
theorem witness_instances :
    let x : Inst := { live := true, ctx := 1, gid := 2, team := 1, agent := 1 }
    let w : Flit := { writeFl 0x40000 with data := leBytes 8 0x40000 ++ leBytes 4 0 ++ [7, 0, 0, 0] ++ [1, 2, 3, 4] }
    let s : State := { grouped2 1 mapped with insts := [(5, x)] }
    (let s : State := { s with insts := [(5, { x with mismatch := true })] }
     behindFlit s w = false ∧ wayOf s w false = .now (some 5) ∧ (∃ n ∈ mismatched s w, (s.inst n).mismatch = true) ∧
       (s.inst 5).tiles.length + (s.inst 5).arrivals.length < Config.tileQueue) ∧
    (wayOf s w false = .now (some 5) ∧ (∀ n ∈ mismatched s w, (s.inst n).mismatch = false) ∧ w.src ≠ s.boot.moduleNo ∧
      sub w.data 13 3 = (s.inst 5).desc ∧ fieldOf w.data 12 1 = 7 ∧ (s.inst 5).pushed = [] ∧ (s.inst 5).arrivals = [] ∧
      (match peerWrite 1 0x40000 [1, 2, 3, 4] s with | .ok _ => true | _ => false) = true) ∧
    quiet mapped 0 (lineOf k0) = true ∧
    (let s := reg.modCtx 1 (fun y => { y with lateAcks := [(2, 1)], noticeAcks := [(2, 1)] })
     (2, 1) ∈ (s.ctx 1).lateAcks ∧ infoCode (infoOf 2 0 0 1 9) = 9) ∧
    (let y : Slot := { used := true, ctx := 1, gid := 2, members := [(0, 1), (4, 1)], descs := [(0, [1, 2, 3])], asking := [(1, [1, 2, 4])] }
     y.descs.at 0 ≠ [] ∧ y.refused = false ∧ ∃ p ∈ y.asking, p.2 ≠ y.descs.at 0) ∧
    (let f : Flit := { typ := 6, src := 4, ctx := 1, info := infoOf 2 0 0 0 1, data := leBytes 4 0 ++ leBytes 4 0x7F }
     let s : State := { grouped2 0 mapped with insts := [(5, { x with live := false, waiting := true })] }
     wayOf s f true = .early ∧ infoCode f.info = 1 ∧ mismatched s f = [5] ∧ (s.inst 5).waiting = true ∧ (s.inst 5).closing = false ∧
       (s.team 1).inst ≠ 5 ∧ (s.grp 1).ended = false) := by decide +kernel

theorem test_instances :
    let x : Inst := { live := true, ctx := 1, gid := 2, team := 1, agent := 1 }
    let w : Flit := { writeFl 0x40000 with data := leBytes 8 0x40000 ++ leBytes 4 0 ++ [7, 0, 0, 0] ++ [1, 2, 3, 4] }
    let s : State := { grouped2 1 mapped with insts := [(5, x)] }
    runs (.write w) { s with insts := [(5, { x with mismatch := true })] } (fun t => decide (t.rdN k0 4 = [0, 0, 0, 0] ∧ t.sent.map (·.typ) = [4])) = true ∧
    runs (.write w) s (fun t => decide (t.rdN k0 4 = [1, 2, 3, 4] ∧ (t.inst 5).arrivals = [(1, 0)] ∧ t.sent.map (·.typ) = [4])) = true ∧
    runs (.result { typ := 6, src := 4, ctx := 1, info := infoOf 2 0 0 0 1, data := leBytes 4 0 ++ leBytes 4 0x7F })
      { grouped2 0 mapped with insts := [(5, { x with live := false, waiting := true, dst := 10 })] }
      (fun t => decide ((t.inst 5).live = true ∧ (t.inst 5).mismatch = true ∧ (t.grp 1).faults.map (·.code) = [cCOLL])) = true := by decide +kernel

/-- StopEvents: one saved team with its groups; the counted stop and a step while a drain is under way. -/
theorem witness_stop_forms :
    (let v : Saved := { teams := [(1, team1)], groups := [(1, { role := .produce, team := 1, budget := 64 })] }
     let s := reg.modCtx 1 (fun x => { x with st := .stopped, vrun := false, saved := some v })
     (savedTeams s 1 v).length = 1 ∧ (savedGroups s 1 v).map (·.1) = [1]) ∧
    (let s := (stopping (.drain 0) true reg).modCtx 1 (fun x => { x with dbgset := 8, rstop := 5, retired := 5, stepping := true })
     (s.ctx 1).st = .stopping ∧ (s.ctx 1).stop = .drain 0 ∧ (s.ctx 1).vrun = true ∧ (s.ctx 1).rstop.toNat ≤ (s.ctx 1).retired) := by decide +kernel

theorem test_stop_forms :
    let s := (stopping (.drain 0) true reg).modCtx 1 (fun x => { x with dbgset := 0x18, rstop := 5, retired := 5, stepping := true })
    runs (.rstop 1) s (fun t => decide ((t.ctx 1).stop = .capture 0 false ∧ (t.ctx 1).dbgset = 0x10)) = true ∧
    runs (.stepTimeout 1) { s with gtime := 65536 } (fun t => decide ((t.ctx 1).stop = .capture 65536 false ∧ (t.ctx 1).stepping = false)) = true := by
  decide +kernel

/-- ErrorEvents, PartitionEvents: a partition that is being scrubbed, whose cluster's clearing and whose storage's have ended; a job
that clears a channel. -/
theorem witness_scrubbing :
    (let s := reg.modPart 0 (fun x => { x with st := .scrubbing })
     (s.part 0).st = .scrubbing ∧ ownerOf s 0 0 = some 0 ∧ beingCleared s 0 0 = false ∧ ownerOf s 2 1 = some 0 ∧
       cleansTo false (s.part 0).jobs 0 < s.hbmSize 0) ∧
    (let s := reg.modPart 0 (fun x => { x with jobs := [{ base := 0, pages := 1, clear := some (2, 3) }], clearing := [(2, 3, true)] })
     (s.part 0).paused = false ∧ ∀ j ∈ (s.part 0).jobs, j.fence = false ∧ j.pages ≤ j.done + 1 ∧ j.clear = some (2, 3)) := by decide +kernel

theorem test_scrubbing :
    runs (.uncorrectableError 0 0) (reg.modPart 0 (fun x => { x with st := .scrubbing })) (fun t => decide ((t.part 0).clearing = [(0, 0, false)])) = true ∧
    runs (.sluicePage 0) (reg.modPart 0 (fun x => { x with jobs := [{ base := 0, pages := 1, clear := some (2, 3) }], clearing := [(2, 3, true)] }))
      (fun t => decide ((t.part 0).channels = [0, 1, 2] ∧ (t.part 0).clearing = [])) = true := by decide +kernel

end Sys2Proof.Tests
end

section
/-!
PROOF. The integer and logic instructions (opcodes 0x20 to 0x38): each result that the machine forms on numbers is the
spec's result on bit vectors, for every width, and each instruction writes it and completes.
-/

namespace Sys2Proof.Machine

open Sys2Proof.Safety

variable {w : Nat}

/-! ## Numbers of words (R95) -/

theorem toS_toNat (x : BitVec w) : toS w x.toNat = x.toInt := by
  have hx := x.isLt
  rw [toS, Nat.mod_eq_of_lt hx, BitVec.toInt_eq_toNat_cond]
  cases w with
  | zero => simp_all
  | succ n =>
    rw [Nat.add_sub_cancel, Nat.pow_succ'] at *
    split <;> split <;> omega

theorem val_toNat (u : Bool) (x : BitVec w) : val u w x.toNat = num u x := by
  cases u
  · exact toS_toNat x
  · rfl

theorem wrapN_eq_ofInt (r : Int) : wrapN w r = (BitVec.ofInt w r).toNat := rfl

theorem wrapN_natCast (n : Nat) : wrapN w (n : Int) = n % 2 ^ w := rfl

/-- Where the result is clamped to what `w` bits hold unsigned, wrapping leaves it as it is. -/
theorem satU_eq_ofInt (r : Int) :
    satU w r = (BitVec.ofInt w (Max.max 0 (Min.min r (2 ^ w - 1)))).toNat := by
  have hp : (0 : Int) < ((2 ^ w : Nat) : Int) := by exact_mod_cast Nat.two_pow_pos w
  have hc : (2 : Int) ^ w = ((2 ^ w : Nat) : Int) := by push_cast; rfl
  rw [BitVec.toNat_ofInt, hc, Int.emod_eq_of_lt (by omega) (by omega), satU]
  congr 1
  split
  · omega
  · split <;> omega

theorem satS_eq_ofInt (r : Int) :
    satS w r = (BitVec.ofInt w (Max.max (-(2 ^ (w - 1))) (Min.min r (2 ^ (w - 1) - 1)))).toNat := by
  have hp : (0 : Int) < ((2 ^ (w - 1) : Nat) : Int) := by exact_mod_cast Nat.two_pow_pos (w - 1)
  have hc : (2 : Int) ^ (w - 1) = ((2 ^ (w - 1) : Nat) : Int) := by push_cast; rfl
  rw [hc, ← wrapN_eq_ofInt, satS]
  congr 1
  split
  · omega
  · split <;> omega

/-- The machine's narrowing is the spec's: wrapped, or clamped to the destination's range. -/
theorem narrow_eq_fit (s u : Bool) (r : Int) : narrow s u w r = (fit s u w r).toNat := by
  cases s
  · rfl
  · cases u
    · exact satS_eq_ofInt r
    · exact satU_eq_ofInt r

/-! ## Arithmetic results (R368, R369, R424) -/

theorem addR_eq_fit (s u : Bool) (x y : BitVec w) :
    addR s u w x.toNat y.toNat = (fit s u w (num u x + num u y)).toNat := by
  rw [addR, narrow_eq_fit, val_toNat, val_toNat]

theorem subR_eq_fit (s u : Bool) (x y : BitVec w) :
    subR s u w x.toNat y.toNat = (fit s u w (num u x - num u y)).toNat := by
  rw [subR, narrow_eq_fit, val_toNat, val_toNat]

theorem mulR_eq_fit (s u : Bool) (x y : BitVec w) :
    mulR s u w x.toNat y.toNat = (fit s u w (num u x * num u y)).toNat := by
  rw [mulR, narrow_eq_fit, val_toNat, val_toNat]

theorem madR_eq_fit (s u : Bool) (x y z : BitVec w) :
    madR s u w x.toNat y.toNat z.toNat = (fit s u w (num u x * num u y + num u z)).toNat := by
  rw [madR, narrow_eq_fit, val_toNat, val_toNat, val_toNat]

theorem mulhR_eq_ofInt (u : Bool) (x y : BitVec w) :
    mulhR u w x.toNat y.toNat = (BitVec.ofInt w (num u x * num u y / 2 ^ w)).toNat := by
  rw [mulhR, wrapN_eq_ofInt, val_toNat, val_toNat]
  push_cast
  rfl

theorem maxR_eq (u : Bool) (x y : BitVec w) :
    maxR u w x.toNat y.toNat = (if num u x < num u y then y else x).toNat := by
  rw [maxR, val_toNat, val_toNat, apply_ite BitVec.toNat]

theorem minR_eq (u : Bool) (x y : BitVec w) :
    minR u w x.toNat y.toNat = (if num u y < num u x then y else x).toNat := by
  rw [minR, val_toNat, val_toNat, apply_ite BitVec.toNat]

/-- The mask of .H2 lies in the low 32 bits, so a 64-bit source keeps nothing above them. -/
theorem and_h2_toNat (hw : 32 ≤ w) (x : BitVec w) :
    (bv 32 x.toNat &&& 0x7FFF7FFF#32).toNat = (x &&& BitVec.ofNat w 0x7FFF7FFF).toNat := by
  have h : (0x7FFF7FFF : Nat) < 2 ^ w := lt_of_lt_of_le (by decide) (Nat.pow_le_pow_right (by decide) hw)
  simp only [BitVec.toNat_and, BitVec.toNat_ofNat, Nat.mod_eq_of_lt h]
  rw [← Nat.and_two_pow_sub_one_eq_mod x.toNat 32, Nat.and_assoc]
  rfl

theorem and_f32_toNat (hw : 32 ≤ w) (x : BitVec w) :
    x.toNat % 2 ^ 31 = (x &&& BitVec.ofNat w 0x7FFFFFFF).toNat := by
  have h : (0x7FFFFFFF : Nat) < 2 ^ w := lt_of_lt_of_le (by decide) (Nat.pow_le_pow_right (by decide) hw)
  rw [BitVec.toNat_and, BitVec.toNat_ofNat, Nat.mod_eq_of_lt h]
  exact (Nat.and_two_pow_sub_one_eq_mod x.toNat 31).symm

theorem absR_eq (hw : 32 ≤ w) (md : BitVec 8) (s : Bool) (x : BitVec w) :
    absR (md.toNat % 16) s w x.toNat = (absV (md.extractLsb' 0 4) s x).toNat := by
  have hsub (k : BitVec 4) : md.toNat % 16 = k.toNat ↔ md.extractLsb' 0 4 = k := by
    simp [BitVec.toNat_eq]
  have h1 : md.toNat % 16 = 1 ↔ md.extractLsb' 0 4 = 1 := hsub 1
  have h2 : md.toNat % 16 = 2 ↔ md.extractLsb' 0 4 = 2 := hsub 2
  rw [absR, absV, toS_toNat, narrow_eq_fit, and_h2_toNat hw, and_f32_toNat hw]
  simp only [h1, h2, apply_ite BitVec.toNat]

/-- LEA's b, extended from 32 bits as U says: at 32 bits both extensions are the word itself. -/
theorem leaB_toNat (o : Body) (b : Word) :
    wrapN (width o) (if wideOf o && !unsOf o then toS 32 b.toNat else (b.toNat : Int)) = (leaB o b).toNat := by
  have hz : wrapN (width o) (b.toNat : Int) = (b.setWidth (width o)).toNat :=
    (wrapN_natCast _).trans (BitVec.toNat_setWidth ..).symm
  have hs : wrapN (width o) b.toInt = (b.signExtend (width o)).toNat := rfl
  rw [leaB, toS_toNat, show uns o = unsOf o from rfl]
  cases unsOf o
  · by_cases hw : wideOf o = true
    · simpa [hw] using hs
    · have hle : width o ≤ 32 := by rw [width, if_neg (by exact hw)]
      simpa [hw, BitVec.signExtend_eq_setWidth_of_le b hle] using hz
  · simpa using hz

/-- The machine wraps the shifted b before the sum and the sum again; the word's sum wraps once. -/
theorem leaR_eq (o : Body) (x : BitVec (width o)) (b c : Word) :
    leaR (unsOf o) (wideOf o) x.toNat b.toNat c.toNat = (x + leaB o b <<< leaS o c).toNat := by
  have hb := leaB_toNat o b
  rw [BitVec.toNat_add, BitVec.toNat_shiftLeft, Nat.shiftLeft_eq, ← hb, ← wrapN_natCast, Nat.cast_add]
  rfl

/-! ## Shifts and bit fields (R379, R380, R447) -/

theorem shlR_eq (x : BitVec w) (b : Word) : shlR w x.toNat b.toNat = (shlV x (shamt b)).toNat := by
  rw [shlR, shlV, apply_ite BitVec.toNat, BitVec.toNat_shiftLeft, Nat.shiftLeft_eq]
  rfl

theorem shrR_eq (x : BitVec w) (b : Word) : shrR w x.toNat b.toNat = (shrV x (shamt b)).toNat := by
  rw [shrR, shrV, apply_ite BitVec.toNat, BitVec.toNat_ushiftRight, Nat.shiftRight_eq_div_pow]
  rfl

/-- A shift by the width or more leaves the sign in every bit, as a shift by the width does. -/
theorem sraV_eq_sshiftRight (x : BitVec w) (n : Nat) : sraV x n = x.sshiftRight (min n w) := by
  rw [sraV]
  split
  · rename_i h
    rw [min_eq_right h]
    ext i hi
    rw [BitVec.getElem_sshiftRight]
    cases x.msb <;> simp
  · rename_i h
    rw [min_eq_left (by omega)]

theorem sraR_eq (x : BitVec w) (b : Word) : sraR w x.toNat b.toNat = (sraV x (shamt b)).toNat := by
  show wrapN w (toS w x.toNat / ((2 ^ min (shamt b) w : Nat) : Int)) = _
  rw [toS_toNat, sraV_eq_sshiftRight, ← Int.shiftRight_eq_div_pow]
  rfl

/-- A mask of the low n bits is a remainder. -/
theorem toNat_and_low_bits (x : Word) (n : Nat) (hn : n ≤ 32) :
    (x &&& BitVec.ofNat 32 (2 ^ n - 1)).toNat = x.toNat % 2 ^ n := by
  have h : 2 ^ n ≤ 2 ^ 32 := Nat.pow_le_pow_right (by decide) hn
  rw [BitVec.toNat_and, BitVec.toNat_ofNat, Nat.mod_eq_of_lt (by have := Nat.two_pow_pos n; omega),
    Nat.and_two_pow_sub_one_eq_mod]

/-- A shift that brings an n-bit field to the top brings its sign there. -/
theorem msb_shiftLeft_field (y : Word) (n : Nat) (h0 : 0 < n) (hn : n ≤ 32) :
    (y <<< (32 - n)).msb = (y.setWidth n).msb := by
  rw [BitVec.msb_shiftLeft, BitVec.msb_setWidth, BitVec.getMsbD, decide_eq_true (by omega : 32 - n < 32),
    decide_eq_true h0, show 32 - 1 - (32 - n) = n - 1 by omega]

/-- A shift to the top and an arithmetic shift back extend an n-bit field by its sign. -/
theorem sshiftRight_shiftLeft_field (y : Word) (n : Nat) (h0 : 0 < n) (hn : n ≤ 32) :
    (y <<< (32 - n)).sshiftRight (32 - n) = (y.setWidth n).signExtend 32 := by
  apply BitVec.eq_of_getLsbD_eq
  intro i hi
  rw [BitVec.getLsbD_sshiftRight, BitVec.getLsbD_signExtend, msb_shiftLeft_field y n h0 hn]
  by_cases h : i < n
  · simp [h, hi, show 32 - n + i < 32 by omega]
  · simp [h, hi, show ¬ 32 - n + i < 32 by omega]

theorem wrapN_toS_field (y : Word) (n : Nat) (h0 : 0 < n) (hn : n ≤ 32) :
    wrapN 32 (toS n (y.toNat % 2 ^ n)) = ((y <<< (32 - n)).sshiftRight (32 - n)).toNat := by
  rw [sshiftRight_shiftLeft_field y n h0 hn, ← BitVec.toNat_setWidth, toS_toNat]
  rfl

theorem bfeR_eq (u : Bool) (x b c : Word) : bfeR u x.toNat b.toNat c.toNat = (bfeV u x b c).toNat := by
  have hdiv : x.toNat / 2 ^ shamt b = (x >>> shamt b).toNat := (Nat.shiftRight_eq_div_pow ..).symm
  unfold bfeR bfeV
  simp only [shamt] at hdiv ⊢
  by_cases h : c.toNat % 256 = 0 ∨ b.toNat % 256 ≥ 32
  · simp only [h, if_true]
    rfl
  · simp only [h, if_false]
    have h0 : 0 < min (c.toNat % 256) (32 - b.toNat % 256) := by omega
    have hn : min (c.toNat % 256) (32 - b.toNat % 256) ≤ 32 := by omega
    rw [hdiv, wrapN_toS_field _ _ h0 hn, ← toNat_and_low_bits _ _ hn, apply_ite BitVec.toNat]

theorem bfiR_eq (y x b c : Word) : bfiR y.toNat x.toNat b.toNat c.toNat = (bfiV y x b c).toNat := by
  unfold bfiR bfiV
  have hm (k n : Nat) : bv 32 (k * 2 ^ n) = BitVec.ofNat 32 k <<< n := by
    apply BitVec.eq_of_toNat_eq
    simp [BitVec.toNat_shiftLeft, Nat.shiftLeft_eq, Nat.mod_mul_mod]
  simp only [shamt, hm, BitVec.ofNat_toNat, BitVec.setWidth_eq]
  exact (apply_ite BitVec.toNat _ _ _).symm

/-! ## Single bits and bytes (R385, R393, R394, R432) -/

theorem brevR_lt (n x : Nat) : brevR n x < 2 ^ n := by
  induction n generalizing x with
  | zero => simp [brevR]
  | succ n ih =>
    have hlow := ih (x / 2)
    have htop : x % 2 * 2 ^ n ≤ 1 * 2 ^ n := Nat.mul_le_mul_right _ (by omega)
    rw [brevR, Nat.pow_succ']
    omega

/-- The machine peels the lowest bit off and puts it on top. -/
theorem brevR_testBit (n x i : Nat) : (brevR n x).testBit i = (decide (i < n) && x.testBit (n - 1 - i)) := by
  induction n generalizing x i with
  | zero => simp [brevR]
  | succ n ih =>
    rw [brevR, Nat.mul_comm, Nat.testBit_two_pow_mul_add _ (brevR_lt ..), ih]
    by_cases h : i < n
    · simp [h, show i < n + 1 by omega, Nat.testBit_div_two, show n - 1 - i + 1 = n - i by omega]
    · by_cases h2 : i = n
      · subst h2; simp [Nat.testBit_zero]
      · have hp : 2 ^ 1 ≤ 2 ^ (i - n) := Nat.pow_le_pow_right (by decide) (by omega)
        have hx : (x % 2).testBit (i - n) = false := Nat.testBit_lt_two_pow (by omega)
        simp [h, hx, show ¬ i < n + 1 by omega]

theorem brevR_eq (x : BitVec w) : brevR w x.toNat = x.reverse.toNat := by
  apply Nat.eq_of_testBit_eq
  intro i
  rw [brevR_testBit, BitVec.testBit_toNat, BitVec.testBit_toNat, BitVec.getLsbD_reverse, BitVec.getMsbD]

/-- The highest set bit stands at w − 1 less the count of leading zeros. -/
theorem clzR_eq (x : BitVec w) : clzR w x.toNat = x.clz.toNat := by
  rw [clzR, bitLen]
  have hlt := x.toNat_lt_two_pow_sub_clz
  split
  · rename_i h
    rw [BitVec.clz_eq_iff_eq_zero.2 (BitVec.eq_of_toNat_eq (by simpa using h))]
    simp
  · rename_i h
    have hc : x.clz.toNat < w := by
      by_contra hge
      rw [Nat.sub_eq_zero_of_le (by omega)] at hlt
      omega
    have hle := BitVec.two_pow_sub_clz_le_toNat_of_ne_zero (x := x) (by omega) (fun h0 => h (by simp [h0]))
    rw [(Nat.log2_eq_iff h).2 ⟨hle, by rwa [show w - 1 - x.clz.toNat + 1 = w - x.clz.toNat by omega]⟩]
    omega

theorem popc_eq_cpopNatRec (x : BitVec w) (n : Nat) : popc x.toNat n = x.cpopNatRec n 0 := by
  induction n with
  | zero => rfl
  | succ n ih =>
    rw [popc, ih, BitVec.cpopNatRec_succ, BitVec.cpopNatRec_eq (acc := 0 + _), Nat.zero_add, Nat.add_comm,
      ← Nat.toNat_testBit, BitVec.testBit_toNat]

theorem popc_eq_cpop (x : BitVec w) : popc x.toNat w = x.cpop.toNat := by
  rw [BitVec.toNat_cpop, popc_eq_cpopNatRec]

theorem bits_eq_extractLsb' (x : BitVec w) {hi lo n : Nat} (h : hi + 1 - lo = n) :
    bits x.toNat hi lo = (x.extractLsb' lo n).toNat := by
  subst h
  rw [bits, BitVec.extractLsb'_toNat, Nat.shiftRight_eq_div_pow]

theorem bit1_toNat (x : BitVec w) (i : Nat) : bit1 x.toNat i = x.getLsbD i :=
  (Nat.testBit_eq_decide_div_mod_eq ..).symm

theorem permByte_eq (a b c : Word) (k : Nat) : permByte (b ++ a).toNat c.toNat k = (permV a b c k).toNat := by
  have hj : bits c.toNat (3 * k + 2) (3 * k) = (c.extractLsb' (3 * k) 3).toNat := bits_eq_extractLsb' c (by omega)
  have hm : bits c.toNat (17 + 2 * k) (16 + 2 * k) = (c.extractLsb' (16 + 2 * k) 2).toNat :=
    bits_eq_extractLsb' c (by omega)
  have hy (j : Nat) : bits (b ++ a).toNat (8 * j + 7) (8 * j) = ((b ++ a).extractLsb' (8 * j) 8).toNat :=
    bits_eq_extractLsb' (b ++ a) (by omega)
  rw [permByte, permV, hj, hm]
  -- by byte k's mode: the byte, zero, its sign, its word's sign
  generalize c.extractLsb' (16 + 2 * k) 2 = m
  simp only [hy, bit1_toNat, BitVec.msb_eq_getLsbD_last]
  split <;> simp_all [BitVec.toNat_eq, apply_ite BitVec.toNat]

/-- Two words side by side as a number. -/
theorem toNat_append_eq_add {n m : Nat} (x : BitVec n) (y : BitVec m) : (x ++ y).toNat = y.toNat + x.toNat * 2 ^ m := by
  rw [BitVec.toNat_append, ← Nat.shiftLeft_add_eq_or_of_lt y.isLt, Nat.shiftLeft_eq, Nat.add_comm]

theorem permR_eq (a b c : Word) :
    permR a.toNat b.toNat c.toNat = (permV a b c 3 ++ permV a b c 2 ++ permV a b c 1 ++ permV a b c 0).toNat := by
  rw [permR, ← toNat_append_eq_add b a]
  simp only [permByte_eq]
  simp only [toNat_append_eq_add]
  omega

/-! ## Conditions (R367) -/

/-- SUB and U of the modifier bytes that CMP lists, which leave bit 7 clear. -/
theorem cmp_fields (md : BitVec 8) (h7 : md.getLsbD 7 = false) :
    (md &&& 0xEF#8).toNat % 16 = (md.extractLsb' 0 4).toNat ∧
      decide ((md &&& 0xEF#8).toNat ≥ 0x40) = md.getLsbD 6 := by
  revert md
  decide

/-- By SUB: each condition compares the values that `val` and `num` give alike. -/
theorem condR_eq (md : BitVec 8) (h7 : md.getLsbD 7 = false) (x y : BitVec w) :
    condR (md &&& 0xEF#8).toNat w x.toNat y.toNat = condV (md.extractLsb' 0 4) (md.getLsbD 6) x y := by
  obtain ⟨hsub, hu⟩ := cmp_fields md h7
  rw [condR, condV, hsub, hu]
  simp only [val_toNat]
  split <;> simp_all [BitVec.toNat_eq]

/-- CMP's result: 1 where the condition holds, else 0. -/
theorem bv_condR_eq (md : BitVec 8) (h7 : md.getLsbD 7 = false) (x y : BitVec w) :
    bv 64 (if condR (md &&& 0xEF#8).toNat w x.toNat y.toNat then 1 else 0)
      = if condV (md.extractLsb' 0 4) (md.getLsbD 6) x y then 1 else 0 := by
  rw [condR_eq md h7]
  exact apply_ite (bv 64) _ 1 0

/-! ## Sources and forms (R345 to R347, R367, R447) -/

theorem toNat_setWidth_word_lt (x : Word) : (x.setWidth 64).toNat < 2 ^ 32 := by
  rw [BitVec.toNat_setWidth]
  exact (Nat.mod_le ..).trans_lt x.isLt

/-- A source that is read at 32 bits leaves nothing above them. -/
theorem opv_narrow_lt (g : Group) (x : Opd) (l : Nat) : (g.opv false x l).toNat < 2 ^ 32 := by
  cases x with
  | v n => exact toNat_setWidth_word_lt (g.vreg n.toNat l)
  | s n => exact toNat_setWidth_word_lt (g.sreg n.toNat)
  | p n => rw [Group.opv]; split <;> decide
  | x n => exact toNat_setWidth_word_lt (g.xreg n.toNat l)
  | imm i => exact toNat_setWidth_word_lt (i.signExtend 32)
  | lit c => exact toNat_setWidth_word_lt c
  | _ => exact (by decide : (0 : DWord).toNat < 2 ^ 32)

theorem src_toNat (wide : Bool) (g : Group) (x : Opd) (l : Nat) :
    (src (wOf wide) g x l).toNat = (g.opv wide x l).toNat := by
  cases wide
  · exact Nat.mod_eq_of_lt (opv_narrow_lt g x l)
  · show ((g.opv true x l).setWidth 64).toNat = _
    rw [BitVec.setWidth_eq]

theorem bodyOk_mods {opc : BitVec 8} {o : Body} (h : bodyOk opc o = true) : (shape opc o.md o.cc).mods = true := by
  simp only [bodyOk, Bool.and_eq_true] at h
  tauto

theorem bodyOk_c {opc : BitVec 8} {o : Body} (h : bodyOk opc o = true) :
    (shape opc o.md o.cc).c.fits false o.c = true := by
  simp only [bodyOk, Bool.and_eq_true] at h
  tauto

/-- The modifier bytes that CMP's form lists (R367) leave bit 7 clear. -/
theorem cmp_wf_md_bit7 {o : Body} (h : (Instr.cmp o).wf = true) : o.md.getLsbD 7 = false := by
  have hm : (intShape 0x27 o.md).mods = true := bodyOk_mods h
  revert hm
  generalize o.md = md
  revert md
  decide

/-- SEL's source c is a predicate, read as 0 or 1. -/
theorem sel_wf_c_eq_one_iff {o : Body} (h : (Instr.sel o).wf = true) (g : Group) (l : Nat) :
    (src 32 g o.c l).toNat = 1 ↔ g.preg o.c.num l = true := by
  obtain ⟨n, hn⟩ : ∃ n, o.c = .p n := by
    have hc : Kind.fits .p false o.c = true := bodyOk_c h
    cases hx : o.c <;> simp_all [Kind.fits]
  rw [hn]
  show ((if g.preg n.toNat l then (1 : DWord) else 0).setWidth 32).toNat = 1 ↔ g.preg n.toNat l = true
  cases g.preg n.toNat l <;> decide

/-! ## Instructions -/

/-- An instruction that is an operation on the numbers of its sources writes what that operation is on words. -/
theorem gives_of_intOp {i : Body → Instr} {opc : BitVec 8} (wa wb wc wd : Body → Bool)
    {f : Body → Nat → Nat → Nat → Nat → Nat} {v : Body → Group → Nat → DWord}
    (hx : ∀ o s, exec (i o) s = perform opc o (intOp o (wa o) (wb o) (wc o) (wd o) (f o)) s)
    (hv : ∀ o g l, (i o).wf = true → bv 64 (f o (src (wOf (wa o)) g o.a l).toNat (src (wOf (wb o)) g o.b l).toNat
      (src (wOf (wc o)) g o.c l).toNat (src (wOf (wd o)) g o.dst l).toNat) = v o g l) : Gives i opc wd v := by
  intro o s hwf hi
  obtain ⟨t, ht, hw⟩ := writes_of_laneOp (k := intOp o (wa o) (wb o) (wc o) (wd o) (f o)) hi rfl
  refine ⟨t, (hx o s).trans ht, ?_⟩
  have hval : v o s.me = fun l => bv 64 (f o (s.me.opv (wa o) o.a l).toNat (s.me.opv (wb o) o.b l).toNat
      (s.me.opv (wc o) o.c l).toNat (s.me.opv (wd o) o.dst l).toNat) := by
    funext l
    rw [← hv o s.me l hwf, src_toNat, src_toNat, src_toNat, src_toNat]
  rw [hval]
  simpa only [entered_opv] using hw

/-- The same where the result is a word of some width. -/
theorem gives_of_toNat {i : Body → Instr} {opc : BitVec 8} (wa wb wc wd : Body → Bool)
    {f : Body → Nat → Nat → Nat → Nat → Nat} {n : Body → Nat} {v : (o : Body) → Group → Nat → BitVec (n o)}
    (hx : ∀ o s, exec (i o) s = perform opc o (intOp o (wa o) (wb o) (wc o) (wd o) (f o)) s)
    (hv : ∀ o g l, (i o).wf = true → f o (src (wOf (wa o)) g o.a l).toNat (src (wOf (wb o)) g o.b l).toNat
      (src (wOf (wc o)) g o.c l).toNat (src (wOf (wd o)) g o.dst l).toNat = (v o g l).toNat) :
    Gives i opc wd (fun o g l => (v o g l).setWidth 64) :=
  gives_of_intOp wa wb wc wd hx (fun o g l h => by rw [hv o g l h]; exact BitVec.ofNat_toNat 64 (v o g l))

/-- The same for two sources and a destination of one width. -/
theorem gives_of_int2 {i : Body → Instr} {opc : BitVec 8} {f : Body → Nat → Nat → Nat → Nat} {n : Body → Nat}
    {v : (o : Body) → Group → Nat → BitVec (n o)} (hx : ∀ o s, exec (i o) s = perform opc o (int2 o (f o)) s)
    (hv : ∀ o g l, f o (width o) (A o g l).toNat (B o g l).toNat = (v o g l).toNat) :
    Gives i opc wide (fun o g l => (v o g l).setWidth 64) :=
  gives_of_toNat wideOf wideOf wideOf wideOf (f := fun o a b _ _ => f o (wOf (wideOf o)) a b) hx
    (fun o g l _ => hv o g l)

/-- A field that is read or written at 32 bits whatever W says (R351). -/
abbrev narrowOf (_ : Body) : Bool := false

theorem le_width (o : Body) : 32 ≤ width o := by
  unfold width
  split <;> decide

/-- Settles O3: each instruction is an operation on the numbers of its sources (`gives_of_intOp`), and that operation is
the exact result, wrapped or clamped by `fit`. -/
theorem integerArithmetic : Obligations.IntegerArithmetic := by
  unfold Obligations.IntegerArithmetic
  refine ⟨?abs, ?add, ?lea, ?mad, ?max, ?min, ?mul, ?mulh, ?sub⟩
  case abs =>
    exact gives_of_toNat wideOf narrowOf narrowOf wideOf (fun _ _ => rfl)
      (fun o g l _ => absR_eq (le_width o) o.md (sat o) (A o g l))
  case add => exact gives_of_int2 (fun _ _ => rfl) (fun o g l => addR_eq_fit (sat o) (uns o) (A o g l) (B o g l))
  case lea =>
    exact gives_of_toNat wideOf narrowOf narrowOf wideOf (fun _ _ => rfl)
      (fun o g l _ => leaR_eq o (A o g l) (b32 o g l) (c32 o g l))
  case mad =>
    exact gives_of_toNat wideOf wideOf wideOf wideOf (fun _ _ => rfl)
      (fun o g l _ => madR_eq_fit (sat o) (uns o) (A o g l) (B o g l) (C o g l))
  case max => exact gives_of_int2 (fun _ _ => rfl) (fun o g l => maxR_eq (uns o) (A o g l) (B o g l))
  case min => exact gives_of_int2 (fun _ _ => rfl) (fun o g l => minR_eq (uns o) (A o g l) (B o g l))
  case mul => exact gives_of_int2 (fun _ _ => rfl) (fun o g l => mulR_eq_fit (sat o) (uns o) (A o g l) (B o g l))
  case mulh => exact gives_of_int2 (fun _ _ => rfl) (fun o g l => mulhR_eq_ofInt (uns o) (A o g l) (B o g l))
  case sub => exact gives_of_int2 (fun _ _ => rfl) (fun o g l => subR_eq_fit (sat o) (uns o) (A o g l) (B o g l))

/-- Settles O4: each instruction is an operation on the numbers of its sources (`gives_of_intOp`), and that operation is
the spec's on words; CMP's modifier byte and SEL's predicate come from the form of a well-formed instruction. -/
theorem integerLogic : Obligations.IntegerLogic := by
  unfold Obligations.IntegerLogic
  refine ⟨⟨?and, ?or, ?xor, ?not, ?mov, ?sel, ?shl, ?shr, ?sra, ?brev, ?bfe, ?bfi, ?perm⟩, ?cmp, ?clz, ?popc⟩
  case and => exact gives_of_int2 (fun _ _ => rfl) (fun o g l => (BitVec.toNat_and (A o g l) (B o g l)).symm)
  case or => exact gives_of_int2 (fun _ _ => rfl) (fun o g l => (BitVec.toNat_or (A o g l) (B o g l)).symm)
  case xor => exact gives_of_int2 (fun _ _ => rfl) (fun o g l => (BitVec.toNat_xor (A o g l) (B o g l)).symm)
  case not => exact gives_of_int2 (fun _ _ => rfl) (fun o g l => (BitVec.toNat_not (x := A o g l)).symm)
  case mov => exact gives_of_int2 (fun _ _ => rfl) (fun o g l => rfl)
  case sel =>
    exact gives_of_toNat wideOf wideOf narrowOf wideOf (fun _ _ => rfl)
      (fun o g l h => (if_congr (sel_wf_c_eq_one_iff h g l) rfl rfl).trans
        (apply_ite BitVec.toNat _ (A o g l) (B o g l)).symm)
  case shl =>
    exact gives_of_toNat wideOf narrowOf narrowOf wideOf (fun _ _ => rfl) (fun o g l _ => shlR_eq (A o g l) (b32 o g l))
  case shr =>
    exact gives_of_toNat wideOf narrowOf narrowOf wideOf (fun _ _ => rfl) (fun o g l _ => shrR_eq (A o g l) (b32 o g l))
  case sra =>
    exact gives_of_toNat wideOf narrowOf narrowOf wideOf (fun _ _ => rfl) (fun o g l _ => sraR_eq (A o g l) (b32 o g l))
  case brev => exact gives_of_int2 (fun _ _ => rfl) (fun o g l => brevR_eq (A o g l))
  case bfe =>
    exact gives_of_toNat narrowOf narrowOf narrowOf narrowOf (fun _ _ => rfl)
      (fun o g l _ => bfeR_eq (uns o) (a32 o g l) (b32 o g l) (c32 o g l))
  case bfi =>
    exact gives_of_toNat narrowOf narrowOf narrowOf narrowOf (fun _ _ => rfl)
      (fun o g l _ => bfiR_eq (src 32 g o.dst l) (a32 o g l) (b32 o g l) (c32 o g l))
  case perm =>
    exact gives_of_toNat narrowOf narrowOf narrowOf narrowOf (fun _ _ => rfl)
      (fun o g l _ => permR_eq (a32 o g l) (b32 o g l) (c32 o g l))
  case cmp =>
    exact gives_of_intOp wideOf wideOf narrowOf narrowOf (fun _ _ => rfl)
      (fun o g l h => bv_condR_eq o.md (cmp_wf_md_bit7 h) (A o g l) (B o g l))
  case clz =>
    exact gives_of_toNat wideOf narrowOf narrowOf narrowOf (fun _ _ => rfl) (fun o g l _ => clzR_eq (A o g l))
  case popc =>
    exact gives_of_toNat wideOf narrowOf narrowOf narrowOf (fun _ _ => rfl) (fun o g l _ => popc_eq_cpop (A o g l))

end Sys2Proof.Machine
end

section
/-!
PROOF. Taking a precise exception where a handler can take it (R237 to R240), and the index registers' SETX and INCX (R78, R414,
R448): their values, the forms that do not decode, and PRIV on the steer thread.
-/

namespace Sys2Proof.Machine

open Sys2Proof.Safety

/-! ## The write of a trap area leaves the issue as it stands -/

theorem foldl_cur {β : Type} (f : State → β → State) (l : List β) (hf : ∀ s x, (f s x).cur = s.cur) :
    ∀ s, (l.foldl f s).cur = s.cur := by
  induction l with
  | nil => exact fun _ => rfl
  | cons x l ih => exact fun s => (ih (f s x)).trans (hf s x)

theorem abortRegion_cur (a q c f : Nat) (s : State) : (abortRegion a q c f s).cur = s.cur := by
  have h : (endRegion a q c f s).cur = s.cur := by unfold endRegion; split <;> rfl
  unfold abortRegion
  split <;> exact h

theorem conflicts_cur (own : Option Nat) (w : Bool) (l : Nat) (s : State) : (conflicts own w l s).cur = s.cur := by
  refine foldl_cur _ _ (fun s p => ?_) s
  split
  · exact abortRegion_cur ..
  · rfl

theorem applyWords_cur (op ty : Nat) (ws : List (Nat × DWord)) (s : State) : (applyWords op ty ws s).cur = s.cur := by
  refine foldl_cur _ _ (fun s p => ?_) s
  rfl

theorem foldReds_cur (l : Nat) (s : State) : (foldReds l s).cur = s.cur := by
  unfold foldReds
  split
  · rfl
  · refine foldl_cur _ _ (fun s c => ?_) s
    dsimp only
    split
    · exact (foldl_cur _ _ (fun _ _ => applyWords_cur ..) _).trans
        ((applyWords_cur ..).trans (applyWords_cur ..) : (takePushed ..).cur = s.cur)
    · exact applyWords_cur ..

theorem foldSums_cur (l : Nat) (s : State) : (foldSums l s).cur = s.cur := by
  refine foldl_cur _ _ (fun s ls => ?_) s
  unfold foldSumAt
  dsimp only
  split
  · rfl
  · simp only [putSumm]
    refine foldl_cur _ _ (fun s p => ?_) s
    rfl

theorem touchLine_cur (own : Option Nat) (w : Bool) (l : Nat) (s : State) : (touchLine own w l s).cur = s.cur :=
  (conflicts_cur ..).trans ((foldSums_cur ..).trans (foldReds_cur ..))

theorem claimLine_cur (conf l : Nat) (s : State) : (claimLine conf l s).cur = s.cur := by
  have h : (verifyTag conf l s).cur = s.cur := by unfold verifyTag; dsimp only; split <;> rfl
  unfold claimLine
  simp only
  split
  · rfl
  · split <;> exact h

theorem dirtyLine_cur (l : Nat) (s : State) : (dirtyLine l s).cur = s.cur := rfl

theorem l2Write_cur (own : Option Nat) (conf k : Nat) (bs : List Byte) (s : State) : (l2Write own conf k bs s).cur = s.cur := by
  unfold l2Write
  simp only [State.wrN_cur]
  split
  · refine foldl_cur _ _ (fun s l => ?_) s
    exact (dirtyLine_cur l _).trans ((claimLine_cur conf l _).trans (touchLine_cur own true l s))
  · rfl

theorem setPte_cur (l : Leaf) (m : Nat) (s : State) : (setPte l m s).cur = s.cur := by
  unfold setPte
  simp only
  split
  · rfl
  · unfold raceEmpty
    split
    · refine foldl_cur _ _ (fun _ _ => ?_) _
      rfl
    · rfl

theorem markAD_cur (c : Nat) (w : Bool) (t : Trans) (s : State) : (markAD c w t s).cur = s.cur := by
  have h : (cacheXlat c t s).cur = s.cur := by unfold cacheXlat; split <;> rfl
  unfold markAD
  simp only
  split <;> exact ((setPte_cur ..).trans (setPte_cur ..)).trans h

/-- Bringing the core's L1 copies and queued stores up to a write changes nothing but the core. -/
theorem patched_eq (a k n : Nat) (bs : List Byte) (s : State) :
    let t := if (s.grp a).role = .headwater then s else overtake (s.coreNo a) k n (patchL1 (s.coreNo a) k bs s)
    t.cur = s.cur ∧ t.groups = s.groups ∧ t.mem = s.mem := by
  intro t
  have hpatch : (patchL1 (s.coreNo a) k bs s).cur = s.cur ∧ (patchL1 (s.coreNo a) k bs s).mem = s.mem := by
    constructor
    · refine foldl_cur _ _ (fun s l => ?_) s
      dsimp only
      split <;> rfl
    · refine foldl_mem _ _ (fun s l => ?_) s
      dsimp only
      split <;> rfl
  simp only [t]
  split
  · exact ⟨rfl, rfl, rfl⟩
  · exact ⟨hpatch.1, patchL1_groups .., hpatch.2⟩

/-- The issue stands, and so does every group without an open region: a write at a home slice reaches only the groups whose
regions it aborts (R167). -/
structure KeepsUnopened (s u : State) : Prop where
  cur : u.cur = s.cur
  grp : ∀ a, (s.grp a).region = none → u.grp a = s.grp a

section
variable {s u v : State}

theorem KeepsUnopened.of_groups (hc : u.cur = s.cur) (hg : u.groups = s.groups) : KeepsUnopened s u :=
  ⟨hc, fun a _ => congrArg (Tbl.at · a) hg⟩

theorem KeepsUnopened.trans (h : KeepsUnopened s u) (k : KeepsUnopened u v) : KeepsUnopened s v :=
  ⟨k.cur.trans h.cur, fun a ha => (k.grp a (by rw [h.grp a ha, ha])).trans (h.grp a ha)⟩

theorem KeepsUnopened.foldl {β : Type} (f : State → β → State) (l : List β) (hf : ∀ s x, KeepsUnopened s (f s x)) :
    ∀ s, KeepsUnopened s (l.foldl f s) := by
  induction l with
  | nil => exact fun _ => .of_groups rfl rfl
  | cons x l ih => exact fun s => (hf s x).trans (ih (f s x))

/-- An abort changes the group of the open region alone. -/
theorem KeepsUnopened.abort (b q c f : Nat) (s : State) : KeepsUnopened s (abortRegion b q c f s) := by
  refine ⟨abortRegion_cur .., fun a ha => ?_⟩
  have h : (endRegion b q c f s).grp a = s.grp a := by
    unfold endRegion
    split
    · rfl
    · rename_i hr
      exact State.modGrp_grp_other _ _ _ (fun hab => by simp [← hab, ha] at hr)
  unfold abortRegion
  split <;> exact h

theorem KeepsUnopened.conflicts (own : Option Nat) (w : Bool) (l : Nat) (s : State) :
    KeepsUnopened s (conflicts own w l s) := by
  refine KeepsUnopened.foldl _ _ (fun s p => ?_) s
  split
  · exact KeepsUnopened.abort ..
  · exact .of_groups rfl rfl

theorem KeepsUnopened.l2Write (own : Option Nat) (conf k : Nat) (bs : List Byte) (s : State) :
    KeepsUnopened s (l2Write own conf k bs s) := by
  unfold Machine.l2Write
  dsimp only
  split
  · refine (KeepsUnopened.foldl _ _ (fun s l => ?_) s).trans (.of_groups rfl rfl)
    have hfold : KeepsUnopened s (foldLine l s) := .of_groups
      ((foldSums_cur ..).trans (foldReds_cur ..)) ((foldSums_groups ..).trans (foldReds_groups ..))
    have hclaim (u : State) : KeepsUnopened u (dirtyLine l (claimLine conf l u)) := .of_groups
      ((dirtyLine_cur l _).trans (claimLine_cur conf l u)) ((dirtyLine_groups l _).trans (claimLine_groups conf l u))
    exact (hfold.trans (KeepsUnopened.conflicts own true l _)).trans (hclaim _)
  · exact .of_groups rfl rfl

/-- Writing a fault record with nothing after it leaves the issue and every group without an open region. -/
theorem KeepsUnopened.writeArea (a key conf : Nat) (tr : Option Trans) (r : List Byte) (s : State) :
    KeepsUnopened s (writeArea a key conf tr r [] s) := by
  have hmark : KeepsUnopened s (match tr with | some tr => markAD (s.ctxNo a) true tr s | none => s) := by
    cases tr with
    | none => exact .of_groups rfl rfl
    | some tr => exact .of_groups (markAD_cur ..) (markAD_groups ..)
  have hpatch (w : State) := patched_eq a key (r ++ []).length (r ++ []) w
  unfold Machine.writeArea
  exact (hmark.trans (KeepsUnopened.l2Write ..)).trans (.of_groups (hpatch _).1 (hpatch _).2.1)

end

/-- The record stands in the trap area. -/
theorem writeArea_same (a key conf : Nat) (tr : Option Trans) (r : List Byte) (s : State) :
    (writeArea a key conf tr r [] s).rdN key r.length = r := by
  have hpatch (w : State) := (patched_eq a key (r ++ []).length (r ++ []) w).2.2
  refine Eq.trans ?_ (l2Write_same none conf key r (match tr with | some tr => markAD (s.ctxNo a) true tr s | none => s))
  exact congrArg (fun m => (List.range r.length).map (fun i => Tbl.at m (key + i))) (hpatch _)

/-! ## The fault record (R240) -/

theorem rdN_add (s : State) (k m n : Nat) : s.rdN k (m + n) = s.rdN k m ++ s.rdN (k + m) n := by
  simp [State.rdN, List.range_add, Nat.add_assoc]

/-- A fault record begins with its PC and its code. -/
theorem faultRecord_eq_append (s : State) (a : Nat) (pc : DWord) (d : Bool) (t : TrapInfo) :
    ∃ r, faultRecord s a pc d t = leBytes 8 pc.toNat ++ (leBytes 1 t.code.toNat ++ r) := by
  unfold faultRecord
  simp only [List.append_assoc]
  exact ⟨_, rfl⟩

/-- Where a fault record stands, its PC and its code are read at its first nine bytes. -/
theorem rdN_of_faultRecord {s u : State} {k a : Nat} {pc : DWord} {d : Bool} {t : TrapInfo}
    (h : u.rdN k (faultRecord s a pc d t).length = faultRecord s a pc d t) :
    u.rdN k 8 = leBytes 8 pc.toNat ∧ u.rdN (k + 8) 1 = leBytes 1 t.code.toNat := by
  obtain ⟨r, hr⟩ := faultRecord_eq_append s a pc d t
  rw [hr] at h
  simp only [List.length_append, leBytes_length, rdN_add] at h
  obtain ⟨hpc, hrest⟩ := List.append_inj h (by simp [State.rdN, leBytes_length])
  exact ⟨hpc, (List.append_inj hrest (by simp [State.rdN, leBytes_length])).1⟩

/-! ## The group that has entered a trap (R237, R238) -/

theorem getLsbD_maskOf (f : Nat → Bool) (l : Nat) : (maskOf f).getLsbD l = (decide (l < 64) && f l) := by
  have h (n : Nat) : ((List.range n).foldl (fun m l => if f l then m ||| (1#64 <<< l) else m) 0#64).getLsbD l
      = (decide (l < n) && decide (l < 64) && f l) := by
    induction n with
    | zero => simp
    | succ n ih =>
      rw [List.range_succ, List.foldl_append]
      have hbit : (1#64 <<< n).getLsbD l = (decide (l < 64) && decide (l = n)) := by
        by_cases hl : l < 64
        · rw [← laneBit, laneBit_getLsbD n l hl, decide_eq_true hl, Bool.true_and]
        · simp [hl]
      simp only [List.foldl_cons, List.foldl_nil]
      by_cases hn : l = n
      · subst hn
        by_cases hf : f l = true <;> simp [hf, ih, hbit]
      · split <;> simp [ih, hbit, hn, show l < n + 1 ↔ l < n by omega]
  exact (h 64).trans (by simp)

/-- An update of the lanes of a mask leaves which of the others are live. -/
theorem Group.live_modLanes_others (g : Group) (m : Mask) (f : Lane → Lane) :
    (g.modLanes m f).live &&& ~~~ m = g.live &&& ~~~ m := by
  apply BitVec.eq_of_getLsbD_eq
  intro l hl
  simp only [BitVec.getLsbD_and, BitVec.getLsbD_not, Group.live, Group.lanesWith, getLsbD_maskOf, Group.lane_modLanes]
  by_cases hm : m.getLsbD l = true <;> simp [hm]

theorem Group.regs_trapped (lanes : Mask) (tpc recPc recd : DWord) (d : Bool) (op : Nat) (t : TrapInfo) (g : Group) :
    SameRegs g (g.trapped lanes tpc recPc recd d op t) := by
  constructor <;> intros <;>
    simp [Group.trapped, Group.unfinish, Group.vreg, Group.sreg, Group.preg, Group.xreg]

/-! ## A precise exception where a handler takes it (R237 to R240) -/

/-- Where a handler takes it, trap entry writes the record and puts the issuer's group into the trap. -/
theorem enterTrap_eq {s : State} (h : canTrap s = true) {t : TrapInfo} (hspecial : t.special = []) :
    ∃ u va, KeepsUnopened s u ∧
      u.rdN (areaKey s) (faultRecord s s.cur.agent s.cur.pc false t).length = faultRecord s s.cur.agent s.cur.pc false t ∧
      enterTrap s.cur.agent s.cur.act s.cur.pc s.cur.pc false 0 t s
        = u.modGrp s.cur.agent (Group.trapped s.cur.act s.cur.pc s.cur.pc va false 0 t) := by
  simp only [canTrap, Bool.and_eq_true] at h
  obtain ⟨⟨hhandler, -⟩, harea⟩ := h
  cases hk : trapArea s s.cur.agent s.cur.pc with
  | bad => simp [hk] at harea
  | wait => simp [hk] at harea
  | at_ va key conf tr =>
    have hnoted : KeepsUnopened s (if (s.grp s.cur.agent).role = .headwater then s
        else noteFault (s.ctxNo s.cur.agent) 0 s) := by
      split
      · exact .of_groups rfl rfl
      · exact .of_groups rfl rfl
    refine ⟨_, va, hnoted.trans (KeepsUnopened.writeArea s.cur.agent key conf tr
      (faultRecord s s.cur.agent s.cur.pc false t) _), ?_, ?_⟩
    · simp only [areaKey, hk]
      exact writeArea_same ..
    · unfold enterTrap
      simp only [State.grp_agent, hhandler, Bool.true_eq_false, if_false, Bool.false_eq_true, hk, hspecial, if_true]
      rfl

/-- A precise fault that a handler can take is taken: cause and PC, the lanes, and the record are as R237 to R240 say, and no
register changes. -/
theorem clkPass_raise_trapped {s : State} (h : canTrap s = true) {t : TrapInfo} (hspecial : t.special = [])
    (hafter : t.after = false) (nx : DWord) (m : Mask) :
    Trapped t.code s.cur.pc s (clkPass s.cur.act (raise nx m t s)) := by
  have hregion : s.me.region = none := by
    simp only [canTrap, Bool.and_eq_true] at h
    simpa using h.1.2
  obtain ⟨u, va, hkeeps, hrec, henter⟩ := enterTrap_eq h hspecial
  have hme : u.grp s.cur.agent = s.me := hkeeps.grp _ hregion
  have hraise : raise nx m t s = u.modGrp s.cur.agent (Group.trapped s.cur.act s.cur.pc s.cur.pc va false 0 t) := by
    simp [raise, hregion, hafter, henter]
  rw [hraise]
  generalize hv : u.modGrp s.cur.agent (Group.trapped s.cur.act s.cur.pc s.cur.pc va false 0 t) = v
  have hvcur : v.cur = s.cur := by rw [← hv]; exact hkeeps.cur
  have hvme : v.me = s.me.trapped s.cur.act s.cur.pc s.cur.pc va false 0 t := by
    rw [State.me, hvcur, ← hv, State.modGrp_grp_same, hme]
  have hmem : (clkPass s.cur.act v).mem = u.mem := by
    rw [(clkPass_machine s.cur.act v).1.mem, ← hv]; rfl
  have hread (k n : Nat) : (clkPass s.cur.act v).rdN k n = u.rdN k n := by simp only [State.rdN, hmem]
  obtain ⟨hpc, hcode⟩ := rdN_of_faultRecord hrec
  have ht : (clkPass s.cur.act v).me
      = (s.me.trapped s.cur.act s.cur.pc s.cur.pc va false 0 t).passed s.cur.act s.cur.others := by
    rw [clkPass_me, hvme, hvcur]
  generalize clkPass s.cur.act v = w at *
  exact {
    cause := by rw [ht]; exact ⟨rfl, rfl, rfl⟩
    pc := by rw [ht]; rfl
    base := by rw [ht]; simp [Group.passed, Group.trapped, Group.unfinish]
    lanes := by rw [ht]; exact ⟨rfl, Group.live_modLanes_others _ _ _⟩
    goes := fun l hl => by
      rw [ht, (Group.lane_passed ..).1, (Group.lane_passed ..).2]
      exact Group.lane_trapped _ _ _ _ _ _ _ _ l hl
    recPc := (hread ..).trans hpc
    recCode := (hread ..).trans hcode
    regs := by rw [ht]; exact (Group.regs_trapped ..).same (Group.regs_passed ..)
    fpflags := by rw [ht]; simp [Group.passed, Group.trapped, Group.unfinish] }

/-- An instruction that its issuer may not run takes the fault at decode. -/
theorem perform_traps_of_issuerFault {opc : BitVec 8} {o : Body} {s : State} {c : BitVec 8} (k : State → Res)
    (hf : issuerFault s opc o = some c) (h : canTrap s = true) :
    ∃ t, perform opc o k s = .next t ∧ Trapped c s.cur.pc s t := by
  refine ⟨_, ?_, clkPass_raise_trapped h (t := { code := c }) rfl rfl (nextPc s.cur.pc o.len) s.cur.act⟩
  simp [perform, performS, hf]

/-! ## Index registers (R78, R414, R448) -/

/-- An X register made from an INDEX and another's LEN and BASE keeps the other's low half (R78). -/
theorem xMake_eq_append (i : Nat) (x : Word) :
    xMake i (xLen x) (xBase x) = BitVec.ofNat 16 i ++ x.extractLsb' 0 16 := by
  apply BitVec.eq_of_toNat_eq
  rw [toNat_append_eq_add]
  simp [xMake, xLen, xBase, bits, Nat.add_assoc]
  omega

/-- SETX's new value by its modifier: the source, its low half as INDEX, or its low half as LEN and BASE (R448). -/
theorem setxVal_eq (md : BitVec 8) (x v : Word) :
    setxVal md.toNat x v = if md = 0 then v else if md = 1 then v.extractLsb' 0 16 ++ x.extractLsb' 0 16
      else (0 : BitVec 16) ++ v.extractLsb' 0 16 := by
  have hmd (k : BitVec 8) : md.toNat = k.toNat ↔ md = k := BitVec.toNat_inj
  unfold setxVal
  split
  · rename_i h
    rw [if_pos ((hmd 0).1 h)]
  · rename_i h
    rw [if_neg (fun h0 => by simp [h0] at h), if_pos ((hmd 1).1 h)]
    exact xMake_eq_append v.toNat x
  · rename_i h0 h1
    rw [if_neg (fun h => h0 ((hmd 0).2 h)), if_neg (fun h => h1 ((hmd 1).2 h))]
    exact xMake_eq_append 0 v

theorem word_halves (x : Word) : x.extractLsb' 16 16 ++ x.extractLsb' 0 16 = x := by
  apply BitVec.eq_of_toNat_eq
  rw [toNat_append_eq_add]
  simp [Nat.shiftRight_eq_div_pow]
  omega

/-- INCX's step: the low half of the source as a signed number. -/
theorem toS_low_half (v : Word) : toS 16 v.toNat = (v.extractLsb' 0 16).toInt := by
  rw [← toS_toNat]
  simp [toS]

/-- INCX's new value: INDEX and the step summed, in the window or wrapped (R414). -/
theorem incxVal_eq (md : BitVec 8) (x v : Word) :
    incxVal md.toNat x v =
      (if md = 1 then (if (x.extractLsb' 8 8).toNat = 0 then BitVec.ofNat 16 (x.extractLsb' 16 16).toNat
          else BitVec.ofInt 16 ((((x.extractLsb' 16 16).toNat : Int) + (v.extractLsb' 0 16).toInt)
            % ((x.extractLsb' 8 8).toNat : Int)))
        else BitVec.ofInt 16 (((x.extractLsb' 16 16).toNat : Int) + (v.extractLsb' 0 16).toInt)) ++ x.extractLsb' 0 16 := by
  have hindex : xIndex x = (x.extractLsb' 16 16).toNat := bits_eq_extractLsb' x rfl
  have hlen : xLen x = (x.extractLsb' 8 8).toNat := bits_eq_extractLsb' x rfl
  have hmd : md.toNat = 1 ↔ md = 1 := BitVec.toNat_inj (y := 1#8)
  simp only [incxVal, xMake_eq_append]
  simp only [toS_low_half, hindex, hlen, hmd]
  by_cases h1 : md = 1
  · rw [if_pos h1, if_pos h1]
    by_cases h0 : (x.extractLsb' 8 8).toNat = 0
    · rw [if_pos h0, if_pos h0, BitVec.ofNat_toNat, BitVec.setWidth_eq, word_halves]
    · rw [if_neg h0, if_neg h0, ← BitVec.ofInt_natCast, Int.toNat_of_nonneg (Int.emod_nonneg _ (by omega))]
  · rw [if_neg h1, if_neg h1, wrapN_eq_ofInt, BitVec.ofNat_toNat, BitVec.setWidth_eq]

/-- An instruction that writes its destination lane by lane, from sources read as they were. -/
theorem gives_of_laneOp {i : Body → Instr} {opc : BitVec 8} {pair : Body → Bool} {f v : Body → Group → Nat → DWord}
    (hx : ∀ o s, exec (i o) s = perform opc o (fun s => .ok (laneOp o (pair o) (f o) s)) s)
    (hf : ∀ o s, f o (entered o s).me = v o s.me) : Gives i opc pair v := by
  intro o s _ hi
  obtain ⟨t, ht, hw⟩ := writes_of_laneOp (k := fun s => .ok (laneOp o (pair o) (f o) s)) hi rfl
  exact ⟨t, (hx o s).trans ht, hf o s ▸ hw⟩

@[simp] theorem entered_xreg (o : Body) (s : State) (n l : Nat) : (entered o s).me.xreg n l = s.me.xreg n l := by
  rw [entered_me]; simp [Group.setPcs, Group.xreg]

/-! ## The forms of SETX and INCX, and who may issue them (R47, R353, R359) -/

theorem bodyOf_md {f : Fields} {o : Body} (h : bodyOf f = some o) : o.md = f.md := by
  unfold bodyOf at h
  simp only [Option.bind_eq_bind, Option.bind_eq_some_iff] at h
  obtain ⟨d, -, c, -, h⟩ := h
  split at h
  · split at h
    · split at h
      · split at h
        · cases h; rfl
        · cases h
      · obtain ⟨a, -, h⟩ := Option.bind_eq_some_iff.1 h
        cases h; rfl
    · cases h
  · obtain ⟨a, -, h⟩ := Option.bind_eq_some_iff.1 h
    obtain ⟨b, -, h⟩ := Option.bind_eq_some_iff.1 h
    cases h; rfl

/-- A modifier that the form of an opcode does not list is UNDEF (R353, R359). -/
theorem decodeWords_eq_none {w1 w2 w3 : Word} {l : Len} (hl : lenOf w1 = some l)
    (hm : ∀ cc, (shape (w1.extractLsb' 2 8) (Fields.ofWords l w1 w2 w3).md cc).mods = false) :
    decodeWords w1 w2 w3 = none := by
  simp only [decodeWords, hl, Option.bind_eq_bind, Option.bind_eq_none_iff]
  intro o ho
  have hbad : bodyOk (w1.extractLsb' 2 8) o ≠ true := fun hok => by
    have hmods := bodyOk_mods hok
    rw [bodyOf_md ho, hm] at hmods
    cases hmods
  exact if_neg hbad

theorem bodyOk_dst {opc : BitVec 8} {o : Body} (h : bodyOk opc o = true) :
    (shape opc o.md o.cc).dst.fits true o.dst = true := by
  simp only [bodyOk, Bool.and_eq_true] at h
  tauto

/-- The modifiers that SETX and INCX list (R414, R448). -/
theorem index_mods {opc md cc : BitVec 8} (h : opc = 0x14 ∧ 2 < md.toNat ∨ opc = 0x17 ∧ 1 < md.toNat) :
    (shape opc md cc).mods = false := by
  obtain ⟨rfl, h⟩ | ⟨rfl, h⟩ := h
  · show among md [0, 1, 2] = false
    simp [among]; omega
  · show among md [0, 1] = false
    simp [among]; omega

/-- A destination of kind X is an X register. -/
theorem fits_x_vec {d : Opd} (h : Kind.x.fits true d = true) : d.vec = true := by
  cases d <;> simp_all [Kind.fits, Opd.vec]

/-- The steer thread may run no instruction with a destination of class 0 (R47, R359). -/
theorem issuerFault_steer_of_vec {opc : BitVec 8} {o : Body} {s : State} (hr : s.me.role = .steer)
    (hopc : opc ≠ 0xB3) (hv : o.dst.vec = true) : issuerFault s opc o = some cPRIV := by
  have hn : opc.toNat ≠ 0xB3 := fun h => hopc (BitVec.eq_of_toNat_eq h)
  simp [issuerFault, hr, hn, hasVector, hv]

/-- A form with an X register for its destination, which the steer thread lacks (R47), is PRIV there. -/
theorem issuerFault_steer_of_x {opc : BitVec 8} {o : Body} {s : State} (hok : bodyOk opc o = true)
    (hx : (shape opc o.md o.cc).dst = .x) (hopc : opc ≠ 0xB3) (hr : s.me.role = .steer) :
    issuerFault s opc o = some cPRIV := by
  have hd := bodyOk_dst hok
  rw [hx] at hd
  exact issuerFault_steer_of_vec hr hopc (fits_x_vec hd)

/-- Settles O10: SETX and INCX are lane operations whose values are the spec's fields side by side; their forms list no other
modifier; and their destination is a register that the steer thread lacks, so the fault at decode is taken there. -/
theorem indexRegisters : Obligations.IndexRegisters := by
  unfold Obligations.IndexRegisters
  refine ⟨?setx, ?incx, ?undefined, ?steer⟩
  case setx =>
    refine gives_of_laneOp (fun _ _ => rfl) (fun o s => ?_)
    funext l
    simp only [entered_xreg, entered_opv, setxVal_eq]
    rfl
  case incx =>
    refine gives_of_laneOp (fun _ _ => rfl) (fun o s => ?_)
    funext l
    simp only [entered_xreg, entered_opv, incxVal_eq]
    rfl
  case undefined =>
    intro w1 w2 w3 hlen hmd
    have hnone (l : Len) (hl : lenOf w1 = some l) (hw2 : (Fields.ofWords l w1 w2 w3).md = w2.extractLsb' 16 8) :
        decodeWords w1 w2 w3 = none :=
      decodeWords_eq_none hl (fun cc => index_mods (by rw [hw2]; exact hmd))
    obtain h | h := hlen
    · exact hnone .w2 (by rw [lenOf, h]; rfl) rfl
    · exact hnone .w3 (by rw [lenOf, h]; rfl) rfl
  case steer =>
    rintro o s i (rfl | rfl) hwf hr h
    · exact (perform_traps_of_issuerFault _ (issuerFault_steer_of_x hwf rfl (by decide) hr) h :
        ∃ t, execSetx o s = .next t ∧ _)
    · exact (perform_traps_of_issuerFault _ (issuerFault_steer_of_x hwf rfl (by decide) hr) h :
        ∃ t, execIncx o s = .next t ∧ _)

end Sys2Proof.Machine
end
